-- ==== Sys2Proof/Word.lean ====
section
/-! DEFINITION. The word types of the Arhal A6 (R4, R6, R87) and the one shape of a sparse table, on which memory,
register files and every other numbered store of the machine are held. -/

namespace Sys2Proof

/-- One byte of memory. -/
abbrev Byte := BitVec 8

/-- The 32-bit word of a vector register or an m register. -/
abbrev Word := BitVec 32

/-- The 64-bit word of an s register, an address or a control register. -/
abbrev DWord := BitVec 64

/-- A sparse table from numbers to values: the listed keys rise strictly, and no listed entry holds what an unlisted
key reads as. The operations and the check of this form stand in Machine/Map.lean. -/
abbrev FMap (α : Type) := List (Nat × α)

end Sys2Proof
end

