-- ==== Sys2Proof/Config.lean ====
section
/-! DEFINITION. What the spec leaves open: free values, each an opaque constant that no proof can evaluate, applied to the
counter `tick` of State or to the operands it depends on. -/

namespace Sys2Proof.Config

/-- Cycles by which SR_CLK advances, beyond one, at a turn of the schedule (R38, R246; log 3). -/
opaque stepCycles : Nat → Nat

/-- Which of the words that a location has held since its command was issued an overlapping gather or scatter reads, by turn
and location, or under `.det` by the word's place in the command (R84, R236; log 10). -/
opaque gatherPick : Nat → Nat → Nat

/-- Whether a Barrow writes a progress chit at a block boundary (Table 11.23; log 10). -/
opaque progressChit : Nat → Bool

/-- The importance of a light-tree node whose bounds, power or point are not finite, where R376 states none, by the node's bytes and the
point, so that it never depends on issue order (R84): a fraction, or none for +∞ (log 20). -/
opaque lightImportance : List (BitVec 8) → List (BitVec 32) → Option (Nat × Nat)

/-- Whether the over-current clamp withholds the issue slot of a turn (R411; log 3). -/
opaque clampHolds : Nat → Bool

/-- The 32-byte sectors, beyond one and modulo 8, that the bytes of a crate take compressed (R462; log 70). -/
opaque crateSectors : List (BitVec 8) → Nat

/-- What a read of a register of access W, or of an address of the register space that holds no register, returns, by turn and
address (R448; log 26). -/
opaque openRegister : Nat → Nat → BitVec 64

/-- A field of a report record to which no rule gives a value, by the record's serial number and the field's offset (R427; log 29). -/
opaque openRecord : Nat → Nat → BitVec 64

/-- Whether an ML-DSA-87 signature over an image verifies under a public key: image, signature, key (R464; log 7). -/
opaque signatureOk : List Byte → List Byte → List Byte → Bool

/-- The digest of the public key in the fuses (R464; log 7). -/
opaque fuseDigest : List Byte

/-- The least security version in the fuses (R464; log 7). -/
opaque fuseVersion : Nat

/-- An ML-DSA-87 signature under the device identity key (R466; log 7). -/
opaque sign : List Byte → List Byte

/-- The certificate chain of slot 0 (R466; log 7). -/
opaque certChain : List Byte

/-- A key of the package's random bit generator or of a secure session (R457, R466; log 7). -/
opaque drawKey : Nat → List Byte

end Sys2Proof.Config
end

