-- ==== Sys2Proof/Syntax.lean ====
section
/-! DEFINITION. The abstract syntax: the fields of an instruction word as a reader of Tables 7.2 to 7.4 names them, the
parties of the machine, and one constructor for every row of the opcode table. -/

namespace Sys2Proof

/-- The type codes of Table 7.5. The five codes 0x1B to 0x1F are illegal and have no constructor. -/
inductive Ty where
  | b32 | s32 | n32 | f32 | bf16x2 | f16x2 | e4m3x4 | e5m2x4 | e3m2x4 | e2m3x4 | e2m1x8 | s8x4 | sc10 | s64 | n64
  | none | s8 | s16 | n8 | n16 | bf16 | f16 | e4m3 | e5m2 | e3m2 | e2m3 | e2m1
  deriving DecidableEq, Repr

/-- A guard (R135): `pred` 7 means unguarded, `neg` inverts. -/
structure Guard where
  neg  : Bool
  pred : BitVec 3
  deriving DecidableEq, Repr

/-- A field-form instruction (R128 to R131), the short form's implied values filled in (R132). `interlock` is VER 0b01. -/
structure FForm where
  interlock : Bool
  d    : BitVec 7
  a    : BitVec 7
  b    : BitVec 7
  look : BitVec 4
  grd  : Guard
  c    : BitVec 7
  wc   : BitVec 3
  ty   : Ty
  mod  : BitVec 9
  deriving DecidableEq, Repr

/-- An immediate-form instruction (R129, R132); `imm` is the whole 32-bit immediate. -/
structure IForm where
  interlock : Bool
  d    : BitVec 7
  look : BitVec 4
  grd  : Guard
  ty   : Ty
  imm  : BitVec 32
  deriving DecidableEq, Repr

/-- A party that issues instructions (R247). `lane` is a thread that replays a parked access and runs alone to its
fragment's convergence point (R426). Teams are named by the serial number of their residency. -/
inductive Party where
  | frag (team fid : Nat)
  | lane (team row pos : Nat)
  | ustream (team : Nat)
  | mstream (team : Nat)
  deriving DecidableEq, Repr

/-- An access made by a host agent, a management core or another device of the domain (R247, R250, R451). -/
inductive ExtOp where
  | read (n : Nat)
  | write (bytes : List Byte)
  | fetchAdd (n : Nat) (v : DWord)
  | swap (n : Nat) (v : DWord)
  | cas (n : Nat) (old new : DWord)
  deriving DecidableEq, Repr

/-- What an arbiter's request asks for (Table 21.6): tokens, or, at a memory controller, the transfer of the crate at a device physical
address (R462). -/
inductive ArbWork where
  | tokens (n : Nat)
  | crate (pa : Nat)
  deriving DecidableEq, Repr

/-- A Rota bind record (Table 21.5). `rsv` is its reserved bytes 19 to 31. -/
structure BindRec where
  lid    : Word
  team0  : Word
  nteam  : Word
  die    : Byte
  core0  : Byte
  ncore  : Byte
  bflags : Byte
  maxres : BitVec 16
  err    : Byte
  rsv    : BitVec 104
  deriving DecidableEq, Repr

/-- A firmware image as the boot flash gives it (R464): the die that is to accept it, its measurement index (R465), its
bytes, its signature and public key, and its security version. -/
structure FwImage where
  die     : Nat
  index   : Nat
  bytes   : List Byte
  sig     : List Byte
  key     : List Byte
  version : Nat
  deriving DecidableEq, Repr

/-- A PCI Express function on a host's port (R450): function 0 is the PF, the others the VFs, each by its pitch. -/
structure HostFn where
  port     : Nat
  function : Nat
  deriving DecidableEq, Repr

/-- A physical address as the management core of a die reaches it (R247). -/
structure CoreAddr where
  die : Nat
  pa  : Nat
  deriving DecidableEq, Repr

/-- Where a fabric request comes in, and from which device (R35, R460). -/
structure FabSrc where
  port : Nat
  dev  : Nat
  deriving DecidableEq, Repr

/-- A device that has become unreachable, and the parties that have made writes to it which it has not acknowledged (R461). -/
structure LostDev where
  dev     : Nat
  unacked : List Party
  deriving DecidableEq, Repr

/-- The devices of the Ewearvia domain, and the FTAGs that frames of the other devices admit, each a device, a frame and its tag (R460). -/
structure Domain where
  members : List Nat
  tags    : List (Nat × Nat × BitVec 16)
  deriving DecidableEq, Repr

/-- Where an uncorrectable error strikes (Table 1.9). -/
inductive EccSite where
  | regsOrTeamMem (team : Nat)
  | arrayStore (team : Nat)
  | cacheLine (line : Nat)
  | l2OrHbm (pa : Nat)
  deriving DecidableEq, Repr

/-- An SPDM request (R466). -/
inductive SpdmReq where
  | measurements (nonce : DWord)
  | challenge (nonce : DWord)
  | certificate
  | keyExchange (port : Nat)
  deriving DecidableEq, Repr

/-- The 203 opcodes of Table 7.10 (row and U-stream code) and Table 7.12 (M-stream code). -/
inductive Opc where
  | nop | skip | bra | brx | call | ret | join | exit | yield | wait | brk | trap | sr | srw | fresume | sysc
  | smov | sli | slk | sldc | sadd | ssub | smul | smulh | sand | sor | sxor | snot | sshl | sshr | ssar
  | smin | smax | scmp | ssel | sbfe | sbfi | sclz | spopc | sld | sst | sldt | sstt | vmov | vli | vlk
  | vbcs | vadd | vsub | vmul | vmulh | vmad | vabs | vneg | vmin | vmax | vand | vor | vxor | vnot | vandn
  | vshl | vshr | vsar | vrol | vclz | vctz | vpopc | vbrev | vbfe | vbfi | vcmp | vsel | vdot4 | vtag | pand
  | por | pxor | pnot | pset | pget | vfadd | vfsub | vfmul | vffma | vfmin | vfmax | vfabs | vfneg | vfcmp
  | vfclass | vfrnd | vrcp | vrsq | vsqrt | vdiv | vexp2 | vlog2 | vsinpi | vcospi | vcvt | vpack | vunpk
  | vscl | vfdot2 | vpfma | vpfadd | vpfmul | vshfl | vbcast | vred | vscan | vmatch | vcompact | vballot
  | vvote | vrank | vfirst | ld | st | ldt | stt | ldp | stp | fe | atom | atomt | atomp | cas | cast | fence
  | pref | cinv | fetch | rdvinit | rdvarr | rdvwait | rdvtest | qpush | qpop | qtry | qcnt | bcp | btile
  | bgat | bsct | bred | bfill | bwait | bpoll | rqbegin | rqstep | rqcommit | rqskip | rqresume | rqsave
  | rqload | rqget | rtvis | rsvld | rsvst | rsvupd | rsvmrg | rsvnorm | rng | ltw | drlld | drlnext | drlred
  | drlend | drlsave | drlrst | graft | gftflush | mrg | glean | emit | launch | recget | mnop | mli | madd
  | mbra | mloop | mend | mqpop | marr | mwait | mleave | mwb | mast | mzero | mscl | mma | mmasp | mmak
  | mscout | msieve | mmaskld | mdrain | mcvt | msr | mfence
  deriving DecidableEq, Repr

/-- Every row of the opcode table: the 203 instructions by their decoded word fields, then the steps of the hardware
and of the outside parties by their subject. The events that the model itself builds stand before the 245th constructor, past which
Lean compiles no constructor that has fields. -/
inductive Instr where
  /-- R167. Does nothing. -/
  | nop (f : FForm)
  /-- R125. In threads whose guard is true, runs the next 1 to 7 instructions of the clause as if their guards were false. -/
  | skip (i : IForm)
  /-- R168. Sends threads with a true guard to a clause header relative to the current clause; the fragment may split. -/
  | bra (i : IForm)
  /-- R170. Jumps each thread to a byte offset of the code image held in a register; threads with different targets form separate fragments. -/
  | brx (f : FForm)
  /-- R168. Branches like bra and pushes the address of the next clause header onto each transferring thread's return stack; STK on overflow. -/
  | call (i : IForm)
  /-- R169. Pops each thread's return stack and continues there; STK when the stack is empty. -/
  | ret (f : FForm)
  /-- R61. Waits until every live thread of the home row stands at the same join, then re-forms the home row's fragment. -/
  | join (f : FForm)
  /-- R62. The thread leaves its fragment for good and its pending writes are discarded; in the U-stream, retires the U-stream. -/
  | exit (f : FForm)
  /-- R172. Acts as a yield hint on the current clause. -/
  | yield (f : FForm)
  /-- R172. Holds the thread until every selected wait counter is zero. -/
  | wait (i : IForm)
  /-- R173. Takes trap BRK with its immediate, which may be resumed. -/
  | brk (i : IForm)
  /-- R173. Takes trap TRAPI with its immediate, which may be resumed. -/
  | trap (i : IForm)
  /-- R174. Reads a numbered status register into a vector register or pair, or into an s register; some reads take DET under .det. -/
  | sr (i : IForm)
  /-- R175. Writes SR_RMODE or SR_RNGKEY from a register; a write to a read-only register takes PROT. -/
  | srw (i : IForm)
  /-- R432. Waits until the episode's token is signalled and every live thread of the episode stands at a fresume, then returns each thread to its resume point. -/
  | fresume (f : FForm)
  /-- R177. Writes a service request to the die's service ring and waits for the reply, once per home row. -/
  | sysc (i : IForm)
  /-- R178. Copies one uniform register to another. -/
  | smov (f : FForm)
  /-- R182. Writes the immediate to an s register, widened by its type. -/
  | sli (i : IForm)
  /-- R182. Reads a word or doubleword from the kernel data area at 4 times the index. -/
  | slk (i : IForm)
  /-- R183. Reads from the data area at byte offset sa + sb and extends the value to 64 bits. -/
  | sldc (f : FForm)
  /-- R178. Adds two uniform values in type T, wrapping or saturating. -/
  | sadd (f : FForm)
  /-- R178. Subtracts two uniform values in type T. -/
  | ssub (f : FForm)
  /-- R178. Multiplies two uniform values in type T, keeping the low part. -/
  | smul (f : FForm)
  /-- R178. Writes the high half of the product of two uniform values. -/
  | smulh (f : FForm)
  /-- R178. Bitwise AND of two uniform registers. -/
  | sand (f : FForm)
  /-- R178. Bitwise OR of two uniform registers. -/
  | sor (f : FForm)
  /-- R178. Bitwise exclusive OR of two uniform registers. -/
  | sxor (f : FForm)
  /-- R178. Bitwise NOT of a uniform register. -/
  | snot (f : FForm)
  /-- R179. Shifts a uniform value left with zero fill; a count of w or more gives 0. -/
  | sshl (f : FForm)
  /-- R179. Shifts a uniform value right with zero fill. -/
  | sshr (f : FForm)
  /-- R179. Shifts a uniform value right, filling with its top bit. -/
  | ssar (f : FForm)
  /-- R178. Writes the lesser of two uniform values in type T. -/
  | smin (f : FForm)
  /-- R178. Writes the greater of two uniform values in type T. -/
  | smax (f : FForm)
  /-- R181. Compares two uniform values and writes the result to a predicate of the row's member threads. -/
  | scmp (f : FForm)
  /-- R181. Selects one of two uniform values by a predicate. -/
  | ssel (f : FForm)
  /-- R180. Extracts a bit field from a uniform value. -/
  | sbfe (f : FForm)
  /-- R180. Inserts a bit field into a uniform value. -/
  | sbfi (f : FForm)
  /-- R178. Counts the leading zeros of a uniform value. -/
  | sclz (f : FForm)
  /-- R178. Counts the set bits of a uniform value. -/
  | spopc (f : FForm)
  /-- R184. Uniform load from global memory at sa + sb. -/
  | sld (f : FForm)
  /-- R184. Uniform store to global memory at sa + sc. -/
  | sst (f : FForm)
  /-- R184. Uniform load from team memory, without full/empty. -/
  | sldt (f : FForm)
  /-- R184. Uniform store to team memory, without full/empty. -/
  | sstt (f : FForm)
  /-- R187. Copies a vector register, or a pair, with its tag. -/
  | vmov (f : FForm)
  /-- R188. Writes the immediate with the tag of T. -/
  | vli (i : IForm)
  /-- R188. Reads a data-area word, or pair, by index into a vector register with the tag of T. -/
  | vlk (i : IForm)
  /-- R188. Broadcasts the home row's s register into a vector register with the tag of T. -/
  | vbcs (f : FForm)
  /-- R185. Integer vector addition in T, wrapping or saturating. -/
  | vadd (f : FForm)
  /-- R185. Integer vector subtraction in T. -/
  | vsub (f : FForm)
  /-- R185. Integer vector multiplication, low part. -/
  | vmul (f : FForm)
  /-- R185. High half of an integer vector product. -/
  | vmulh (f : FForm)
  /-- R185. Integer vector a x b + c. -/
  | vmad (f : FForm)
  /-- R185. Integer absolute value. -/
  | vabs (f : FForm)
  /-- R185. Integer negation. -/
  | vneg (f : FForm)
  /-- R185. Integer minimum. -/
  | vmin (f : FForm)
  /-- R185. Integer maximum. -/
  | vmax (f : FForm)
  /-- R186. Bitwise AND; result tagged b32. -/
  | vand (f : FForm)
  /-- R186. Bitwise OR; result tagged b32. -/
  | vor (f : FForm)
  /-- R186. Bitwise exclusive OR; result tagged b32. -/
  | vxor (f : FForm)
  /-- R186. Bitwise NOT; result tagged b32. -/
  | vnot (f : FForm)
  /-- R186. a AND NOT b; result tagged b32. -/
  | vandn (f : FForm)
  /-- R179. 32-bit vector shift left. -/
  | vshl (f : FForm)
  /-- R179. 32-bit vector logical shift right. -/
  | vshr (f : FForm)
  /-- R179. 32-bit vector arithmetic shift right. -/
  | vsar (f : FForm)
  /-- R179. Rotates left by the count mod 32. -/
  | vrol (f : FForm)
  /-- R186. Counts leading zeros, tag n32. -/
  | vclz (f : FForm)
  /-- R186. Counts trailing zeros, tag n32. -/
  | vctz (f : FForm)
  /-- R186. Counts set bits, tag n32. -/
  | vpopc (f : FForm)
  /-- R186. Reverses the 32 bits. -/
  | vbrev (f : FForm)
  /-- R180. Extracts a bit field per thread. -/
  | vbfe (f : FForm)
  /-- R180. Inserts a bit field per thread. -/
  | vbfi (f : FForm)
  /-- R189. Integer comparison into a predicate per thread. -/
  | vcmp (f : FForm)
  /-- R187. Selects a or b per thread by a predicate, copying data and tag. -/
  | vsel (f : FForm)
  /-- R190. Four-term s8 dot product added to an s32. -/
  | vdot4 (f : FForm)
  /-- R191. Copies the data unchanged and sets the tag of T. -/
  | vtag (f : FForm)
  /-- R192. AND of two optionally negated predicates. -/
  | pand (f : FForm)
  /-- R192. OR of two optionally negated predicates. -/
  | por (f : FForm)
  /-- R192. Exclusive OR of two optionally negated predicates. -/
  | pxor (f : FForm)
  /-- R192. Inverts a predicate. -/
  | pnot (f : FForm)
  /-- R192. Sets a predicate true where the register is non-zero. -/
  | pset (f : FForm)
  /-- R192. Writes a predicate as 1 or 0, tag n32. -/
  | pget (f : FForm)
  /-- R193. f32 addition, rounded once. -/
  | vfadd (f : FForm)
  /-- R193. f32 subtraction, rounded once. -/
  | vfsub (f : FForm)
  /-- R193. f32 multiplication, rounded once. -/
  | vfmul (f : FForm)
  /-- R193. f32 fused multiply-add with one rounding. -/
  | vffma (f : FForm)
  /-- R194. f32 minimumNumber. -/
  | vfmin (f : FForm)
  /-- R194. f32 maximumNumber. -/
  | vfmax (f : FForm)
  /-- R194. Clears the f32 sign bit. -/
  | vfabs (f : FForm)
  /-- R194. Inverts the f32 sign bit. -/
  | vfneg (f : FForm)
  /-- R195. f32 comparison into a predicate. -/
  | vfcmp (f : FForm)
  /-- R195. Writes a one-hot class mask of an f32. -/
  | vfclass (f : FForm)
  /-- R193. Rounds an f32 to an integer value in the mode. -/
  | vfrnd (f : FForm)
  /-- R196. Correctly rounded reciprocal. -/
  | vrcp (f : FForm)
  /-- R196. Correctly rounded reciprocal square root. -/
  | vrsq (f : FForm)
  /-- R196. Correctly rounded square root. -/
  | vsqrt (f : FForm)
  /-- R196. Correctly rounded division. -/
  | vdiv (f : FForm)
  /-- R196. 2 to the power a, RoundNE. -/
  | vexp2 (f : FForm)
  /-- R196. Base-2 logarithm, RoundNE. -/
  | vlog2 (f : FForm)
  /-- R196. sin(πa), RoundNE. -/
  | vsinpi (f : FForm)
  /-- R196. cos(πa), RoundNE. -/
  | vcospi (f : FForm)
  /-- R197. Converts between f32, integer and 64-bit types under Table 5.7; it has no legal short form. -/
  | vcvt (f : FForm)
  /-- R198. Rounds two values into elements of a packed word and keeps the other elements. -/
  | vpack (f : FForm)
  /-- R200. Converts one element of a packed word exactly to f32 or s32. -/
  | vunpk (f : FForm)
  /-- R201. Multiplies or divides an f32 by an SC10 scale element. -/
  | vscl (f : FForm)
  /-- R193. Two-term packed 16-bit dot product added to an f32, rounded once. -/
  | vfdot2 (f : FForm)
  /-- R193. Packed 16-bit fused multiply-add per element. -/
  | vpfma (f : FForm)
  /-- R193. Packed 16-bit addition per element. -/
  | vpfadd (f : FForm)
  /-- R193. Packed 16-bit multiplication per element. -/
  | vpfmul (f : FForm)
  /-- R228. Shuffles values within segments by index, up, down or xor. -/
  | vshfl (f : FForm)
  /-- R228. Broadcasts one position's value within each segment. -/
  | vbcast (f : FForm)
  /-- R229. Reduces over each segment in the fixed order of Table 5.10. -/
  | vred (f : FForm)
  /-- R229. Inclusive or exclusive scan over each segment. -/
  | vscan (f : FForm)
  /-- R228. Writes the mask of members holding an equal value. -/
  | vmatch (f : FForm)
  /-- R228. Packs the values of selected members towards low ranks. -/
  | vcompact (f : FForm)
  /-- R228. Writes a 64-bit mask of members whose predicate is true. -/
  | vballot (f : FForm)
  /-- R228. All, any or uniform vote of a predicate. -/
  | vvote (f : FForm)
  /-- R228. Counts lower-positioned members with a true predicate. -/
  | vrank (f : FForm)
  /-- R228. Writes the position of the lowest member with a true predicate. -/
  | vfirst (f : FForm)
  /-- R208. Global load per thread, with ordering and scope; may park on a recoverable fault. -/
  | ld (f : FForm)
  /-- R208. Global store per thread, with ordering and scope. -/
  | st (f : FForm)
  /-- R212. Team-memory load with optional full/empty qualifier. -/
  | ldt (f : FForm)
  /-- R212. Team-memory store with optional full/empty qualifier. -/
  | stt (f : FForm)
  /-- R205. Plot-memory load from another member's team memory. -/
  | ldp (f : FForm)
  /-- R205. Plot-memory store into another member's team memory. -/
  | stp (f : FForm)
  /-- R216. Clears, sets, tests or waits on the full/empty bit of a granule. -/
  | fe (f : FForm)
  /-- R219. Global atomic read-modify-write performed at the home L2. -/
  | atom (f : FForm)
  /-- R219. Team-memory atomic. -/
  | atomt (f : FForm)
  /-- R219. Plot-memory atomic, including compare-and-swap. -/
  | atomp (f : FForm)
  /-- R219. Global compare-and-swap. -/
  | cas (f : FForm)
  /-- R219. Team-memory compare-and-swap. -/
  | cast (f : FForm)
  /-- R222. Blocking fence of its kind and scope. -/
  | fence (f : FForm)
  /-- R224. Prefetch hint to L1, L2 or the fetch unit; never traps. -/
  | pref (f : FForm)
  /-- R223. Invalidates lines of an address range in L1, RDC or fetch-unit cache. -/
  | cinv (f : FForm)
  /-- R225. Reads and converts an array element through the fetch unit, optionally scaled; it has no legal short form. -/
  | fetch (f : FForm)
  /-- R69. Sets a rendezvous point's expected count and clears its arrivals. -/
  | rdvinit (f : FForm)
  /-- R70. Adds arrivals to a rendezvous point, completing the phase when the count is reached. -/
  | rdvarr (f : FForm)
  /-- R71. Waits until the point's phase differs from h, then acquires. -/
  | rdvwait (f : FForm)
  /-- R71. Tests without waiting whether the phase differs from h. -/
  | rdvtest (f : FForm)
  /-- R76. Pushes one entry per member, or one from the U-stream, waiting for room. -/
  | qpush (f : FForm)
  /-- R77. Waits for enough entries and pops them in ascending position. -/
  | qpop (f : FForm)
  /-- R77. Pops entries only if enough are present, writing a predicate. -/
  | qtry (f : FForm)
  /-- R231. Reads a queue's entry count. -/
  | qcnt (f : FForm)
  /-- R233. Issues a Barrow byte copy from a team-memory descriptor. -/
  | bcp (f : FForm)
  /-- R234. Issues a Barrow copy of a padded, optionally transposed tile into canonical blocked layout. -/
  | btile (f : FForm)
  /-- R233. Issues a Barrow gather through an index array. -/
  | bgat (f : FForm)
  /-- R233. Issues a Barrow scatter through an index array. -/
  | bsct (f : FForm)
  /-- R235. Issues a Barrow reducing copy, optionally sequenced. -/
  | bred (f : FForm)
  /-- R233. Issues a Barrow fill with an 8-byte pattern. -/
  | bfill (f : FForm)
  /-- R245. Waits until a chit shows status 1, 3 or 4, writes it and acquires. -/
  | bwait (f : FForm)
  /-- R245. Reads a chit's status once. -/
  | bpoll (f : FForm)
  /-- R363. Replaces the thread's ray query with a READY query. -/
  | rqbegin (f : FForm)
  /-- R364. Advances traversal from READY to the next candidate or the end. -/
  | rqstep (f : FForm)
  /-- R364. Commits the triangle candidate and advances or finishes. -/
  | rqcommit (f : FForm)
  /-- R364. Rejects the candidate, or the rest of the instance, and advances. -/
  | rqskip (f : FForm)
  /-- R364. Commits or rejects a procedural candidate at a given t and advances. -/
  | rqresume (f : FForm)
  /-- R366. Writes the 128-byte image of the query. -/
  | rqsave (f : FForm)
  /-- R366. Loads a saved query image and re-derives its path. -/
  | rqload (f : FForm)
  /-- R365. Reads one field of the query. -/
  | rqget (f : FForm)
  /-- R367. Traces a separate visibility ray and writes 1 when unoccluded. -/
  | rtvis (f : FForm)
  /-- R371. Loads a 32-byte reservoir into a register group. -/
  | rsvld (f : FForm)
  /-- R371. Stores a register group as a 32-byte reservoir. -/
  | rsvst (f : FForm)
  /-- R372. Streams one candidate into a reservoir. -/
  | rsvupd (f : FForm)
  /-- R373. Merges a neighbour reservoir into the owner. -/
  | rsvmrg (f : FForm)
  /-- R374. Sets the reservoir's contribution weight W. -/
  | rsvnorm (f : FForm)
  /-- R375. Draws a Philox number, or a replay-table entry. -/
  | rng (f : FForm)
  /-- R377. Walks a light tree and writes the emitter and its probability. -/
  | ltw (f : FForm)
  /-- R328. Group operation that activates a Drill session from (start, length) pairs; it has no legal short form. -/
  | drlld (f : FForm)
  /-- R329. Deals the next iteration of the thread's slot. -/
  | drlnext (f : FForm)
  /-- R330. Adds a value to the accumulator of the current iteration's owner. -/
  | drlred (f : FForm)
  /-- R331. Group operation that delivers each owner's result and idles the session. -/
  | drlend (f : FForm)
  /-- R332. Group operation that writes the Drill image and idles the session. -/
  | drlsave (f : FForm)
  /-- R332. Group operation that restores a session from a Drill image. -/
  | drlrst (f : FForm)
  /-- R337. Enters the Graft table with a key and waits for a release that re-forms fragments by key. -/
  | graft (f : FForm)
  /-- R338. Releases every waiting graft thread of the team and role on the core. -/
  | gftflush (f : FForm)
  /-- R342. Merge unit forms the union of two sorted index lists and writes the count. -/
  | mrg (f : FForm)
  /-- R344. Issues a Gleaner pass from a team-memory descriptor. -/
  | glean (f : FForm)
  /-- R348. Allocates a record slot in a successor node's pool, copies the payload and adds it to the forming batch. -/
  | emit (f : FForm)
  /-- R350. Copies a launch record into the pitch's launch queue as a child launch. -/
  | launch (f : FForm)
  /-- R349. Writes the global address of record k of the current invocation. -/
  | recget (f : FForm)
  /-- R297. M-stream instruction with no effect. -/
  | mnop (f : FForm)
  /-- R297. Writes an immediate to an m register. -/
  | mli (i : IForm)
  /-- R298. Counter and tile-mask arithmetic of the selected OP. -/
  | madd (f : FForm)
  /-- R299. Unconditional, or non-zero-conditional, M-stream branch. -/
  | mbra (i : IForm)
  /-- R299. Decrements mD and branches while it is non-zero. -/
  | mloop (i : IForm)
  /-- R300. Waits for every issued operation, returns the leave and ends the M-stream. -/
  | mend (f : FForm)
  /-- R303. Pops an operand queue entry into m registers, waiting while it is empty. -/
  | mqpop (f : FForm)
  /-- R304. M-stream arrival at a rendezvous point. -/
  | marr (f : FForm)
  /-- R304. M-stream wait on a rendezvous phase. -/
  | mwait (f : FForm)
  /-- R306. Requests grains from the Weighbridge and credits the leave balance. -/
  | mleave (f : FForm)
  /-- R310. Loads a weight image, compressed or not, into a weight-buffer slot. -/
  | mwb (f : FForm)
  /-- R308. Copies an A tile from full team-memory granules into an A-stage slot. -/
  | mast (f : FForm)
  /-- R318. Zeroes an accumulator tile, or a compensated pair. -/
  | mzero (f : FForm)
  /-- R309. Loads or clears the MX or tile scales of a slot. -/
  | mscl (f : FForm)
  /-- R313. Multiplies A and B tiles and promotes each K chunk into the accumulator. -/
  | mma (f : FForm)
  /-- R315. 2:4 sparse multiply using metadata read from team memory. -/
  | mmasp (f : FForm)
  /-- R313. Multiply on arrays whose tile-mask bit is set; it has no legal short form. -/
  | mmak (f : FForm)
  /-- R313. Computes e2m1-approximated scores, replacing the tile. -/
  | mscout (f : FForm)
  /-- R316. The Sieve writes tile-mask bits by relative and absolute thresholds. -/
  | msieve (f : FForm)
  /-- R317. Reads a mask image from full team-memory granules into a k register. -/
  | mmaskld (f : FForm)
  /-- R319. Converts tiles, or a mask, and issues their write into team memory as an engine operation. -/
  | mdrain (f : FForm)
  /-- R321. Converts an accumulator tile to plain f32, to a compensated pair, or scales it. -/
  | mcvt (f : FForm)
  /-- R301. Reads a status register into an m register. -/
  | msr (f : FForm)
  /-- R302. Waits for earlier drains, then fences for the M-stream. -/
  | mfence (f : FForm)
  /-- R143. A long-latency instruction completes: its destination is written at the place its window gives, and its wait counter falls. -/
  | longLatencyComplete (op : Nat)
  /-- R82. A waiting party's condition (phase, queue entries or room, granule, chit, join, pool slot) becomes true and it resumes. -/
  | waitEnd (p : Party)
  /-- R290. An array finishes an M-stream operation and may start the one waiting. -/
  | arrayOpComplete (team array : Nat)
  /-- R271. A drain writes one team-memory granule, waiting for empty under WE, and sets it full with a release. -/
  | mdrainGranuleWrite (op : Nat)
  /-- R242. A Barrow moves a block of a command and may write a progress chit. -/
  | barrowBlock (op : Nat)
  /-- R239. When the sequence word equals SEQ, the home applies every element and advances the word with a release. -/
  | sequencedReducingCopy (op : Nat)
  /-- R382. After its Weighbridge grant, a Gleaner processes the tile's pixels and writes the output reservoirs and chit. -/
  | gleanerPass (op : Nat)
  /-- R427. A fault or error record is written to a report or event ring, waiting for space or dropped and counted. -/
  | reportRecordWrite (n : Nat)
  /-- R429. When every live thread of a fragment is parked or at the convergence point, the fragment enters its continuation and an episode begins. -/
  | continuationEntry (team fid : Nat)
  /-- R437. A stopped team receives the lowest free handler window and the trap-handling cores are interrupted. -/
  | handlerWindowAssign (team : Nat)
  /-- R437. A window given no KILL or RESUME within 2^24 cycles is answered by KILL with a KIND 5 record. -/
  | handlerWindowTimeout (die w : Nat)
  /-- R85. A team resident past its launch deadline takes trap DLN. -/
  | launchDeadlineExpiry (team : Nat)
  /-- R389. The scheduler reads a launch record from a pool and accepts or rejects it, assigning a launch id. -/
  | recordAccept (pitch pool : Nat)
  /-- R396. The scheduler observes the DEP chits and makes the launch ready, or ends it with status 3. -/
  | launchReady (lid : Nat)
  /-- R400. Dispatch hardware places a team, plot or invocation all-or-none once its resources are free and creates its state. -/
  | teamDispatch (die slot : Nat)
  /-- R80. When all threads, streams and engine operations of a team have ended, its resources are freed. -/
  | teamRetire (team : Nat)
  /-- R413. A forming batch closes at the first period boundary at least TMO x 1,024 cycles after its first record. -/
  | batchTimeout (lid node : Nat)
  /-- R444. Policy firmware requests that the resident teams be saved and requeued. -/
  | preemptSave (lid die core0 ncore : Nat)
  /-- R443. A saved team is restored on cores that fit, or ended with a KIND 6 record. -/
  | teamRestore (team die core : Nat)
  /-- R444. A team still resident when the pitch's pre-emption deadline passes is force-reset. -/
  | preemptDeadlineExpiry (team : Nat)
  /-- R410. A waiting grain request is granted whole and debited. -/
  | weighbridgeGrant (req : Nat)
  /-- R424. An invalidation completes when entries are dropped and their accesses performed; INVSTAT clears. -/
  | invalidationDone (pitch : Nat)
  /-- R280. A page conversion finishes and CZSTAT becomes 2. -/
  | crateConversionDone (pitch : Nat)
  /-- R28. Once no resident launch declares RVS use, the ways join or leave the RVS. -/
  | rvsResize (die : Nat)
  /-- R456. A frame finishes clearing and SCRUB returns to 0. -/
  | frameScrubDone (frame : Nat)
  /-- R458. The purge wave passes every router and a KIND 12 event is written. -/
  | purgeDone (part : Nat)
  /-- R470. Streaming ends; teams are restored, dispatch resumes and KIND 14 is written. -/
  | ckptStreamDone (ok : Bool)
  /-- R440. A blocking wait under STEP that has not ended within 65,536 cycles is abandoned as not issued, and CSTAT becomes 4. -/
  | stepWaitTimeout (die w : Nat)
  /-- R441. A management core faulting while handling a window kills the team. -/
  | handlerFailure (die w : Nat)
  /-- R399. Policy firmware writes a Rota bind record; hardware accepts it or clears VALID and writes ERR. -/
  | bindRecordWrite (die slot : Nat) (rec : BindRec)
  /-- R444. Policy firmware requests that no further team of a launch be dispatched on a set of cores. -/
  | preemptBoundary (lid die core0 ncore : Nat)
  /-- R449, R450. A host's function reads or writes a register through BAR0 of a PCI Express port; a write is checked against its limits
  and stored. -/
  | registerWrite (by_ : HostFn) (addr : Nat) (op : ExtOp)
  /-- R451. A host read, write or AtomicOp through BAR2 is performed as a host-agent access, or aborted with a KIND 15 record. -/
  | hostBar2Access (by_ : HostFn) (off : DWord) (op : ExtOp)
  /-- R451. A Page Request response signals the parked access, or fails it as FAIL. -/
  | pageRequestResponse (pitch : Nat) (fseq : DWord) (ok : Bool)
  /-- R247. System software on a management core of a die reads or writes device memory, for example translation entries or the HEAD of a report ring or service ring. -/
  | managementCoreAccess (at_ : CoreAddr) (op : ExtOp)
  /-- R439. Handler command staging one fragment entry. -/
  | readf (die w : Nat) (a0 : Word)
  /-- R439. Handler command staging one thread's record with registers and tags. -/
  | readt (die w : Nat) (a0 : Word) (a1 : DWord)
  /-- R439. Handler command writing one register with its tag, or one predicate. -/
  | writet (die w : Nat) (a0 : Word) (a1 a2 : DWord)
  /-- R439. Handler command staging the U-stream's or M-stream's state. -/
  | reads (die w : Nat) (a0 : Word)
  /-- R440. Handler command issuing exactly one clause for one fragment. -/
  | step (die w : Nat) (a0 : Word)
  /-- R439. Handler command continuing every fragment and stream at its recorded PC. -/
  | resume (die w : Nat)
  /-- R439. Handler command ending the team under R287 with a KIND 2 record. -/
  | kill (die w : Nat) (a0 : Word)
  /-- R439. Handler command stopping a running team as under a trap, with cause 0x10. -/
  | halt (die w : Nat) (launch : Word) (team : DWord)
  /-- R446. An uncorrectable store error refetches, poisons, or kills the owning team, possibly relaunching it. -/
  | uncorrectableError (at_ : EccSite)
  /-- R405. An arbiter grants a waiting request, owners first, then borrowers in rotation. -/
  | arbiterGrant (inst : Nat) (reqs : List (Nat × ArbWork))
  /-- R428. Writing an FSEQ to SIGOK makes the parked thread replay or the held party resume. -/
  | sigok (pitch : Nat) (fseq : DWord)
  /-- R428. Writing an FSEQ to SIGFAIL makes the team take XLAT, or the command end with status 4. -/
  | sigfail (pitch : Nat) (fseq : DWord)
  /-- R424. INVAL with a page address starts invalidation of that page in every TLB and walker cache. -/
  | invalPage (pitch : Nat) (va : DWord)
  /-- R424. INVAL with bit 0 set starts invalidation of the whole pitch. -/
  | invalPitch (pitch : Nat)
  /-- R463. Writing CZCTL starts conversion of pages to a new compression attribute, or rejects it. -/
  | czctl (pitch : Nat) (val : DWord)
  /-- R28. Writing RVSWAYS requests a new RVS size for a V-die. -/
  | rvsways (die : Nat) (val : DWord)
  /-- R456. Writing a frame entry with a new OWNER starts clearing the frame. -/
  | frameEntry (frame : Nat) (val : DWord)
  /-- R403. Writing a pitch's refill or depth at an arbiter is checked against capacity and refills its bucket. -/
  | refill (pitch inst : Nat) (refill depth : DWord)
  /-- R473. Writing SVCREPLY delivers a reply to the request named by SVCTAG. -/
  | svcreply (die : Nat) (reply : DWord)
  /-- R453. Writing MODEREQ requests a partition mode change, rejected or started by draining. -/
  | modereq (val : DWord)
  /-- R459. Writing PARTRESET ends every team and launch of a partition and purges it. -/
  | partreset (part : Nat)
  /-- R459. Function reset of a VF resets that one pitch's launches and service page. -/
  | flr (pitch : Nat)
  /-- R468. DIECTL with OP 0 requests taking a die offline: dispatch stops and teams drain. -/
  | dieOffline (val : DWord)
  /-- R469. DIECTL with OP 1 brings a die online after verifying its images. -/
  | dieOnline (val : DWord) (imgs : List FwImage)
  /-- R470. Writing CKPT starts a checkpoint by quiescing the package. -/
  | ckpt (val : DWord)
  /-- R464. Package reset: boot ROM verifies and measures firmware images and brings dies up. -/
  | packageReset (imgs : List FwImage)
  /-- R466. An SPDM request over DOE or MCTP is answered with signed measurements, challenges or IDE keys. -/
  | spdmRequest (req : SpdmReq)
  /-- R460. An Ewearvia request is performed when the frame's FTAG matches, otherwise fails as unreachable. -/
  | fabricRequest (src : FabSrc) (ftag : BitVec 16) (pa : Nat) (op : ExtOp)
  /-- R461. A device unreachable for 2,000,000 cycles makes requests to it fail. -/
  | fabricUnreachableTimeout (lost : LostDev)
  /-- R460. Fabric firmware forms the Ewearvia domain and assigns the device number held in FABDEV. -/
  | fabricDomainFormation (dev : BitVec 12) (domain : Domain)
  /-- R404. At each 1,024-cycle boundary every bucket is refilled and the sublet pool is rebuilt from the spill. -/
  | bucketPeriod
  /-- R409. At each 2,000-cycle window start, each die's credit is refilled from its budget with debt carried. -/
  | weighbridgeWindow
  /-- R454. When DRAIN passes, teams still resident in affected partitions are force-reset and the purge begins. -/
  | modeDrainDeadline
  /-- R468. After the drain and copies, the die goes offline, routes change and KIND 8 is written. -/
  | dieEvacuationDone
  /-- R470. Teams still resident 200 ms after the start are force-reset. -/
  | ckptQuiesceDeadline
  /-- R411. When module power exceeds its limits, issue slots are withheld until it falls. -/
  | overCurrentClamp
  /-- R411. Module power falls below the clamp limit, and the withheld issue slots at quads, sequencers, Barrows and Gleaners are given back. -/
  | overCurrentClampRelease
  deriving DecidableEq, Repr

end Sys2Proof
end

