-- ==== Sys2Proof/Machine/Encoding.lean ====
section
/-! DEFINITION. The encoding tables: opcode maps (Tables 7.10 to 7.12), the operand kind of every field, the accepted
types and modifiers of every opcode, the values the short form implies, and the two legality checks that decoding a
clause makes of one instruction (R120, R128 to R136, R160 to R164, R293, R325, R362). -/

namespace Sys2Proof

/-- The fields of an instruction in its operand form (R129). -/
inductive Form where
  | f (x : FForm)
  | i (x : IForm)
  deriving DecidableEq, Repr

/-- The guard. -/
def Form.guard : Form → Guard
  | .f x => x.grd
  | .i x => x.grd

/-- VER 01 (R142). -/
def Form.interlock : Form → Bool
  | .f x => x.interlock
  | .i x => x.interlock

/-- LOOK (R143). -/
def Form.look : Form → Nat
  | .f x => x.look.toNat
  | .i _ => 0

/-- The wait counter named, 7 for none. -/
def Form.wc : Form → Nat
  | .f x => x.wc.toNat
  | .i _ => 7

/-- The D field. -/
def Form.d : Form → Nat
  | .f x => x.d.toNat
  | .i x => x.d.toNat

/-- The three code streams of a team. -/
inductive Stream where
  | row | ustream | mstream
  deriving DecidableEq, Repr

/-- Latency kinds (R141). -/
inductive Latency where
  | short | long | blocking
  deriving DecidableEq, Repr

/-- Why a clause is not decodable or not legal (R120), by name. -/
inductive Illegal where
  | headerReserved | headerVersion | headerClass | headerCount | headerMStream
  | version | versionMix | opcode | typeCode | immReserved | missingWord
  | stream | clazz | form | typeNot | modifier | field | counter | look | guard | immediate | registers
  | transferNotLast | skipReach
  deriving DecidableEq, Repr

/-- Bits `lo` to `lo + n - 1` of a number. -/
def bits (x lo n : Nat) : Nat := x / 2 ^ lo % 2 ^ n

/-- Bit `i` of a number. -/
def bitOf (x i : Nat) : Bool := x / 2 ^ i % 2 == 1

/-- Bits of MOD as a number. -/
def FForm.m (f : FForm) (lo n : Nat) : Nat := bits f.mod.toNat lo n

/-- One bit of MOD. -/
def FForm.mb (f : FForm) (i : Nat) : Bool := bitOf f.mod.toNat i

/-- The type codes of Table 7.5 in the order of their numbers. -/
def tyOrder : List Ty :=
  [.b32, .s32, .n32, .f32, .bf16x2, .f16x2, .e4m3x4, .e5m2x4, .e3m2x4, .e2m3x4, .e2m1x8, .s8x4, .sc10, .s64, .n64, .none]
  ++ [.s8, .s16, .n8, .n16, .bf16, .f16, .e4m3, .e5m2, .e3m2, .e2m3, .e2m1]

/-- The type of a code; none for the illegal codes 0x1B to 0x1F. -/
def tyOf (n : Nat) : Option Ty := tyOrder[n]?

/-- The code of a type (Table 7.5). -/
def Ty.code : Ty → Nat
  | .b32 => 0x00 | .s32 => 0x01 | .n32 => 0x02 | .f32 => 0x03 | .bf16x2 => 0x04 | .f16x2 => 0x05 | .e4m3x4 => 0x06
  | .e5m2x4 => 0x07 | .e3m2x4 => 0x08 | .e2m3x4 => 0x09 | .e2m1x8 => 0x0A | .s8x4 => 0x0B | .sc10 => 0x0C | .s64 => 0x0D
  | .n64 => 0x0E | .none => 0x0F | .s8 => 0x10 | .s16 => 0x11 | .n8 => 0x12 | .n16 => 0x13 | .bf16 => 0x14 | .f16 => 0x15
  | .e4m3 => 0x16 | .e5m2 => 0x17 | .e3m2 => 0x18 | .e2m3 => 0x19 | .e2m1 => 0x1A

/-- A 64-bit type, whose vector operands are even/odd pairs (R87). -/
def Ty.wide : Ty → Bool
  | .s64 | .n64 => true
  | _ => false

/-- The operation code of an opcode in its own map (Table 7.10, Table 7.12). -/
def Opc.code : Opc → Nat
  | .nop => 0x00 | .skip => 0x01 | .bra => 0x02 | .brx => 0x03 | .call => 0x04 | .ret => 0x05 | .join => 0x06 | .exit => 0x07
  | .yield => 0x08 | .wait => 0x09 | .brk => 0x0A | .trap => 0x0B | .sr => 0x0C | .srw => 0x0D | .fresume => 0x0E | .sysc => 0x0F
  | .smov => 0x10 | .sli => 0x11 | .slk => 0x12 | .sldc => 0x13 | .sadd => 0x14 | .ssub => 0x15 | .smul => 0x16 | .smulh => 0x17
  | .sand => 0x18 | .sor => 0x19 | .sxor => 0x1A | .snot => 0x1B | .sshl => 0x1C | .sshr => 0x1D | .ssar => 0x1E | .smin => 0x1F
  | .smax => 0x20 | .scmp => 0x21 | .ssel => 0x22 | .sbfe => 0x23 | .sbfi => 0x24 | .sclz => 0x25 | .spopc => 0x26 | .sld => 0x27
  | .sst => 0x28 | .sldt => 0x29 | .sstt => 0x2A | .vmov => 0x30 | .vli => 0x31 | .vlk => 0x32 | .vbcs => 0x33 | .vadd => 0x34
  | .vsub => 0x35 | .vmul => 0x36 | .vmulh => 0x37 | .vmad => 0x38 | .vabs => 0x39 | .vneg => 0x3A | .vmin => 0x3B | .vmax => 0x3C
  | .vand => 0x3D | .vor => 0x3E | .vxor => 0x3F | .vnot => 0x40 | .vandn => 0x41 | .vshl => 0x42 | .vshr => 0x43 | .vsar => 0x44
  | .vrol => 0x45 | .vclz => 0x46 | .vctz => 0x47 | .vpopc => 0x48 | .vbrev => 0x49 | .vbfe => 0x4A | .vbfi => 0x4B | .vcmp => 0x4C
  | .vsel => 0x4D | .vdot4 => 0x4E | .vtag => 0x4F | .pand => 0x50 | .por => 0x51 | .pxor => 0x52 | .pnot => 0x53 | .pset => 0x54
  | .pget => 0x55 | .vfadd => 0x60 | .vfsub => 0x61 | .vfmul => 0x62 | .vffma => 0x63 | .vfmin => 0x64 | .vfmax => 0x65 | .vfabs => 0x66
  | .vfneg => 0x67 | .vfcmp => 0x68 | .vfclass => 0x69 | .vfrnd => 0x6A | .vrcp => 0x6B | .vrsq => 0x6C | .vsqrt => 0x6D | .vdiv => 0x6E
  | .vexp2 => 0x6F | .vlog2 => 0x70 | .vsinpi => 0x71 | .vcospi => 0x72 | .vcvt => 0x73 | .vpack => 0x74 | .vunpk => 0x75 | .vscl => 0x76
  | .vfdot2 => 0x77 | .vpfma => 0x78 | .vpfadd => 0x79 | .vpfmul => 0x7A | .vshfl => 0x90 | .vbcast => 0x91 | .vred => 0x92 | .vscan => 0x93
  | .vmatch => 0x94 | .vcompact => 0x95 | .vballot => 0x96 | .vvote => 0x97 | .vrank => 0x98 | .vfirst => 0x99 | .ld => 0xA0 | .st => 0xA1
  | .ldt => 0xA2 | .stt => 0xA3 | .ldp => 0xA4 | .stp => 0xA5 | .fe => 0xA6 | .atom => 0xA7 | .atomt => 0xA8 | .atomp => 0xA9
  | .cas => 0xAA | .cast => 0xAB | .fence => 0xAC | .pref => 0xAD | .cinv => 0xAE | .fetch => 0xAF | .rdvinit => 0xC0 | .rdvarr => 0xC1
  | .rdvwait => 0xC2 | .rdvtest => 0xC3 | .qpush => 0xC4 | .qpop => 0xC5 | .qtry => 0xC6 | .qcnt => 0xC7 | .bcp => 0xC8 | .btile => 0xC9
  | .bgat => 0xCA | .bsct => 0xCB | .bred => 0xCC | .bfill => 0xCD | .bwait => 0xCE | .bpoll => 0xCF | .rqbegin => 0xD0 | .rqstep => 0xD1
  | .rqcommit => 0xD2 | .rqskip => 0xD3 | .rqresume => 0xD4 | .rqsave => 0xD5 | .rqload => 0xD6 | .rqget => 0xD7 | .rtvis => 0xD8 | .rsvld => 0xD9
  | .rsvst => 0xDA | .rsvupd => 0xDB | .rsvmrg => 0xDC | .rsvnorm => 0xDD | .rng => 0xDE | .ltw => 0xDF | .drlld => 0xE0 | .drlnext => 0xE1
  | .drlred => 0xE2 | .drlend => 0xE3 | .drlsave => 0xE4 | .drlrst => 0xE5 | .graft => 0xE6 | .gftflush => 0xE7 | .mrg => 0xE8 | .glean => 0xE9
  | .emit => 0xEA | .launch => 0xEB | .recget => 0xEC | .mnop => 0x00 | .mli => 0x01 | .madd => 0x02 | .mbra => 0x03 | .mloop => 0x04
  | .mend => 0x05 | .mqpop => 0x06 | .marr => 0x07 | .mwait => 0x08 | .mleave => 0x09 | .mwb => 0x0A | .mast => 0x0B | .mzero => 0x0C
  | .mscl => 0x0D | .mma => 0x0E | .mmasp => 0x0F | .mmak => 0x10 | .mscout => 0x11 | .msieve => 0x12 | .mmaskld => 0x13 | .mdrain => 0x14
  | .mcvt => 0x15 | .msr => 0x16 | .mfence => 0x17

/-- A line of eight codes of Table 7.10, by the code of its first cell divided by 8; unassigned cells end a line (R149). -/
def rowLine : Nat → List Opc
  | 0x00 => [.nop, .skip, .bra, .brx, .call, .ret, .join, .exit]
  | 0x01 => [.yield, .wait, .brk, .trap, .sr, .srw, .fresume, .sysc]
  | 0x02 => [.smov, .sli, .slk, .sldc, .sadd, .ssub, .smul, .smulh]
  | 0x03 => [.sand, .sor, .sxor, .snot, .sshl, .sshr, .ssar, .smin]
  | 0x04 => [.smax, .scmp, .ssel, .sbfe, .sbfi, .sclz, .spopc, .sld]
  | 0x05 => [.sst, .sldt, .sstt]
  | 0x06 => [.vmov, .vli, .vlk, .vbcs, .vadd, .vsub, .vmul, .vmulh]
  | 0x07 => [.vmad, .vabs, .vneg, .vmin, .vmax, .vand, .vor, .vxor]
  | 0x08 => [.vnot, .vandn, .vshl, .vshr, .vsar, .vrol, .vclz, .vctz]
  | 0x09 => [.vpopc, .vbrev, .vbfe, .vbfi, .vcmp, .vsel, .vdot4, .vtag]
  | 0x0A => [.pand, .por, .pxor, .pnot, .pset, .pget]
  | 0x0C => [.vfadd, .vfsub, .vfmul, .vffma, .vfmin, .vfmax, .vfabs, .vfneg]
  | 0x0D => [.vfcmp, .vfclass, .vfrnd, .vrcp, .vrsq, .vsqrt, .vdiv, .vexp2]
  | 0x0E => [.vlog2, .vsinpi, .vcospi, .vcvt, .vpack, .vunpk, .vscl, .vfdot2]
  | 0x0F => [.vpfma, .vpfadd, .vpfmul]
  | 0x12 => [.vshfl, .vbcast, .vred, .vscan, .vmatch, .vcompact, .vballot, .vvote]
  | 0x13 => [.vrank, .vfirst]
  | 0x14 => [.ld, .st, .ldt, .stt, .ldp, .stp, .fe, .atom]
  | 0x15 => [.atomt, .atomp, .cas, .cast, .fence, .pref, .cinv, .fetch]
  | 0x18 => [.rdvinit, .rdvarr, .rdvwait, .rdvtest, .qpush, .qpop, .qtry, .qcnt]
  | 0x19 => [.bcp, .btile, .bgat, .bsct, .bred, .bfill, .bwait, .bpoll]
  | 0x1A => [.rqbegin, .rqstep, .rqcommit, .rqskip, .rqresume, .rqsave, .rqload, .rqget]
  | 0x1B => [.rtvis, .rsvld, .rsvst, .rsvupd, .rsvmrg, .rsvnorm, .rng, .ltw]
  | 0x1C => [.drlld, .drlnext, .drlred, .drlend, .drlsave, .drlrst, .graft, .gftflush]
  | 0x1D => [.mrg, .glean, .emit, .launch, .recget]
  | _ => []

/-- A line of eight codes of Table 7.12; codes 0x18 to 0xFF are unassigned (R151). -/
def mLine : Nat → List Opc
  | 0 => [.mnop, .mli, .madd, .mbra, .mloop, .mend, .mqpop, .marr]
  | 1 => [.mwait, .mleave, .mwb, .mast, .mzero, .mscl, .mma, .mmasp]
  | 2 => [.mmak, .mscout, .msieve, .mmaskld, .mdrain, .mcvt, .msr, .mfence]
  | _ => []

/-- The row-code or U-stream opcode of a code; none where Table 7.10 leaves it unassigned (R148, R149). -/
def rowOpc (n : Nat) : Option Opc := (rowLine (n / 8))[n % 8]?

/-- The M-stream opcode of a code (R151). -/
def mOpc (n : Nat) : Option Opc := (mLine (n / 8))[n % 8]?

/-- The opcodes of Table 7.12. -/
def Opc.isM : Opc → Bool
  | .mnop | .mli | .madd | .mbra | .mloop | .mend | .mqpop | .marr | .mwait | .mleave | .mwb | .mast | .mzero | .mscl
  | .mma | .mmasp | .mmak | .mscout | .msieve | .mmaskld | .mdrain | .mcvt | .msr | .mfence => true
  | _ => false

/-- The immediate-form opcodes (R129). -/
def Opc.isImm : Opc → Bool
  | .skip | .bra | .call | .wait | .brk | .trap | .sr | .srw | .sysc | .sli | .slk | .vli | .vlk
  | .mli | .mbra | .mloop => true
  | _ => false

/-- The control transfers (R124). -/
def Opc.transfer : Opc → Bool
  | .bra | .brx | .call | .ret | .join | .exit | .fresume | .mbra | .mloop | .mend => true
  | _ => false

/-- The latency kinds marked in Table 7.10; M-stream instructions issue in order (R151) and name no counter. -/
def Opc.latency (o : Opc) : Latency :=
  match o with
  | .join | .wait | .sysc | .fence | .rdvwait | .qpush | .qpop | .bwait | .graft | .gftflush => .blocking
  | .sldc | .sld | .sst | .sldt | .sstt | .vrcp | .vrsq | .vsqrt | .vdiv | .vexp2 | .vlog2 | .vsinpi | .vcospi => .long
  | _ =>
    if o.isM then .short
    else
      let c := o.code
      if 0x90 ≤ c ∧ c ≤ 0xAF then .long else if 0xC8 ≤ c then .long else .short

/-- The clause class of an opcode's range (Table 7.11); M-stream clauses have class 0 (R151). -/
def Opc.clazz (o : Opc) : Nat :=
  if o.isM then 0
  else
    let c := o.code
    if c < 0x10 then 5 else if c < 0x30 then 6 else if c < 0x80 then 1 else if c < 0xA0 then 3
    else if c < 0xC0 then 2 else if c < 0xC8 then 3 else 4

/-- The streams an opcode is legal in (Table 7.11, R150). -/
def Opc.inStream (o : Opc) (st : Stream) : Bool :=
  match st with
  | .mstream => o.isM
  | .row => !o.isM
  | .ustream =>
    match o with
    | .join | .fresume => false
    | .pand | .por | .pxor | .pnot | .fence | .pref | .cinv | .fetch | .glean | .emit | .launch | .recget => true
    | _ => let c := o.code; !o.isM && (decide (c < 0x30) || (decide (0xC0 ≤ c) && decide (c < 0xD0)))

/-- The signed and unsigned 64- and 32-bit types of Table 9.5. -/
def tysInt : List Ty := [.s64, .n64, .s32, .n32]
/-- The types of the uniform loads and stores (Table 9.5). -/
def tysSld : List Ty := [.s64, .s8, .s16, .s32, .n8, .n16, .n32, .n64]
/-- Any of 0x00 to 0x0E, b32 first. -/
def tysAny : List Ty := tyOrder.take 15
/-- The load and store types (Table 11.4). -/
def tysMem : List Ty := tysAny ++ [.s8, .s16, .n8, .n16]

/-- The types an opcode accepts, the default first (R164, R293). -/
def Opc.tys : Opc → List Ty
  | .brx | .graft => [.n32]
  | .sli | .slk | .sadd | .ssub | .smul | .smulh | .sshl | .sshr | .ssar | .smin | .smax | .scmp | .sbfe => tysInt
  | .sldc | .sld | .sst | .sldt | .sstt => tysSld
  | .sbfi | .sclz | .spopc => [.n64, .n32]
  | .vmov | .vsel | .vshfl | .vbcast | .vmatch | .vcompact => [.none, .s64, .n64]
  | .vli => .s32 :: tysAny
  | .vlk | .vbcs | .vtag => tysAny
  | .vadd | .vsub | .vmin | .vmax => [.s32, .n32, .s64, .n64, .s8x4]
  | .vmul | .vmad | .vcmp => [.s32, .n32, .s64, .n64]
  | .vmulh => [.s32, .n32]
  | .vabs | .vneg => [.s32, .s64, .s8x4]
  | .vbfe => [.n32, .s32]
  | .vdot4 => [.s8x4]
  | .vfadd | .vfsub | .vfmul | .vffma | .vfmin | .vfmax | .vfabs | .vfneg | .vfcmp | .vfclass | .vfrnd | .vrcp | .vrsq
  | .vsqrt | .vdiv | .vexp2 | .vlog2 | .vsinpi | .vcospi | .vscl => [.f32]
  | .vfdot2 | .vpfma | .vpfadd | .vpfmul => [.bf16x2, .f16x2]
  | .vcvt => [.f32, .s32, .n32, .s64, .n64, .s8, .s16, .n8, .n16]
  | .vpack => [.bf16x2, .f16x2, .e4m3x4, .e5m2x4, .e3m2x4, .e2m3x4, .e2m1x8, .s8x4, .sc10]
  | .vunpk => [.bf16x2, .f16x2, .e4m3x4, .e5m2x4, .e3m2x4, .e2m3x4, .e2m1x8, .s8x4, .sc10]
  | .vred | .vscan => [.s32, .n32, .s64, .n64, .f32, .b32]
  | .ld | .st | .ldt | .stt | .ldp | .stp => tysMem
  | .atom | .atomt | .atomp => [.s32, .n32, .s64, .n64, .f32, .bf16x2, .f16x2, .b32]
  | .cas | .cast => [.b32, .s32, .n32, .f32, .s64, .n64]
  | .fetch => [.f32, .s32, .n32]
  | .drlld => [.none, .s32, .n32, .s64, .n64, .f32]
  | .mli => [.n32, .s32, .f32, .b32]
  | .mwb | .mast => [.e4m3, .e5m2, .e3m2, .e2m3, .e2m1, .bf16]
  | .mdrain => [.f32, .bf16, .f16, .e4m3, .e5m2, .e3m2, .e2m3, .e2m1, .none]
  | _ => [.none]

/-- The type the short form implies (R132). -/
def Opc.defaultTy (o : Opc) : Ty := o.tys.headD .none

/-- What a field of an instruction holds (R133, R134, R160, R161, R203, R293, R362). `v` names a vector register, `v2` an
even/odd pair, `s` a uniform register, `p` a predicate, `g8`, `h3` and `p2` the groups of R362; a final `d` marks a field
that the instruction writes or that may hold no distance. -/
inductive Fld where
  | zero | disp
  | v | vd | v2 | v2d | s | p | g8 | h3 | p2
  | m | mz | mEven | k | w | wEven | g | gEven | t | tEven | gw | tk
  deriving DecidableEq, Repr

/-- The four register fields of an instruction. -/
structure Shape where
  d : Fld
  a : Fld
  b : Fld
  c : Fld
  deriving DecidableEq, Repr

/-- A source field of row code or of the U-stream. -/
def Fld.src (u : Bool) : Fld := if u then .s else .v
/-- A destination field of row code or of the U-stream. -/
def Fld.dst (u : Bool) : Fld := if u then .s else .vd
/-- A vector source of a type. -/
def Fld.srcT (t : Ty) : Fld := if t.wide then .v2 else .v
/-- A vector destination of a type. -/
def Fld.dstT (t : Ty) : Fld := if t.wide then .v2d else .vd

/-- The second source under BS (R163). -/
def FForm.bFld (f : FForm) : Fld := if f.mb 8 then .s else Fld.srcT f.ty
/-- The base field under AU (R203). -/
def FForm.baseFld (f : FForm) : Fld := if f.mb 8 then .s else .v
/-- The index field under XK (Table 11.1). -/
def FForm.indexFld (f : FForm) : Fld :=
  match f.m 6 2 with
  | 0 => .v
  | 1 => .s
  | _ => .disp
/-- The mask field of a cross-lane instruction under MK (R227). -/
def FForm.maskFld (f : FForm) : Fld := if f.mb 8 then .s else .zero

/-- The kinds of the register fields of a field-form instruction in row code, or in the U-stream when `u`. -/
def shape (u : Bool) (o : Opc) (f : FForm) : Shape :=
  let d := Fld.dstT f.ty
  let a := Fld.srcT f.ty
  match o with
  | .brx => ⟨.zero, Fld.src u, .zero, .zero⟩
  | .smov | .snot | .sclz | .spopc => ⟨.s, .s, .zero, .zero⟩
  | .sldc | .sadd | .ssub | .smul | .smulh | .sand | .sor | .sxor | .sshl | .sshr | .ssar | .smin | .smax | .sbfe
  | .sld | .sldt => ⟨.s, .s, .s, .zero⟩
  | .scmp => ⟨.p, .s, .s, .zero⟩
  | .ssel => ⟨.s, .s, .s, .p⟩
  | .sbfi => ⟨.s, .s, .s, .s⟩
  | .sst | .sstt => ⟨.zero, .s, .s, .s⟩
  | .vmov | .vabs | .vneg | .vtag => ⟨d, a, .zero, .zero⟩
  | .vbcs => ⟨d, .s, .zero, .zero⟩
  | .vadd | .vsub | .vmul | .vmulh | .vmin | .vmax | .vand | .vor | .vxor | .vandn | .vshl | .vshr | .vsar | .vrol
  | .vbfe | .vfadd | .vfsub | .vfmul | .vfmin | .vfmax | .vdiv | .vpfadd | .vpfmul | .vscl => ⟨d, a, f.bFld, .zero⟩
  | .vmad => ⟨d, a, f.bFld, a⟩
  | .vbfi | .vdot4 | .vffma | .vfdot2 | .vpfma => ⟨d, a, f.bFld, .v⟩
  | .vnot | .vclz | .vctz | .vpopc | .vbrev | .vfabs | .vfneg | .vfclass | .vfrnd | .vrcp | .vrsq | .vsqrt | .vexp2
  | .vlog2 | .vsinpi | .vcospi | .vunpk => ⟨.vd, .v, .zero, .zero⟩
  | .vcmp | .vfcmp => ⟨.p, a, f.bFld, .zero⟩
  | .vsel => ⟨d, a, f.bFld, .p⟩
  | .pand | .por | .pxor => ⟨.p, .p, .p, .zero⟩
  | .pnot => ⟨.p, .p, .zero, .zero⟩
  | .pset => ⟨.p, .v, .zero, .zero⟩
  | .pget => ⟨.vd, .p, .zero, .zero⟩
  | .vcvt => ⟨d, if f.m 4 5 = 0x0D ∨ f.m 4 5 = 0x0E then .v2 else .v, .zero, .zero⟩
  | .vpack => ⟨.vd, .v, if f.ty = .sc10 ∧ f.m 5 2 = 1 then .zero else if f.mb 8 then .s else .v, .v⟩
  | .vshfl | .vbcast => ⟨d, a, .v, f.maskFld⟩
  | .vred | .vscan => ⟨d, a, .zero, f.maskFld⟩
  | .vmatch => ⟨.v2d, a, .zero, f.maskFld⟩
  | .vcompact => ⟨d, a, .p, f.maskFld⟩
  | .vballot => ⟨.v2d, .p, .zero, f.maskFld⟩
  | .vvote => ⟨.p, .p, .zero, f.maskFld⟩
  | .vrank | .vfirst => ⟨.vd, .p, .zero, f.maskFld⟩
  | .ld | .ldt | .ldp => ⟨d, f.baseFld, f.indexFld, .zero⟩
  | .st | .stt | .stp => ⟨.zero, f.baseFld, a, f.indexFld⟩
  | .fe => ⟨if f.m 3 3 = 2 then .vd else .zero, f.baseFld, f.indexFld, .zero⟩
  | .atom | .atomt => ⟨d, f.baseFld, a, .v⟩
  | .atomp => ⟨d, f.baseFld, a, if f.m 5 3 = 7 then a else .v⟩
  | .cas | .cast => ⟨d, f.baseFld, a, a⟩
  | .pref => ⟨.zero, f.baseFld, f.indexFld, .zero⟩
  | .cinv => ⟨.zero, f.baseFld, f.indexFld, .zero⟩
  | .fetch => ⟨Fld.dst u, .s, Fld.src u, if f.mb 2 then .s else .zero⟩
  | .rdvinit | .rdvwait => ⟨.zero, .zero, Fld.src u, .zero⟩
  | .rdvarr | .qpop | .qcnt => ⟨Fld.dst u, .zero, .zero, .zero⟩
  | .rdvtest => ⟨.p, .zero, Fld.src u, .zero⟩
  | .qpush => ⟨.zero, Fld.src u, .zero, .zero⟩
  | .qtry => ⟨Fld.dst u, .zero, .zero, .p⟩
  | .bcp | .btile | .bgat | .bsct | .bred | .bfill => ⟨.zero, f.baseFld, .zero, .zero⟩
  | .bwait | .bpoll => ⟨Fld.dst u, f.baseFld, f.indexFld, .zero⟩
  | .rqbegin | .rtvis => ⟨.vd, .g8, .v, .s⟩
  | .rqstep | .rqcommit | .rqskip | .rqget => ⟨.vd, .zero, .zero, .zero⟩
  | .rqresume => ⟨.vd, .v, .v, .zero⟩
  | .rqsave | .rqload => ⟨.zero, f.baseFld, .zero, .zero⟩
  | .rsvld => ⟨.g8, f.baseFld, f.indexFld, .zero⟩
  | .rsvst => ⟨.zero, f.baseFld, .g8, f.indexFld⟩
  | .rsvupd => ⟨.g8, .g8, .v, .zero⟩
  | .rsvmrg => ⟨.g8, .g8, .v, .v⟩
  | .rsvnorm => ⟨.g8, .zero, .zero, .zero⟩
  | .rng => ⟨.vd, .p2, .v, .zero⟩
  | .ltw => ⟨.p2, .h3, .p2, .s⟩
  | .drlld => ⟨.zero, .v, .v, .zero⟩
  | .drlnext => ⟨.v2d, .zero, .zero, .p⟩
  | .drlred => ⟨.zero, .v, .zero, .zero⟩
  | .drlend => ⟨.vd, .zero, .zero, .p⟩
  | .drlsave | .drlrst => ⟨.zero, f.baseFld, .zero, .zero⟩
  | .graft => ⟨.zero, .v, .zero, .zero⟩
  | .mrg => ⟨.vd, f.baseFld, .zero, .zero⟩
  | .glean => ⟨.zero, f.baseFld, .zero, .zero⟩
  | .emit => ⟨Fld.dst u, f.baseFld, .zero, .zero⟩
  | .launch => ⟨Fld.dst u, f.baseFld, f.indexFld, .zero⟩
  | .recget => ⟨if u then .s else .v2d, Fld.src u, .zero, .zero⟩
  | .madd =>
    match f.m 0 4 with
    | 8 | 10 => ⟨.m, .k, .m, .zero⟩
    | 9 => ⟨.m, .k, .zero, .zero⟩
    | 11 | 12 => ⟨.k, .k, .k, .zero⟩
    | 13 => ⟨.k, .zero, .zero, .zero⟩
    | 14 => ⟨.k, .m, .m, .zero⟩
    | _ => ⟨.m, .m, .m, .zero⟩
  | .mqpop => ⟨if f.mb 2 then .mEven else .m, .zero, .zero, .zero⟩
  | .marr => ⟨.mz, .zero, .zero, .zero⟩
  | .mwait => ⟨.zero, .zero, .m, .zero⟩
  | .mleave => ⟨.zero, .m, .zero, .zero⟩
  | .mwb => ⟨if f.ty = .bf16 ∧ f.mb 1 = false then .wEven else .w, if f.mb 3 then .m else .mEven, .m, .zero⟩
  | .mast => ⟨if f.ty = .bf16 then .gEven else .g, .m, .m, .zero⟩
  | .mzero => ⟨if f.mb 0 then .tEven else .t, .zero, .zero, .zero⟩
  | .mscl => if f.m 2 2 = 3 then ⟨.gw, .zero, .zero, .zero⟩ else ⟨.gw, .m, .m, .zero⟩
  | .mma | .mscout => ⟨.t, .g, .w, .zero⟩
  | .mmasp => ⟨.t, .g, .w, .m⟩
  | .mmak => ⟨.t, .g, .w, .k⟩
  | .msieve => ⟨.k, .t, .m, .mz⟩
  | .mmaskld => ⟨.k, .m, .m, .zero⟩
  | .mdrain => ⟨if f.ty = .none then .k else .t, .m, .m, .zero⟩
  | .mcvt => ⟨if f.m 0 2 = 1 then .tEven else .t, .t, if f.m 0 2 = 2 then .m else .zero, .zero⟩
  | .msr => ⟨.m, .zero, .zero, .zero⟩
  | _ => ⟨.zero, .zero, .zero, .zero⟩

/-- The D field of an immediate-form instruction (Tables 9.3, 9.5, 9.7, 15.2); `n` is the immediate. -/
def immFld (u : Bool) (o : Opc) (x : IForm) : Fld :=
  let n := x.imm.toNat
  match o with
  | .sr => if u then .s else if n = 13 ∨ n = 14 ∨ n = 15 ∨ n = 19 then .v2d else .vd
  | .srw => if u then .s else if n = 19 then .v2d else .vd
  | .sysc | .sli | .slk => .s
  | .vli | .vlk => Fld.dstT x.ty
  | .mli | .mloop => .m
  | .mbra => .mz
  | _ => .zero

/-- The codes a field of each kind may hold (Tables 7.7 and 7.8, R133, R134, R161, R293, R362). -/
def Fld.legal (kind : Fld) (n : Nat) : Bool :=
  match kind with
  | .zero => n == 0
  | .disp => true
  | .v => true
  | .vd => n ≤ 120
  | .v2 => decide (n > 120) || n % 2 == 0
  | .v2d => decide (n ≤ 120) && n % 2 == 0
  | .s => n ≤ 64
  | .p => n ≤ 7
  | .g8 => decide (n ≤ 112) && n % 8 == 0
  | .h3 => n ≤ 117
  | .p2 => decide (n ≤ 118) && n % 2 == 0
  | .m => n ≤ 15
  | .mz => decide (n ≤ 15) || n == 48
  | .mEven => decide (n ≤ 14) && n % 2 == 0
  | .k => decide (16 ≤ n) && decide (n ≤ 23)
  | .w => decide (24 ≤ n) && decide (n ≤ 39)
  | .wEven => decide (24 ≤ n) && decide (n ≤ 38) && n % 2 == 0
  | .g => decide (40 ≤ n) && decide (n ≤ 43)
  | .gEven => n == 40 || n == 42
  | .t => decide (44 ≤ n) && decide (n ≤ 47)
  | .tEven => n == 44 || n == 46
  | .gw => decide (24 ≤ n) && decide (n ≤ 43)
  | .tk => (decide (44 ≤ n) && decide (n ≤ 47)) || (decide (16 ≤ n) && decide (n ≤ 23))

/-- The vector registers v0 to v119 that a field names (R133). -/
def Fld.regs (kind : Fld) (n : Nat) : List Nat :=
  match kind with
  | .v | .vd => if n < 120 then [n] else []
  | .v2 | .v2d | .p2 => if n < 120 then [n, n + 1] else []
  | .g8 => (List.range 8).map (n + ·)
  | .h3 => [n, n + 1, n + 2]
  | _ => []

/-- Is the field a vector destination (R138, R140, R143)? -/
def Fld.isVecDst (kind : Fld) : Bool :=
  match kind with
  | .vd | .v2d | .g8 | .p2 => true
  | _ => false

/-- The compare condition, element index or divide flag OPX (Table 9.1). -/
def FForm.opx (f : FForm) : Nat := f.m 5 3

/-- The MOD bits an opcode's table assigns, as a mask; every other bit must be 0 (R162, R293, R325). -/
def modMask (o : Opc) : Nat :=
  match o with
  | .brx | .graft | .rqbegin | .rtvis | .rsvupd | .rsvmrg | .rng | .ltw | .vfabs | .vfneg | .vfclass | .vlog2 | .vsinpi
  | .vcospi => 0x010
  | .sadd | .ssub | .smul => 0x008
  | .scmp => 0x0E0
  | .vadd | .vsub | .vmul | .vmad | .vdot4 => 0x118
  | .vmulh | .vmin | .vmax | .vfmin | .vfmax => 0x110
  | .vabs | .vneg | .vexp2 => 0x018
  | .vand | .vor | .vxor | .vandn | .vshl | .vshr | .vsar | .vrol | .vbfe | .vbfi | .vsel => 0x100
  | .vcmp | .vfcmp => 0x1F0
  | .pand | .por | .pxor => 0x003
  | .vfadd | .vfsub | .vfmul | .vffma | .vdiv | .vfdot2 | .vpfma | .vpfadd | .vpfmul => 0x11F
  | .vfrnd | .vrsq | .vsqrt => 0x017
  | .vrcp => 0x01F
  | .vcvt => 0x1FF
  | .vpack => 0x17F
  | .vunpk => 0x0F0
  | .vscl => 0x1FF
  | .vshfl => 0x1C3
  | .vbcast | .vmatch | .vcompact | .vballot | .vrank | .vfirst => 0x1C0
  | .vred => 0x1DF
  | .vscan => 0x1FF
  | .vvote => 0x1C3
  | .ld | .st | .ldt | .stt | .ldp | .stp => 0x1FF
  | .fe => 0x1FC
  | .atom | .atomt | .atomp => 0x1FF
  | .cas | .cast => 0x11F
  | .fence => 0x01F
  | .pref | .cinv => 0x1F0
  | .fetch => 0x1FE
  | .rdvinit | .rdvarr | .rdvwait | .rdvtest => 0x01F
  | .qpush | .qpop | .qtry | .qcnt => 0x00F
  | .bcp | .btile | .bgat | .bsct | .bred | .bfill | .mrg | .glean => 0x100
  | .bwait | .bpoll | .launch => 0x1C0
  | .rqcommit | .rqskip => 0x001
  | .rqresume => 0x011
  | .rqsave | .rqload => 0x130
  | .rqget => 0x01F
  | .rsvld => 0x1F0
  | .rsvst => 0x1F8
  | .drlld => 0x1F9
  | .drlnext | .drlend => 0x001
  | .drlred => 0x009
  | .drlsave | .drlrst => 0x1C1
  | .emit => 0x107
  | .madd => 0x00F
  | .mqpop => 0x007
  | .marr | .mwait => 0x01F
  | .mwb => 0x1FF
  | .mast => 0x1FC
  | .mzero | .mmasp => 0x1F1
  | .mscl => 0x1FD
  | .mma => 0x1F0
  | .mmak | .mscout | .msieve => 0x1FF
  | .mmaskld => 0x001
  | .mdrain => 0x1FF
  | .mcvt => 0x1F3
  | .msr => 0x03F
  | .mfence => 0x01F
  | _ => 0

/-- A rounding field of 0 to 4 (Table 9.1). -/
def FForm.rmOk (f : FForm) : Bool := f.m 0 3 ≤ 4

/-- The array selection of an M-stream instruction: ALL requires IDX 0 (R294). -/
def FForm.arrOk (f : FForm) : Bool := !f.mb 8 || f.m 4 4 == 0

/-- The base and index kinds an instruction with AU and XK may have; the U-stream needs AU 1 and XK 1 or 2 (R203). -/
def FForm.auXkOk (u : Bool) (f : FForm) : Bool :=
  f.m 6 2 != 3 && (!u || (f.mb 8 && f.m 6 2 != 0))

/-- Atomic operations and the types each accepts (Table 11.12). -/
def atomTyOk (op : Nat) (t : Ty) : Bool :=
  match op with
  | 0 => decide (t ∈ [Ty.s32, .n32, .s64, .n64, .f32, .bf16x2, .f16x2])
  | 1 | 2 => decide (t ∈ [Ty.s32, .n32, .s64, .n64, .f32])
  | 3 | 4 | 5 => decide (t ∈ [Ty.b32, .n32, .n64])
  | _ => decide (t ∈ [Ty.b32, .s32, .n32, .f32, .s64, .n64])

/-- Operation and type of `vred` and `vscan`, with `.x` and `.sat` (R227). -/
def redOk (op : Nat) (t : Ty) (x : Bool) : Bool :=
  decide (op ≤ 5) &&
  (if op = 0 then t != .b32
   else if op ≤ 2 then t != .b32 && !x
   else t != .f32 && !x)

/-- Operation and type of a Drill session (R328): the combinations it names take IL, and ROP 6 goes with every type. -/
def drillTyOk (op : Nat) (t : Ty) : Bool :=
  match op with
  | 6 => true
  | 7 => false
  | 3 | 4 | 5 => t != .none && t != .f32
  | _ => t != .none

/-- The element index limits of `vpack` (R199) and `vunpk` (R200). -/
def packMax (t : Ty) : Nat :=
  match t with
  | .bf16x2 | .f16x2 => 0
  | .e2m1x8 => 3
  | _ => 1

/-- The highest element index of a packed word (R200). -/
def elemMax (t : Ty) : Nat :=
  match t with
  | .bf16x2 | .f16x2 => 1
  | .e2m1x8 => 7
  | .sc10 => 2
  | _ => 3

/-- The modifier combinations that the descriptions name illegal, beyond unassigned bits. -/
def modOk (u : Bool) (o : Opc) (f : FForm) : Bool :=
  match o with
  | .scmp | .vcmp => f.opx ≤ 5
  | .vfadd | .vfsub | .vfmul | .vffma | .vdiv | .vfdot2 | .vpfma | .vpfadd | .vpfmul | .vfrnd | .vrsq | .vsqrt | .vrcp => f.rmOk
  | .vcvt => f.rmOk && (match tyOf (f.m 4 5) with
      | some s => decide (s ∈ [Ty.f32, .s32, .n32, .s64, .n64]) && s != f.ty
      | none => false)
  | .vpack => f.rmOk && decide (f.m 5 2 ≤ packMax f.ty) && (f.ty != .sc10 || (f.m 0 3 == 0 && !f.mb 3))
  | .vunpk => f.opx ≤ elemMax f.ty
  | .vscl => f.rmOk && f.m 5 2 != 3
  | .vred | .vscan => redOk (f.m 0 3) f.ty (f.mb 3)
  | .vvote => f.m 0 2 ≤ 2
  | .ld | .st => f.auXkOk u && f.m 4 2 != 3 && decide (f.m 1 3 ≤ 5) && (f.m 4 2 != 0 || f.m 1 3 == 0)
  | .ldt | .stt | .ldp | .stp =>
    f.auXkOk u && f.m 4 2 != 3 && f.m 2 2 != 3 && f.m 0 2 != 3 && (f.m 4 2 != 0 || f.m 0 2 == 0)
  | .fe => f.auXkOk u && decide (f.m 3 3 ≤ 4)
  | .atom => f.m 5 3 != 7 && atomTyOk (f.m 5 3) f.ty && decide (f.m 0 3 ≤ 5)
  | .atomt => f.m 5 3 != 7 && atomTyOk (f.m 5 3) f.ty && decide (f.m 0 3 ≤ 2)
  | .atomp => atomTyOk (f.m 5 3) f.ty && decide (f.m 0 3 ≤ 2)
  | .cas => f.m 0 3 ≤ 5
  | .cast => f.m 0 3 ≤ 2
  | .fence | .mfence => f.m 0 3 ≤ 5
  | .pref => f.auXkOk u && f.m 4 2 != 3
  | .cinv => f.auXkOk u && f.m 6 2 != 2
  | .fetch =>
    (match tyOf (f.m 4 5) with
     | some s =>
       (match s with
        | .s32 | .s8 | .s16 => f.ty == .s32 && !f.mb 2 && !f.mb 1 && !f.mb 3
        | .n32 | .n8 | .n16 => f.ty == .n32 && !f.mb 2 && !f.mb 1 && !f.mb 3
        | .e3m2 | .e2m3 => f.ty == .f32 && (f.mb 2 || !f.mb 1)
        | .f32 | .bf16 | .f16 | .e4m3 | .e5m2 | .e2m1 => f.ty == .f32 && (f.mb 2 || !f.mb 1) && !f.mb 3
        | _ => false)
     | none => false)
  | .qpush | .qpop | .qtry | .qcnt => !f.mb 3 || decide (f.m 0 3 < 4)
  | .bcp | .btile | .bgat | .bsct | .bred | .bfill | .glean | .emit => !u || f.mb 8
  | .bwait | .bpoll | .launch => f.auXkOk u
  | .rqsave | .rqload => f.m 4 2 != 3
  | .rqget => f.m 0 5 ≤ 24
  | .rsvld | .rsvst => f.auXkOk u
  | .drlld => drillTyOk (f.m 6 3) f.ty
  | .drlsave | .drlrst => f.m 6 2 != 3
  | .madd => f.m 0 4 != 15
  | .mwb => f.arrOk && (!f.mb 0 || decide (f.ty ∈ [Ty.e3m2, .e2m3]))
  | .mast => f.arrOk && (!f.mb 3 || decide (f.ty ∈ [Ty.e3m2, .e2m3]))
  | .mzero | .mscl | .mma | .mmasp | .mmak | .mscout | .msieve => f.arrOk
  | .mdrain =>
    if f.ty = .none then f.m 4 5 == 0 && !f.mb 3 && !f.mb 2
    else f.arrOk && (!f.mb 2 || decide (f.ty ∈ [Ty.e3m2, .e2m3]))
  | .mcvt => f.arrOk && f.m 0 2 != 3
  | .msr => f.m 0 5 ≤ 24
  | _ => true

/-- The immediate limits of the immediate-form instructions (R125, R172, R174, R175). -/
def immOk (o : Opc) (imm : Word) : Bool :=
  let n := imm.toNat
  match o with
  | .skip => decide (1 ≤ n) && decide (n ≤ 7)
  | .wait => decide (1 ≤ n) && decide (n ≤ 63)
  | .sr | .srw => n ≤ 21
  | _ => true

/-- A guard is legal unless it negates p7 (Table 7.3); the M-stream takes only the unguarded form (R136). -/
def Guard.ok (g : Guard) (st : Stream) : Bool :=
  if g.pred = 7 then !g.neg else st != .mstream

/-- Has the instruction a destination register that a delayed write could name (R143, R146)? Uniform destinations
of row code count as destinations (DEDUCED, log 13). -/
def hasDst (u : Bool) (o : Opc) (f : FForm) : Bool :=
  match (shape u o f).d with
  | .vd | .v2d | .g8 | .p2 => true
  | .s => true
  | .p => true
  | _ => false

/-- The first thing illegal in a field-form instruction of a stream; none when it is legal (R120, R129 to R136). -/
def illegalF (st : Stream) (o : Opc) (f : FForm) : Option Illegal :=
  let u := st == .ustream
  let sh := shape u o f
  if o.isImm then some .form
  else if !o.inStream st then some .stream
  else if !decide (f.ty ∈ o.tys) then some .typeNot
  else if f.mod.toNat &&& modMask o != f.mod.toNat || !modOk u o f then some .modifier
  else if !(sh.d.legal f.d.toNat && sh.a.legal f.a.toNat && sh.b.legal f.b.toNat && sh.c.legal f.c.toNat) then some .field
  else if f.wc = 6 ∨ (f.wc ≠ 7 ∧ o.latency ≠ .long) then some .counter
  else if f.look ≠ 0 ∧ (f.interlock = true ∨ o.latency ≠ .long ∨ hasDst u o f = false) then some .look
  else if st = .mstream ∧ f.interlock = false then some .version
  else if !f.grd.ok st then some .guard
  else none

/-- The first thing illegal in an immediate-form instruction of a stream. -/
def illegalI (st : Stream) (o : Opc) (x : IForm) : Option Illegal :=
  if !o.isImm then some .form
  else if !o.inStream st then some .stream
  else if !decide (x.ty ∈ o.tys) then some .typeNot
  else if !immOk o x.imm then some .immediate
  else if !(immFld (st == .ustream) o x).legal x.d.toNat then some .field
  else if x.look ≠ 0 then some .look
  else if st = .mstream ∧ x.interlock = false then some .version
  else if !x.grd.ok st then some .guard
  else none

/-- The first thing illegal in an instruction of a stream (R120). -/
def illegalIn (st : Stream) (o : Opc) (fm : Form) : Option Illegal :=
  match fm with
  | .f f => illegalF st o f
  | .i x => illegalI st o x

/-- The vector registers an instruction of row code names; each must lie below the count of the executing role (R133). -/
def regsNamed (o : Opc) (fm : Form) : List Nat :=
  match fm with
  | .f f =>
    let sh := shape false o f
    sh.d.regs f.d.toNat ++ sh.a.regs f.a.toNat ++ sh.b.regs f.b.toNat ++ sh.c.regs f.c.toNat
  | .i x => (immFld false o x).regs x.d.toNat

/-- Does the instruction give a vector result that a distance operand may name: a vector destination of a short
instruction (Table 7.9)? -/
def givesDistance (o : Opc) (fm : Form) : Bool :=
  o.latency == .short &&
  match fm with
  | .f f => (shape false o f).d.isVecDst
  | .i x => o != .srw && (immFld false o x).isVecDst

/-- The distances ^1 to ^7 that an instruction of row code reads (R137): codes 121 to 127 in a vector source field. -/
def distances (o : Opc) (fm : Form) : List Nat :=
  match fm with
  | .f f =>
    let sh := shape false o f
    [(sh.a, f.a.toNat), (sh.b, f.b.toNat), (sh.c, f.c.toNat)].filterMap (fun e =>
      if (e.1 = .v ∨ e.1 = .v2) ∧ 121 ≤ e.2 then some (e.2 - 120) else none)
  | .i _ => []

/-- Does the instruction, with MOD 0, read a vector or a uniform third source (Table 7.6)? The implied C code. -/
def impliedC (o : Opc) : Nat :=
  match o with
  | .vffma | .vmad | .vbfi | .vdot4 | .vfdot2 | .vpfma | .vpack | .st | .stt | .stp | .atom | .atomt | .atomp | .cas
  | .cast | .rsvst | .rsvmrg => 120
  | .sbfi | .sst | .sstt | .rqbegin | .rtvis | .ltw => 64
  | _ => 0

/-- The opcode and the word fields of an instruction; the rows that are events have no words. -/
def Instr.parts : Instr → Option (Opc × Form)
  | .nop x => some (.nop, .f x)
  | .skip x => some (.skip, .i x)
  | .bra x => some (.bra, .i x)
  | .brx x => some (.brx, .f x)
  | .call x => some (.call, .i x)
  | .ret x => some (.ret, .f x)
  | .join x => some (.join, .f x)
  | .exit x => some (.exit, .f x)
  | .yield x => some (.yield, .f x)
  | .wait x => some (.wait, .i x)
  | .brk x => some (.brk, .i x)
  | .trap x => some (.trap, .i x)
  | .sr x => some (.sr, .i x)
  | .srw x => some (.srw, .i x)
  | .fresume x => some (.fresume, .f x)
  | .sysc x => some (.sysc, .i x)
  | .smov x => some (.smov, .f x)
  | .sli x => some (.sli, .i x)
  | .slk x => some (.slk, .i x)
  | .sldc x => some (.sldc, .f x)
  | .sadd x => some (.sadd, .f x)
  | .ssub x => some (.ssub, .f x)
  | .smul x => some (.smul, .f x)
  | .smulh x => some (.smulh, .f x)
  | .sand x => some (.sand, .f x)
  | .sor x => some (.sor, .f x)
  | .sxor x => some (.sxor, .f x)
  | .snot x => some (.snot, .f x)
  | .sshl x => some (.sshl, .f x)
  | .sshr x => some (.sshr, .f x)
  | .ssar x => some (.ssar, .f x)
  | .smin x => some (.smin, .f x)
  | .smax x => some (.smax, .f x)
  | .scmp x => some (.scmp, .f x)
  | .ssel x => some (.ssel, .f x)
  | .sbfe x => some (.sbfe, .f x)
  | .sbfi x => some (.sbfi, .f x)
  | .sclz x => some (.sclz, .f x)
  | .spopc x => some (.spopc, .f x)
  | .sld x => some (.sld, .f x)
  | .sst x => some (.sst, .f x)
  | .sldt x => some (.sldt, .f x)
  | .sstt x => some (.sstt, .f x)
  | .vmov x => some (.vmov, .f x)
  | .vli x => some (.vli, .i x)
  | .vlk x => some (.vlk, .i x)
  | .vbcs x => some (.vbcs, .f x)
  | .vadd x => some (.vadd, .f x)
  | .vsub x => some (.vsub, .f x)
  | .vmul x => some (.vmul, .f x)
  | .vmulh x => some (.vmulh, .f x)
  | .vmad x => some (.vmad, .f x)
  | .vabs x => some (.vabs, .f x)
  | .vneg x => some (.vneg, .f x)
  | .vmin x => some (.vmin, .f x)
  | .vmax x => some (.vmax, .f x)
  | .vand x => some (.vand, .f x)
  | .vor x => some (.vor, .f x)
  | .vxor x => some (.vxor, .f x)
  | .vnot x => some (.vnot, .f x)
  | .vandn x => some (.vandn, .f x)
  | .vshl x => some (.vshl, .f x)
  | .vshr x => some (.vshr, .f x)
  | .vsar x => some (.vsar, .f x)
  | .vrol x => some (.vrol, .f x)
  | .vclz x => some (.vclz, .f x)
  | .vctz x => some (.vctz, .f x)
  | .vpopc x => some (.vpopc, .f x)
  | .vbrev x => some (.vbrev, .f x)
  | .vbfe x => some (.vbfe, .f x)
  | .vbfi x => some (.vbfi, .f x)
  | .vcmp x => some (.vcmp, .f x)
  | .vsel x => some (.vsel, .f x)
  | .vdot4 x => some (.vdot4, .f x)
  | .vtag x => some (.vtag, .f x)
  | .pand x => some (.pand, .f x)
  | .por x => some (.por, .f x)
  | .pxor x => some (.pxor, .f x)
  | .pnot x => some (.pnot, .f x)
  | .pset x => some (.pset, .f x)
  | .pget x => some (.pget, .f x)
  | .vfadd x => some (.vfadd, .f x)
  | .vfsub x => some (.vfsub, .f x)
  | .vfmul x => some (.vfmul, .f x)
  | .vffma x => some (.vffma, .f x)
  | .vfmin x => some (.vfmin, .f x)
  | .vfmax x => some (.vfmax, .f x)
  | .vfabs x => some (.vfabs, .f x)
  | .vfneg x => some (.vfneg, .f x)
  | .vfcmp x => some (.vfcmp, .f x)
  | .vfclass x => some (.vfclass, .f x)
  | .vfrnd x => some (.vfrnd, .f x)
  | .vrcp x => some (.vrcp, .f x)
  | .vrsq x => some (.vrsq, .f x)
  | .vsqrt x => some (.vsqrt, .f x)
  | .vdiv x => some (.vdiv, .f x)
  | .vexp2 x => some (.vexp2, .f x)
  | .vlog2 x => some (.vlog2, .f x)
  | .vsinpi x => some (.vsinpi, .f x)
  | .vcospi x => some (.vcospi, .f x)
  | .vcvt x => some (.vcvt, .f x)
  | .vpack x => some (.vpack, .f x)
  | .vunpk x => some (.vunpk, .f x)
  | .vscl x => some (.vscl, .f x)
  | .vfdot2 x => some (.vfdot2, .f x)
  | .vpfma x => some (.vpfma, .f x)
  | .vpfadd x => some (.vpfadd, .f x)
  | .vpfmul x => some (.vpfmul, .f x)
  | .vshfl x => some (.vshfl, .f x)
  | .vbcast x => some (.vbcast, .f x)
  | .vred x => some (.vred, .f x)
  | .vscan x => some (.vscan, .f x)
  | .vmatch x => some (.vmatch, .f x)
  | .vcompact x => some (.vcompact, .f x)
  | .vballot x => some (.vballot, .f x)
  | .vvote x => some (.vvote, .f x)
  | .vrank x => some (.vrank, .f x)
  | .vfirst x => some (.vfirst, .f x)
  | .ld x => some (.ld, .f x)
  | .st x => some (.st, .f x)
  | .ldt x => some (.ldt, .f x)
  | .stt x => some (.stt, .f x)
  | .ldp x => some (.ldp, .f x)
  | .stp x => some (.stp, .f x)
  | .fe x => some (.fe, .f x)
  | .atom x => some (.atom, .f x)
  | .atomt x => some (.atomt, .f x)
  | .atomp x => some (.atomp, .f x)
  | .cas x => some (.cas, .f x)
  | .cast x => some (.cast, .f x)
  | .fence x => some (.fence, .f x)
  | .pref x => some (.pref, .f x)
  | .cinv x => some (.cinv, .f x)
  | .fetch x => some (.fetch, .f x)
  | .rdvinit x => some (.rdvinit, .f x)
  | .rdvarr x => some (.rdvarr, .f x)
  | .rdvwait x => some (.rdvwait, .f x)
  | .rdvtest x => some (.rdvtest, .f x)
  | .qpush x => some (.qpush, .f x)
  | .qpop x => some (.qpop, .f x)
  | .qtry x => some (.qtry, .f x)
  | .qcnt x => some (.qcnt, .f x)
  | .bcp x => some (.bcp, .f x)
  | .btile x => some (.btile, .f x)
  | .bgat x => some (.bgat, .f x)
  | .bsct x => some (.bsct, .f x)
  | .bred x => some (.bred, .f x)
  | .bfill x => some (.bfill, .f x)
  | .bwait x => some (.bwait, .f x)
  | .bpoll x => some (.bpoll, .f x)
  | .rqbegin x => some (.rqbegin, .f x)
  | .rqstep x => some (.rqstep, .f x)
  | .rqcommit x => some (.rqcommit, .f x)
  | .rqskip x => some (.rqskip, .f x)
  | .rqresume x => some (.rqresume, .f x)
  | .rqsave x => some (.rqsave, .f x)
  | .rqload x => some (.rqload, .f x)
  | .rqget x => some (.rqget, .f x)
  | .rtvis x => some (.rtvis, .f x)
  | .rsvld x => some (.rsvld, .f x)
  | .rsvst x => some (.rsvst, .f x)
  | .rsvupd x => some (.rsvupd, .f x)
  | .rsvmrg x => some (.rsvmrg, .f x)
  | .rsvnorm x => some (.rsvnorm, .f x)
  | .rng x => some (.rng, .f x)
  | .ltw x => some (.ltw, .f x)
  | .drlld x => some (.drlld, .f x)
  | .drlnext x => some (.drlnext, .f x)
  | .drlred x => some (.drlred, .f x)
  | .drlend x => some (.drlend, .f x)
  | .drlsave x => some (.drlsave, .f x)
  | .drlrst x => some (.drlrst, .f x)
  | .graft x => some (.graft, .f x)
  | .gftflush x => some (.gftflush, .f x)
  | .mrg x => some (.mrg, .f x)
  | .glean x => some (.glean, .f x)
  | .emit x => some (.emit, .f x)
  | .launch x => some (.launch, .f x)
  | .recget x => some (.recget, .f x)
  | .mnop x => some (.mnop, .f x)
  | .mli x => some (.mli, .i x)
  | .madd x => some (.madd, .f x)
  | .mbra x => some (.mbra, .i x)
  | .mloop x => some (.mloop, .i x)
  | .mend x => some (.mend, .f x)
  | .mqpop x => some (.mqpop, .f x)
  | .marr x => some (.marr, .f x)
  | .mwait x => some (.mwait, .f x)
  | .mleave x => some (.mleave, .f x)
  | .mwb x => some (.mwb, .f x)
  | .mast x => some (.mast, .f x)
  | .mzero x => some (.mzero, .f x)
  | .mscl x => some (.mscl, .f x)
  | .mma x => some (.mma, .f x)
  | .mmasp x => some (.mmasp, .f x)
  | .mmak x => some (.mmak, .f x)
  | .mscout x => some (.mscout, .f x)
  | .msieve x => some (.msieve, .f x)
  | .mmaskld x => some (.mmaskld, .f x)
  | .mdrain x => some (.mdrain, .f x)
  | .mcvt x => some (.mcvt, .f x)
  | .msr x => some (.msr, .f x)
  | .mfence x => some (.mfence, .f x)
  | .longLatencyComplete _ => none
  | .waitEnd _ => none
  | .arrayOpComplete _ _ => none
  | .mdrainGranuleWrite _ => none
  | .barrowBlock _ => none
  | .sequencedReducingCopy _ => none
  | .gleanerPass _ => none
  | .reportRecordWrite _ => none
  | .continuationEntry _ _ => none
  | .handlerWindowAssign _ => none
  | .handlerWindowTimeout _ _ => none
  | .handlerFailure _ _ => none
  | .readf _ _ _ => none
  | .readt _ _ _ _ => none
  | .writet _ _ _ _ _ => none
  | .reads _ _ _ => none
  | .step _ _ _ => none
  | .resume _ _ => none
  | .kill _ _ _ => none
  | .halt _ _ _ _ => none
  | .launchDeadlineExpiry _ => none
  | .recordAccept _ _ => none
  | .launchReady _ => none
  | .bindRecordWrite _ _ _ => none
  | .teamDispatch _ _ => none
  | .teamRetire _ => none
  | .batchTimeout _ _ => none
  | .preemptBoundary _ _ _ _ => none
  | .preemptSave _ _ _ _ => none
  | .teamRestore _ _ _ => none
  | .preemptDeadlineExpiry _ => none
  | .uncorrectableError _ => none
  | .bucketPeriod => none
  | .arbiterGrant _ _ => none
  | .weighbridgeWindow => none
  | .weighbridgeGrant _ => none
  | .overCurrentClamp => none
  | .sigok _ _ => none
  | .sigfail _ _ => none
  | .invalPage _ _ => none
  | .invalPitch _ => none
  | .invalidationDone _ => none
  | .czctl _ _ => none
  | .crateConversionDone _ => none
  | .rvsways _ _ => none
  | .rvsResize _ => none
  | .frameEntry _ _ => none
  | .frameScrubDone _ => none
  | .refill _ _ _ _ => none
  | .svcreply _ _ => none
  | .registerWrite _ _ _ => none
  | .modereq _ => none
  | .modeDrainDeadline => none
  | .purgeDone _ => none
  | .partreset _ => none
  | .flr _ => none
  | .dieOffline _ => none
  | .dieEvacuationDone => none
  | .dieOnline _ _ => none
  | .ckpt _ => none
  | .ckptQuiesceDeadline => none
  | .ckptStreamDone _ => none
  | .packageReset _ => none
  | .hostBar2Access _ _ _ => none
  | .pageRequestResponse _ _ _ => none
  | .spdmRequest _ => none
  | .fabricRequest _ _ _ _ => none
  | .fabricUnreachableTimeout _ => none
  | .stepWaitTimeout _ _ => none
  | .overCurrentClampRelease => none
  | .managementCoreAccess _ _ => none
  | .fabricDomainFormation _ _ => none

/-- The instruction of an opcode with the given fields; none where the form is not the opcode's own (R129). -/
def Instr.build : Opc → Form → Option Instr
  | .nop, .f x => some (.nop x)
  | .skip, .i x => some (.skip x)
  | .bra, .i x => some (.bra x)
  | .brx, .f x => some (.brx x)
  | .call, .i x => some (.call x)
  | .ret, .f x => some (.ret x)
  | .join, .f x => some (.join x)
  | .exit, .f x => some (.exit x)
  | .yield, .f x => some (.yield x)
  | .wait, .i x => some (.wait x)
  | .brk, .i x => some (.brk x)
  | .trap, .i x => some (.trap x)
  | .sr, .i x => some (.sr x)
  | .srw, .i x => some (.srw x)
  | .fresume, .f x => some (.fresume x)
  | .sysc, .i x => some (.sysc x)
  | .smov, .f x => some (.smov x)
  | .sli, .i x => some (.sli x)
  | .slk, .i x => some (.slk x)
  | .sldc, .f x => some (.sldc x)
  | .sadd, .f x => some (.sadd x)
  | .ssub, .f x => some (.ssub x)
  | .smul, .f x => some (.smul x)
  | .smulh, .f x => some (.smulh x)
  | .sand, .f x => some (.sand x)
  | .sor, .f x => some (.sor x)
  | .sxor, .f x => some (.sxor x)
  | .snot, .f x => some (.snot x)
  | .sshl, .f x => some (.sshl x)
  | .sshr, .f x => some (.sshr x)
  | .ssar, .f x => some (.ssar x)
  | .smin, .f x => some (.smin x)
  | .smax, .f x => some (.smax x)
  | .scmp, .f x => some (.scmp x)
  | .ssel, .f x => some (.ssel x)
  | .sbfe, .f x => some (.sbfe x)
  | .sbfi, .f x => some (.sbfi x)
  | .sclz, .f x => some (.sclz x)
  | .spopc, .f x => some (.spopc x)
  | .sld, .f x => some (.sld x)
  | .sst, .f x => some (.sst x)
  | .sldt, .f x => some (.sldt x)
  | .sstt, .f x => some (.sstt x)
  | .vmov, .f x => some (.vmov x)
  | .vli, .i x => some (.vli x)
  | .vlk, .i x => some (.vlk x)
  | .vbcs, .f x => some (.vbcs x)
  | .vadd, .f x => some (.vadd x)
  | .vsub, .f x => some (.vsub x)
  | .vmul, .f x => some (.vmul x)
  | .vmulh, .f x => some (.vmulh x)
  | .vmad, .f x => some (.vmad x)
  | .vabs, .f x => some (.vabs x)
  | .vneg, .f x => some (.vneg x)
  | .vmin, .f x => some (.vmin x)
  | .vmax, .f x => some (.vmax x)
  | .vand, .f x => some (.vand x)
  | .vor, .f x => some (.vor x)
  | .vxor, .f x => some (.vxor x)
  | .vnot, .f x => some (.vnot x)
  | .vandn, .f x => some (.vandn x)
  | .vshl, .f x => some (.vshl x)
  | .vshr, .f x => some (.vshr x)
  | .vsar, .f x => some (.vsar x)
  | .vrol, .f x => some (.vrol x)
  | .vclz, .f x => some (.vclz x)
  | .vctz, .f x => some (.vctz x)
  | .vpopc, .f x => some (.vpopc x)
  | .vbrev, .f x => some (.vbrev x)
  | .vbfe, .f x => some (.vbfe x)
  | .vbfi, .f x => some (.vbfi x)
  | .vcmp, .f x => some (.vcmp x)
  | .vsel, .f x => some (.vsel x)
  | .vdot4, .f x => some (.vdot4 x)
  | .vtag, .f x => some (.vtag x)
  | .pand, .f x => some (.pand x)
  | .por, .f x => some (.por x)
  | .pxor, .f x => some (.pxor x)
  | .pnot, .f x => some (.pnot x)
  | .pset, .f x => some (.pset x)
  | .pget, .f x => some (.pget x)
  | .vfadd, .f x => some (.vfadd x)
  | .vfsub, .f x => some (.vfsub x)
  | .vfmul, .f x => some (.vfmul x)
  | .vffma, .f x => some (.vffma x)
  | .vfmin, .f x => some (.vfmin x)
  | .vfmax, .f x => some (.vfmax x)
  | .vfabs, .f x => some (.vfabs x)
  | .vfneg, .f x => some (.vfneg x)
  | .vfcmp, .f x => some (.vfcmp x)
  | .vfclass, .f x => some (.vfclass x)
  | .vfrnd, .f x => some (.vfrnd x)
  | .vrcp, .f x => some (.vrcp x)
  | .vrsq, .f x => some (.vrsq x)
  | .vsqrt, .f x => some (.vsqrt x)
  | .vdiv, .f x => some (.vdiv x)
  | .vexp2, .f x => some (.vexp2 x)
  | .vlog2, .f x => some (.vlog2 x)
  | .vsinpi, .f x => some (.vsinpi x)
  | .vcospi, .f x => some (.vcospi x)
  | .vcvt, .f x => some (.vcvt x)
  | .vpack, .f x => some (.vpack x)
  | .vunpk, .f x => some (.vunpk x)
  | .vscl, .f x => some (.vscl x)
  | .vfdot2, .f x => some (.vfdot2 x)
  | .vpfma, .f x => some (.vpfma x)
  | .vpfadd, .f x => some (.vpfadd x)
  | .vpfmul, .f x => some (.vpfmul x)
  | .vshfl, .f x => some (.vshfl x)
  | .vbcast, .f x => some (.vbcast x)
  | .vred, .f x => some (.vred x)
  | .vscan, .f x => some (.vscan x)
  | .vmatch, .f x => some (.vmatch x)
  | .vcompact, .f x => some (.vcompact x)
  | .vballot, .f x => some (.vballot x)
  | .vvote, .f x => some (.vvote x)
  | .vrank, .f x => some (.vrank x)
  | .vfirst, .f x => some (.vfirst x)
  | .ld, .f x => some (.ld x)
  | .st, .f x => some (.st x)
  | .ldt, .f x => some (.ldt x)
  | .stt, .f x => some (.stt x)
  | .ldp, .f x => some (.ldp x)
  | .stp, .f x => some (.stp x)
  | .fe, .f x => some (.fe x)
  | .atom, .f x => some (.atom x)
  | .atomt, .f x => some (.atomt x)
  | .atomp, .f x => some (.atomp x)
  | .cas, .f x => some (.cas x)
  | .cast, .f x => some (.cast x)
  | .fence, .f x => some (.fence x)
  | .pref, .f x => some (.pref x)
  | .cinv, .f x => some (.cinv x)
  | .fetch, .f x => some (.fetch x)
  | .rdvinit, .f x => some (.rdvinit x)
  | .rdvarr, .f x => some (.rdvarr x)
  | .rdvwait, .f x => some (.rdvwait x)
  | .rdvtest, .f x => some (.rdvtest x)
  | .qpush, .f x => some (.qpush x)
  | .qpop, .f x => some (.qpop x)
  | .qtry, .f x => some (.qtry x)
  | .qcnt, .f x => some (.qcnt x)
  | .bcp, .f x => some (.bcp x)
  | .btile, .f x => some (.btile x)
  | .bgat, .f x => some (.bgat x)
  | .bsct, .f x => some (.bsct x)
  | .bred, .f x => some (.bred x)
  | .bfill, .f x => some (.bfill x)
  | .bwait, .f x => some (.bwait x)
  | .bpoll, .f x => some (.bpoll x)
  | .rqbegin, .f x => some (.rqbegin x)
  | .rqstep, .f x => some (.rqstep x)
  | .rqcommit, .f x => some (.rqcommit x)
  | .rqskip, .f x => some (.rqskip x)
  | .rqresume, .f x => some (.rqresume x)
  | .rqsave, .f x => some (.rqsave x)
  | .rqload, .f x => some (.rqload x)
  | .rqget, .f x => some (.rqget x)
  | .rtvis, .f x => some (.rtvis x)
  | .rsvld, .f x => some (.rsvld x)
  | .rsvst, .f x => some (.rsvst x)
  | .rsvupd, .f x => some (.rsvupd x)
  | .rsvmrg, .f x => some (.rsvmrg x)
  | .rsvnorm, .f x => some (.rsvnorm x)
  | .rng, .f x => some (.rng x)
  | .ltw, .f x => some (.ltw x)
  | .drlld, .f x => some (.drlld x)
  | .drlnext, .f x => some (.drlnext x)
  | .drlred, .f x => some (.drlred x)
  | .drlend, .f x => some (.drlend x)
  | .drlsave, .f x => some (.drlsave x)
  | .drlrst, .f x => some (.drlrst x)
  | .graft, .f x => some (.graft x)
  | .gftflush, .f x => some (.gftflush x)
  | .mrg, .f x => some (.mrg x)
  | .glean, .f x => some (.glean x)
  | .emit, .f x => some (.emit x)
  | .launch, .f x => some (.launch x)
  | .recget, .f x => some (.recget x)
  | .mnop, .f x => some (.mnop x)
  | .mli, .i x => some (.mli x)
  | .madd, .f x => some (.madd x)
  | .mbra, .i x => some (.mbra x)
  | .mloop, .i x => some (.mloop x)
  | .mend, .f x => some (.mend x)
  | .mqpop, .f x => some (.mqpop x)
  | .marr, .f x => some (.marr x)
  | .mwait, .f x => some (.mwait x)
  | .mleave, .f x => some (.mleave x)
  | .mwb, .f x => some (.mwb x)
  | .mast, .f x => some (.mast x)
  | .mzero, .f x => some (.mzero x)
  | .mscl, .f x => some (.mscl x)
  | .mma, .f x => some (.mma x)
  | .mmasp, .f x => some (.mmasp x)
  | .mmak, .f x => some (.mmak x)
  | .mscout, .f x => some (.mscout x)
  | .msieve, .f x => some (.msieve x)
  | .mmaskld, .f x => some (.mmaskld x)
  | .mdrain, .f x => some (.mdrain x)
  | .mcvt, .f x => some (.mcvt x)
  | .msr, .f x => some (.msr x)
  | .mfence, .f x => some (.mfence x)
  | _, _ => none

end Sys2Proof
end

