-- ==== Sys2Proof/WellFormed.lean ====
section
/-! DEFINITION. Well-formed instructions: those that a stream may decode (R120 to R136, R160 to R164, R293, R325, R362),
and the checks that concern an instruction's place in its clause (R121, R124, R125). -/

namespace Sys2Proof

/-- The reason a stream of code may not hold this instruction; none when it may. The rows of the opcode table that are
events have no words, so no stream holds them, and nothing is asked of them here. -/
def Instr.illegal (st : Stream) (i : Instr) : Option Illegal :=
  match i.parts with
  | some (o, fm) => illegalIn st o fm
  | none => none

/-- The instruction is legal in the stream. -/
def Instr.wf (st : Stream) (i : Instr) : Bool := (i.illegal st).isNone

/-- The reason an instruction may not stand at index `j` of a clause of `n` instructions of class `cls`. -/
def Instr.illegalAt (st : Stream) (cls n j : Nat) (i : Instr) : Option Illegal :=
  match i.parts with
  | some (o, fm) =>
    if o.transfer = true ∧ j + 1 ≠ n then some .transferNotLast
    else if st ≠ .mstream ∧ cls ≠ 0 ∧ cls ≠ o.clazz ∧ o ≠ .nop ∧ o ≠ .skip ∧ o.transfer = false then some .clazz
    else
      match o, fm with
      | .skip, .i x => if j + x.imm.toNat + 1 ≤ n then none else some .skipReach
      | _, _ => none
  | none => some .opcode

/-- The registers of row code lie below the register count of the executing role (R133). -/
def Instr.regsOk (nregs : Nat) (i : Instr) : Bool :=
  match i.parts with
  | some (o, fm) => (regsNamed o fm).all (· < nregs)
  | none => true

end Sys2Proof
end

