-- ==== Sys2Proof/Decode.lean ====
section
/-! DEFINITION. Decoding and encoding: words to an instruction (R128 to R132), a clause decoded whole (R118 to R121,
R124, R125, R140), and the encoder, which writes the short form wherever the short form means the same (R132, R155). -/

namespace Sys2Proof

/-- Field bits of a word. -/
def wbits (w : Word) (lo n : Nat) : BitVec n := w.extractLsb' lo n

/-- The parts of word 0 (Table 7.2). -/
structure Word0 where
  interlock : Bool
  long : Bool
  opc  : Opc
  d    : BitVec 7
  a    : BitVec 7
  b    : BitVec 7
  imm  : BitVec 14
  deriving DecidableEq, Repr

/-- Reads word 0 in the map of the stream: VER 0b10 and 0b11 and unassigned codes are illegal (R128, R149, R151). -/
def decodeWord0 (mst : Bool) (w : Word) : Except Illegal Word0 :=
  let ver := (wbits w 30 2).toNat
  if 2 ≤ ver then .error .version
  else
    match (if mst then mOpc (wbits w 21 8).toNat else rowOpc (wbits w 21 8).toNat) with
    | none => .error .opcode
    | some o =>
      .ok { interlock := ver == 1, long := w.getLsbD 29, opc := o, d := wbits w 14 7, a := wbits w 7 7, b := wbits w 0 7,
            imm := wbits w 0 14 }

/-- The unguarded guard that the short form implies (Table 7.6). -/
def Guard.always : Guard := { neg := false, pred := 7 }

/-- The guard of word 1. -/
def guardOf (w1 : Word) : Guard := { neg := w1.getLsbD 27, pred := wbits w1 24 3 }

/-- A field-form instruction from its words (Tables 7.3, 7.4, 7.6). -/
def fieldForm (p : Word0) (w1 : Option Word) : Except Illegal FForm :=
  match w1 with
  | none =>
    .ok { interlock := p.interlock, d := p.d, a := p.a, b := p.b, look := 0, grd := Guard.always,
          c := BitVec.ofNat 7 (impliedC p.opc), wc := 7, ty := p.opc.defaultTy, mod := 0 }
  | some w =>
    match tyOf (wbits w 9 5).toNat with
    | none => .error .typeCode
    | some t =>
      .ok { interlock := p.interlock, d := p.d, a := p.a, b := p.b, look := wbits w 28 4, grd := guardOf w,
            c := wbits w 17 7, wc := wbits w 14 3, ty := t, mod := wbits w 0 9 }

/-- An immediate-form instruction from its words (R132). -/
def immForm (p : Word0) (w1 : Option Word) : Except Illegal IForm :=
  match w1 with
  | none =>
    .ok { interlock := p.interlock, d := p.d, look := 0, grd := Guard.always, ty := p.opc.defaultTy,
          imm := p.imm.signExtend 32 }
  | some w =>
    if w.getLsbD 23 then .error .immReserved
    else
      match tyOf (wbits w 18 5).toNat with
      | none => .error .typeCode
      | some t =>
        .ok { interlock := p.interlock, d := p.d, look := wbits w 28 4, grd := guardOf w, ty := t,
              imm := (wbits w 0 18) ++ p.imm }

/-- One instruction from the words that start with it, and the words that follow it. -/
def decodeInstr (mst : Bool) (ws : List Word) : Except Illegal (Instr × List Word) :=
  match ws with
  | [] => .error .missingWord
  | w0 :: r =>
    match decodeWord0 mst w0 with
    | .error e => .error e
    | .ok p =>
      if p.long then
        match r with
        | [] => .error .missingWord
        | w1 :: r' => finishWord p (some w1) r'
      else finishWord p none r
where
  /-- The instruction of word 0 and of word 1 if there is one. -/
  finishWord (p : Word0) (w1 : Option Word) (r : List Word) : Except Illegal (Instr × List Word) :=
    match (if p.opc.isImm then (immForm p w1).map Form.i else (fieldForm p w1).map Form.f) with
    | .error e => .error e
    | .ok fm =>
      match Instr.build p.opc fm with
      | some i => .ok (i, r)
      | none => .error .form

/-- The clause header (Table 7.1). -/
structure Header where
  yld   : Bool
  wait  : BitVec 6
  clazz : BitVec 3
  count : BitVec 4
  deriving DecidableEq, Repr

/-- Reads a clause header; M-stream clauses carry CLASS 0 and WAIT 0 (R119, R151). -/
def decodeHeader (mst : Bool) (w : Word) : Except Illegal Header :=
  if wbits w 16 16 ≠ 0 then .error .headerReserved
  else if wbits w 13 2 ≠ 0 then .error .headerVersion
  else if wbits w 4 3 = 7 then .error .headerClass
  else if wbits w 0 4 = 0 then .error .headerCount
  else if mst ∧ (wbits w 4 3 ≠ 0 ∨ wbits w 7 6 ≠ 0) then .error .headerMStream
  else .ok { yld := w.getLsbD 15, wait := wbits w 7 6, clazz := wbits w 4 3, count := wbits w 0 4 }

/-- A decoded clause: `words` counts its words, the header included. -/
structure Clause where
  header : Header
  instrs : List Instr
  words  : Nat
  deriving DecidableEq, Repr

/-- What decoding a clause whole answers (R120). -/
inductive ClauseResult where
  /-- The clause is legal. -/
  | ok (c : Clause)
  /-- Trap IL; the index is 15 when the header is at fault. -/
  | il (index : Nat) (why : Illegal)
  /-- Trap DST: an invalid distance operand (R140). -/
  | dst (index : Nat)
  /-- The words given end before the clause does. -/
  | more
  deriving DecidableEq, Repr

/-- The instructions of a clause in order, with their words' VER compared (R128); `j` is the index of the next one. -/
def decodeBody (st : Stream) (nregs cls n : Nat) (ver : Option Bool) : Nat → Nat → List Word → List Instr → ClauseResult ⊕ (List Instr × List Word)
  | 0, _, ws, acc => .inr (acc.reverse, ws)
  | fuel + 1, j, ws, acc =>
    match decodeInstr (st == .mstream) ws with
    | .error .missingWord => .inl .more
    | .error e => .inl (.il j e)
    | .ok (i, rest) =>
      let v := (ws.headD 0).getLsbD 30
      if ver.getD v ≠ v then .inl (.il j .versionMix)
      else
        match (i.illegal st).or (i.illegalAt st cls n j) with
        | some e => .inl (.il j e)
        | none =>
          if st = .row ∧ i.regsOk nregs = false then .inl (.il j .registers)
          else decodeBody st nregs cls n (some v) fuel (j + 1) rest (i :: acc)

/-- Does the instruction at index `j` hold an invalid distance (Table 7.9)? -/
def badDistance (is : List Instr) (j : Nat) (i : Instr) : Bool :=
  match i.parts with
  | some (o, fm) =>
    (distances o fm).any (fun k =>
      if j < k then true
      else
        match (is[j - k]?).bind Instr.parts with
        | some (o', fm') => !givesDistance o' fm'
        | none => true)
  | none => false

/-- The first index that holds an invalid distance. -/
def firstBadDistance (is : List Instr) : Nat → List Instr → Option Nat
  | _, [] => none
  | j, i :: r => if badDistance is j i then some j else firstBadDistance is (j + 1) r

/-- Decodes the clause that starts with the first word given (R120): IL before DST, and the first index of the trap taken. -/
def decodeClause (st : Stream) (nregs : Nat) (ws : List Word) : ClauseResult :=
  match ws with
  | [] => .more
  | h :: r =>
    match decodeHeader (st == .mstream) h with
    | .error e => .il 15 e
    | .ok hd =>
      match decodeBody st nregs hd.clazz.toNat hd.count.toNat none hd.count.toNat 0 r [] with
      | .inl res => res
      | .inr (is, rest) =>
        match (if st = .row then firstBadDistance is 0 is else none) with
        | some j => .dst j
        | none => .ok { header := hd, instrs := is, words := ws.length - rest.length }

/-! The encoder. -/

/-- The value of VER (Table 7.2). -/
def verBits (interlock : Bool) : BitVec 2 := if interlock then 1 else 0

/-- Word 0 of the field form. -/
def word0F (f : FForm) (long : Bool) (o : Opc) : Word :=
  verBits f.interlock ++ BitVec.ofBool long ++ BitVec.ofNat 8 o.code ++ f.d ++ f.a ++ f.b

/-- Word 1 of the field form (Tables 7.3, 7.4). -/
def word1F (f : FForm) : Word :=
  f.look ++ BitVec.ofBool f.grd.neg ++ f.grd.pred ++ f.c ++ f.wc ++ BitVec.ofNat 5 f.ty.code ++ f.mod

/-- Word 0 of the immediate form. -/
def word0I (x : IForm) (long : Bool) (o : Opc) : Word :=
  verBits x.interlock ++ BitVec.ofBool long ++ BitVec.ofNat 8 o.code ++ x.d ++ x.imm.extractLsb' 0 14

/-- Word 1 of the immediate form (Table 7.3, R132). -/
def word1I (x : IForm) : Word :=
  x.look ++ BitVec.ofBool x.grd.neg ++ x.grd.pred ++ (0 : BitVec 1) ++ BitVec.ofNat 5 x.ty.code ++ x.imm.extractLsb' 14 18

/-- Every field of Table 7.6 takes its implied value. -/
def shortF (o : Opc) (f : FForm) : Bool :=
  f.look == 0 && f.grd == Guard.always && f.c == BitVec.ofNat 7 (impliedC o) && f.wc == 7 && f.ty == o.defaultTy && f.mod == 0

/-- The short form of the immediate form says the same. -/
def shortI (o : Opc) (x : IForm) : Bool :=
  x.look == 0 && x.grd == Guard.always && x.ty == o.defaultTy && x.imm == (x.imm.extractLsb' 0 14).signExtend 32

/-- The words of an opcode with its fields. -/
def encodeForm (o : Opc) (fm : Form) : List Word :=
  match fm with
  | .f f => if shortF o f then [word0F f false o] else [word0F f true o, word1F f]
  | .i x => if shortI o x then [word0I x false o] else [word0I x true o, word1I x]

/-- The words of an instruction; the rows that are events have none. -/
def encode (i : Instr) : List Word :=
  match i.parts with
  | some (o, fm) => encodeForm o fm
  | none => []

/-- Is the instruction one of the M-stream map? -/
def Instr.isM (i : Instr) : Bool :=
  match i.parts with
  | some (o, _) => o.isM
  | none => false

/-- The stream whose map the host's numbered word belongs to: VER 0b01 with a code that Table 7.12 assigns is M-stream
code, every other word is row code (log 12). -/
def tableWordIsM (w0 : Word) : Bool := wbits w0 30 2 == 1 && decide ((wbits w0 21 8).toNat < 0x18)

/-- The instruction that the decoder reads from words whose bits are `w`, low word first; bits above `nbits` are 0. -/
def decodeTableWord (nbits w : Nat) : Option Instr :=
  let x := w % 2 ^ nbits
  let w0 := BitVec.ofNat 32 x
  let w1 := BitVec.ofNat 32 (x / 2 ^ 32)
  match decodeInstr (tableWordIsM w0) [w0, w1] with
  | .ok (i, _) => some i
  | .error _ => none

end Sys2Proof
end

