-- ==== Sys2Proof/Machine/Map.lean ====
section
/-! DEFINITION. The operations over sparse tables. Every numbered store of the machine (bytes of memory, registers,
array slots) is a list of (number, value) pairs whose numbers rise strictly and which lists no entry equal to what an
unlisted number reads as; `d` is that default, so that equal stores are equal data. -/

namespace Sys2Proof.FMap

variable {α : Type}

/-- The value at `k`: the listed one, or the default. -/
def get (d : Nat → α) (m : FMap α) (k : Nat) : α :=
  match m with
  | [] => d k
  | (j, v) :: r => if j = k then v else get d r k

/-- The table without an entry at `k`. -/
def erase (m : FMap α) (k : Nat) : FMap α := m.filter (fun e => e.1 != k)

/-- The table with the new entry (k, v) placed before the first larger number; `k` must not be listed. -/
def insert (m : FMap α) (k : Nat) (v : α) : FMap α :=
  match m with
  | [] => [(k, v)]
  | (j, w) :: r => if k < j then (k, v) :: (j, w) :: r else (j, w) :: insert r k v

/-- The table with `v` at `k`; a default value removes the entry. -/
def set [DecidableEq α] (d : Nat → α) (m : FMap α) (k : Nat) (v : α) : FMap α :=
  if v = d k then erase m k else insert (erase m k) k v

/-- Read, change, write back at `k`. -/
def modify [DecidableEq α] (d : Nat → α) (m : FMap α) (k : Nat) (f : α → α) : FMap α :=
  set d m k (f (get d m k))

/-- Several writes, the later ones standing. -/
def setMany [DecidableEq α] (d : Nat → α) (m : FMap α) (ws : List (Nat × α)) : FMap α :=
  match ws with
  | [] => m
  | (k, v) :: r => setMany d (set d m k v) r

/-- Every number from `lo` to `hi` - 1 returns to its default. -/
def eraseRange (m : FMap α) (lo hi : Nat) : FMap α := m.filter (fun e => e.1 < lo || hi ≤ e.1)

/-- Every listed number in the range from `lo` to `hi` - 1. -/
def keysIn (m : FMap α) (lo hi : Nat) : List Nat :=
  (m.filter (fun e => decide (lo ≤ e.1) && decide (e.1 < hi))).map (·.1)

/-- The numbers rise strictly from above `lo`, and no entry holds its default. -/
def wfFrom [DecidableEq α] (d : Nat → α) (lo : Nat) (m : FMap α) : Bool :=
  match m with
  | [] => true
  | (k, v) :: r => decide (lo ≤ k) && decide (v ≠ d k) && wfFrom d (k + 1) r

/-- The canonical form. -/
def wf [DecidableEq α] (d : Nat → α) (m : FMap α) : Bool := wfFrom d 0 m

/-- The table that holds `f k` at each k below `n`. -/
def ofFn [DecidableEq α] (d : Nat → α) (n : Nat) (f : Nat → α) : FMap α :=
  (List.range n).filterMap (fun k =>
    let x := f k
    if x = d k then none else some (k, x))

/-- The values at `k` and the `n` - 1 numbers after it; nothing below `k` may be listed. -/
def values (d : Nat → α) : Nat → Nat → FMap α → List α
  | 0, _, _ => []
  | n + 1, k, [] => d k :: values d n (k + 1) []
  | n + 1, k, (j, v) :: r => if j = k then v :: values d n (k + 1) r else d k :: values d n (k + 1) ((j, v) :: r)

end Sys2Proof.FMap
end

