-- ==== Sys2Proof/Machine/State.lean ====
section
/-! DEFINITION. The state of the package: every register, store and table the spec names (INVENTORY.md lists them with
their rules), the ways a step can stop, and the state right after package reset. All of it is plain data. -/

namespace Sys2Proof.Machine

open Sys2Proof

/-- Why a step can stop. No rule of the spec stops the machine: a trap, a kill or an error record is a next state. -/
inductive Fault where
  /-- Raised by the meaning of a code instruction when `State.cur` names no party that is resident and holds a clause.
  `step` never runs a meaning in such a state. Safe. -/
  | noParty
  /-- Raised by the meaning of a code instruction when the party is of a stream that may not hold it (Table 7.11);
  a decoded clause never does. Safe. -/
  | wrongStream
  deriving DecidableEq, Repr

/-- Why the model gives no meaning. -/
inductive Refusal where
  /-- Raised by Dispatch.lean for an instruction whose meaning is not written. Safe. -/
  | notModelled (mnemonic : String)
  deriving DecidableEq, Repr

/-- The tags of Table 5.12; the reserved codes 0x10 to 0x1F are held by nothing (R111). -/
inductive Tag where
  | b32 | s32 | n32 | f32 | bf16x2 | f16x2 | e4m3x4 | e5m2x4 | e3m2x4 | e2m3x4 | e2m1x8 | s8x4 | sc10x3 | s64 | n64 | pairHigh
  deriving DecidableEq, Repr

/-- A vector register: 32 bits and a tag (R111). -/
structure VReg where
  val : Word := 0
  tag : Tag := .b32
  deriving DecidableEq, Repr

/-- Where a party stands: the clause header's virtual address, the index of the next instruction, and the clause once
it has been fetched and decoded whole (R120). -/
structure Cursor where
  pc     : DWord
  idx    : Nat := 0
  clause : Option Clause := none
  deriving DecidableEq, Repr

/-- A pending register write of R143. `reg` is 0 to 119 for v registers, 128 to 134 for p0 to p6 and 192 to 255 for s0
to s63 of the home row or of the U-stream; `link` joins an entry to the one before it (Table 23.10). `due` names the Drill
session, 0 or 1, whose outstanding `drlend` has still to give the value (R327, R331), or, from 2 on, the instruction in flight whose record
has still to be placed (R348, R350). -/
structure Pend where
  reg  : Nat
  val  : DWord
  tag  : Tag
  left : Nat
  link : Bool
  due  : Option Nat := none
  deriving DecidableEq, Repr

/-- The trap codes of Table 23.6. -/
inductive Trap where
  | il | fmt | aln | prot | xlat | brk | trapi | rdv | que | det | ecc | dln | bvh | stk | dst
  deriving DecidableEq, Repr

/-- What a party waits for (R82). -/
inductive WaitFor where
  /-- Wait counters of the mask are all zero (R122, R172). -/
  | counters (mask : Nat)
  /-- The same for a `wait` instruction, in the threads whose guard is true (R172, R135). -/
  | waits (mask : Nat)
  /-- Counter `c` below 64 after the increment (R122). -/
  | counterRoom (c : Nat)
  /-- Room among the eight pending writes for `n` registers (R442). -/
  | pendRoom (n : Nat)
  /-- An incomplete destination is written (R142, R143, R327). -/
  | destination
  /-- The phase of a point differs from each of the values (R71). -/
  | phase (point : Nat) (hs : List (BitVec 16))
  /-- Room for `n` entries in q0 to q7, or in mq0 to mq3 as 8 to 11 (R76). -/
  | queueRoom (q n : Nat)
  /-- `n` entries present, or every pushing party ended (R77, Table 3.7). -/
  | queueEntries (q n : Nat)
  /-- Some granule of the list, each in the memory of a team `uid`, is full, or empty (R214). -/
  | granule (full : Bool) (gs : List (Nat × Nat))
  /-- The STATUS word of a chit, at the virtual address, is 1, 3 or 4 (R245). -/
  | chit (addr : DWord)
  /-- Other threads of the home row, of the group or of the role: join, Drill group operation, graft (R61, R327, R337). -/
  | others
  /-- The service request of a party is answered, or can be sent (R473). -/
  | service (tag : Nat)
  /-- The service ring of a die has room (R473). -/
  | serviceRing (die : Nat)
  /-- The fault record is signalled (R428). -/
  | fault (fseq : Nat)
  /-- A Weighbridge request is granted (R305). -/
  | grant (req : Nat)
  /-- Arrays of the set have room for an operation (R290), or the stream's operations have completed (R300). -/
  | arrays
  /-- Every drain of the stream has written its granules (R302). -/
  | drains
  /-- The convergence point: no thread of the fragment is parked (R426). -/
  | parked
  /-- A frame is being cleared (R456). -/
  | scrub (frame : Nat)
  deriving DecidableEq, Repr

/-- The space of a level of a ray query's path (R352, R359): the level's root, the ray in it as six words (origin, direction),
and the instance that holds it. -/
structure RCtx where
  top    : Bool
  root   : DWord
  ray    : List Word
  inst   : Word := 0
  iflags : Nat := 0
  deriving DecidableEq, Repr

/-- A node on the path of a ray query: its 64 bytes, and the child taken. -/
structure PathNode where
  ctx   : RCtx
  node  : List Byte
  child : Nat
  deriving DecidableEq, Repr

/-- The ray query of a thread: the fields of Table 19.10; `state` is the code of Table 19.5 (5 is IDLE). `path` holds the
nodes from the current leaf up to the root; its length is DEPTH, its top-level nodes are TDEPTH, its children TRAIL. -/
structure Query where
  org : List Word := [0, 0, 0]
  tmin : Word := 0
  dir : List Word := [0, 0, 0]
  tmax : Word := 0
  root : DWord := 0
  rflags : Word := 0
  state : Nat := 5
  path : List PathNode := []
  leafPos : Nat := 0
  hitk : Nat := 0
  ipos : Nat := 0
  ht : Word := 0
  hprim : Word := 0
  hinst : Word := 0
  hgeom : BitVec 16 := 0
  hfront : BitVec 16 := 0
  hu : Word := 0
  hv : Word := 0
  ct : Word := 0
  cprim : Word := 0
  cinst : Word := 0
  cgeom : BitVec 16 := 0
  cfront : BitVec 16 := 0
  cu : Word := 0
  cv : Word := 0
  ccall : BitVec 16 := 0
  ctexit : Word := 0
  /-- The reads that the traversal under way has made, for the caches; none between instructions. -/
  reads : List (DWord × Nat) := []
  deriving DecidableEq, Repr

/-- The Drill group operations (R327). -/
inductive GroupOp where
  | ld (g rop : Nat) (ty : Ty) | fin | save | rst
  deriving DecidableEq, Repr

/-- A thread's arrival at a group operation: what the operation reads from it and where its results go. `lock` tells that its
clause has VER 01, so that its destination interlocks (R142); `wide` that D is a pair; `wc` the wait counter that falls when the
operation acts; `fault` the record on which the access to the image waits, or 0 (R332, R425). -/
structure Arrival where
  ds    : Nat
  op    : GroupOp
  guard : Bool
  a     : Word
  b     : Word
  addr  : DWord
  space : Nat
  d     : Nat
  c     : Nat
  lock  : Bool
  wide  : Bool := false
  wc    : Nat
  fault : Nat := 0
  deriving DecidableEq, Repr

/-- What a thread does (R61, R64, R336, R426, R432). -/
inductive TStat where
  | run
  /-- Parked on the fault record `fseq` (R425). -/
  | parked (fseq : Nat)
  /-- Signalled: replays its access and runs alone to the convergence point (R426). -/
  | replay
  /-- Replays, and is held, not parked, on the record of a fetch or of a data-area read (R425, R188). -/
  | held (fseq : Nat)
  /-- Stands at the convergence point, its replay done (R426). -/
  | atConv
  | joinWait
  | grafted (addr : DWord) (idx : Nat) (key : Word)
  | fresumeWait
  | exited
  deriving DecidableEq, Repr

/-- A thread of row code (Tables 3.2, 3.3, 23.10). `cur` is its own place while it does not go with its fragment;
`late` names the registers that its waiting records still have to write under VER 01, each behind the number of its instruction in flight;
`res` holds the results of the current clause for distance operands by index (R138); `skip` the instructions of the
clause still skipped (R125); `made` whether the access of a waiting form was made (R214). The
`resume` fields hold the resume point of an episode, with the record the thread was parked on, 0 for none (R429). -/
structure Thread where
  row    : Nat
  pos    : Nat
  fid    : Nat
  st     : TStat := .run
  cur    : Cursor
  v      : FMap VReg := []
  p      : BitVec 7 := 0
  rets   : List DWord := []
  w      : FMap Nat := []
  rmode  : BitVec 2 := 0
  rngKey : DWord := 0
  token  : Nat := 0
  pend   : List Pend := []
  res    : List (Nat × VReg × VReg) := []
  skip   : Nat := 0
  made   : Bool := false
  query  : Query := {}
  epi    : Bool := false
  resume : Cursor := { pc := 0 }
  resumeParked : Nat := 0
  resumeRes : List (Nat × VReg × VReg) := []
  resumeSkip : Nat := 0
  arr    : List Arrival := []
  late   : List (Nat × Nat) := []
  deriving DecidableEq, Repr

/-- A fragment (R56, R66, R436). `stop` is true once it has stopped under a halt. -/
structure Frag where
  fid   : Nat
  cur   : Cursor
  xmask : DWord := 0
  wait  : Option WaitFor := none
  stop  : Bool := false
  skid  : Nat := 0
  trap  : Nat := 0
  deriving DecidableEq, Repr

/-- A rendezvous point (R68). -/
structure Rdv where
  init  : Bool := false
  e     : Nat := 0
  a     : Nat := 0
  phase : BitVec 16 := 0
  deriving DecidableEq, Repr

/-- The U-stream of a team (R53). -/
structure UStream where
  alive  : Bool
  cur    : Cursor
  s      : FMap DWord := []
  p      : BitVec 7 := 0
  rets   : List DWord := []
  w      : FMap Nat := []
  rmode  : BitVec 2 := 0
  rngKey : DWord := 0
  pend   : List Pend := []
  skip   : Nat := 0
  wait   : Option WaitFor := none
  stop   : Bool := false
  late   : List (Nat × Nat) := []
  deriving DecidableEq, Repr

/-- The scale store of an A-stage or weight-buffer slot (Table 15.1). -/
structure Scales where
  mx   : FMap (BitVec 10) := []
  tile : FMap Word := []
  mxv  : Bool := false
  tsv  : Bool := false
  deriving DecidableEq, Repr

/-- A slot of an array: its bytes as held, its format record and its scale store. A weight-buffer slot whose `zero` is
set holds the image of a zero tile; `unc` tells an uncompressed image. -/
structure Slot where
  bytes  : FMap Byte := []
  zero   : Bool := true
  unc    : Bool := true
  fmt    : Ty := .e4m3
  second : Bool := false
  dense  : Bool := false
  half   : Bool := false
  scales : Scales := {}
  deriving DecidableEq, Repr

/-- An accumulator tile: f32 elements by 128 × row + column, and its tag (Table 5.9). -/
structure Tile where
  elems : FMap Word := []
  tag   : Tag := .f32
  deriving DecidableEq, Repr

/-- A matrix array of the set: g0 to g3, w0 to w15, t0 to t3, and the operations it holds, at most two (R290). -/
structure MArray where
  g   : FMap Slot := []
  w   : FMap Slot := []
  t   : FMap Tile := []
  ops : Nat := 0
  deriving DecidableEq, Repr

/-- The M-stream of a team (Table 15.1). `leave` counts sixteenth-grains (R305). `paid` tells that the instruction under way has
debited or asked for its leave, `got` holds the bytes of team memory it has read so far (R296). -/
structure MStream where
  alive  : Bool
  cur    : Cursor
  m      : FMap Word := []
  k      : FMap (BitVec 256) := []
  leave  : Nat := 0
  paid   : Bool := false
  got    : List Byte := []
  arrays : FMap MArray := []
  wait   : Option WaitFor := none
  stop   : Bool := false
  trap   : Nat := 0
  deriving DecidableEq, Repr

/-- An accumulator of a Drill session (Table 17.3): `n` for integer, minimum and maximum values, `sum` the exact f32 sum
times 2^149, `flags` byte 40. -/
structure DrillAcc where
  n     : DWord := 0
  sum   : Int := 0
  flags : Nat := 0
  deriving DecidableEq, Repr

/-- An active Drill session of a group of home rows (R326, R328). -/
structure Drill where
  ds     : Nat
  rows   : List Nat
  g      : Nat
  rop    : Nat
  ty     : Ty
  starts : FMap Word
  lens   : FMap Word
  total  : Nat
  e      : Nat
  slots  : List (Nat × Nat)
  nexts  : FMap Nat
  curs   : FMap (Option Nat)
  accs   : FMap DrillAcc
  deriving DecidableEq, Repr

/-- An episode (R429, R430): its token, the fragment id held at entry, its threads, and the records of the threads
parked at entry. -/
structure Episode where
  token   : Nat
  fid     : Nat
  threads : List (Nat × Nat)
  recs    : List Nat
  deriving DecidableEq, Repr

/-- A service request of a party (R473): `row` 255 is the U-stream; `d` the s register that takes the reply. -/
structure Sysc where
  tag   : Nat
  row   : Nat
  d     : Nat
  fid   : Nat
  reply : Option DWord := none
  deriving DecidableEq, Repr

/-- How far a halt has come (R433 to R437). -/
inductive Phase where
  | running | stopping | stopped
  deriving DecidableEq, Repr

/-- The halt of a team: the fields of Table 23.7 that the cause sets. -/
structure Halt where
  phase : Phase := .running
  cause : Nat := 0
  cfid  : Nat := 0xFFFF
  cidx  : Nat := 0
  imm   : Nat := 0
  cpc   : DWord := 0
  va    : DWord := 0
  utrap : Nat := 0
  dsess : Nat := 0xFF
  orow  : Nat := 0
  opos  : Nat := 0
  iter  : Word := 0
  owner : Nat := 0
  since : Nat := 0
  window : Option (Nat × Nat) := none
  /-- The fragment under STEP (R440), and the clock at which it came to wait, 0 while it does not. -/
  stepping : Option (Nat × Nat) := none
  /-- A mid-team save takes the team once it has stopped (R442). -/
  save  : Bool := false
  /-- The launch deadline passed while the team was halted (R437, R83). -/
  late  : Bool := false
  deriving DecidableEq, Repr

/-- The code image header (Table 21.1). EXCL is held as it stands; no rule gives the mark of a kernel an effect (R346 and R418 speak of
that of a node table), and the model gives it none (DESIGN CHOICE, log 59). -/
structure KHdr where
  twin : Bool := false
  det : Bool := false
  idem : Bool := false
  excl : Bool := false
  ustream : Bool := false
  mstream : Bool := false
  contd : Bool := false
  width : Nat := 0
  rows : Nat := 1
  lrows : Nat := 0
  erows : Nat := 0
  cregs : Nat := 8
  lregs : Nat := 0
  eregs : Nat := 0
  arrays : Nat := 0
  tmem : Nat := 0
  rowcode : Nat := 0
  uentry : Nat := 0
  mentry : Nat := 0
  cont : Nat := 0
  data : Nat := 0
  datalen : Nat := 0
  codelen : Nat := 0
  deriving DecidableEq, Repr

/-- A launch record (Table 21.2). -/
structure LRec where
  code : DWord := 0
  arg : DWord := 0
  window : DWord := 0
  chit : DWord := 0
  rngKey : DWord := 0
  teams : Nat := 1
  deadline : Nat := 0
  lflags : Word := 0
  rngTab : Nat := 0
  dep0 : DWord := 0
  dep1 : DWord := 0
  tileown : Word := 0
  rvsoff : Nat := 0
  rvslen : Nat := 0
  ninit : Nat := 0
  pool : DWord := 0
  poollen : Nat := 0
  init : DWord := 0
  deriving DecidableEq, Repr

/-- A team, from dispatch to retirement (R41 to R80). `uid` is the serial number of its residency, `launch` the launch
id, `team` its index, `plot` the uids of its plot's members in order. `core` is its core, the even one of a twin pair.
`lanes` are the first lanes of its rows' windows (R44), `tbase` the first 4 KiB page of its team memory on each core (R24), `ord` its
number among the teams or invocations that bind records cover (R399). `s` holds s0 to s63 of home row h at 64 h + n. `fe` is true at
full granules. The party logs number a home row h as 1 + h, the U-stream 100 and the M-stream 101 (R79, R215). -/
structure Team where
  uid     : Nat
  launch  : Nat
  team    : Nat
  pitch   : Nat
  part    : Nat
  die     : Nat
  core    : Nat
  plot    : List Nat
  width   : Nat
  hdr     : KHdr
  rcd     : LRec
  codeVA  : DWord
  argp    : DWord
  lanes   : List Nat := []
  tbase   : List Nat := []
  ord     : Nat := 0
  recs    : List Nat := []
  node    : Nat := 0
  born    : Nat := 0
  dleft   : Nat := 0
  threads : List Thread := []
  frags   : List Frag := []
  u       : UStream
  m       : Option MStream := none
  s       : FMap DWord := []
  tmem    : FMap Byte := []
  fe      : FMap Bool := []
  q       : FMap (List VReg) := []
  mq      : FMap (List DWord) := []
  pushed  : FMap Nat := []
  popped  : FMap Nat := []
  drained : FMap Nat := []
  filled  : FMap Nat := []
  rdv     : FMap Rdv := []
  drills  : List Drill := []
  episodes : List Episode := []
  syscs   : List Sysc := []
  halt    : Halt := {}
  retired : Bool := false
  deriving DecidableEq, Repr

/-- What an instruction still has to place: a record of the team memory at an offset, into the pool of a node (R348), or the copy of a
launch record that was read at an address (R350). -/
inductive LateOp where
  | emit (node : Nat) (o : DWord)
  | launch (at_ : DWord) (bytes : List Byte)
  deriving DecidableEq, Repr

/-- An `emit` or `launch` of one thread, or, as row 0xFF, of the U-stream, that has issued and waits for room. `group` is what the records
of one instruction have in common, `d` its D field, `fault` the record on which its slot waits, or 0. -/
structure Late where
  group : Nat
  row   : Nat
  pos   : Nat
  op    : LateOp
  d     : Nat
  fault : Nat := 0
  deriving DecidableEq, Repr

/-- A long-latency instruction in flight that names a wait counter (R122): the threads, by home row and position, or the
U-stream when `threads` is empty; `dep` is the engine operation whose end completes it, 0 for none; `grp` the Drill session
of a group operation (R327); `late` a record that waits for room, whether a counter is named or not (R348, R350). -/
structure Inflight where
  id      : Nat
  uid     : Nat
  threads : List (Nat × Nat)
  wc      : Nat
  dep     : Nat
  grp     : Option Nat := none
  late    : Option Late := none
  deriving DecidableEq, Repr

/-- The Barrow commands (Table 11.21). -/
inductive BarrowOp where
  | bcp | btile | bgat | bsct | bred | bfill
  deriving DecidableEq, Repr

/-- What an engine operation is doing. -/
inductive EngineSt where
  | running
  /-- Paused on the fault record (R241). -/
  | paused (fseq : Nat)
  /-- Chit writes, each a DONE, a status and a SIDE, that wait for service of the fault record, or, at 0, for a frame being
  cleared (R476, R456); afterwards the operation is paused on `fault`, or goes on when that is 0. -/
  | chitWait (fseq : Nat) (ws : List (Nat × Nat × Nat)) (fault : Nat)
  deriving DecidableEq, Repr

/-- The chit of an operation: its virtual address, writes made so far, and whether a failed write ended them (R241, R476). -/
structure ChitSt where
  addr  : DWord
  count : Nat := 0
  dead  : Bool := false
  deriving DecidableEq, Repr

/-- What a Barrow command and a Gleaner pass share: the place they were issued from, the number of the die's engine that serves them
(Table 1.4), the chit, the bytes done. -/
structure Engine where
  id     : Nat
  uid    : Nat
  pitch  : Nat
  die    : Nat
  core   : Nat
  launch : Nat
  team   : Nat
  chit   : ChitSt
  done   : Nat := 0
  st     : EngineSt := .running
  unit   : Nat := 0
  deriving DecidableEq, Repr

/-- A Barrow command (R233 to R243), its 64-byte descriptor by fields. `idx` is the index word of the element under way, with
the element's number; `past` the words the command has overwritten, by key, for the reads that R236 leaves open; `arrived`
whether a sequenced command has been compared with its sequence word (R239); `blk` what a `bcp` has read of its blocks, with the offset
where that begins (Table 11.21). -/
structure Barrow where
  eng   : Engine
  op    : BarrowOp
  src   : DWord
  dst   : DWord
  len   : Nat
  p0    : DWord
  p1    : DWord
  flags : Word
  seq   : Word
  p2    : DWord
  idx   : Option (Nat × Nat) := none
  past  : List (Nat × Word) := []
  arrived : Bool := false
  blk   : Nat × List Byte := (0, [])
  deriving DecidableEq, Repr

/-- A Gleaner pass (R344, R380 to R383): the 128-byte descriptor, the issuing party's draw mode and key, and the next pixel. -/
structure Glean where
  eng     : Engine
  desc    : List Byte
  rngMode : Nat
  rngTab  : Nat
  rngKey  : DWord
  pixel   : Nat := 0
  deriving DecidableEq, Repr

/-- A drain of the M-stream (R320): the granules still to be written, in order. -/
structure DrainOp where
  id  : Nat
  uid : Nat
  kf  : Bool
  we  : Bool
  granules : List (Nat × List Byte)
  deriving DecidableEq, Repr

/-- A request waiting at a Weighbridge (R408 to R410). -/
structure Grant where
  id     : Nat
  die    : Nat
  pitch  : Nat
  grains : Nat
  /-- The engine operation, or 0 when the M-stream of team `uid` asks. -/
  op     : Nat
  uid    : Nat
  deriving DecidableEq, Repr

/-- Who is held by a fault record (Table 23.4). -/
inductive Victim where
  | thread (uid row pos : Nat)
  | frag (uid fid : Nat)
  | ustream (uid : Nat)
  | mstream (uid : Nat)
  | engine (op : Nat)
  | chit (op : Nat)
  | launchChit (lid : Nat)
  | pool (pitch k : Nat)
  | accept (id : Nat)
  | dep (lid : Nat)
  deriving DecidableEq, Repr

/-- A recoverable fault on record (R427, R428): `signal` 0 none, 1 ok, 2 fail. -/
structure FaultRec where
  fseq   : Nat
  pitch  : Nat
  victim : Victim
  va     : Nat
  signal : Nat := 0
  deriving DecidableEq, Repr

/-- A record on its way to a ring: `ring` is a pitch, or 64 for the package event ring (R427). -/
structure PendRec where
  n     : Nat
  ring  : Nat
  die   : Nat
  fault : Bool
  bytes : List Byte
  /-- An error record that found its ring full and takes one of the die's 64 places (R427). -/
  held  : Bool := false
  deriving DecidableEq, Repr

/-- A node entry of a graph (Table 17.7). -/
structure GNode where
  code : DWord
  arg : DWord
  pool : Nat
  rsize : Nat
  pcap : Nat
  batch : Nat
  prio : Nat
  entry : Bool
  tmo : Nat
  succ : List Nat
  hdr : KHdr := {}
  deriving DecidableEq, Repr

/-- An invocation: its node and record slots (R347, R414), and its number, given at its first dispatch (R399). -/
structure Invoc where
  node : Nat
  slots : List Nat
  ord : Option Nat := none
  deriving DecidableEq, Repr

/-- The graph part of a launch (R412 to R415). `used` are the slots in use by node; `forming` the open batches with the
clock of their first record; `waiting` the parties whose `emit` waits on a node's pool. -/
structure Graph where
  excl    : Bool
  nodes   : List GNode
  used    : List (Nat × Nat) := []
  forming : List (Nat × Nat × List Nat) := []
  queued  : List Invoc := []
  resident : List (Nat × Invoc) := []
  waiting : List (Nat × Party) := []
  deriving DecidableEq, Repr

/-- Where a launch stands. -/
inductive LaunchSt where
  | queued | ready | done
  deriving DecidableEq, Repr

/-- A launch from acceptance to its last chit write (R389 to R396). `relaunch` and `saved` list teams that stand before
the undispatched ones (R444 to R446). `bound` is how many teams bind records cover (R399); `ended` the teams that ended without
retiring. `pendChit` holds the chit
writes that wait for a fault record, or at 0 for a frame (R476); `from_` is the address its record was read at, `depHold` the record that holds the readiness test (R396);
`final` the last STATUS written. -/
structure Launch where
  lid     : Nat
  pitch   : Nat
  rcd     : LRec
  hdr     : KHdr
  from_   : DWord := 0
  chit    : ChitSt
  st      : LaunchSt := .queued
  width   : Nat := 0
  next    : Nat := 0
  bound   : Nat := 0
  retired : Nat := 0
  ended   : Nat := 0
  failed  : Bool := false
  cancelled : Bool := false
  final   : Option Nat := none
  pendChit : Option (Nat × List (Nat × Nat × Nat)) := none
  depHold : Option Nat := none
  graph   : Option Graph := none
  relaunch : List Nat := []
  relaunches : FMap Nat := []
  noDispatch : List (Nat × Nat × Nat) := []
  deriving DecidableEq, Repr

/-- Who brought a launch record to the scheduler. -/
inductive Bringer where
  | pool (k : Nat)
  | thread (uid row pos : Nat)
  | ustream (uid : Nat)
  deriving DecidableEq, Repr

/-- A launch record whose acceptance is held (R389) on a fault record, or at 0 on a frame being cleared: its bytes and the
virtual address it was read at. -/
structure Accepting where
  id    : Nat
  fseq  : Nat
  pitch : Nat
  who   : Bringer
  bytes : List Byte
  at_   : DWord
  deriving DecidableEq, Repr

/-- A saved team awaiting restore, with the virtual address of its image and the image's length (R442, R443). -/
structure Saved where
  team : Team
  addr : DWord
  size : Nat
  ckpt : Bool := false
  deriving DecidableEq, Repr

/-- A pending pre-emption request of a launch on cores (R444, R468); `at_` is the clock of the request; `mOnly` spares teams without
an M-stream. -/
structure Preempt where
  lid : Nat
  die : Nat
  core0 : Nat
  ncore : Nat
  at_ : Nat
  mOnly : Bool := false
  deriving DecidableEq, Repr

/-- The registers of a pitch (Table 25.2) and its pool, ring and invalidation state. `czbase` is the first page that the conversion under
way names (R463). -/
structure Pitch where
  part    : Nat := 0xFF
  enable  : Bool := false
  troot   : DWord := 0
  fmode   : Bool := false
  pdead   : Nat := 10000
  fab     : DWord := 0
  port    : Nat := 0
  handler : DWord := 0
  waymask : FMap Nat := []
  refill  : FMap DWord := []
  depth   : FMap DWord := []
  pool    : FMap DWord := []
  ring    : DWord := 0
  ovfl    : DWord := 0
  save    : DWord := 0
  savelen : DWord := 0
  inval   : Option Nat := none
  czaddr  : DWord := 0
  czctl   : Nat := 0
  czbase  : Nat := 0
  czstat  : Nat := 0
  svcmask : BitVec 256 := 0
  poolBroken : List Nat := []
  /-- Pools held on a fault record (R394): the pool, the record, and whether a slot, not the header, was read. -/
  poolHold : List (Nat × Nat × Bool) := []
  ringBroken : Bool := false
  deriving DecidableEq, Repr

/-- An arbiter instance (R404, R405): signed buckets by pitch, the sublet pool, the borrower served last. -/
structure Arbiter where
  b    : FMap Int := []
  pool : Nat := 0
  last : Nat := 63
  deriving DecidableEq, Repr

/-- A handler window (Table 23.7): its team, command fields and STAGE. -/
structure Window where
  uid   : Option Nat := none
  cmd   : Nat := 0
  a0    : Word := 0
  a1    : DWord := 0
  a2    : DWord := 0
  cstat : Nat := 0
  stage : List Byte := []
  deriving DecidableEq, Repr

/-- The Rota bind record's reset value. -/
def bindZero : BindRec :=
  { lid := 0, team0 := 0, nteam := 0, die := 0, core0 := 0, ncore := 0, bflags := 0, maxres := 0, err := 0, rsv := 0 }

/-- A service request written to the ring and not yet answered (R473). -/
structure SvcReq where
  tag : Nat
  uid : Nat
  deriving DecidableEq, Repr

/-- The registers and tables of one die (Table 25.7, Table 21.5, R28, R409, R427, R437). -/
structure Die where
  online   : Bool := true
  rvsN     : Nat := 0
  rvsWant  : Option Nat := none
  svcring  : DWord := 0
  svctag   : DWord := 0
  budget   : Nat := 600
  credit   : Int := 600
  rota     : FMap BindRec := []
  lastCore : Nat := 99
  windows  : FMap Window := []
  deriving DecidableEq, Repr

/-- A cache: the L1 and the L1 TLB of a core, the L2, the RDC and the L2 TLB of a die, the fetch-unit cache of a mesh row
(Tables 1.3, 1.4, 1.6; R423). -/
inductive Cache where
  | l1 (die core : Nat) | rdc (die : Nat) | fu (die row : Nat) | l2 (die : Nat) | tlb (die core : Nat) | dieTlb (die : Nat)
  deriving DecidableEq, Repr

/-- A line of a cache: its number, which is that of its 128 bytes, or in a TLB that of a page of a pitch; the way of an L2 that holds
it; whether it holds written data that its die's stacks do not have yet (R26). -/
structure Line where
  cache : Cache
  line  : Nat
  way   : Nat := 0
  written : Bool := false
  deriving DecidableEq, Repr

/-- A die transition (R467): DIECTL's fields; `started` once it is in progress; the images of a die that comes online (R469). -/
structure DieReq where
  die : Nat
  op  : Nat
  list : Nat
  count : Nat
  started : Bool
  at_ : Nat
  imgs : List FwImage := []
  deriving DecidableEq, Repr

/-- A mode change (R453, R454): the requested START, DRAIN in µs, the affected partitions, its phase 1 draining or 2 purging. -/
structure ModeReq where
  start : BitVec 40
  drain : Nat
  parts : List Nat
  at_   : Nat
  phase : Nat
  deriving DecidableEq, Repr

/-- A checkpoint (R470): the fabric target, and the clock of its start. -/
structure Ckpt where
  target : DWord
  at_ : Nat
  deriving DecidableEq, Repr

/-- An answer to an outside party. -/
inductive Answer where
  | data (bytes : List Byte)
  | abort
  | msix (function vector : Nat)
  | service (die tag : Nat)
  | handler (die window : Nat)
  | pageRequest (pitch fseq : Nat)
  | measurements (log : List (Nat × List Byte)) (sig : List Byte)
  | challenge (sig : List Byte)
  | certificate (chain : List Byte)
  | keys (port : Nat) (key : List Byte)
  | i3cBootFailure (index : Nat)
  | fabricFail
  deriving DecidableEq, Repr

/-- An access from outside the package that is held: for a frame being cleared (R456), or, a host's write, for a checkpoint (R470). -/
inductive Held where
  | bar2 (port pitch : Nat) (off : DWord) (op : ExtOp)
  | fabric (port src : Nat) (ftag : BitVec 16) (pa : Nat) (op : ExtOp)
  deriving DecidableEq, Repr

/-- A turn of the schedule: a party issues, or an event of the opcode table happens (log 1). -/
inductive Turn where
  | party (p : Party)
  | event (i : Instr)
  deriving DecidableEq, Repr

/-- The package block and what belongs to no die and no pitch (Tables 25.4, 25.7; R427, R465, R473). `fabTags` are the FTAGs that frames of
the other devices admit, by 2^15 times the device plus the frame, 0 unless told otherwise as in Table 25.5 (R460). `unacked` are the parties
whose writes to an unreachable device it has not acknowledged (R461). `flash` is what the boot flash holds (R464). -/
structure Pkg where
  mode     : BitVec 40 := 1
  modestat : Nat := 0
  modeReq  : Option ModeReq := none
  purging  : List Nat := []
  diestat  : Nat := 0
  dieReq   : Option DieReq := none
  dieWait  : List DieReq := []
  evring   : DWord := 0
  evBroken : Bool := false
  ckptstat : Nat := 1
  evovfl   : DWord := 0
  ckpt     : Option Ckpt := none
  ckptWait : Option DWord := none
  fabdev   : BitVec 12 := 0
  domain   : List Nat := []
  unreachable : List Nat := []
  fabTags  : FMap (BitVec 16) := []
  unacked  : List Party := []
  flash    : List FwImage := []
  nextLid  : Nat := 0
  nextFseq : Nat := 1
  nextTag  : Nat := 1
  meas     : FMap (List Byte) := []
  measLog  : List (Nat × List Byte) := []
  bootHeld : Bool := false
  clamp    : Bool := false
  /-- Period boundaries and window starts that have been worked off (R404, R409). -/
  periods  : Nat := 0
  wWindows : Nat := 0
  deriving DecidableEq, Repr

/-- A frame entry (Table 25.5). -/
structure Frame where
  owner : Nat := 0x3F
  scrub : Bool := false
  ftag  : BitVec 16 := 0
  deriving DecidableEq, Repr

/-- The state of the package. `mem` is device memory, the RVS, host memory and fabric memory in one byte map (its keys
are those of Machine/Ops.lean). `caches` lists the lines that are held, the most recently used first. `atsDenied` is the hosts' own: the 64 KiB host pages whose ATS translation lacks a
permission (R451). `tick` numbers the free values; `agenda`, `turn` and `cur` are the model's schedule. -/
structure State where
  clk      : DWord := 0
  tick     : Nat := 0
  mem      : List Host.Cell := []
  poison   : FMap Bool := []
  caches   : List Line := []
  czPages  : FMap Bool := []
  atsDenied : FMap Bool := []
  frames   : FMap Frame := []
  pitches  : FMap Pitch := []
  arbiters : FMap Arbiter := []
  dies     : FMap Die := []
  pkg      : Pkg := {}
  launches : List Launch := []
  accepts  : List Accepting := []
  teams    : List Team := []
  saved    : List Saved := []
  preempts : List Preempt := []
  inflight : List Inflight := []
  barrows  : List Barrow := []
  gleans   : List Glean := []
  drains   : List DrainOp := []
  grants   : List Grant := []
  faults   : List FaultRec := []
  recs     : List PendRec := []
  svc      : List SvcReq := []
  held     : List Held := []
  nextId   : Nat := 1
  outbox   : List Answer := []
  agenda   : List Turn := []
  turn     : Nat := 0
  cur      : Option Party := none
  waited   : List Party := []
  deriving DecidableEq, Repr

/-- The reset values of pitch `x` (Table 25.2): pitch 0 is enabled in partition 0, every other pitch is in none. -/
def Pitch.reset (x : Nat) : Pitch :=
  if x = 0 then { part := 0, enable := true } else {}

/-- The machine right after package reset: every field at the value of Tables 21.6, 25.2, 25.5 and 25.7, R28, R48 and
R452, and at the value its log entry names where no rule gives one (logs 1, 3, 4 and 6). -/
def State.reset : State := {}

end Sys2Proof.Machine
end

