-- ==== Sys2Proof/Machine/Ops.lean ====
section
/-! DEFINITION. The named operations over memory, translation, pitches, dies, teams, report records, traps and the return
from a trap. Every read and write of a store of State goes through these. -/

namespace Sys2Proof.Machine

open Sys2Proof

/-! ### Bytes (R6) -/

/-- The little-endian number of a byte list. -/
def leNat : List Byte → Nat
  | [] => 0
  | b :: r => b.toNat + 256 * leNat r

/-- The `n` little-endian bytes of a number. -/
def leBytes : Nat → Nat → List Byte
  | 0, _ => []
  | n + 1, x => BitVec.ofNat 8 x :: leBytes n (x / 256)

/-- The `n` bytes from offset `o` of a byte list, as a number. -/
def field (bs : List Byte) (o n : Nat) : Nat := leNat ((bs.drop o).take n)

/-- Sign extension of the low `n` bits of a number to an integer. -/
def signed (n x : Nat) : Int := if x % 2 ^ n < 2 ^ (n - 1) then (x % 2 ^ n : Nat) else (x % 2 ^ n : Nat) - (2 ^ n : Nat)

/-- An integer wrapped to `n` bits (R86). -/
def wrapN (n : Nat) (x : Int) : Nat := (x % (2 ^ n : Nat)).toNat

/-- ⌈a ÷ b⌉. -/
def ceilDiv (a b : Nat) : Nat := (a + b - 1) / b

/-! ### Memory (R249). Keys: device physical addresses, the RVS among them; host memory of port p; memory of device d of
the Ewearvia domain. -/

/-- The key of host memory. -/
def hostKey (port pa : Nat) : Nat := 2 ^ 60 + port * 2 ^ 48 + pa

/-- The key of another device's memory. -/
def fabKey (dev pa : Nat) : Nat := 2 ^ 61 + dev * 2 ^ 44 + pa

/-- What an unlisted address of memory reads as (log 4). -/
def memDefault (_ : Nat) : Byte := 0

/-- The canonical form of memory. -/
def Memory.wf (m : List Host.Cell) : Bool := FMap.wf memDefault m

/-- One byte. -/
def State.byte (s : State) (k : Nat) : Byte := FMap.get memDefault s.mem k

/-- `n` bytes from a key upwards. -/
def State.bytes (s : State) (k : Nat) : Nat → List Byte
  | 0 => []
  | n + 1 => s.byte k :: State.bytes s (k + 1) n

/-- A little-endian number of `n` bytes. -/
def State.readN (s : State) (k n : Nat) : Nat := leNat (s.bytes k n)

/-- The list of byte writes from a key upwards. -/
def cells (k : Nat) : List Byte → List (Nat × Byte)
  | [] => []
  | b :: r => (k, b) :: cells (k + 1) r

/-- Writes bytes from a key upwards. -/
def State.writeBytes (s : State) (k : Nat) (bs : List Byte) : State :=
  { s with mem := FMap.setMany memDefault s.mem (cells k bs) }

/-- Writes a little-endian number of `n` bytes. -/
def State.writeN (s : State) (k n x : Nat) : State := s.writeBytes k (leBytes n x)

/-- A range of keys reads as zero (R28, R456). -/
def State.clearRange (s : State) (lo hi : Nat) : State :=
  { s with mem := FMap.eraseRange s.mem lo hi, poison := FMap.eraseRange s.poison (lo / 16) (hi / 16) }

/-- Are any of the 16-byte blocks of `n` bytes at `k` poisoned (Table 1.9)? -/
def State.poisoned (s : State) (k n : Nat) : Bool :=
  (List.range (if n = 0 then 0 else (k + n - 1) / 16 - k / 16 + 1)).any (fun j =>
    FMap.get (fun _ => false) s.poison (k / 16 + j))

/-! ### Pitches, dies, frames, arbiters -/

/-- The registers of a pitch. -/
def State.pitch (s : State) (x : Nat) : Pitch := FMap.get Pitch.reset s.pitches x

/-- Changes the registers of a pitch. -/
def State.setPitch (s : State) (x : Nat) (f : Pitch → Pitch) : State :=
  { s with pitches := FMap.modify Pitch.reset s.pitches x f }

/-- The registers of a die. -/
def State.die (s : State) (d : Nat) : Die := FMap.get (fun _ => ({} : Die)) s.dies d

/-- Changes the registers of a die. -/
def State.setDie (s : State) (d : Nat) (f : Die → Die) : State :=
  { s with dies := FMap.modify (fun _ => ({} : Die)) s.dies d f }

/-- A frame entry. -/
def State.frame (s : State) (f : Nat) : Frame := FMap.get (fun _ => ({} : Frame)) s.frames f

/-- Changes a frame entry. -/
def State.setFrame (s : State) (i : Nat) (f : Frame → Frame) : State :=
  { s with frames := FMap.modify (fun _ => ({} : Frame)) s.frames i f }

/-- Changes the package block. -/
def State.setPkg (s : State) (f : Pkg → Pkg) : State := { s with pkg := f s.pkg }

/-- The V-dies (Table 1.1). -/
def isVDie (d : Nat) : Bool := d == 1 || d == 2 || d == 4 || d == 5

/-- The bed of a die (R14). -/
def bedOf (d : Nat) : Nat := d / 3

/-- The M-die of a bed. -/
def mDieOf (bed : Nat) : Nat := 3 * bed

/-- The V-die index (Table 1.1). -/
def vIndex (d : Nat) : Nat := if d < 3 then d - 1 else d - 2

/-- The die of a V-die index. -/
def vDie (v : Nat) : Nat := if v < 2 then v + 1 else v + 2

/-- The slice of a core (R32). -/
def sliceOf (d core : Nat) : Nat := 10 * vIndex d + core / 10

/-- A clock cycle as a number. -/
def State.now (s : State) : Nat := s.clk.toNat

/-! ### Partitions (R33, R452) -/

/-- The first slice of each partition of a mode, ascending. -/
def partStarts (mode : BitVec 40) : List Nat := (List.range 40).filter (fun i => mode.getLsbD i)

/-- The last slice + 1 of the partition that starts at `p`. -/
def partEnd (mode : BitVec 40) (p : Nat) : Nat := ((partStarts mode).find? (fun q => decide (p < q))).getD 40

/-- The partition a slice lies in. -/
def partOf (mode : BitVec 40) (slice : Nat) : Nat := ((partStarts mode).filter (fun p => decide (p ≤ slice))).getLastD 0

/-- A START value describes partitions of R33. -/
def modeValid (mode : BitVec 40) : Bool :=
  mode.getLsbD 0 && (partStarts mode).all (fun p =>
    let n := partEnd mode p - p
    decide (n ∈ [1, 2, 5, 10, 20, 40]) && p % n == 0)

/-- The V-dies of a partition in ascending number. -/
def partVDies (mode : BitVec 40) (p : Nat) : List Nat :=
  [1, 2, 4, 5].filter (fun d =>
    (List.range 10).any (fun r => partOf mode (10 * vIndex d + r) == p))

/-! ### Physical addresses (R17, R18, R20, R378, R455) -/

/-- The first RVS address. -/
def rvsBase : Nat := 0xF8000000000

/-- The home die of a device physical address below the absent range (R18). -/
def homeDie (pa : Nat) : Nat := pa / 0x1800000000

/-- The die that holds the byte of a device physical address: memory on its home, the Reservoir Store on its own die (R378, R379). -/
def keyDie (pa : Nat) : Nat := if rvsBase ≤ pa ∧ pa < rvsBase + 6 * 2 ^ 32 then (pa - rvsBase) / 2 ^ 32 else homeDie pa

/-- Is there a route between two dies (R17)? -/
def State.route (s : State) (a b : Nat) : Bool :=
  bedOf a == bedOf b ||
  ((s.die 1).online && (s.die 4).online) || ((s.die 2).online && (s.die 5).online)

/-- The die of a host port (R36): ports 0 and 1 on dies 1 and 4. -/
def portDie (port : Nat) : Nat := if port = 0 then 1 else 4

/-- Is a PCI Express port's link up (R36, R468)? -/
def State.linkUp (s : State) (port : Nat) : Bool := decide (port < 2) && (s.die (portDie port)).online

/-- Is an Ewearvia port up (R35, R468)? Die d carries ports 3d to 3d + 2. -/
def State.fabricUp (s : State) (port : Nat) : Bool := decide (port < 18) && (s.die (port / 3)).online

/-- Does a frame of another device admit a request with a tag (R460)? None admits the tag 0. -/
def State.admitsTag (s : State) (dev pa : Nat) (tag : BitVec 16) : Bool :=
  tag != 0 && FMap.get (fun _ => (0 : BitVec 16)) s.pkg.fabTags (dev * 2 ^ 15 + pa / 2 ^ 29) == tag

/-- How a device physical address answers a party. -/
inductive Place where
  | present | absent | registers
  | scrubbing (frame : Nat)
  deriving DecidableEq, Repr

/-- A frame is reached by the pitches of its owner, and unowned frames by pitch 0 (R455). -/
def State.owns (s : State) (x frame : Nat) : Bool :=
  let o := (s.frame frame).owner
  o == (s.pitch x).part || (x == 0 && o == 0x3F)

/-- What lies at a device physical address for a party on die `d`, whoever owns its frame (R17, R18, R20, R378, R456). -/
def State.placeAt (s : State) (d pa : Nat) : Place :=
  if pa < 0x9000000000 then
    let h := homeDie pa
    if !(s.die h).online || !s.route d h then .absent
    else if (s.frame (pa / 2 ^ 29)).scrub then .scrubbing (pa / 2 ^ 29) else .present
  else if pa < 0xF0000000000 then .absent
  else if rvsBase ≤ pa ∧ pa < rvsBase + 6 * 2 ^ 32 then
    let h := (pa - rvsBase) / 2 ^ 32
    if isVDie h && (s.die h).online && s.route d h && decide ((pa - rvsBase) % 2 ^ 32 < (s.die h).rvsN * 2 ^ 23) then .present
    else .absent
  else .registers

/-- What lies at a device physical address that a translation of pitch `x` gives to a party on die `d` (R455). -/
def State.place (s : State) (x d pa : Nat) : Place :=
  if pa < 0x9000000000 ∧ s.owns x (pa / 2 ^ 29) = false then .absent else s.placeAt d pa

/-! ### Translation (R419 to R422) -/

/-- What an access does, for the permissions of Table 23.2. -/
inductive Access where
  | read | write | exec
  deriving DecidableEq, Repr

/-- The outcome of a translation (Table 23.3). `cached` is the page's policy (CP 0; host memory never is, R283); `page` is
set when a host page lacks a permission (R451). -/
inductive Xlate where
  | ok (key : Nat) (cached : Bool)
  | trap (t : Trap)
  | recoverable (page : Bool)
  | busy (frame : Nat)
  deriving DecidableEq, Repr

/-- Bits [63:57] are 57 copies of bit 56 (R204). -/
def canonical (va : DWord) : Bool := va.extractLsb' 56 8 == 0 || va.extractLsb' 56 8 == 0xFF#8

/-- Index bits and entry of each level of the walk (Table 23.1). -/
def levelIndex (level : Nat) (va : DWord) : Nat :=
  match level with
  | 0 => bits va.toNat 42 15
  | 1 => bits va.toNat 29 13
  | _ => bits va.toNat 16 13

/-- An entry's PA field as an address (Table 23.2). -/
def entryPA (e : Nat) : Nat := bits e 16 32 * 2 ^ 16

/-- The malformed entries of Table 23.3, at a level. -/
def entryBad (level e : Nat) : Bool :=
  let leaf := bitOf e 1
  bitOf e 60 || bits e 7 9 != 0 || (leaf && level == 0) || (!leaf && level == 2)
  || (leaf && level == 1 && bits e 16 13 != 0) || decide (2 ≤ bits e 4 2) || (bitOf e 63 && bitOf e 61)
  || (!bitOf e 63 && bits e 44 4 != 0)
  || (!leaf && (bitOf e 63 || bitOf e 61 || bits e 48 12 != 0 || bitOf e 6 || bits e 4 2 != 0 || bitOf e 2 || bitOf e 3))

/-- The outcome at a leaf, for an access of pitch `x` on die `d`. Host memory is not reached over a port whose link is down, or to which no
route leads (R17, R468; log 71); another device's memory only where the frame admits the pitch's FTAG (R460). -/
def State.leaf (s : State) (x d level e : Nat) (va : DWord) (acc : Access) : Xlate :=
  let off := if level = 1 then bits va.toNat 0 29 else bits va.toNat 0 16
  let pa := entryPA e + off
  let perm := (acc = .write ∧ bitOf e 2 = false) ∨ (acc = .exec ∧ bitOf e 3 = false)
  if bitOf e 63 then
    if perm then .trap .prot
    else
      let port := (bitOf e 62).toNat
      if !s.linkUp port || !s.route d (portDie port) then .trap .xlat
      else if FMap.get (fun _ => false) s.atsDenied (hostKey port pa / 2 ^ 16) then .recoverable true
      else .ok (hostKey port pa) false
  else if bitOf e 61 && bits e 48 12 != s.pkg.fabdev.toNat then
    let dev := bits e 48 12
    if !s.pkg.domain.contains dev || s.pkg.unreachable.contains dev then .trap .xlat
    else if perm then .trap .prot
    else if !s.admitsTag dev pa ((s.pitch x).fab.truncate 16) then .trap .xlat
    else .ok (fabKey dev pa) (bits e 4 2 == 0)
  else
    match s.place x d pa with
    | .absent => .trap .xlat
    | .registers => .trap .prot
    | .scrubbing f => if perm then .trap .prot else .busy f
    | .present => if perm then .trap .prot else .ok pa (bits e 4 2 == 0)

/-- The walk from a table of `level`, with at most `fuel` levels left. Frames are owned by what a translation gives; the tables that
it reads on the way may stand in any frame (R455; log 28). The reader of a poisoned entry takes ECC (Table 1.9). -/
def State.walk (s : State) (x d : Nat) (va : DWord) (acc : Access) : Nat → Nat → Nat → Xlate
  | 0, _, _ => .trap .xlat
  | fuel + 1, level, table =>
    let ea := table + 8 * levelIndex level va
    match s.placeAt d ea with
    | .absent | .registers => .trap .xlat
    | .scrubbing f => .busy f
    | .present =>
      let e := s.readN ea 8
      if s.poisoned ea 8 then .trap .ecc
      else if !bitOf e 0 then
        if bitOf e 6 then (if (s.pitch x).fmode then .recoverable false else .trap .xlat) else .trap .xlat
      else if entryBad level e then .trap .xlat
      else if bitOf e 1 then s.leaf x d level e va acc
      else State.walk s x d va acc fuel (level + 1) (entryPA e)

/-- Translates a virtual address of pitch `x` for a party on die `d` (R419 to R421). -/
def State.translate (s : State) (x d : Nat) (va : DWord) (acc : Access) : Xlate :=
  if !canonical va then .trap .xlat else s.walk x d va acc 3 0 (s.pitch x).troot.toNat

/-! ### Teams, threads, fragments -/

/-- The team of a residency. -/
def State.team? (s : State) (uid : Nat) : Option Team := s.teams.find? (fun t => t.uid == uid)

/-- Changes one team. -/
def State.setTeam (s : State) (uid : Nat) (f : Team → Team) : State :=
  { s with teams := s.teams.map (fun t => if t.uid = uid then f t else t) }

/-- The thread of a home row and row position. -/
def Team.thread? (t : Team) (row pos : Nat) : Option Thread := t.threads.find? (fun h => h.row == row && h.pos == pos)

/-- The team that an engine operation belongs to: resident, or saved (R286). -/
def State.owner? (s : State) (uid : Nat) : Option Team :=
  match s.team? uid with
  | some t => some t
  | none => (s.saved.find? (fun v => v.team.uid == uid)).map (·.team)

/-- Changes one thread. -/
def Team.setThread (t : Team) (row pos : Nat) (f : Thread → Thread) : Team :=
  { t with threads := t.threads.map (fun h => if h.row = row ∧ h.pos = pos then f h else h) }

/-- Changes every thread. -/
def Team.mapThreads (t : Team) (f : Thread → Thread) : Team := { t with threads := t.threads.map f }

/-- The fragment of an id. -/
def Team.frag? (t : Team) (fid : Nat) : Option Frag := t.frags.find? (fun g => g.fid == fid)

/-- Changes one fragment. -/
def Team.setFrag (t : Team) (fid : Nat) (f : Frag → Frag) : Team :=
  { t with frags := t.frags.map (fun g => if g.fid = fid then f g else g) }

/-- A thread that has not exited. -/
def Thread.live (h : Thread) : Bool := h.st != .exited

/-- The role of a home row: 0 load, 1 compute, 2 epilogue (R42). -/
def KHdr.role (k : KHdr) (row : Nat) : Nat :=
  if row < k.lrows then 0 else if row < k.rows - k.erows then 1 else 2

/-- The register count of a home row's role. -/
def KHdr.regs (k : KHdr) (row : Nat) : Nat :=
  match k.role row with
  | 0 => k.lregs
  | 1 => k.cregs
  | _ => k.eregs

/-- The core that holds a home row (R46). -/
def Team.coreOf (t : Team) (row : Nat) : Nat := if t.hdr.twin then t.core + row % 2 else t.core

/-- LFLAGS.REPLAY (Table 21.3). -/
def Team.replay (t : Team) : Bool := t.rcd.lflags.getLsbD 5

/-- A byte of team memory; every byte is zero at allocation (R24). -/
def Team.byte (t : Team) (o : Nat) : Byte := FMap.get memDefault t.tmem o

/-- `n` bytes of team memory. -/
def Team.bytes (t : Team) (o : Nat) : Nat → List Byte
  | 0 => []
  | n + 1 => t.byte o :: Team.bytes t (o + 1) n

/-- Writes bytes of team memory. -/
def Team.writeBytes (t : Team) (o : Nat) (bs : List Byte) : Team :=
  { t with tmem := FMap.setMany memDefault t.tmem (cells o bs) }

/-- The full/empty bit of a granule; every granule is full at allocation (R24). -/
def Team.full (t : Team) (g : Nat) : Bool := FMap.get (fun _ => true) t.fe g

/-- Sets a full/empty bit. -/
def Team.setFull (t : Team) (g : Nat) (b : Bool) : Team := { t with fe := FMap.set (fun _ => true) t.fe g b }

/-- The team of plot member `m` of a team (R51); a team in no plot is member 0 of a plot of one. -/
def State.member? (s : State) (t : Team) (m : Nat) : Option Team :=
  match t.plot[m]? with
  | some uid => s.team? uid
  | none => none

/-- Cycles of a launch deadline (Table 21.2). -/
def deadlineCycles (n : Nat) : Nat := (if n = 0 then 0xFFFFFFFF else n) * 65536

/-- A fresh id for an engine operation, a request or a record. -/
def State.fresh (s : State) : Nat × State := (s.nextId, { s with nextId := s.nextId + 1 })

/-! ### Caches (R22, R26, R27, R31, R223, R226, R263, R407, R423). They hold lines and no bytes: `mem` is what the homes give, with
the written data that an L2 holds back, so no result depends on a line (log 56). -/

/-- The lines that one set of a cache holds; a cache whose associativity no rule gives is one set (log 56). -/
def Cache.ways : Cache → Nat
  | .l1 .. => 8
  | .l2 _ => 16
  | .rdc _ => 2 ^ 18
  | .fu .. => 2 ^ 11
  | .tlb .. => 64
  | .dieTlb d => if isVDie d then 4096 else 2048

/-- The set of a line: an L1 has 128 sets, an L2 16 or 8 slices of 4,096 sets. Which one holds a line no rule says (log 56). -/
def Cache.set : Cache → Nat → Nat
  | .l1 .., n => n % 128
  | .l2 d, n => n % ((if isVDie d then 16 else 8) * 4096)
  | _, _ => 0

/-- Does an entry lie in the set of a line of a cache? -/
def Line.inSet (c : Cache) (line : Nat) (e : Line) : Bool := e.cache == c && c.set e.line == c.set line

/-- A line is brought into a cache, or used there: it becomes the most recent, and the least recent one of a full set gives way. -/
def State.fill (s : State) (c : Cache) (line : Nat) : State :=
  let others := s.caches.filter (fun e => e.inSet c line && e.line != line)
  let gone := if others.length < c.ways then none else others.getLast?.map (·.line)
  { s with caches := { cache := c, line := line } ::
      s.caches.filter (fun e => !(e.inSet c line && (e.line == line || some e.line == gone))) }

/-- The ways of a die's L2 in which a fill for a pitch may allocate: those of its mask, and none of the RVS (R28, R407). -/
def State.fillWays (s : State) (d x : Nat) : List Nat :=
  (List.range (16 - (s.die d).rvsN)).filter (fun w => (FMap.get (fun _ => 0xFFFF) (s.pitch x).waymask d).testBit w)

/-- The way that a new line of an L2 set takes: the first free one of `ws`, or that of the least recent line in them. -/
def victimWay (ws : List Nat) (others : List Line) : Option Nat :=
  match ws.find? (fun w => !others.any (fun e => e.way == w)) with
  | some w => some w
  | none => (others.reverse.find? (fun e => ws.contains e.way)).map (·.way)

/-- A line of a die's own memory is used in its L2, for a pitch: a lookup hits in any way, a fill takes a way of the pitch's mask
and drops what it held, whose written data goes to the stacks (R26, R407). -/
def State.fillL2 (s : State) (d x line : Nat) (wr : Bool) : State :=
  let c : Cache := .l2 d
  match s.caches.find? (fun e => e.inSet c line && e.line == line) with
  | some e => { s with caches := { e with written := e.written || wr } :: s.caches.filter (fun e => !(e.inSet c line && e.line == line)) }
  | none =>
    match victimWay (s.fillWays d x) (s.caches.filter (fun e => e.inSet c line)) with
    | none => s
    | some w =>
      { s with caches := { cache := c, line := line, way := w, written := wr } ::
          s.caches.filter (fun e => !(e.inSet c line && e.way == w)) }

/-- What stands for no pitch: the mask of it, on every die, is that of reset (log 56). -/
def noPitch : Nat := 64

/-- A write of `n` bytes at a key for a pitch is applied at the home: the home's L2 takes its lines and holds the written data back from
the stacks (R26). -/
def State.homeWrite (s : State) (x k n : Nat) : State :=
  if n = 0 ∨ 0x9000000000 ≤ k then s
  else (List.range ((k + n - 1) / 128 - k / 128 + 1)).foldl (fun s j => s.fillL2 (homeDie k) x (k / 128 + j) true) s

/-- Bytes are written for a pitch by a unit that keeps no line of them: they come to the home's L2 (R26). -/
def State.put (s : State) (x k : Nat) (bs : List Byte) : State := (s.homeWrite x k bs.length).writeBytes k bs

/-- Lines are dropped. -/
def State.drop (s : State) (p : Line → Bool) : State := { s with caches := s.caches.filter (fun e => !p e) }

/-- Is it a line of an L1, an RDC or a fetch-unit cache, which hold no written data (R27)? -/
def Line.cached (e : Line) : Bool :=
  match e.cache with
  | .l1 .. | .rdc _ | .fu .. => true
  | _ => false

/-- Does a line lie in a cache or TLB of a die? -/
def Line.onDie (d : Nat) (e : Line) : Bool :=
  match e.cache with
  | .l1 d' _ | .rdc d' | .fu d' _ | .l2 d' | .tlb d' _ | .dieTlb d' => d' == d

/-- The way that an access takes: through the L1, at the home alone (an atomic, R220), or through the fetch unit (R226). -/
inductive Via where
  | l1 | home | fu
  deriving DecidableEq, Repr

/-- The number of a page of a pitch in a TLB. -/
def tlbLine (x : Nat) (va : DWord) : Nat := x * 2 ^ 64 + va.toNat / 2 ^ 16

/-- A unit of a die has accessed the line of a key for a pitch: the die's L2 TLB holds the page, the home's L2 the line, and the
die's RDC too if the page is cached and the home is another die or another device (R26, R27, R282, R423). The bytes of the RVS, of
hosts and of uncached pages are in no RDC (R283, R379). -/
def State.fillDie (s : State) (x d : Nat) (va : DWord) (key : Nat) (cached wr : Bool) : State :=
  let s1 := s.fill (.dieTlb d) (tlbLine x va)
  let s2 := if key < 0x9000000000 then s1.fillL2 (homeDie key) x (key / 128) wr else s1
  if cached && ((key < 0x9000000000 && homeDie key != d) || decide (2 ^ 61 ≤ key)) then s2.fill (.rdc d) (key / 128) else s2

/-- A core has accessed the line of a key: its L1 TLB holds the page, and its L1 or fetch unit the line, if the page is cached and the
line is one of the package's memory (R22, R27, R226, R282, R283, R379). -/
def State.fillFor (s : State) (x d core : Nat) (via : Via) (va : DWord) (key : Nat) (cached wr : Bool) : State :=
  let s1 := (s.fill (.tlb d core) (tlbLine x va)).fillDie x d va key (cached && via != .home) wr
  if !cached || decide (0x9000000000 ≤ key) then s1
  else
    match via with
    | .l1 => s1.fill (.l1 d core) (key / 128)
    | .home => s1
    | .fu => s1.fill (.fu d (core / 10)) (key / 128)

/-- The same for every piece of an access. -/
def State.fillPieces (s : State) (x d core : Nat) (via : Via) (ps : List (DWord × Nat)) (ks : List Nat) (cached wr : Bool) : State :=
  (ps.zip ks).foldl (fun s e => s.fillFor x d core via e.1.1 e.2 cached wr) s

/-- The self-invalidation of an acquire of a scope (Table 13.4), by a party on a core. -/
def State.acquire (s : State) (scope : Nat) (twin : Bool) (d core : Nat) : State :=
  s.drop (fun e =>
    match e.cache with
    | .l1 d' c => d' == d && c == core && (decide (2 ≤ scope) || (twin && scope == 1))
    | .rdc d' => d' == d && decide (3 ≤ scope)
    | .fu d' r => d' == d && r == core / 10 && decide (3 ≤ scope)
    | _ => false)

/-! ### Report records (R427, Table 23.5) -/

/-- The fields of a report record; none where the rules state no value for that kind of record and party, which leaves it open
(log 29). -/
structure Rec where
  kind : Nat
  code : Nat := 0
  rflags : Nat := 0
  pitch : Option Nat := none
  die : Option Nat := none
  core : Option Nat := none
  pos : Nat := 0xFF
  launch : Option Nat := none
  team : Option Nat := none
  va : Nat := 0
  pc : Option Nat := none
  fseq : Nat := 0
  token : Nat := 0
  fid : Option Nat := none
  hrow : Option Nat := none
  idx : Option Nat := none
  dsess : Nat := 0xFF
  orow : Nat := 0
  opos : Nat := 0
  iter : Nat := 0
  owner : Nat := 0
  deriving DecidableEq, Repr

/-- The `n` bytes of a field at offset `o`: the stated value, or an open one. -/
def Rec.part (r : Rec) (o n : Nat) (v : Option Nat) : List Byte := leBytes n (v.getD (Config.openRecord r.fseq o).toNat)

/-- A field of the Drill, which has a stated value only with a session (R333). -/
def Rec.drill (r : Rec) (v : Nat) : Option Nat := if r.dsess = 0xFF then none else some v

/-- The 64 bytes of a record (Table 23.5). -/
def Rec.bytes (r : Rec) : List Byte :=
  leBytes 1 r.kind ++ leBytes 1 r.code ++ leBytes 2 r.rflags ++ r.part 4 1 r.pitch ++ r.part 5 1 r.die ++ r.part 6 1 r.core
  ++ leBytes 1 r.pos ++ r.part 8 4 r.launch ++ r.part 12 4 r.team ++ leBytes 8 r.va ++ r.part 24 8 r.pc ++ leBytes 8 r.fseq
  ++ leBytes 8 r.token ++ r.part 48 2 r.fid ++ r.part 50 1 r.hrow ++ r.part 51 1 r.idx ++ leBytes 1 r.dsess
  ++ r.part 53 1 (r.drill r.orow) ++ r.part 54 1 (r.drill r.opos) ++ leBytes 1 0 ++ r.part 56 4 (r.drill r.iter)
  ++ r.part 60 2 (r.drill r.owner) ++ leBytes 2 0

/-- The number of the package event ring among rings. -/
def evRing : Nat := 64

/-- A dropped record is counted (R427, R475). -/
def State.dropRec (s : State) (ring : Nat) : State :=
  if ring = evRing then s.setPkg (fun k => { k with evovfl := k.evovfl + 1 })
  else s.setPitch ring (fun p => { p with ovfl := p.ovfl + 1 })

/-- Can the ring take records at all: its register is not 0 and it is not broken (R427, R475)? -/
def State.ringOpen (s : State) (ring : Nat) : Bool :=
  if ring = evRing then s.pkg.evring != 0 && !s.pkg.evBroken
  else (s.pitch ring).ring != 0 && !(s.pitch ring).ringBroken

/-- Sends a record towards a ring (R427). -/
def State.post (s : State) (ring die : Nat) (isFault : Bool) (r : Rec) : State :=
  if s.ringOpen ring then
    { s with recs := s.recs ++ [{ n := s.nextId, ring := ring, die := die, fault := isFault, bytes := r.bytes }],
             nextId := s.nextId + 1 }
  else s.dropRec ring

/-- The drill fields of a record or a trap (R333): session, owner's home row and position, iteration, owner. A thread that holds an
iteration of both sessions names the one that became active first (DESIGN CHOICE, log 86). -/
def Team.drillOf (t : Team) (row pos : Nat) : Nat × Nat × Nat × Nat × Nat :=
  match t.drills.find? (fun d => match d.slots.findIdx? (· == (row, pos)) with
      | some e => (FMap.get (fun _ => none) d.curs e).isSome
      | none => false) with
  | none => (0xFF, 0, 0, 0, 0)
  | some d =>
    match d.slots.findIdx? (· == (row, pos)) with
    | none => (0xFF, 0, 0, 0, 0)
    | some e =>
      let f := (FMap.get (fun _ => none) d.curs e).getD 0
      let n := d.g * t.width
      let c := ((List.range n).foldl (fun (acc : Nat × Option Nat) c =>
        let l := (FMap.get (fun _ => (0 : Word)) d.lens c).toNat
        (acc.1 + l, if acc.2.isNone && decide (f < acc.1 + l) then some c else acc.2)) (0, none)).2.getD 0
      (d.ds, d.rows.getD (c / t.width) 0, c % t.width, f, c)

/-- Drill fields of a record (R333): whether they are valid, session, owner's row and position, iteration, owner. -/
def Rec.withDrill (r : Rec) (e : Nat × Nat × Nat × Nat × Nat) : Rec :=
  if e.1 = 0xFF then r
  else { r with rflags := r.rflags + 64, dsess := e.1, orow := e.2.1, opos := e.2.2.1, iter := e.2.2.2.1, owner := e.2.2.2.2 }

/-- A fault record is raised for a party of a team (R425, R427): the FSEQ is assigned whether or not a ring takes it. -/
def State.raise (s : State) (pitch die : Nat) (v : Victim) (page : Bool) (r : Rec) : Nat × State :=
  let q := s.pkg.nextFseq
  let s1 := s.setPkg (fun k => { k with nextFseq := q + 1 })
  let out := if page then s1.outbox ++ [Answer.pageRequest pitch q] else s1.outbox
  let s2 : State := { s1 with faults := s1.faults ++ [{ fseq := q, pitch := pitch, victim := v, va := r.va }], outbox := out }
  (q, s2.post pitch die true { r with kind := 1, fseq := q, pitch := pitch, die := die })

/-- An error record, or a package event, of a pitch or of the package: it has a serial number of its own (R427, Table 23.5). -/
def State.report (s : State) (ring die : Nat) (r : Rec) : State :=
  let q := s.pkg.nextFseq
  (s.setPkg (fun k => { k with nextFseq := q + 1 })).post ring die false { r with fseq := q }

/-- Is the record of a fault still on its way to its ring? Its party stays parked, or held, until it is written (R427). -/
def State.unwritten (s : State) (q : Nat) : Bool := s.recs.any (fun r => r.fault && field r.bytes 32 8 == q)

/-- The signal of a fault record: 0 none, or none yet that counts, 1 ok, 2 fail; a record that is gone counts as ok. -/
def State.signalOf (s : State) (q : Nat) : Nat :=
  if s.unwritten q then 0 else ((s.faults.find? (fun r => r.fseq == q)).map (·.signal)).getD 1

/-- The faulting address of a fault record. -/
def State.faultVA (s : State) (q : Nat) : DWord := BitVec.ofNat 64 (((s.faults.find? (fun r => r.fseq == q)).map (·.va)).getD 0)

/-- A fault record whose service has taken effect is forgotten. -/
def State.served (s : State) (q : Nat) : State := { s with faults := s.faults.filter (fun r => r.fseq != q) }

/-! ### Taking a trap (R433 to R437), and the return from it (R439) -/

/-- The codes of Table 23.6. -/
def Trap.code : Trap → Nat
  | .il => 1 | .fmt => 2 | .aln => 3 | .prot => 4 | .xlat => 5 | .brk => 6 | .trapi => 7 | .rdv => 8 | .que => 9
  | .det => 0xA | .ecc => 0xB | .dln => 0xC | .bvh => 0xD | .stk => 0xE | .dst => 0xF

/-- The traps after which the team may resume (Table 23.6). -/
def resumable (code : Nat) : Bool := code == 0 || code == 6 || code == 7

/-- A fragment that has begun no clause, or waits, stops at once under a halt (R435). -/
def Frag.settle (g : Frag) : Frag := if g.cur.idx = 0 ∨ g.wait.isSome then { g with stop := true } else g

/-- The U-stream stops as a fragment does. -/
def UStream.settle (u : UStream) : UStream := if u.cur.idx = 0 ∨ u.wait.isSome then { u with stop := true } else u

/-- Every part of the team has stopped. -/
def Team.allStopped (t : Team) : Bool :=
  t.frags.all (fun g => g.stop) && (!t.u.alive || t.u.stop)
  && (match t.m with
      | some m => !m.alive || m.stop
      | none => true)

/-- Does a fragment none of whose threads runs stand at a blocking instruction: `join`, `graft`, `fresume`, or the convergence
point (R440, R447)? -/
def Team.blocked (t : Team) (fid : Nat) : Bool :=
  !t.threads.any (fun h => h.fid == fid && h.st == .run)
  && t.threads.any (fun h => h.fid == fid &&
    match h.st with
    | .joinWait | .grafted .. | .fresumeWait | .atConv => true
    | _ => false)

/-- STEP has issued its clause, or cannot go on: the fragment stops again (R440). -/
def Team.endStep (t : Team) : Team :=
  match t.halt.stepping with
  | none => t
  | some (fid, _) =>
    let gone : Bool := match t.frag? fid with
      | none => true
      | some g => g.stop || (!t.blocked fid && (g.cur.clause.isNone || !t.threads.any (fun h => h.fid == fid && h.st == .run)))
    if gone then
      { t.setFrag fid (fun g => { g with stop := true, skid := 0, wait := none }) with halt := { t.halt with stepping := none } }
    else t

/-- Under a halt, what has come to rest is marked, and the team is stopped once all of it has (R435, R436). A fragment none of
whose threads goes on with it is at rest (log 8). -/
def Team.settle (t : Team) : Team :=
  match t.halt.phase with
  | .running => t
  | .stopping =>
    let rest (g : Frag) : Frag :=
      if t.threads.any (fun h => h.fid == g.fid && h.st == .run) then g.settle else { g with stop := true }
    let t1 := { t with frags := t.frags.map rest, u := t.u.settle, m := t.m.map (fun (m : MStream) => { m with stop := true }) }
    if t1.allStopped then { t1 with halt := { t1.halt with phase := .stopped } } else t1
  | .stopped => t.endStep

/-- What a trap says of itself; `who` is the home row and position of the thread of a fragment that took it, where it is one
(R333). -/
structure Cause where
  code : Nat
  imm  : Nat := 0
  va   : DWord := 0
  who  : Option (Nat × Nat) := none
  deriving DecidableEq, Repr

/-- The party's own stop: the fragment, or the stream, records the code at its place (R435, R436). -/
def Team.stopParty (t : Team) (p : Party) (code : Nat) : Team :=
  match p with
  | .frag _ fid => t.setFrag fid (fun g => { g with stop := true, trap := code, wait := none })
  | .lane _ row pos =>
    match t.thread? row pos with
    | some h => t.setFrag h.fid (fun g => { g with stop := true, trap := code, wait := none })
    | none => t
  | .ustream _ => { t with u := { t.u with stop := true, wait := none }, halt := { t.halt with utrap := code } }
  | .mstream _ => { t with m := t.m.map (fun m => { m with stop := true, wait := none, trap := code }) }

/-- The place a trap names: fragment id (0xFFFF for a stream), index and clause header. -/
def Team.causePlace (t : Team) (p : Party) : Nat × Nat × DWord :=
  match p with
  | .frag _ fid =>
    match t.frag? fid with
    | some g => (fid, g.cur.idx, g.cur.pc)
    | none => (fid, 0, 0)
  | .lane _ row pos =>
    match t.thread? row pos with
    | some h => (h.fid, h.cur.idx, h.cur.pc)
    | none => (0xFFFF, 0, 0)
  | .ustream _ => (0xFFFF, t.u.cur.idx, t.u.cur.pc)
  | .mstream _ =>
    match t.m with
    | some m => (0xFFFF, m.cur.idx, m.cur.pc)
    | none => (0xFFFF, 0, 0)

/-- A non-recoverable trap of a party stops the whole team (R433): the party stops where it stands, the first trap in time
is the cause (R436), every other part comes to rest under R435, and a handler window is assigned afterwards (R437).
`idx` is the index the record names, 15 for a clause header (R120). -/
def Team.takeTrap (t : Team) (p : Party) (c : Cause) (idx : Option Nat) (now : Nat) : Team :=
  let place := t.causePlace p
  let t1 := t.stopParty p c.code
  if t.halt.phase = .running ∨ t.halt.cause = 0 then
    let dr := match p, c.who with
      | _, some (row, pos) => t.drillOf row pos
      | .frag _ fid, none =>
        match t.threads.find? (fun (h : Thread) => h.fid == fid && h.live && (t.drillOf h.row h.pos).1 != 0xFF) with
        | some h => t.drillOf h.row h.pos
        | none => (0xFF, 0, 0, 0, 0)
      | .lane _ row pos, none => t.drillOf row pos
      | _, none => (0xFF, 0, 0, 0, 0)
    Team.settle { t1 with halt := { t1.halt with
      phase := if t.halt.phase = .stopped then .stopped else .stopping, cause := c.code, cfid := place.1, cidx := idx.getD place.2.1, imm := c.imm, cpc := place.2.2,
      va := c.va, dsess := dr.1, orow := dr.2.1, opos := dr.2.2.1, iter := BitVec.ofNat 32 dr.2.2.2.1,
      owner := dr.2.2.2.2, since := now } }
  else Team.settle t1

/-- The uid of a party's team. -/
def partyUid : Party → Nat
  | .frag u _ => u
  | .lane u _ _ => u
  | .ustream u => u
  | .mstream u => u

/-- A halt that no party of the team brought about: a HALT command, the deadline, a save (R83, R439, R442). -/
def Team.haltAll (t : Team) (code : Nat) (save : Bool) (now : Nat) : Team :=
  if t.halt.phase = .running then
    Team.settle { t with halt := { t.halt with phase := .stopping, cause := code, save := save, since := now } }
  else { t with halt := { t.halt with cause := if t.halt.cause = 0 then code else t.halt.cause, save := save || t.halt.save } }

/-- A handler window of a die (R437). -/
def State.window (s : State) (d w : Nat) : Window := FMap.get (fun _ => ({} : Window)) (s.die d).windows w

/-- Changes a handler window. -/
def State.setWindow (s : State) (d w : Nat) (f : Window → Window) : State :=
  s.setDie d (fun e => { e with windows := FMap.modify (fun _ => ({} : Window)) e.windows w f })

/-- CSTAT when STEP has ended, and the clock at which its fragment came to wait (R440; log 22). -/
def State.stepDone (s : State) (uid : Nat) : State :=
  match s.team? uid with
  | none => s
  | some t =>
    match t.halt.window, t.halt.stepping with
    | some (d, w), none =>
      if (s.window d w).cmd = 5 ∧ (s.window d w).cstat = 1 then s.setWindow d w (fun x => { x with cstat := 2 }) else s
    | some _, some (fid, at_) =>
      let waits := (t.frag? fid).any (fun g => g.wait.isSome) || t.blocked fid
      let since := if !waits then 0 else if at_ = 0 then s.now else at_
      s.setTeam uid (fun t => { t with halt := { t.halt with stepping := some (fid, since) } })
    | none, _ => s

/-- The trap, on State. -/
def State.trap (s : State) (p : Party) (c : Cause) (idx : Option Nat := none) : State :=
  (s.setTeam (partyUid p) (fun t => t.takeTrap p c idx s.now)).stepDone (partyUid p)

/-- What still waits for service of a fault goes on waiting after a halt; another wait is entered again by its instruction. -/
def keepFault (w : Option WaitFor) : Option WaitFor :=
  match w with
  | some (.fault q) => some (.fault q)
  | _ => none

/-- The return from a halt (R439, RESUME): every fragment and stream continues at its recorded PC, and the window is let go. A
save that was asked for meanwhile halts the team again (R444). -/
def Team.resumeHalt (t : Team) (now : Nat) : Team :=
  let t1 : Team := { t with
    frags := t.frags.map (fun g => { g with stop := false, skid := 0, trap := 0, wait := keepFault g.wait })
    u := { t.u with stop := false, wait := keepFault t.u.wait }
    m := t.m.map (fun m => { m with stop := false, wait := keepFault m.wait, trap := 0 })
    halt := {} }
  if t.halt.save then t1.haltAll 0 true now else t1

end Sys2Proof.Machine
end

