-- ==== Sys2Proof/Machine/Operands.lean ====
section
/-! DEFINITION. Operand forms, register writes with their delayed-write window, and the one way in which a party issues an
instruction: row code (R56 to R67, R122, R135 to R146, R166, R426), the U-stream (R53, R136) and the M-stream (R151, R290). -/

namespace Sys2Proof.Machine

open Sys2Proof

/-! ### Reading operands -/

/-- A vector operand as read: a register, or the even and odd register of a pair. `free` operands pass every tag check
(Table 5.13: vz, and s registers of vector instructions). -/
structure Opd where
  lo   : VReg
  hi   : VReg
  free : Bool
  deriving DecidableEq, Repr

/-- The 32 bits of an operand. -/
def Opd.w (x : Opd) : Word := x.lo.val

/-- The 64 bits of a pair operand (R87). -/
def Opd.dw (x : Opd) : DWord := x.hi.val ++ x.lo.val

/-- A 64-bit uniform value as an operand. -/
def Opd.ofS (v : DWord) : Opd := { lo := ⟨v.truncate 32, .b32⟩, hi := ⟨(v >>> 32).truncate 32, .b32⟩, free := true }

/-- A vector register of a thread. -/
def Thread.reg (h : Thread) (n : Nat) : VReg := FMap.get (fun _ => ({} : VReg)) h.v n

/-- Writes a vector register with its tag. -/
def Thread.setReg (h : Thread) (n : Nat) (x : VReg) : Thread := { h with v := FMap.set (fun _ => ({} : VReg)) h.v n x }

/-- A vector source field in a thread (Table 7.7): a register or pair, vz, or a distance (R137, R138). -/
def Thread.src (h : Thread) (idx n : Nat) : Opd :=
  if n < 120 then { lo := h.reg n, hi := h.reg (n + 1), free := false }
  else if n = 120 then { lo := {}, hi := {}, free := true }
  else
    match h.res.find? (fun e => e.1 + (n - 120) == idx) with
    | some (_, lo, hi) => { lo := lo, hi := hi, free := false }
    | none => { lo := {}, hi := {}, free := false }

/-- A predicate: p7 reads as true (R161). -/
def predOf (p : BitVec 7) (n : Nat) : Bool := if n = 7 then true else p.getLsbD n

/-- A predicate of a thread. -/
def Thread.pred (h : Thread) (n : Nat) : Bool := predOf h.p n

/-- Writes predicate `n`; p7 discards (R161). -/
def setPred (p : BitVec 7) (n : Nat) (b : Bool) : BitVec 7 :=
  if n < 7 then (if b then p ||| BitVec.ofNat 7 (2 ^ n) else p &&& ~~~(BitVec.ofNat 7 (2 ^ n))) else p

/-- A wait counter (R122). -/
def Thread.wcnt (h : Thread) (n : Nat) : Nat := FMap.get (fun _ => 0) h.w n

/-- An s register of a home row; sz reads zero. -/
def Team.sreg (t : Team) (row n : Nat) : DWord := if n = 64 then 0 else FMap.get (fun _ => (0 : DWord)) t.s (64 * row + n)

/-- Writes an s register of a home row; sz discards. -/
def Team.setSreg (t : Team) (row n : Nat) (v : DWord) : Team :=
  if n < 64 then { t with s := FMap.set (fun _ => (0 : DWord)) t.s (64 * row + n) v } else t

/-- An s register of the U-stream. -/
def UStream.sreg (u : UStream) (n : Nat) : DWord := if n = 64 then 0 else FMap.get (fun _ => (0 : DWord)) u.s n

/-- Writes an s register of the U-stream. -/
def UStream.setSreg (u : UStream) (n : Nat) (v : DWord) : UStream :=
  if n < 64 then { u with s := FMap.set (fun _ => (0 : DWord)) u.s n v } else u

/-- A wait counter of the U-stream. -/
def UStream.wcnt (u : UStream) (n : Nat) : Nat := FMap.get (fun _ => 0) u.w n

/-- An m register; mz (48) reads zero (Table 7.8). -/
def MStream.mreg (m : MStream) (n : Nat) : Word := if n < 16 then FMap.get (fun _ => (0 : Word)) m.m n else 0

/-- Writes an m register; mz discards. -/
def MStream.setM (m : MStream) (n : Nat) (v : Word) : MStream :=
  if n < 16 then { m with m := FMap.set (fun _ => (0 : Word)) m.m n v } else m

/-- A k register by its field code 16 to 23. -/
def MStream.kreg (m : MStream) (n : Nat) : BitVec 256 := FMap.get (fun _ => (0 : BitVec 256)) m.k (n - 16)

/-- Writes a k register. -/
def MStream.setK (m : MStream) (n : Nat) (v : BitVec 256) : MStream :=
  { m with k := FMap.set (fun _ => (0 : BitVec 256)) m.k (n - 16) v }

/-! ### Guards and members (R65, R135, R136) -/

/-- The guard of an instruction with the predicates of a party. -/
def guardOn (g : Guard) (p : BitVec 7) : Bool := (predOf p g.pred.toNat).xor g.neg

/-- Threads in ascending row position. -/
def insertPos (h : Thread) : List Thread → List Thread
  | [] => [h]
  | g :: r => if h.pos < g.pos then h :: g :: r else g :: insertPos h r

/-- Sorts threads by row position. -/
def sortPos (hs : List Thread) : List Thread := hs.foldl (fun acc h => insertPos h acc) []

/-- The threads that go with a fragment, in ascending row position. -/
def Team.members (t : Team) (fid : Nat) : List Thread :=
  sortPos (t.threads.filter (fun h => h.fid == fid && h.st == .run))

/-- The home rows of some threads, ascending, each once. -/
def rowsOf (hs : List Thread) : List Nat := (List.range 32).filter (fun r => hs.any (fun h => h.row == r))

/-- Is a thread one of a fragment: it goes with it, or stands parked, replays or waits for it (R425, R426)? -/
def Thread.within (fid : Nat) (h : Thread) : Bool :=
  h.fid == fid &&
  match h.st with
  | .run | .parked _ | .replay | .held _ | .atConv => true
  | .joinWait | .grafted .. | .fresumeWait | .exited => false

/-- Does the fragment hold every live thread of the home row (R79, R166, R215)? -/
def Team.holdsRow (t : Team) (fid row : Nat) : Bool :=
  t.threads.all (fun h => h.row != row || !h.live || h.within fid)

/-- Does the fragment hold every live thread of each home row that it has a thread of, whatever its guard (R79, R215)? -/
def Team.holdsRows (t : Team) (fid : Nat) : Bool := (rowsOf (t.threads.filter (Thread.within fid))).all (t.holdsRow fid)

/-- The convergence points of R426. -/
def isConv (o : Opc) : Bool :=
  match o with
  | .exit => false
  | .sysc | .drlld | .drlend | .drlsave | .drlrst | .graft | .gftflush => true
  | _ =>
    let c := o.code
    o.transfer || (decide (0x10 ≤ c) && decide (c ≤ 0x2A)) || (decide (0x90 ≤ c) && decide (c ≤ 0x99))
    || (decide (0xC0 ≤ c) && decide (c ≤ 0xC7))

/-! ### Register writes -/

/-- A register write of a party: v0 to v119 as 0 to 119 and vz as 120, p0 to p7 as 128 to 135, s0 to s63 and sz of the home
row or of the U-stream as 192 to 256 (the numbering of pending writes). -/
structure RegW where
  reg : Nat
  val : DWord
  tag : Tag
  deriving DecidableEq, Repr

/-- A write of a 32-bit vector result. -/
def wV (d : Nat) (v : Word) (t : Tag) : RegW := ⟨d, v.zeroExtend 64, t⟩

/-- The two writes of a pair: tags of the 64-bit row of Table 5.13. -/
def wPair (d : Nat) (v : DWord) (t : Tag) : List RegW :=
  [⟨d, (v.truncate 32).zeroExtend 64, t⟩, ⟨if d = 120 then 120 else d + 1, ((v >>> 32).truncate 32).zeroExtend 64, .pairHigh⟩]

/-- A predicate write. -/
def wP (d : Nat) (b : Bool) : RegW := ⟨128 + d, if b then 1 else 0, .b32⟩

/-- An s-register write. -/
def wS (d : Nat) (v : DWord) : RegW := ⟨192 + d, v, .b32⟩

/-- Makes a write to a vector register or predicate. -/
def Thread.put (h : Thread) (w : RegW) : Thread :=
  if w.reg < 120 then h.setReg w.reg ⟨w.val.truncate 32, w.tag⟩
  else if 128 ≤ w.reg ∧ w.reg < 136 then { h with p := setPred h.p (w.reg - 128) (w.val.getLsbD 0) }
  else h

/-- Makes a write in a team: the thread's own registers, or its home row's s register. -/
def Team.put (t : Team) (row pos : Nat) (w : RegW) : Team :=
  if 192 ≤ w.reg then t.setSreg row (w.reg - 192) w.val else t.setThread row pos (fun h => h.put w)

/-- Makes several writes in order. -/
def Team.putAll (t : Team) (row pos : Nat) (ws : List RegW) : Team := ws.foldl (fun t w => t.put row pos w) t

/-- Makes a write in the U-stream. -/
def UStream.put (u : UStream) (w : RegW) : UStream :=
  if 192 ≤ w.reg then u.setSreg (w.reg - 192) w.val
  else if 128 ≤ w.reg ∧ w.reg < 136 then { u with p := setPred u.p (w.reg - 128) (w.val.getLsbD 0) }
  else u

/-- A register that a pending write may name: vz, p7 and sz are none. -/
def realReg (n : Nat) : Bool := n < 120 || (decide (128 ≤ n) && decide (n < 135)) || (decide (192 ≤ n) && decide (n < 256))

/-- Pending writes of one instruction, counted from its own issue (R143, R442). -/
def pendsOf (look : Nat) (ws : List RegW) : List Pend :=
  let rs := ws.filter (fun w => realReg w.reg)
  (rs.zipIdx).map (fun e => { reg := e.1.reg, val := e.1.val, tag := e.1.tag, left := look + 1, link := decide (e.2 ≠ 0) })

/-- A pending write as a write. -/
def Pend.write (p : Pend) : RegW := ⟨p.reg, p.val, p.tag⟩

/-- How the writes of an instruction reach their registers: `delay` is LOOK under VER 00 for a long-latency instruction
(R143), none for a write made at issue; `idx` is the index whose result a later distance names, if it gives one (R138). -/
structure WriteMode where
  delay : Option Nat
  idx   : Option Nat
  deriving DecidableEq, Repr

/-- The write mode of an instruction at index `idx` of its clause. -/
def writeMode (o : Opc) (fm : Form) (idx : Nat) : WriteMode :=
  { delay := if o.latency = .long ∧ fm.interlock = false then some fm.look else none,
    idx := if givesDistance o fm then some idx else none }

/-- The result that distance operands name: the first and second register written of the D field. R138 gives no high word for a 64-bit
reader of a 32-bit result: it is 0 with tag b32 here, and in a thread whose guard was false the register after D (`Team.fillRes`;
DESIGN CHOICE, log 66). -/
def resOf (ws : List RegW) : Option (VReg × VReg) :=
  match ws.filter (fun w => decide (w.reg ≤ 120)) with
  | [] => none
  | [a] => some (⟨a.val.truncate 32, a.tag⟩, {})
  | a :: b :: _ => some (⟨a.val.truncate 32, a.tag⟩, ⟨b.val.truncate 32, b.tag⟩)

/-- The writes of one thread. -/
def Team.commit (md : WriteMode) (t : Team) (row pos : Nat) (ws : List RegW) : Team :=
  let t1 := match md.delay with
    | some look => t.setThread row pos (fun h => { h with pend := h.pend ++ pendsOf look ws })
    | none => t.putAll row pos ws
  match md.idx, resOf ws with
  | some j, some r => t1.setThread row pos (fun h => { h with res := (j, r.1, r.2) :: h.res })
  | _, _ => t1

/-- The writes of the U-stream. -/
def UStream.commit (md : WriteMode) (u : UStream) (ws : List RegW) : UStream :=
  match md.delay with
  | some look => { u with pend := u.pend ++ pendsOf look ws }
  | none => ws.foldl UStream.put u

/-- Makes some of the pending writes of a thread and keeps others: `sel` answers both lists. -/
def Team.makePend (sel : List Pend → List Pend × List Pend) (t : Team) (row pos : Nat) : Team :=
  match t.thread? row pos with
  | some h =>
    (t.putAll row pos ((sel h.pend).1.map Pend.write)).setThread row pos (fun g => { g with pend := (sel h.pend).2 })
  | none => t

/-- The same for the U-stream. -/
def UStream.makePend (sel : List Pend → List Pend × List Pend) (u : UStream) : UStream :=
  { ((sel u.pend).1.map Pend.write).foldl UStream.put u with pend := (sel u.pend).2 }

/-- Those whose count is spent, in order, up to one whose value is still due (R143). -/
def Pend.spent : List Pend → List Pend × List Pend
  | [] => ([], [])
  | e :: r =>
    if e.left ≠ 0 then ((Pend.spent r).1, e :: (Pend.spent r).2)
    else if e.due.isSome then ([], e :: r)
    else (e :: (Pend.spent r).1, (Pend.spent r).2)

/-- All of them, in order (R144); from one whose value is still due on, they are to be made before the thread goes on. -/
def Pend.all (ps : List Pend) : List Pend × List Pend :=
  (ps.takeWhile (fun e => e.due.isNone), (ps.dropWhile (fun e => e.due.isNone)).map (fun e => { e with left := 0 }))

/-- Those whose results are complete (R145). -/
def Pend.complete (ps : List Pend) : List Pend × List Pend :=
  (ps.filter (fun e => e.due.isNone), ps.filter (fun e => e.due.isSome))

/-- Enough of the earlier ones, those that are placed first, for `need` more registers among eight (R442; log 33). -/
def Pend.room (need : Nat) : Nat → List Pend → List Pend × List Pend
  | 0, ps => ([], ps)
  | n + 1, ps =>
    if ps.length + need ≤ 8 then ([], ps)
    else
      match (ps.map Pend.left).min? with
      | none => ([], ps)
      | some m =>
        if ps.any (fun e => e.left == m && e.due.isSome) then ([], ps)
        else
          let r := Pend.room need n (ps.filter (fun e => e.left != m))
          (ps.filter (fun e => e.left == m) ++ r.1, r.2)

/-- A pending write that is due from a number takes its value. -/
def Pend.fill (n : Nat) (ws : List RegW) (e : Pend) : Pend :=
  match e.due == some n, ws.find? (fun w => w.reg == e.reg) with
  | true, some w => { e with val := w.val, tag := w.tag, due := none }
  | _, _ => e

/-- Every pending write of a thread is made now, in order (R144). -/
def Team.flushThread (t : Team) (row pos : Nat) : Team := t.makePend Pend.all row pos

/-- Every pending write of the U-stream is made now. -/
def UStream.flush (u : UStream) : UStream := u.makePend Pend.all

/-- Counts fall by one, and those that are spent are made (R143). -/
def Pend.tick (ps : List Pend) : List Pend × List Pend := Pend.spent (ps.map (fun e => { e with left := e.left - 1 }))

/-- One instruction has issued: pending counts fall, and the writes whose count is spent are made in order (R143). -/
def Team.tickThread (t : Team) (row pos : Nat) : Team :=
  (t.makePend Pend.tick row pos).setThread row pos (fun g => { g with skip := g.skip - 1, made := false })

/-- The same for the U-stream. -/
def UStream.tick (u : UStream) : UStream :=
  let u1 := u.makePend Pend.tick
  { u1 with skip := u1.skip - 1 }

/-! ### Places in code -/

/-- The address of the next clause header (R118). -/
def Cursor.nextHeader (c : Cursor) : DWord :=
  match c.clause with
  | some cl => c.pc + BitVec.ofNat 64 (4 * cl.words)
  | none => c.pc

/-- The place after the current instruction. -/
def Cursor.advance (c : Cursor) : Cursor :=
  match c.clause with
  | some cl => if c.idx + 1 < cl.instrs.length then { c with idx := c.idx + 1 } else { pc := c.nextHeader }
  | none => c

/-- The mask of wait counters that the clause header selects, at its first instruction (R122). -/
def Cursor.waitMask (c : Cursor) : Nat :=
  match c.clause with
  | some cl => if c.idx = 0 then cl.header.wait.toNat else 0
  | none => 0

/-- Is some counter of the mask above zero? -/
def countersBusy (w : Nat → Nat) (mask : Nat) : Bool := (List.range 6).any (fun n => bitOf mask n && w n != 0)

/-! ### Issue -/

/-- What a meaning answers. `done`: the instruction has issued, and the party goes to the next one. `moved`: it has issued
and has placed its threads itself. `wait`: it has not issued. `trap`: it takes a trap. -/
inductive Out where
  | done (s : State)
  | moved (s : State)
  | wait (s : State) (w : WaitFor)
  | trap (s : State) (c : Cause)

/-- A plain trap. -/
def trapNow (s : State) (t : Trap) : Out := .trap s { code := t.code }

/-- What a meaning of row code is given: the state, the team, the party, the place, the members of the fragment and those
whose guard is true, both in ascending row position. -/
structure Ctx where
  s   : State
  t   : Team
  p   : Party
  fid : Nat
  cur : Cursor
  mem : List Thread
  act : List Thread
  md  : WriteMode

/-- What a meaning in the U-stream is given. -/
structure UCtx where
  s  : State
  t  : Team
  u  : UStream
  md : WriteMode

/-- What a meaning in the M-stream is given. -/
structure MCtx where
  s : State
  t : Team
  m : MStream

/-- The registers a row-code instruction names, v as 0 to 119, predicates as 128 upwards. -/
def namedRegs (o : Opc) (fm : Form) : List Nat :=
  regsNamed o fm ++
  match fm with
  | .f f =>
    let sh := shape false o f
    (if f.grd.pred = 7 then [] else [128 + f.grd.pred.toNat])
    ++ [(sh.d, f.d.toNat), (sh.a, f.a.toNat), (sh.b, f.b.toNat), (sh.c, f.c.toNat)].filterMap (fun e =>
      if e.1 = .p ∧ e.2 < 7 then some (128 + e.2) else none)
  | .i x => if x.grd.pred = 7 then [] else [128 + x.grd.pred.toNat]

/-- The registers an outstanding group operation will write (R327). -/
def Arrival.regs (a : Arrival) : List Nat :=
  match a.op, a.guard with
  | .fin, true => (if a.d < 120 then (if a.wide then [a.d, a.d + 1] else [a.d]) else []) ++ (if a.c < 7 then [128 + a.c] else [])
  | _, _ => []

/-- Instructions before which all pending writes are made (R144). -/
def flushes (o : Opc) (fm : Form) : Bool :=
  fm.interlock ||
  match o with
  | .join | .graft | .gftflush | .fresume => true
  | _ => false

/-- The registers that an instruction reads or writes in a thread: its guard alone where that is false, and none under `skip`, where it
executes as guard-false (R125, R135, R142). -/
def Thread.uses (o : Opc) (fm : Form) (h : Thread) : List Nat :=
  if h.skip ≠ 0 then []
  else if guardOn fm.guard h.p then namedRegs o fm
  else if fm.guard.pred = 7 then [] else [128 + fm.guard.pred.toNat]

/-- Does the instruction meet a destination that is not yet written (R142, R143, R144, R327): one it reads or writes under VER 01, or a
pending write whose value is still due and whose place has come? -/
def heldUp (o : Opc) (fm : Form) (h : Thread) : Bool :=
  h.pend.any (fun e => e.due.isSome && (e.left == 0 || flushes o fm))
  || h.arr.any (fun a => a.lock && a.regs.any (fun r => (h.uses o fm).contains r))
  || h.late.any (fun e => (h.uses o fm).contains e.2)

/-- The s registers and predicates that an instruction names in the U-stream, s as 192 upwards and predicates as 128 upwards. -/
def streamRegs (o : Opc) (fm : Form) : List Nat :=
  (if fm.guard.pred = 7 then [] else [128 + fm.guard.pred.toNat]) ++
  match fm with
  | .f f =>
    let sh := shape true o f
    [(sh.d, f.d.toNat), (sh.a, f.a.toNat), (sh.b, f.b.toNat), (sh.c, f.c.toNat)].filterMap (fun e =>
      if e.1 = .s then some (192 + e.2) else if e.1 = .p ∧ e.2 < 7 then some (128 + e.2) else none)
  | .i x => if immFld true o x = .s then [192 + x.d.toNat] else []

/-- The registers that an instruction reads or writes in the U-stream. -/
def UStream.uses (o : Opc) (fm : Form) (u : UStream) : List Nat :=
  if u.skip ≠ 0 then []
  else if guardOn fm.guard u.p then streamRegs o fm
  else if fm.guard.pred = 7 then [] else [128 + fm.guard.pred.toNat]

/-- Does the U-stream meet a destination that is not yet written (R142, R143, R144)? -/
def UStream.heldUp (o : Opc) (fm : Form) (u : UStream) : Bool :=
  u.pend.any (fun e => e.due.isSome && (e.left == 0 || flushes o fm)) || u.late.any (fun e => (u.uses o fm).contains e.2)

/-- The registers a long-latency instruction would leave pending (R442); those of `drlend` hang on its session. -/
def pendNeed (o : Opc) (fm : Form) : Nat :=
  match fm with
  | .f f =>
    if o.latency = .long ∧ f.interlock = false then
      let d := match (shape false o f).d with
        | .vd => if f.d.toNat < 120 then 1 else 0
        | .v2d => if f.d.toNat < 120 then 2 else 0
        | .p2 => 2
        | .g8 => 8
        | .p => if f.d.toNat < 7 then 1 else 0
        | .s => if f.d.toNat < 64 then 1 else 0
        | _ => 0
      match o with
      | .drlend => 0
      | .drlnext => d + (if f.c.toNat < 7 then 1 else 0)
      | _ => d
    else 0
  | .i _ => 0

/-- Instructions whose wait counter falls when an engine or group operation ends, or a record is placed; their own meaning raises it. -/
def ownCounter (o : Opc) : Bool :=
  match o with
  | .bcp | .btile | .bgat | .bsct | .bred | .bfill | .glean | .drlld | .drlend | .drlsave | .drlrst | .emit | .launch => true
  | _ => false

/-- Raises a wait counter of threads and records what will lower it (R122). -/
def State.count (s : State) (uid : Nat) (hs : List (Nat × Nat)) (wc dep : Nat) : State :=
  if wc = 7 ∨ hs = [] then s
  else
    let s1 := s.setTeam uid (fun t => hs.foldl (fun t e =>
      t.setThread e.1 e.2 (fun h => { h with w := FMap.modify (fun _ => 0) h.w wc (· + 1) })) t)
    { s1 with inflight := s1.inflight ++ [{ id := s1.nextId, uid := uid, threads := hs, wc := wc, dep := dep }],
              nextId := s1.nextId + 1 }

/-- Raises a wait counter of the U-stream. -/
def State.countU (s : State) (uid wc dep : Nat) : State :=
  if wc = 7 then s
  else
    let s1 := s.setTeam uid (fun t => { t with u := { t.u with w := FMap.modify (fun _ => 0) t.u.w wc (· + 1) } })
    { s1 with inflight := s1.inflight ++ [{ id := s1.nextId, uid := uid, threads := [], wc := wc, dep := dep }],
              nextId := s1.nextId + 1 }

/-- The keys of threads. -/
def keysOf (hs : List Thread) : List (Nat × Nat) := hs.map (fun h => (h.row, h.pos))

/-- The result of a guard-false thread for distance operands: its destination as it stands (R138). -/
def Team.fillRes (md : WriteMode) (d : Nat) (t : Team) (ks : List (Nat × Nat)) : Team :=
  match md.idx with
  | none => t
  | some j =>
    ks.foldl (fun t k => t.setThread k.1 k.2 (fun h =>
      if h.res.any (fun e => e.1 == j) then h
      else { h with res := (j, if d < 120 then (h.reg d, h.reg (d + 1)) else ({}, {})) :: h.res })) t

/-- After an instruction has issued, under a halt what has come to rest stops (R435). -/
def State.settle (s : State) (uid : Nat) : State := (s.setTeam uid Team.settle).stepDone uid

/-- Those of some threads that stand parked: an instruction that parks a thread has not issued in it (R217, R145). -/
def State.parkedOf (s : State) (uid : Nat) (ks : List (Nat × Nat)) : List (Nat × Nat) :=
  match s.team? uid with
  | none => []
  | some t => ks.filter (fun k => (t.thread? k.1 k.2).any (fun h =>
      match h.st with
      | .parked _ => true
      | _ => false))

/-- The end of an issue by a fragment: counters, results for distances, pending writes, the next place. What ^k delivers where the guard
was false is the register as it stands before the delayed writes that are placed directly after the instruction (R138, R143; DESIGN
CHOICE, log 67). -/
def finishFrag (o : Opc) (fm : Form) (c : Ctx) (s : State) (advance : Bool) : State :=
  let uid := c.t.uid
  let gone := s.parkedOf uid (keysOf c.mem)
  let s1 := if o.latency = .long ∧ ownCounter o = false then
      s.count uid ((keysOf c.act).filter (fun k => !gone.contains k)) fm.wc 0 else s
  let s2 := s1.setTeam uid (fun t =>
    let ks := (keysOf c.mem).filter (fun k => !gone.contains k)
    let t1 := t.fillRes c.md fm.d ks
    let t2 := ks.foldl (fun t k => t.tickThread k.1 k.2) t1
    let skidOf (g : Frag) : Nat := if t.halt.phase = .running ∨ g.stop then g.skid else g.skid + 1
    match c.p, advance with
    | .lane _ row pos, true =>
      if gone.contains (row, pos) then t2 else t2.setThread row pos (fun h => { h with cur := h.cur.advance })
    | .lane .., false => t2
    | _, true => t2.setFrag c.fid (fun g => { g with cur := g.cur.advance, wait := none, skid := skidOf g })
    | _, false => t2.setFrag c.fid (fun g => { g with skid := skidOf g }))
  s2.settle uid

/-- A party that comes to wait has paid for the issue of its instruction (R401): it is noted, until it issues again. -/
def State.havePaid (s : State) (p : Party) : State := { s with waited := p :: s.waited.filter (· != p) }

/-- A party of row code waits: the fragment is marked, a thread that replays only tries again. -/
def stayFrag (c : Ctx) (s : State) (w : WaitFor) : State :=
  match c.p with
  | .lane .. => (s.havePaid c.p).settle c.t.uid
  | _ => ((s.havePaid c.p).setTeam c.t.uid (fun t => t.setFrag c.fid (fun g => { g with wait := some w }))).settle c.t.uid

/-- The thread that takes the trap of an instruction: the lowest that would take it alone, else the lowest of all (R333). -/
def blame (body : Ctx → Out) (c : Ctx) (r : Out) : Out :=
  match r with
  | .trap s e =>
    let alone (h : Thread) : Bool := match body { c with act := [h] } with
      | .trap _ e' => e'.code == e.code
      | _ => false
    .trap s { e with who := (((c.act.find? alone) <|> c.act.head?).map (fun h => (h.row, h.pos))) }
  | r => r

/-- What becomes of the answer of a meaning in row code. -/
def concludeFrag (o : Opc) (fm : Form) (c : Ctx) (r : Out) : Host.Outcome State Fault Refusal :=
  match r with
  | .done s => .next (finishFrag o fm c s true)
  | .moved s => .next (finishFrag o fm c s false)
  | .wait s w => .next (stayFrag c s w)
  | .trap s e => .next (s.trap c.p e)

/-- The reasons for which a member set does not yet issue an instruction, in order. -/
def notYet (o : Opc) (fm : Form) (cur : Cursor) (mem act : List Thread) : Option WaitFor :=
  if mem.any (fun h => countersBusy h.wcnt cur.waitMask) then some (.counters cur.waitMask)
  else if mem.any (fun h => heldUp o fm h) then some .destination
  else if fm.wc ≤ 5 ∧ act.any (fun h => decide (63 ≤ h.wcnt fm.wc)) then some (.counterRoom fm.wc)
  else if act.any (fun h => !h.made && decide (8 < h.pend.length + pendNeed o fm) && decide (0 < pendNeed o fm)) then
    some (.pendRoom (pendNeed o fm))
  else none

/-- The pending writes that must be made before the instruction issues. -/
def Team.flushFor (o : Opc) (fm : Form) (t : Team) (ks : List (Nat × Nat)) : Team :=
  if flushes o fm then ks.foldl (fun t k => t.flushThread k.1 k.2) t else t

/-- Threads whose guard is true and which no `skip` passes over (R125, R135). -/
def Thread.on (g : Guard) (h : Thread) : Bool := h.skip == 0 && guardOn g h.p

/-- A thread gets room for `n` more pending registers: earlier writes are made (R442, R82; log 33). -/
def Team.roomThread (n : Nat) (t : Team) (row pos : Nat) : Team := t.makePend (Pend.room n 9) row pos

/-- Room for the pending writes of the instruction in each thread that executes it (R442). -/
def Team.roomFor (o : Opc) (fm : Form) (t : Team) (ks : List (Nat × Nat)) : Team :=
  ks.foldl (fun t k =>
    if 0 < pendNeed o fm ∧ (t.thread? k.1 k.2).any (fun h =>
        Thread.on fm.guard h && !h.made && decide (8 < h.pend.length + pendNeed o fm)) then t.roomThread (pendNeed o fm) k.1 k.2
    else t) t

/-- Whether a party issues its instruction now. -/
inductive Start (γ : Type) where
  /-- It does, in this context. -/
  | go (c : γ)
  /-- It does not, or its instruction does nothing; the state that follows. -/
  | hold (s : State)
  /-- There is no such party. -/
  | stop (f : Fault)

/-- Row code comes to issue an instruction: a fragment whole, or one thread that replays (R426). -/
def rowIssue (o : Opc) (fm : Form) (s : State) (p : Party) (uid fid : Nat) (cur : Cursor) (ks : List (Nat × Nat)) : Start Ctx :=
  let s1 := s.setTeam uid (fun t => (t.flushFor o fm ks).roomFor o fm ks)
  match s1.team? uid with
  | none => .stop .noParty
  | some t =>
    let mem := sortPos (ks.filterMap (fun k => t.thread? k.1 k.2))
    let act := mem.filter (Thread.on fm.guard)
    let c : Ctx := { s := s1, t := t, p := p, fid := fid, cur := cur, mem := mem, act := act, md := writeMode o fm cur.idx }
    match notYet o fm cur mem act with
    | some w => .hold (stayFrag c s1 w)
    | none => .go c

/-- The threads of a fragment that issue together; at a convergence point those that wait there rejoin (R426). -/
def Team.rejoin (o : Opc) (t : Team) (fid : Nat) : Team :=
  if isConv o then t.mapThreads (fun h => if h.fid = fid ∧ h.st = .atConv then { h with st := .run } else h) else t

/-- Does a thread of the fragment park or replay (R426)? -/
def Team.parking (t : Team) (fid : Nat) : Bool :=
  t.threads.any (fun h => h.fid == fid &&
    (match h.st with
     | .parked _ | .replay | .held _ => true
     | _ => false))

/-- The party of row code whose turn it is, come to its instruction: the threads that issue it together, or what holds them. -/
def rowStart (o : Opc) (fm : Form) (s : State) : Start Ctx :=
  match s.cur with
  | some (.frag uid fid) =>
    match s.team? uid with
    | none => .stop .noParty
    | some t =>
      match t.frag? fid with
      | none => .stop .noParty
      | some g =>
        if g.cur.clause.isNone then .stop .noParty
        else if isConv o && t.parking fid then
          .hold (((s.havePaid (.frag uid fid)).setTeam uid (fun t => t.setFrag fid (fun g => { g with wait := some .parked }))).settle uid)
        else
          let s1 := s.setTeam uid (fun t => t.rejoin o fid)
          rowIssue o fm s1 (.frag uid fid) uid fid g.cur (keysOf (((s1.team? uid).map (fun t => t.members fid)).getD []))
  | some (.lane uid row pos) =>
    match s.team? uid with
    | none => .stop .noParty
    | some t =>
      match t.thread? row pos with
      | none => .stop .noParty
      | some h =>
        if h.cur.clause.isNone then .stop .noParty
        else rowIssue o fm s (.lane uid row pos) uid h.fid h.cur [(row, pos)]
  | _ => .stop .wrongStream

/-- The end of an issue by the U-stream: its counter, its pending writes, its next place. -/
def finishU (o : Opc) (fm : Form) (uid : Nat) (s : State) (counts adv : Bool) : State :=
  let s1 := if o.latency = .long ∧ ownCounter o = false ∧ counts then s.countU uid fm.wc 0 else s
  (s1.setTeam uid (fun t =>
    let u := t.u.tick
    { t with u := { u with cur := if adv then u.cur.advance else u.cur, wait := none } })).settle uid

/-- The pending writes that must be made before the U-stream issues: all of them (R144), or enough for room (R442; log 33). -/
def UStream.readyFor (o : Opc) (fm : Form) (u : UStream) : UStream :=
  let u1 := if flushes o fm then u.flush else u
  if 0 < pendNeed o fm ∧ 8 < u1.pend.length + pendNeed o fm ∧ u1.skip = 0 ∧ guardOn fm.guard u1.p then u1.makePend (Pend.room (pendNeed o fm) 9) else u1

/-- The U-stream waits. -/
def stayU (uid : Nat) (s : State) (w : WaitFor) : State :=
  ((s.havePaid (.ustream uid)).setTeam uid (fun t => { t with u := { t.u with wait := some w } })).settle uid

/-- The U-stream come to its instruction; when its guard is false, or under `skip`, the instruction does nothing (R125, R135). -/
def uStart (o : Opc) (fm : Form) (s : State) : Start UCtx :=
  match s.cur with
  | some (.ustream uid) =>
    match s.team? uid with
    | none => .stop .noParty
    | some t0 =>
      if t0.u.cur.clause.isNone then .stop .noParty
      else if countersBusy t0.u.wcnt t0.u.cur.waitMask then .hold (stayU uid s (.counters t0.u.cur.waitMask))
      else
        let s1 := s.setTeam uid (fun t => { t with u := t.u.readyFor o fm })
        match s1.team? uid with
        | none => .stop .noParty
        | some t =>
          if t.u.heldUp o fm then .hold (stayU uid s1 .destination)
          else if !(t.u.skip == 0 && guardOn fm.guard t.u.p) then .hold (finishU o fm uid s1 false true)
          else if fm.wc ≤ 5 ∧ 63 ≤ t.u.wcnt fm.wc then .hold (stayU uid s1 (.counterRoom fm.wc))
          else if 0 < pendNeed o fm ∧ 8 < t.u.pend.length + pendNeed o fm then .hold (stayU uid s1 (.pendRoom (pendNeed o fm)))
          else .go { s := s1, t := t, u := t.u, md := writeMode o fm t.u.cur.idx }
  | _ => .stop .wrongStream

/-- What becomes of the answer of a meaning in the U-stream. -/
def concludeU (o : Opc) (fm : Form) (c : UCtx) (r : Out) : Host.Outcome State Fault Refusal :=
  match r with
  | .done s => .next (finishU o fm c.t.uid s true true)
  | .moved s => .next (finishU o fm c.t.uid s true false)
  | .wait s w => .next (stayU c.t.uid s w)
  | .trap s e => .next (s.trap (.ustream c.t.uid) e)

/-- The M-stream come to its instruction. -/
def mStart (s : State) : Start MCtx :=
  match s.cur with
  | some (.mstream uid) =>
    match s.team? uid with
    | none => .stop .noParty
    | some t =>
      match t.m with
      | none => .stop .noParty
      | some m => if m.cur.clause.isNone then .stop .noParty else .go { s := s, t := t, m := m }
  | _ => .stop .wrongStream

/-- The end of an issue by the M-stream. -/
def finishM (uid : Nat) (s : State) (adv : Bool) : State :=
  (s.setTeam uid (fun t => { t with m := t.m.map (fun m =>
    { m with cur := if adv then m.cur.advance else m.cur, wait := none, paid := false, got := [] }) })).settle uid

/-- The M-stream waits. -/
def stayM (uid : Nat) (s : State) (w : WaitFor) : State :=
  (s.setTeam uid (fun t => { t with m := t.m.map (fun m => { m with wait := some w }) })).settle uid

/-- What becomes of the answer of a meaning in the M-stream. -/
def concludeM (c : MCtx) (r : Out) : Host.Outcome State Fault Refusal :=
  match r with
  | .done s => .next (finishM c.t.uid s true)
  | .moved s => .next (finishM c.t.uid s false)
  | .wait s w => .next (stayM c.t.uid s w)
  | .trap s e => .next (s.trap (.mstream c.t.uid) e)

/-- An instruction of row code only. -/
def runRow (o : Opc) (fm : Form) (body : Ctx → Out) (s : State) : Host.Outcome State Fault Refusal :=
  match rowStart o fm s with
  | .go c => concludeFrag o fm c (blame body c (body c))
  | .hold s' => .next s'
  | .stop f => .fault f

/-- An instruction of the U-stream. -/
def runU (o : Opc) (fm : Form) (body : UCtx → Out) (s : State) : Host.Outcome State Fault Refusal :=
  match uStart o fm s with
  | .go c => concludeU o fm c (body c)
  | .hold s' => .next s'
  | .stop f => .fault f

/-- An instruction of row code and of the U-stream. -/
def runRU (o : Opc) (fm : Form) (row : Ctx → Out) (u : UCtx → Out) (s : State) : Host.Outcome State Fault Refusal :=
  match s.cur with
  | some (.ustream _) => runU o fm u s
  | _ => runRow o fm row s

/-- An instruction of the M-stream. -/
def runM (body : MCtx → Out) (s : State) : Host.Outcome State Fault Refusal :=
  match mStart s with
  | .go c => concludeM c (body c)
  | .hold s' => .next s'
  | .stop f => .fault f

/-! ### The common bodies -/

/-- What a thread's part of an instruction answers: a trap, or its register writes. -/
abbrev LaneOut := Except Trap (List RegW)

/-- The lowest trap code of several threads (R207); none when none traps. -/
def lowestTrap (rs : List (Except Trap (List RegW))) : Option Trap :=
  rs.foldl (fun acc r =>
    match r, acc with
    | .error e, none => some e
    | .error e, some a => some (if e.code < a.code then e else a)
    | .ok _, a => a) none

/-- Each thread whose guard is true computes its own writes; when any traps, none writes (R112, R207). -/
def lanes (f : Ctx → Thread → LaneOut) (c : Ctx) : Out :=
  let rs := c.act.map (fun h => ((h.row, h.pos), f c h))
  match lowestTrap (rs.map (·.2)) with
  | some t => trapNow c.s t
  | none =>
    .done (c.s.setTeam c.t.uid (fun t => rs.foldl (fun t r =>
      match r.2 with
      | .ok ws => t.commit c.md r.1.1 r.1.2 ws
      | .error _ => t) t))

/-- A write of a home row's s register by the row: at once, or, delayed, in each of its threads that issue it (R143; log 13). -/
def Ctx.commitRow (c : Ctx) (t : Team) (row : Nat) (h : Thread) (ws : List RegW) : Team :=
  match c.md.delay with
  | none => t.commit c.md row h.pos ws
  | some _ => (c.act.filter (fun g => g.row == row)).foldl (fun t g => t.commit c.md row g.pos ws) t

/-- DET for a uniform instruction that writes an s register in a fragment that does not hold its rows (R166). -/
def rowDet (c : Ctx) : Bool := c.t.hdr.det && (rowsOf c.act).any (fun r => !c.t.holdsRow c.fid r)

/-- A uniform instruction in row code: once for each home row with a thread whose guard is true (R166). `f` is given the
row and its lowest such thread and answers the row's s writes and the predicate writes of every such thread. -/
def perRow (sdst : Bool) (f : Ctx → Nat → Thread → Except Trap (List RegW × List RegW)) (c : Ctx) : Out :=
  if sdst && rowDet c then trapNow c.s .det
  else
    let rs := (rowsOf c.act).filterMap (fun r =>
      (c.act.find? (fun h => h.row == r)).map (fun h => (r, h, f c r h)))
    match lowestTrap (rs.map (fun e => e.2.2.map (·.1))) with
    | some t => trapNow c.s t
    | none =>
      .done (c.s.setTeam c.t.uid (fun t => rs.foldl (fun t e =>
        match e.2.2 with
        | .ok (ss, ps) =>
          let t1 := c.commitRow t e.1 e.2.1 ss
          (c.act.filter (fun h => h.row == e.1)).foldl (fun t h => t.commit c.md h.row h.pos ps) t1
        | .error _ => t) t))

/-- The U-stream computes its writes. -/
def uWrites (f : UCtx → Except Trap (List RegW)) (c : UCtx) : Out :=
  match f c with
  | .error t => trapNow c.s t
  | .ok ws => .done (c.s.setTeam c.t.uid (fun t => { t with u := t.u.commit c.md ws }))

/-- The M-stream computes its new own state. -/
def mSelf (f : MCtx → Except Trap MStream) (c : MCtx) : Out :=
  match f c with
  | .error t => trapNow c.s t
  | .ok m => .done (c.s.setTeam c.t.uid (fun t => { t with m := some m }))

/-- A uniform instruction whose row and U-stream forms compute the same from s registers: `sv` reads a uniform field. -/
def uniform (o : Opc) (fm : Form) (sdst : Bool) (f : (Nat → DWord) → (Nat → Bool) → Except Trap (List RegW × List RegW))
    (s : State) : Host.Outcome State Fault Refusal :=
  runRU o fm (perRow sdst (fun c r h => f (c.t.sreg r) h.pred))
    (uWrites (fun c => (f c.u.sreg (predOf c.u.p)).map (fun e => e.1 ++ e.2))) s

end Sys2Proof.Machine
end

