-- ==== Sys2Proof/Machine/Flags.lean ====
section
/-! DEFINITION. What decides and what marks a result: format tags and their checks (R111 to R113), compare conditions (R165),
integer ranges with wrapping and clamping (R86, R178), shifts, bit fields and bit counts (R179, R180, Table 9.6). -/

namespace Sys2Proof.Machine

open Sys2Proof

/-! ### Tags -/

/-- The tag of a type of register width; the narrow integer types are held as s32 and n32 (R87). -/
def tagOf : Ty → Tag
  | .b32 => .b32 | .s32 | .s8 | .s16 => .s32 | .n32 | .n8 | .n16 => .n32 | .f32 => .f32
  | .bf16x2 => .bf16x2 | .f16x2 => .f16x2 | .e4m3x4 => .e4m3x4 | .e5m2x4 => .e5m2x4 | .e3m2x4 => .e3m2x4
  | .e2m3x4 => .e2m3x4 | .e2m1x8 => .e2m1x8 | .s8x4 => .s8x4 | .sc10 => .sc10x3 | .s64 => .s64 | .n64 => .n64
  | _ => .b32

/-- The code of a tag (Table 5.12). -/
def Tag.code : Tag → Nat
  | .b32 => 0 | .s32 => 1 | .n32 => 2 | .f32 => 3 | .bf16x2 => 4 | .f16x2 => 5 | .e4m3x4 => 6 | .e5m2x4 => 7
  | .e3m2x4 => 8 | .e2m3x4 => 9 | .e2m1x8 => 0xA | .s8x4 => 0xB | .sc10x3 => 0xC | .s64 => 0xD | .n64 => 0xE
  | .pairHigh => 0xF

/-- The tag of a code; none for the reserved codes 0x10 to 0x1F (R111). -/
def tagOfCode (n : Nat) : Option Tag :=
  [Tag.b32, .s32, .n32, .f32, .bf16x2, .f16x2, .e4m3x4, .e5m2x4, .e3m2x4, .e2m3x4, .e2m1x8, .s8x4, .sc10x3, .s64, .n64,
   .pairHigh][n]?

/-- The tag check of one source operand of type T (R112, Table 5.13). For a 64-bit type both registers are checked; with
`.raw`, b32 passes on either (log 14). -/
def tagOk (t : Ty) (raw : Bool) (x : Opd) : Bool :=
  x.free ||
  ((x.lo.tag == tagOf t || (raw && x.lo.tag == .b32))
   && (!t.wide || x.hi.tag == .pairHigh || (raw && x.hi.tag == .b32)))

/-- Takes FMT unless every check holds (R112). -/
def needTags (bs : List Bool) : Except Trap Unit := if bs.all id then .ok () else .error .fmt

/-! ### Integers -/

/-- The width and signedness of an integer type (Table 5.1); the raw types count as n32. -/
def intTy : Ty → Nat × Bool
  | .s8 => (8, true) | .s16 => (16, true) | .s32 => (32, true) | .s64 => (64, true)
  | .n8 => (8, false) | .n16 => (16, false) | .n64 => (64, false) | .s8x4 => (8, true)
  | _ => (32, false)

/-- The value of the low `w` bits. -/
def intVal (w : Nat) (sg : Bool) (x : Nat) : Int := if sg then signed w x else (x % 2 ^ w : Nat)

/-- The nearest end of the range (R86). -/
def clampTo (w : Nat) (sg : Bool) (x : Int) : Int :=
  let lo : Int := if sg then -(2 ^ (w - 1) : Nat) else 0
  let hi : Int := if sg then (2 ^ (w - 1) : Nat) - 1 else (2 ^ w : Nat) - 1
  if x < lo then lo else if hi < x then hi else x

/-- An exact result brought to `w` bits: wrapped, or clamped under SAT (R86). -/
def intRes (w : Nat) (sg sat : Bool) (x : Int) : Nat := wrapN w (if sat then clampTo w sg x else x)

/-- A `w`-bit result widened to 64 bits by the sign or by zeros (R178). -/
def widen (w : Nat) (sg : Bool) (x : Nat) : DWord := BitVec.ofNat 64 (wrapN 64 (intVal w sg x))

/-! ### Comparisons (Table 9.2) -/

/-- An integer comparison under a condition code of 0 to 5. -/
def icmp (cc : Nat) (a b : Int) : Bool :=
  match cc with
  | 0 => a == b
  | 1 => a != b
  | 2 => decide (a < b)
  | 3 => decide (a ≤ b)
  | 4 => decide (b < a)
  | _ => decide (b ≤ a)

/-! ### Shifts, fields and counts -/

/-- Arithmetic shift right of a `w`-bit pattern (R179). -/
def sarN (w a k : Nat) : Nat := wrapN w (signed w a / (2 ^ (min k w) : Nat))

/-- Logical shift left of a `w`-bit pattern. -/
def shlN (w a k : Nat) : Nat := if k < w then a % 2 ^ w * 2 ^ k % 2 ^ w else 0

/-- Logical shift right of a `w`-bit pattern. -/
def shrN (w a k : Nat) : Nat := if k < w then a % 2 ^ w / 2 ^ k else 0

/-- Rotation left of 32 bits. -/
def rolN (a k : Nat) : Nat := (a % 2 ^ 32 * 2 ^ (k % 32) + a % 2 ^ 32 / 2 ^ (32 - k % 32)) % 2 ^ 32

/-- The offset and length of a field from a control operand (R180). -/
def fieldOf (w ctl : Nat) : Nat × Nat := (ctl % 256, min (ctl / 256 % 256) w)

/-- Extract (R180): bits at or above w read as 0, or as the top bit for a signed type. -/
def bfeN (w : Nat) (sg : Bool) (a ctl : Nat) : Nat :=
  let (o, n) := fieldOf w ctl
  if n = 0 then 0
  else
    let f := wrapN n (intVal w sg a / (2 ^ o : Nat))
    wrapN w (intVal n sg f)

/-- Insert (R180). -/
def bfiN (w a b ctl : Nat) : Nat :=
  let (o, n) := fieldOf w ctl
  if n = 0 ∨ w ≤ o then a % 2 ^ w
  else
    let k := min (o + n) w - o
    a % 2 ^ w - bits a o k * 2 ^ o + b % 2 ^ k * 2 ^ o

/-- Leading zeros of a `w`-bit pattern. -/
def clzN : Nat → Nat → Nat
  | 0, _ => 0
  | w + 1, a => if bitOf a w then 0 else clzN w a + 1

/-- Trailing zeros among `w` bits. -/
def ctzN : Nat → Nat → Nat
  | 0, _ => 0
  | w + 1, a => if a % 2 = 1 then 0 else ctzN w (a / 2) + 1

/-- Set bits among `w` bits. -/
def popN : Nat → Nat → Nat
  | 0, _ => 0
  | w + 1, a => a % 2 + popN w (a / 2)

/-- The `w` bits in reverse order. -/
def revN : Nat → Nat → Nat
  | 0, _ => 0
  | w + 1, a => a % 2 * 2 ^ w + revN w (a / 2)

/-! ### Packed words (Table 5.3) -/

/-- Stride, width and number of the elements of a packed type. -/
def packLayout : Ty → Nat × Nat × Nat
  | .bf16x2 | .f16x2 => (16, 16, 2)
  | .e4m3x4 | .e5m2x4 | .s8x4 => (8, 8, 4)
  | .e3m2x4 | .e2m3x4 => (8, 6, 4)
  | .e2m1x8 => (4, 4, 8)
  | .sc10 => (10, 10, 3)
  | _ => (32, 32, 1)

/-- Element `i` of a packed word. -/
def getElem (t : Ty) (x i : Nat) : Nat := bits x ((packLayout t).1 * i) (packLayout t).2.1

/-- A packed word of the given elements; unused bits are zero (R92). -/
def packElems (t : Ty) (es : List Nat) : Nat :=
  (es.zipIdx.map (fun e => e.1 % 2 ^ (packLayout t).2.1 * 2 ^ ((packLayout t).1 * e.2))).foldl (· + ·) 0

/-- The elements of a packed word. -/
def elems (t : Ty) (x : Nat) : List Nat := (List.range (packLayout t).2.2).map (getElem t x)

end Sys2Proof.Machine
end

