-- ==== Sys2Proof/Machine/Fp.lean ====
section
/-! DEFINITION. Floating-point values and formats: exact values, one rounding to a format, overflow, special values,
exact sums (R88 to R100, R105). -/

namespace Sys2Proof.Machine

open Sys2Proof

/-- A value of a floating-point format: NaN, an infinity, or ± m × 2^e exactly. -/
inductive FVal where
  | nan
  | inf (neg : Bool)
  | fin (neg : Bool) (m : Nat) (e : Int)
  deriving DecidableEq, Repr

/-- The formats of Table 5.2. -/
inductive Fmt where
  | f32 | bf16 | f16 | e4m3 | e5m2 | e3m2 | e2m3 | e2m1
  deriving DecidableEq, Repr

/-- Exponent bits, fraction bits and bias. -/
def Fmt.layout : Fmt → Nat × Nat × Nat
  | .f32 => (8, 23, 127) | .bf16 => (8, 7, 127) | .f16 => (5, 10, 15) | .e4m3 => (4, 3, 7)
  | .e5m2 => (5, 2, 15) | .e3m2 => (3, 2, 3) | .e2m3 => (2, 3, 1) | .e2m1 => (2, 1, 1)

/-- The bits of an encoding. -/
def Fmt.size (f : Fmt) : Nat := f.layout.1 + f.layout.2.1 + 1

/-- Has the format infinities and NaNs at the all-ones exponent? -/
def Fmt.ieee : Fmt → Bool
  | .f32 | .bf16 | .f16 | .e5m2 => true
  | _ => false

/-- The encoding of the largest finite magnitude M. -/
def Fmt.maxMag : Fmt → Nat
  | .f32 => 0x7F7FFFFF | .bf16 => 0x7F7F | .f16 => 0x7BFF | .e4m3 => 0x7E
  | .e5m2 => 0x7B | .e3m2 => 0x1F | .e2m3 => 0x1F | .e2m1 => 0x7

/-- The canonical NaN; +0 where the format has none (R98). -/
def Fmt.cnan : Fmt → Nat
  | .f32 => 0x7FC00000 | .bf16 => 0x7FC0 | .f16 => 0x7E00 | .e4m3 => 0x7F | .e5m2 => 0x7E
  | _ => 0

/-- The encoding of +∞ of an ieee format. -/
def Fmt.infMag (f : Fmt) : Nat := (2 ^ f.layout.1 - 1) * 2 ^ f.layout.2.1

/-- A sign over a magnitude. -/
def Fmt.sgn (f : Fmt) (neg : Bool) (mag : Nat) : Nat := if neg then 2 ^ (f.size - 1) + mag else mag

/-- The format of an element or of one element of a packed type. -/
def fmtOf : Ty → Option Fmt
  | .f32 => some .f32
  | .bf16 | .bf16x2 => some .bf16
  | .f16 | .f16x2 => some .f16
  | .e4m3 | .e4m3x4 => some .e4m3
  | .e5m2 | .e5m2x4 => some .e5m2
  | .e3m2 | .e3m2x4 => some .e3m2
  | .e2m3 | .e2m3x4 => some .e2m3
  | .e2m1 | .e2m1x8 => some .e2m1
  | _ => none

/-- Real of an encoding (R88). -/
def Fmt.real (f : Fmt) (x : Nat) : FVal :=
  let (eb, mb, bias) := f.layout
  let neg := bitOf x (f.size - 1)
  let e := bits x mb eb
  let fr := bits x 0 mb
  if f.ieee && e == 2 ^ eb - 1 then (if fr = 0 then .inf neg else .nan)
  else if f = .e4m3 ∧ bits x 0 7 = 0x7F then .nan
  else if e = 0 then .fin neg fr (1 - (bias : Int) - mb)
  else .fin neg (fr + 2 ^ mb) ((e : Int) - bias - mb)

/-- Should a magnitude with remainder be raised, in a mode of Table 5.4? `rem` of 2^sh, `stk` more below. -/
def roundUp (mode : Nat) (neg : Bool) (q rem sh : Nat) (stk : Bool) : Bool :=
  match mode with
  | 0 => decide (2 ^ sh < 2 * rem) || (2 * rem == 2 ^ sh && (stk || q % 2 == 1))
  | 1 => false
  | 2 => !neg && (rem != 0 || stk)
  | _ => neg && (rem != 0 || stk)

/-- The magnitude m × 2^e, and a little more when `stk`, at quantum 2^q, rounded in the mode. -/
def roundAt (mode : Nat) (neg : Bool) (m : Nat) (e q : Int) (stk : Bool) : Nat :=
  if q ≤ e then
    let s := m * 2 ^ (e - q).toNat
    if stk && ((mode == 2 && !neg) || (mode == 3 && neg)) then s + 1 else s
  else
    let sh := (q - e).toNat
    let s := m / 2 ^ sh
    if roundUp mode neg s (m % 2 ^ sh) sh stk then s + 1 else s

/-- What a magnitude beyond M becomes (Table 5.6). -/
def Fmt.overflow (f : Fmt) (mode : Nat) (sat neg : Bool) : Nat :=
  if sat || !f.ieee then f.sgn neg f.maxMag
  else
    match mode with
    | 0 => f.sgn neg f.infMag
    | 1 => f.sgn neg f.maxMag
    | 2 => f.sgn neg (if neg then f.maxMag else f.infMag)
    | _ => f.sgn neg (if neg then f.infMag else f.maxMag)

/-- Rounds ± m × 2^e (and a little more when `stk`) to the format (R96, R97). -/
def Fmt.roundMag (f : Fmt) (mode : Nat) (sat neg : Bool) (m : Nat) (e : Int) (stk : Bool) : Nat :=
  let (_, mb, bias) := f.layout
  let qmin : Int := 1 - (bias : Int) - mb
  let q : Int := max (e + Nat.log2 m - mb) qmin
  let s := roundAt mode neg m e q stk
  let mag := (q - qmin).toNat * 2 ^ mb + s
  if f.maxMag < mag then f.overflow mode sat neg else f.sgn neg mag

/-- Round (R96 to R98, Table 5.6): an exact value to an encoding. -/
def Fmt.round (f : Fmt) (mode : Nat) (sat : Bool) (v : FVal) : Nat :=
  match v with
  | .nan => f.cnan
  | .inf neg =>
    if sat then f.sgn neg f.maxMag
    else if f.ieee then f.sgn neg f.infMag
    else if f = .e4m3 then f.cnan
    else f.sgn neg f.maxMag
  | .fin neg m e => if m = 0 then f.sgn neg 0 else f.roundMag mode sat neg m e false

/-- RoundNE to f32. -/
def toF32 (v : FVal) : Word := BitVec.ofNat 32 (Fmt.f32.round 0 false v)

/-- Real of an f32 word. -/
def ofF32 (x : Word) : FVal := Fmt.f32.real x.toNat

/-- Is the value NaN? -/
def FVal.isNan : FVal → Bool
  | .nan => true
  | _ => false

/-- Is the value a zero? -/
def FVal.isZero : FVal → Bool
  | .fin _ m _ => m == 0
  | _ => false

/-- The sign. -/
def FVal.neg : FVal → Bool
  | .nan => false
  | .inf n => n
  | .fin n _ _ => n

/-- The value of opposite sign. -/
def FVal.negate : FVal → FVal
  | .nan => .nan
  | .inf n => .inf (!n)
  | .fin n m e => .fin (!n) m e

/-- The exact product (Table 9.9, R105). -/
def FVal.mul (a b : FVal) : FVal :=
  match a, b with
  | .nan, _ | _, .nan => .nan
  | .inf n, y => if y.isZero then .nan else .inf (n.xor y.neg)
  | x, .inf n => if x.isZero then .nan else .inf (n.xor x.neg)
  | .fin n m e, .fin n' m' e' => .fin (n.xor n') (m * m') (e + e')

/-- The lowest exponent among the finite non-zero terms. -/
def minExp (ts : List FVal) : Option Int :=
  ts.foldl (fun acc t =>
    match t, acc with
    | .fin _ m e, none => if m = 0 then none else some e
    | .fin _ m e, some x => if m = 0 then some x else some (if e < x then e else x)
    | _, a => a) none

/-- A finite term at exponent `e0`. -/
def FVal.atExp (e0 : Int) : FVal → Int
  | .fin n m e => let x : Int := (m * 2 ^ (e - e0).toNat : Nat); if m = 0 then 0 else if n then -x else x
  | _ => 0

/-- The exact sum of terms taken as one operation (R105). A zero is −0 when every term is −0, +0 when every term is +0 or
the terms' signs differ; `rm` makes the last case −0 (R193). -/
def fsum (rm : Bool) (ts : List FVal) : FVal :=
  if ts.any FVal.isNan then .nan
  else if ts.any (· == .inf false) && ts.any (· == .inf true) then .nan
  else if ts.any (· == .inf false) then .inf false
  else if ts.any (· == .inf true) then .inf true
  else
    match minExp ts with
    | none =>
      if ts.all (fun t => t.neg) then .fin true 0 0
      else if ts.all (fun t => !t.neg) then .fin false 0 0
      else .fin rm 0 0
    | some e0 =>
      let x := ts.foldl (fun acc t => acc + t.atExp e0) 0
      if x = 0 then .fin rm 0 0 else .fin (decide (x < 0)) x.natAbs e0

/-- Compares two finite or infinite values: the sign of a − b. -/
def fcompare (a b : FVal) : Int :=
  match a, b with
  | .inf n, .inf n' => (if n then -1 else 1) - (if n' then -1 else 1)
  | .inf n, _ => if n then -1 else 1
  | _, .inf n => if n then 1 else -1
  | x, y => match fsum false [x, y.negate] with
    | .fin n m _ => if m = 0 then 0 else if n then -1 else 1
    | _ => 0

/-- A floating-point comparison (R165, Table 9.2). -/
def fcmp (cc : Nat) (a b : FVal) : Bool :=
  let un := a.isNan || b.isNan
  match cc with
  | 6 => !un
  | 7 => un
  | 1 => un || fcompare a b != 0
  | _ => !un && icmp cc (fcompare a b) 0

/-- minimumNumber and maximumNumber on f32 words (R99): a NaN loses to a number, −0 orders below +0. -/
def fminmax (wantMax : Bool) (a b : Word) : Word :=
  let x := ofF32 a
  let y := ofF32 b
  if x.isNan then (if y.isNan then BitVec.ofNat 32 Fmt.f32.cnan else b)
  else if y.isNan then a
  else
    let c := fcompare x y
    let less := decide (c < 0) || (c == 0 && x.neg && !y.neg)
    if less = wantMax then b else a

/-- A finite or infinite value to an integer type: rounded in the mode, saturated; NaN to 0 (Table 5.7). -/
def f2i (mode w : Nat) (sg : Bool) (v : FVal) : Int :=
  match v with
  | .nan => 0
  | .inf n => if n then clampTo w sg (-(2 ^ 65 : Nat)) else clampTo w sg (2 ^ 65 : Nat)
  | .fin n m e =>
    let r : Int := roundAt mode n m e 0 false
    clampTo w sg (if n then -r else r)

/-- An integer as an exact value; 0 is +0. -/
def FVal.ofInt (x : Int) : FVal := .fin (decide (x < 0)) x.natAbs 0

/-- Real of an SC10 code (R90). -/
def sc10Real (c : Nat) : FVal :=
  if bits c 2 8 = 255 then .nan else .fin false (4 + bits c 0 2) ((bits c 2 8 : Int) - 129)

/-- f32 to SC10 (Table 5.7): rounds towards +∞. -/
def sc10Of (v : FVal) : Nat :=
  match v with
  | .fin false m e =>
    if m = 0 then 0x3FF
    else
      let top : Int := e + Nat.log2 m
      if top < -127 then 0
      else
        let s := roundAt 2 false m e (top - 2) false
        let code := (top + 127).toNat * 4 + s - 4
        if 0x3FB < code then 0x3FB else code
  | _ => 0x3FF

/-- The class mask of an f32 (R195). -/
def fclass (x : Word) : Nat :=
  match ofF32 x with
  | .nan => 2 ^ 8
  | .inf n => if n then 1 else 2 ^ 7
  | .fin n m _ =>
    if m = 0 then (if n then 2 ^ 3 else 2 ^ 4)
    else if bits x.toNat 23 8 = 0 then (if n then 2 ^ 2 else 2 ^ 5) else (if n then 2 else 2 ^ 6)

end Sys2Proof.Machine
end

