-- ==== Sys2Proof/Machine/Transc.lean ====
section
/-! DEFINITION. Division, roots and the transcendental functions of R196, each with one rounding. The four transcendental
functions are evaluated to 320 fraction bits and then rounded to nearest even (log 16). -/

namespace Sys2Proof.Machine

open Sys2Proof

/-- ⌊√n⌋, for n below 4^k. -/
def isqrt (n : Nat) : Nat → Nat → Nat
  | 0, r => r
  | k + 1, r => isqrt n k (if (r + 2 ^ k) * (r + 2 ^ k) ≤ n then r + 2 ^ k else r)

/-- The quotient of two finite non-zero magnitudes, 64 bits beyond their lengths, rounded (R196). -/
def fdivMag (mode : Nat) (sat neg : Bool) (m : Nat) (e : Int) (m' : Nat) (e' : Int) : Word :=
  let q := m * 2 ^ 64 / m'
  BitVec.ofNat 32 (Fmt.f32.roundMag mode sat neg q (e - e' - 64) (m * 2 ^ 64 % m' != 0))

/-- a ÷ b (Table 9.9). -/
def fdiv (mode : Nat) (sat : Bool) (a b : FVal) : Word :=
  let s := a.neg.xor b.neg
  let zero : Word := BitVec.ofNat 32 (Fmt.f32.sgn s 0)
  let inf : Word := BitVec.ofNat 32 (Fmt.f32.round mode sat (.inf s))
  match a, b with
  | .nan, _ | _, .nan | .inf _, .inf _ => BitVec.ofNat 32 Fmt.f32.cnan
  | .inf _, _ => inf
  | _, .inf _ => zero
  | .fin _ m e, .fin _ m' e' =>
    if m' = 0 then (if m = 0 then BitVec.ofNat 32 Fmt.f32.cnan else inf)
    else if m = 0 then zero
    else fdivMag mode sat s m e m' e'

/-- √a (Table 9.9). -/
def fsqrt (mode : Nat) (a : FVal) : Word :=
  match a with
  | .nan => BitVec.ofNat 32 Fmt.f32.cnan
  | .inf n => BitVec.ofNat 32 (if n then Fmt.f32.cnan else Fmt.f32.infMag)
  | .fin n m e =>
    if m = 0 then BitVec.ofNat 32 (Fmt.f32.sgn n 0)
    else if n then BitVec.ofNat 32 Fmt.f32.cnan
    else
      let sh : Nat := if (e - 80) % 2 = 0 then 80 else 81
      let x := m * 2 ^ sh
      let r := isqrt x 54 0
      BitVec.ofNat 32 (Fmt.f32.roundMag mode false false r ((e - sh) / 2) (r * r != x))

/-- 1 ÷ √a (Table 9.9). -/
def frsq (mode : Nat) (a : FVal) : Word :=
  match a with
  | .nan => BitVec.ofNat 32 Fmt.f32.cnan
  | .inf n => BitVec.ofNat 32 (if n then Fmt.f32.cnan else 0)
  | .fin n m e =>
    if m = 0 then BitVec.ofNat 32 (Fmt.f32.sgn n Fmt.f32.infMag)
    else if n then BitVec.ofNat 32 Fmt.f32.cnan
    else
      let x := if e % 2 = 0 then m else 2 * m
      let h := if e % 2 = 0 then e / 2 else (e - 1) / 2
      let r := isqrt (2 ^ 160 / x) 81 0
      BitVec.ofNat 32 (Fmt.f32.roundMag mode false false r (-80 - h) (r * r * x != 2 ^ 160))

/-- a rounded to an integer in the mode (Table 9.9). -/
def frnd (mode : Nat) (a : FVal) : Word :=
  match a with
  | .fin n m e => BitVec.ofNat 32 (Fmt.f32.round 0 false (.fin n (roundAt mode n m (min e 0) 0 false * (if 0 < e then 2 ^ e.toNat else 1)) 0))
  | v => toF32 v

/-- ln 2 × 2^320, truncated. -/
def ln2P : Nat := 0xB17217F7D1CF79ABC9E3B39803F2F6AF40F343267298B62D8A0D175B8BAAFA2BE7B876206DEBAC98

/-- π × 2^320, truncated. -/
def piP : Nat := 0x3243F6A8885A308D313198A2E03707344A4093822299F31D0082EFA98EC4E6C89452821E638D01377

/-- Σ x^k ÷ k! from term `k` on, x and the term in units of 2^-320. -/
def expSeries (x : Nat) : Nat → Nat → Nat → Nat
  | 0, _, _ => 0
  | n + 1, k, t => t + expSeries x n (k + 1) (t * x / 2 ^ 320 / (k + 1))

/-- z + z^3 ÷ 3 + z^5 ÷ 5 + …, `y` = z² and `t` the power at index `k`. -/
def atanhSeries (y : Nat) : Nat → Nat → Nat → Nat
  | 0, _, _ => 0
  | n + 1, k, t => t / k + atanhSeries y n (k + 2) (t * y / 2 ^ 320)

/-- x − x^3 ÷ 3! + …, `y` = x² and `t` the term that stands for x^(k−1) ÷ (k−1)!. -/
def sinSeries (y : Nat) : Nat → Nat → Nat → Int
  | 0, _, _ => 0
  | n + 1, k, t => t - sinSeries y n (k + 2) (t * y / 2 ^ 320 / (k * (k + 1)))

/-- The f32 nearest to a positive or negative number in units of 2^(e−320), which is not exact. -/
def nearest (sat neg : Bool) (x : Nat) (e : Int) : Word := BitVec.ofNat 32 (Fmt.f32.roundMag 0 sat neg x (e - 320) true)

/-- 2^a (Table 9.10). -/
def fexp2 (sat : Bool) (a : FVal) : Word :=
  match a with
  | .nan => BitVec.ofNat 32 Fmt.f32.cnan
  | .inf true => 0
  | .inf false => BitVec.ofNat 32 (Fmt.f32.round 0 sat (.inf false))
  | .fin n m e =>
    if m = 0 then 0x3F800000
    else if 8 ≤ e + Nat.log2 m then (if n then 0 else BitVec.ofNat 32 (Fmt.f32.overflow 0 sat false))
    else
      let x : Int := (m * 2 ^ (320 + e).toNat : Nat)
      let y : Int := if n then -x else x
      let i := y / (2 ^ 320 : Nat)
      let f := (y % (2 ^ 320 : Nat)).toNat
      if f = 0 then BitVec.ofNat 32 (Fmt.f32.round 0 sat (.fin false 1 i))
      else nearest sat false (expSeries (f * ln2P / 2 ^ 320) 90 0 (2 ^ 320)) i

/-- log₂ a (Table 9.10). -/
def flog2 (a : FVal) : Word :=
  match a with
  | .nan => BitVec.ofNat 32 Fmt.f32.cnan
  | .inf n => BitVec.ofNat 32 (if n then Fmt.f32.cnan else Fmt.f32.infMag)
  | .fin n m e =>
    if m = 0 then BitVec.ofNat 32 (Fmt.f32.sgn true Fmt.f32.infMag)
    else if n then BitVec.ofNat 32 Fmt.f32.cnan
    else
      let l := Nat.log2 m
      let k : Int := e + l
      if m = 2 ^ l then toF32 (FVal.ofInt k)
      else
        let z := (m - 2 ^ l) * 2 ^ 320 / (m + 2 ^ l)
        let s := 2 * atanhSeries (z * z / 2 ^ 320) 110 1 z
        let t : Int := k * (2 ^ 320 : Nat) + (s * 2 ^ 320 / ln2P : Nat)
        nearest false (decide (t < 0)) t.natAbs 0

/-- sin(π r) for r in units of 2^-320 at least 0; `zero` is the sign of an integer's result. -/
def sinpiMag (neg zero : Bool) (r : Nat) : Word :=
  let u := r % 2 ^ 321
  let s := neg.xor (decide (2 ^ 320 ≤ u))
  let v := u % 2 ^ 320
  if v = 0 then BitVec.ofNat 32 (Fmt.f32.sgn zero 0)
  else if v = 2 ^ 319 then BitVec.ofNat 32 (Fmt.f32.sgn s 0x3F800000)
  else
    let w := if 2 ^ 319 < v then 2 ^ 320 - v else v
    let x := w * piP / 2 ^ 320
    nearest false s (sinSeries (x * x / 2 ^ 320) 50 2 x).natAbs 0

/-- sin(π a) (Table 9.10). -/
def fsinpi (a : FVal) : Word :=
  match a with
  | .fin n m e => if m = 0 then BitVec.ofNat 32 (Fmt.f32.sgn n 0) else sinpiMag n n (m * 2 ^ (320 + e).toNat)
  | _ => BitVec.ofNat 32 Fmt.f32.cnan

/-- cos(π a) = sin(π (|a| + ½)) (Table 9.10). -/
def fcospi (a : FVal) : Word :=
  match a with
  | .fin _ m e => sinpiMag false false (m * 2 ^ (320 + e).toNat + 2 ^ 319)
  | _ => BitVec.ofNat 32 Fmt.f32.cnan

end Sys2Proof.Machine
end

