-- ==== Sys2Proof/Machine/Fetch.lean ====
section
/-! DEFINITION. Fetching and decoding a clause whole (R118, R120, R126, R151, R425), and bringing a party to the
instruction it is to issue. -/

namespace Sys2Proof.Machine

open Sys2Proof

/-- The words of code from an address: those that can be read, up to the number asked, and what stops the reading. -/
def readCode (s : State) (x d : Nat) (va : DWord) : Nat → List Word × Option (Xlate × DWord)
  | 0 => ([], none)
  | n + 1 =>
    match s.translate x d va .exec with
    | .ok k _ =>
      if s.poisoned k 4 then ([], some (.trap .ecc, va))
      else
        let r := readCode s x d (va + 4) n
        (BitVec.ofNat 32 (s.readN k 4) :: r.1, r.2)
    | e => ([], some (e, va))

/-- What fetching the clause at an address gives. -/
inductive Fetched where
  | clause (c : Clause)
  | trap (c : Cause) (idx : Option Nat)
  | recoverable (va : DWord) (page : Bool)
  | busy (frame : Nat)

/-- Fetches and decodes the clause at `pc` for a stream (R120). The words read at once suit the clause's own count. An illegal word
that stands before a word that cannot be read takes IL without waiting for the fetch, which R120 leaves open (DESIGN CHOICE, log 57). -/
def fetchClause (s : State) (st : Stream) (x d nregs : Nat) (pc : DWord) : Fetched :=
  if pc.toNat % 4 ≠ 0 then .trap { code := Trap.aln.code, va := pc } none
  else
    let h := readCode s x d pc 1
    let n := match h.1 with
      | w :: _ => 2 * (wbits w 0 4).toNat
      | [] => 0
    let r := if h.2.isSome then h else (h.1 ++ (readCode s x d (pc + 4) n).1, (readCode s x d (pc + 4) n).2)
    match decodeClause st nregs r.1 with
    | .ok c => .clause c
    | .il j _ => .trap { code := Trap.il.code } (some j)
    | .dst j => .trap { code := Trap.dst.code } (some j)
    | .more =>
      match r.2 with
      | some (.trap t, va) => .trap { code := t.code, va := va } none
      | some (.recoverable p, va) => .recoverable va p
      | some (.busy f, _) => .busy f
      | _ => .trap { code := Trap.il.code } (some 15)

/-- A party brought to its next instruction, or left as it is for this turn. -/
inductive Prepared where
  | run (i : Instr) (s : State)
  | stay (s : State)

/-- The instruction at a place. -/
def Cursor.instr? (c : Cursor) : Option Instr := c.clause.bind (fun cl => cl.instrs[c.idx]?)

/-- Holds a party on a recoverable fault (Table 23.4), with its record (R427): a fragment or a stream waits until service; a
thread that runs alone is held where it stands, and does not park. `fl` are the RFLAGS bits of the access. -/
def State.hold (s : State) (t : Team) (p : Party) (fl : Nat) (va : DWord) (page : Bool) : Nat × State :=
  let pl := t.causePlace p
  let r : Rec := { kind := 1, rflags := fl, core := t.core, launch := t.launch, team := t.team, va := va.toNat,
                   pc := pl.2.2.toNat, fid := pl.1, idx := pl.2.1 }
  match p with
  | .frag uid fid =>
    let row := ((t.members fid).map (·.row)).head?
    let q := s.raise t.pitch t.die (.frag uid fid) page { r with hrow := row, core := (row.map t.coreOf).getD t.core }
    (q.1, q.2.setTeam uid (fun t => t.setFrag fid (fun g => { g with wait := some (.fault q.1) })))
  | .lane uid row pos =>
    let q := s.raise t.pitch t.die (.thread uid row pos) page
      (Rec.withDrill { r with hrow := row, pos := pos, core := t.coreOf row } (t.drillOf row pos))
    (q.1, q.2.setTeam uid (fun t => t.setThread row pos (fun h => { h with st := .held q.1 })))
  | .ustream uid =>
    let q := s.raise t.pitch t.die (.ustream uid) page { r with rflags := fl + 16, fid := none }
    (q.1, q.2.setTeam uid (fun t => { t with u := { t.u with wait := some (.fault q.1) } }))
  | .mstream uid =>
    let q := s.raise t.pitch (mDieOf (bedOf t.die)) (.mstream uid) page { r with rflags := fl + 32, fid := none }
    (q.1, q.2.setTeam uid (fun t => { t with m := t.m.map (fun m => { m with wait := some (.fault q.1) }) }))

/-- The place of a party, with the stream, the die of its fetches and the register count of its role. -/
def partyPlace (s : State) (p : Party) : Option (Team × Stream × Nat × Nat × Cursor) :=
  match s.team? (partyUid p) with
  | none => none
  | some t =>
    match p with
    | .frag _ fid =>
      (t.frag? fid).map (fun g =>
        (t, .row, t.die, t.hdr.regs (((t.threads.filter (fun h => h.fid == fid && h.live)).map (·.row)).headD 0), g.cur))
    | .lane _ row pos => (t.thread? row pos).map (fun h => (t, .row, t.die, t.hdr.regs row, h.cur))
    | .ustream _ => if t.u.alive then some (t, .ustream, t.die, 0, t.u.cur) else none
    | .mstream _ => (t.m.filter (·.alive)).map (fun m => (t, .mstream, mDieOf (bedOf t.die), 0, m.cur))

/-- Stores the decoded clause in the party's place; results and skips of the clause before are gone (R125, R137). -/
def Team.begin (t : Team) (p : Party) (c : Clause) : Team :=
  match p with
  | .frag _ fid =>
    (t.setFrag fid (fun g => { g with cur := { g.cur with clause := some c } })).mapThreads (fun h =>
      if h.fid = fid ∧ h.st = .run then { h with res := [], skip := 0 } else h)
  | .lane _ row pos =>
    t.setThread row pos (fun h => { h with cur := { h.cur with clause := some c }, res := [], skip := 0 })
  | .ustream _ => { t with u := { t.u with cur := { t.u.cur with clause := some c }, skip := 0 } }
  | .mstream _ => { t with m := t.m.map (fun m => { m with cur := { m.cur with clause := some c } }) }

/-- May the party issue now: its team is not stopped, or STEP runs this fragment; the party waits for nothing, and has not
stopped under a halt (R435, R440). -/
def mayIssue (t : Team) (p : Party) : Bool :=
  !t.retired &&
  match p with
  | .frag _ fid =>
    (t.halt.phase != .stopped || t.halt.stepping.any (fun e => e.1 == fid))
    && (t.frag? fid).any (fun g => !g.stop && g.wait.isNone) && t.threads.any (fun h => h.fid == fid && h.st == .run)
  | .lane _ row pos => (t.thread? row pos).any (fun h => h.st == .replay) && t.halt.phase == .running
  | .ustream _ => t.u.alive && !t.u.stop && t.u.wait.isNone && t.halt.phase != .stopped
  | .mstream _ => t.m.any (fun m => m.alive && !m.stop && m.wait.isNone) && t.halt.phase != .stopped

/-- Is a thread on its way with others: going, parked or replaying? -/
def Thread.underway (h : Thread) : Bool :=
  match h.st with
  | .run | .parked _ | .replay | .held _ => true
  | _ => false

/-- A thread stands at the convergence point. When no other thread of its fragment is still on its way, the fragment
stands there, whole (R426). -/
def Team.regroup (t : Team) (row pos : Nat) : Team :=
  match t.thread? row pos with
  | none => t
  | some h =>
    if t.threads.any (fun g => g.fid == h.fid && g.underway) then t
    else
      (t.setFrag h.fid (fun g => { g with cur := h.cur, wait := none })).mapThreads (fun g =>
        if g.fid = h.fid ∧ g.st = .atConv then { g with st := .run } else g)

/-- Brings a party to the instruction it is to issue: the one at its place, after fetching the clause if none is held. A
thread that replays stops at the convergence point (R426). -/
def prepare (s : State) (p : Party) : Prepared :=
  match partyPlace s p with
  | none => .stay s
  | some (t, st, d, nregs, cur) =>
    if !mayIssue t p then .stay s
    else
      let atInstr (s : State) (c : Cursor) : Prepared :=
        match c.instr? with
        | none => .stay s
        | some i =>
          match p, i.parts with
          | .lane _ row pos, some (o, _) =>
            if isConv o then
              .stay (s.setTeam t.uid (fun t => (t.setThread row pos (fun h => { h with st := .atConv })).regroup row pos))
            else .run i s
          | _, _ => .run i s
      match cur.clause with
      | some _ => atInstr s cur
      | none =>
        match fetchClause s st t.pitch d nregs cur.pc with
        | .clause c => atInstr (s.setTeam t.uid (fun t => t.begin p c)) { cur with clause := some c }
        | .trap c idx => .stay (s.trap p c idx)
        | .recoverable va page => .stay ((s.hold t p 4 va page).2.stepDone t.uid)
        | .busy _ => .stay s

/-- The clock and the counter of free values go on by one turn (log 3). -/
def State.turnClock (s : State) : State :=
  { s with clk := s.clk + BitVec.ofNat 64 (1 + Config.stepCycles s.tick), tick := s.tick + 1 }

end Sys2Proof.Machine
end

