-- ==== Sys2Proof/Machine/Access.lean ====
section
/-! DEFINITION. Addresses and the common shape of memory accesses: base and index forms (R203 to R206), the checks of every
thread before any access (R207), translation with parking (R217, R425), holds (R182, R184), full/empty waits (R212 to R215). -/

namespace Sys2Proof.Machine

open Sys2Proof

/-- How a party reads the registers of an address: its s registers, and its v registers as bits. -/
structure AEnv where
  s : Nat → DWord
  v : Nat → Opd

/-- The address registers of a thread. -/
def Ctx.env (c : Ctx) (h : Thread) : AEnv := { s := c.t.sreg h.row, v := h.src c.cur.idx }

/-- The address registers of the U-stream: it names no v register (R203). -/
def UCtx.env (c : UCtx) : AEnv := { s := c.u.sreg, v := fun _ => { lo := {}, hi := {}, free := true } }

/-- The base of a global address; `win` is the window base (R204). -/
def gBase (win : DWord) (f : FForm) (e : AEnv) : DWord :=
  if f.mb 8 then e.s f.a.toNat else win + (e.v f.a.toNat).w.zeroExtend 64

/-- The base of a team or plot offset (R205). -/
def tBase (f : FForm) (e : AEnv) : DWord := if f.mb 8 then e.s f.a.toNat else (e.v f.a.toNat).w.zeroExtend 64

/-- The index of a field under XK (Table 11.1). -/
def indexOf (f : FForm) (n : BitVec 7) (scale : Nat) (e : AEnv) : DWord :=
  match f.m 6 2 with
  | 0 => (e.v n.toNat).w.zeroExtend 64
  | 1 => e.s n.toNat
  | _ => n.signExtend 64 * BitVec.ofNat 64 scale

/-- The bytes of an access of a type (Table 11.4). -/
def memSize : Ty → Nat
  | .s8 | .n8 => 1
  | .s16 | .n16 => 2
  | .s64 | .n64 => 8
  | _ => 4

/-- The alignment check (R206). -/
def aligned (n : Nat) (a : DWord) : Except Trap Unit := if a.toNat % n = 0 then .ok () else .error .aln

/-- The memory a plot offset names: the member's team and the offset in it; PROT outside (R205). -/
def State.plotPlace (s : State) (t : Team) (o : DWord) : Except Trap (Nat × Nat) :=
  let m := bits o.toNat 19 3
  if 2 ^ 22 ≤ o.toNat then .error .prot
  else
    match s.member? t m with
    | none => .error .prot
    | some q => if bits o.toNat 0 19 < q.hdr.tmem then .ok (q.uid, bits o.toNat 0 19) else .error .prot

/-- The memory a team offset names (R205). -/
def Team.teamPlace (t : Team) (o : DWord) : Except Trap (Nat × Nat) :=
  if o.toNat < t.hdr.tmem then .ok (t.uid, o.toNat) else .error .prot

/-- A team or plot offset of an access of `n` bytes (R205, R206); the lower code of two failures is the one reported. -/
def State.localPlace (s : State) (t : Team) (plot : Bool) (n : Nat) (o : DWord) : Except Trap (Nat × Nat) :=
  match aligned n o with
  | .error e => .error e
  | .ok () => if plot then s.plotPlace t o else t.teamPlace o

/-! ### Global accesses -/

/-- The translation of `n` bytes that do not cross a page. -/
inductive Reach where
  | ok (keys : List Nat) (cached : Bool)
  | trap (t : Trap)
  | recoverable (va : DWord) (page : Bool)
  | busy (frame : Nat)
  deriving DecidableEq, Repr

/-- Translates each piece of an access, an address and its size, for one kind of access. A read of poisoned bytes takes ECC. -/
def State.reach (s : State) (x d : Nat) (acc : Access) (reads : Bool) : List (DWord × Nat) → Reach
  | [] => .ok [] true
  | (va, n) :: r =>
    match s.translate x d va acc with
    | .trap t => .trap t
    | .busy f =>
      match State.reach s x d acc reads r with
      | .trap t => .trap t
      | _ => .busy f
    | .recoverable p =>
      match State.reach s x d acc reads r with
      | .trap t => .trap t
      | _ => .recoverable va p
    | .ok k c =>
      if reads && s.poisoned k n then .trap .ecc
      else
        match State.reach s x d acc reads r with
        | .ok ks c' => .ok (k :: ks) (c && c')
        | e => e

/-- Pieces of a range, cut at 64 KiB boundaries. -/
def pieces (va : DWord) (n : Nat) : List (DWord × Nat) :=
  let room := 65536 - va.toNat % 65536
  if n ≤ room then [(va, n)] else [(va, room), (va + BitVec.ofNat 64 room, n - room)]

/-- The bytes of translated pieces. -/
def State.gather (s : State) (ps : List (DWord × Nat)) (ks : List Nat) : List Byte :=
  (ps.zip ks).flatMap (fun e => s.bytes e.2 e.1.2)

/-- Writes bytes over translated pieces. -/
def State.scatter (s : State) : List (DWord × Nat) → List Nat → List Byte → State
  | p :: ps, k :: ks, bs => State.scatter (s.writeBytes k (bs.take p.2)) ps ks (bs.drop p.2)
  | _, _, _ => s

/-- Writes bytes over translated pieces for a pitch, at their homes (R26). -/
def State.scatterFor (s : State) (x : Nat) : List (DWord × Nat) → List Nat → List Byte → State
  | p :: ps, k :: ks, bs => State.scatterFor (s.put x k (bs.take p.2)) x ps ks (bs.drop p.2)
  | _, _, _ => s

/-- Reads `n` bytes at a virtual address. -/
inductive ReadVA where
  | ok (bytes : List Byte) (key : Nat) (cached : Bool)
  | trap (t : Trap) (va : DWord)
  | recoverable (va : DWord) (page : Bool)
  | busy (frame : Nat)

/-- Reads `n` bytes at a virtual address of pitch `x`, for a party on die `d`. -/
def State.readVA (s : State) (x d : Nat) (va : DWord) (n : Nat) : ReadVA :=
  let ps := pieces va n
  match s.reach x d .read true ps with
  | .ok ks c => .ok (s.gather ps ks) (ks.headD 0) c
  | .trap t => .trap t va
  | .recoverable va p => .recoverable va p
  | .busy f => .busy f

/-- Parks a thread at its instruction with its fault record (R217, R425, R427). -/
def State.park (s : State) (uid : Nat) (cur : Cursor) (h : Thread) (fl : Nat) (va : DWord) (page : Bool) : State :=
  match s.team? uid with
  | none => s
  | some t =>
    let r : Rec := { kind := 1, rflags := fl, core := t.coreOf h.row, pos := h.pos, launch := t.launch, team := t.team,
                     va := va.toNat, pc := cur.pc.toNat, fid := h.fid, hrow := h.row, idx := cur.idx }
    let q := s.raise t.pitch t.die (.thread uid h.row h.pos) page (r.withDrill (t.drillOf h.row h.pos))
    q.2.setTeam uid (fun t => t.setThread h.row h.pos (fun g => { g with st := .parked q.1, cur := cur }))

/-- What one thread's access is: its pieces, or the trap of its checks. -/
abbrev Plan := Except Trap (List (DWord × Nat))

/-- R461: a release of domain scope or wider by a party whose earlier writes cannot be acknowledged takes XLAT; `rel` tells whether an
access releases, and at what scope. -/
def State.relOk {α : Type} (s : State) (p : Party) (rel : Option Nat) (r : Except Trap α) : Except Trap α :=
  if rel.any (fun n => decide (4 ≤ n)) && s.pkg.unacked.contains p then r.bind (fun _ => .error .xlat) else r

/-- The lowest trap among plans and translations (R207). -/
def lowest (ts : List (Option Trap)) : Option Trap :=
  ts.foldl (fun acc t =>
    match t, acc with
    | some e, none => some e
    | some e, some a => some (if e.code < a.code then e else a)
    | none, a => a) none

/-- One thread's access at its translated keys: `go` performs it and answers the thread's register writes. -/
def Ctx.perform (c : Ctx) (via : Via) (wr : Bool) (go : Ctx → Thread → List (DWord × Nat) → List Nat → State → State × List RegW) (h : Thread)
    (ps : List (DWord × Nat)) (ks : List Nat) (cached : Bool) (s : State) : State :=
  let (s1, ws) := go c h ps ks s
  (s1.fillPieces c.t.pitch c.t.die (c.t.coreOf h.row) via ps ks cached wr).setTeam c.t.uid (fun t => t.commit c.md h.row h.pos ws)

/-- A global access of each thread whose guard is true (R207, R217). `plan` gives the pieces or the failed check; `go`
performs one thread's access at the translated keys and answers its register writes. Threads that meet a recoverable fault
park, the others complete. `det` adds the trap DET of the whole instruction. -/
def globalOp (via : Via) (acc : Access) (reads det : Bool) (fl : Nat) (plan : Ctx → Thread → Plan)
    (go : Ctx → Thread → List (DWord × Nat) → List Nat → State → State × List RegW) (c : Ctx) : Out :=
  let rs := c.act.map (fun h =>
    match plan c h with
    | .error e => (h, [], Reach.trap e)
    | .ok ps => (h, ps, c.s.reach c.t.pitch c.t.die acc reads ps))
  match lowest ((if det && !c.act.isEmpty then some Trap.det else none) :: rs.map (fun r =>
      match r.2.2 with
      | .trap e => some e
      | _ => none)) with
  | some e =>
    let va := (rs.find? (fun r => r.2.2 == .trap e)).bind (fun r => r.2.1.head?.map (·.1))
    .trap c.s { code := e.code, va := va.getD 0 }
  | none =>
    match rs.findSome? (fun r =>
        match r.2.2 with
        | .busy f => some f
        | _ => none) with
    | some f => .wait c.s (.scrub f)
    | none =>
      .done (rs.foldl (fun s r =>
        match r.2.2 with
        | .ok ks cached => c.perform via (acc == .write) go r.1 r.2.1 ks cached s
        | .recoverable va p => s.park c.t.uid c.cur r.1 fl va p
        | _ => s) c.s)

/-! ### Holds -/

/-- A party that is not a single thread reads `n` bytes: a fatal fault traps, a recoverable one holds the party (Table 23.4). -/
def heldRead (s : State) (t : Team) (p : Party) (fl : Nat) (va : DWord) (n : Nat) (k : List Byte → Out) : Out :=
  match s.readVA t.pitch t.die va n with
  | .ok bs _ _ => k bs
  | .trap e va => .trap s { code := e.code, va := va }
  | .recoverable va p' => let q := s.hold t p fl va p'; .wait q.2 (.fault q.1)
  | .busy f => .wait s (.scrub f)

/-- Several such reads of one instruction, one for each home row (row 0xFF is the U-stream): every check is made before any
read (R207). -/
def heldReads (s : State) (t : Team) (p : Party) (fl : Nat) (rs : List (Nat × DWord × Nat))
    (k : State → List (Nat × List Byte) → Out) : Out :=
  let xs := rs.map (fun r => (r.1, r.2.1, s.readVA t.pitch t.die r.2.1 r.2.2))
  match lowest (xs.map (fun x =>
      match x.2.2 with
      | .trap e _ => some e
      | _ => none)) with
  | some e =>
    .trap s { code := e.code, va := (xs.findSome? (fun x =>
      match x.2.2 with
      | .trap e' va => if e' = e then some va else none
      | _ => none)).getD 0 }
  | none =>
    match xs.findSome? (fun x =>
        match x.2.2 with
        | .recoverable va pg => some (va, pg)
        | _ => none) with
    | some (va, pg) => let q := s.hold t p fl va pg; .wait q.2 (.fault q.1)
    | none =>
      match xs.findSome? (fun x =>
          match x.2.2 with
          | .busy f => some f
          | _ => none) with
      | some f => .wait s (.scrub f)
      | none =>
        k (xs.foldl (fun s x =>
            match x.2.2 with
            | .ok _ key c => s.fillFor t.pitch t.die (if x.1 = 0xFF then t.core else t.coreOf x.1) .l1 x.2.1 key c false
            | _ => s) s)
          (xs.filterMap (fun x =>
            match x.2.2 with
            | .ok bs _ _ => some (x.1, bs)
            | _ => none))

/-! ### Full/empty -/

/-- The party number of an access in the logs of R79 and R215: 1 + home row, 100 the U-stream, 101 the M-stream, apart for
each team. -/
def partyNo (uid n : Nat) : Nat := 128 * uid + n

/-- A granule of a team's memory: its full/empty bit. -/
def State.isFull (s : State) (uid g : Nat) : Bool := (s.team? uid).any (fun t => t.full g)

/-- What a waiting access does to a full/empty bit. -/
inductive FeWait where
  | none | full | consume | fill | empty
  deriving DecidableEq, Repr

/-- The state of the bit that the form waits for. -/
def FeWait.wants : FeWait → Option Bool
  | .none => .none
  | .full | .consume => some true
  | .fill | .empty => some false

/-- One thread of an instruction of a waiting form (R214): its granule, and what it does once that is ready. -/
structure FeAct where
  row : Nat
  pos : Nat
  uid : Nat
  g   : Nat
  go  : State → State × List RegW

/-- Every thread whose granule is ready makes its access, in ascending row position; the instruction has issued when every
thread has made its access, and waits until then (R214). -/
def feRun (w : FeWait) (c : Ctx) (as : List FeAct) : Out :=
  let r := as.foldl (fun (acc : State × List (Nat × Nat)) a =>
    match acc.1.team? c.t.uid with
    | none => acc
    | some t =>
      if ((t.thread? a.row a.pos).map (·.made)).getD false then acc
      else if w.wants.any (fun b => acc.1.isFull a.uid a.g != b) then (acc.1, acc.2 ++ [(a.uid, a.g)])
      else
        let (s1, ws) := a.go acc.1
        (s1.setTeam c.t.uid (fun t => (t.commit c.md a.row a.pos ws).setThread a.row a.pos (fun h => { h with made := true })),
         acc.2)) (c.s, [])
  match r.2 with
  | [] => .done r.1
  | gs => .wait r.1 (.granule (w.wants.getD true) gs)

/-- The acts of R215: DET when the granule's consumer or filler is another party, or the fragment does not hold the row. -/
def feDet (c : Ctx) (w : FeWait) (uid g row : Nat) : Except Trap Unit :=
  if !c.t.hdr.det then .ok ()
  else
    let me := partyNo c.t.uid (1 + row)
    let q := (c.s.team? uid).getD c.t
    match w with
    | .consume =>
      let p := FMap.get (fun _ => 0) q.drained g
      if !c.t.holdsRows c.fid || (p != 0 && p != me) then .error .det else .ok ()
    | .fill =>
      let p := FMap.get (fun _ => 0) q.filled g
      if !c.t.holdsRows c.fid || (p != 0 && p != me) then .error .det else .ok ()
    | _ => .ok ()

/-- The change a form makes to the bit, with the party it notes (R212, R215). -/
def State.feChange (s : State) (w : FeWait) (uid g me : Nat) : State :=
  match w with
  | .consume => s.setTeam uid (fun t => { t.setFull g false with drained := FMap.set (fun _ => 0) t.drained g me })
  | .fill => s.setTeam uid (fun t => { t.setFull g true with filled := FMap.set (fun _ => 0) t.filled g me })
  | _ => s

end Sys2Proof.Machine
end

