-- ==== Sys2Proof/Machine/Uniform.lean ====
section
/-! DEFINITION. The uniform instructions, codes 0x10 to 0x2A (R166, R178 to R184). -/

namespace Sys2Proof.Machine

open Sys2Proof

/-- A uniform instruction of the operands a = s(A) and b = s(B) that writes s(D). -/
def uni2 (o : Opc) (f : FForm) (g : DWord → DWord → DWord) (s : State) : Host.Outcome State Fault Refusal :=
  uniform o (.f f) true (fun r _ => .ok ([wS f.d.toNat (g (r f.a.toNat) (r f.b.toNat))], [])) s

/-- Arithmetic in T (R178): `g` answers the exact result. -/
def uniArith (t : Ty) (sat : Bool) (g : Nat → Int → Int → Int) (a b : DWord) : DWord :=
  let (w, sg) := intTy t
  widen w sg (intRes w sg sat (g w (intVal w sg a.toNat) (intVal w sg b.toNat)))

/-- An operation on `w`-bit patterns, widened by T (R178). A shift of 32 bits takes its count from bits [31:0] of b too: whether R179's
`full width` is all 64 bits of the register there is open (DESIGN CHOICE, log 78). -/
def uniBits (t : Ty) (g : Nat → Nat → Nat → Nat) (a b : DWord) : DWord :=
  let (w, sg) := intTy t
  widen w sg (g w (a.toNat % 2 ^ w) (b.toNat % 2 ^ w))

/-- R178. -/
def execSmov (f : FForm) (s : State) : Host.Outcome State Fault Refusal := uni2 .smov f (fun a _ => a) s

/-- R182: the immediate widened by T. -/
def execSli (i : IForm) (s : State) : Host.Outcome State Fault Refusal :=
  let v := if i.ty = .s64 ∨ i.ty = .s32 then i.imm.signExtend 64 else i.imm.zeroExtend 64
  uniform .sli (.i i) true (fun _ _ => .ok ([wS i.d.toNat v], [])) s

/-! ### The data area (R158, R182, R183) -/

/-- The virtual address of `n` bytes at an offset of the data area; PROT outside it. -/
def Team.dataAt (t : Team) (off : Int) (n : Nat) : Except Trap DWord :=
  if off < 0 ∨ (t.hdr.datalen : Int) < off + n then .error .prot
  else .ok (t.codeVA + BitVec.ofNat 64 t.hdr.data + BitVec.ofInt 64 off)

/-- Reads the data area for several rows; RFLAGS marks a data-area read. -/
def dataReads (s : State) (t : Team) (p : Party) (offs : List (Nat × Except Trap DWord × Nat))
    (k : State → List (Nat × List Byte) → Out) : Out :=
  match lowest (offs.map (fun e =>
      match e.2.1 with
      | .error e => some e
      | .ok _ => none)) with
  | some e => trapNow s e
  | none =>
    heldReads s t p 512 (offs.filterMap (fun e =>
      match e.2.1 with
      | .ok va => some (e.1, va, e.2.2)
      | .error _ => none)) k

/-- Writes each row's s register. -/
def rowWrites (c : Ctx) (s : State) (d : Nat) (vs : List (Nat × DWord)) : Out :=
  .done (s.setTeam c.t.uid (fun t => vs.foldl (fun t e =>
    match c.act.find? (fun h => h.row == e.1) with
    | some h => c.commitRow t e.1 h [wS d e.2]
    | none => t) t))

/-- Writes the U-stream's s register. -/
def uWrite (c : UCtx) (s : State) (d : Nat) (v : DWord) : Out :=
  .done (s.setTeam c.t.uid (fun t => { t with u := t.u.commit c.md [wS d v] }))

/-- A value read from memory, extended by its type (R183). -/
def extendT (t : Ty) (bs : List Byte) : DWord :=
  let (w, sg) := intTy t
  widen w sg (leNat bs)

/-- R182: reads 8 bytes for s64 and n64, 4 bytes extended for s32 and n32, at 4 × index. -/
def execSlk (i : IForm) (s : State) : Host.Outcome State Fault Refusal :=
  let n := memSize i.ty
  let off : Int := 4 * i.imm.toInt
  let d := i.d.toNat
  runRU .slk (.i i)
    (fun c =>
      if rowDet c then trapNow c.s .det
      else dataReads c.s c.t c.p ((rowsOf c.act).map (fun r => (r, c.t.dataAt off n, n)))
        (fun s vs => rowWrites c s d (vs.map (fun e => (e.1, extendT i.ty e.2)))))
    (fun c => dataReads c.s c.t (.ustream c.t.uid) [(0xFF, c.t.dataAt off n, n)]
      (fun s vs => uWrite c s d (extendT i.ty ((vs.map (·.2)).headD [])))) s

/-- The place that `sldc` reads (R183). -/
def sldcAt (t : Team) (n : Nat) (off : DWord) : Except Trap DWord :=
  match aligned n off with
  | .error e => .error e
  | .ok () => t.dataAt off.toNat n

/-- R183. -/
def execSldc (f : FForm) (s : State) : Host.Outcome State Fault Refusal :=
  let n := memSize f.ty
  let d := f.d.toNat
  runRU .sldc (.f f)
    (fun c =>
      if rowDet c then trapNow c.s .det
      else dataReads c.s c.t c.p
        ((rowsOf c.act).map (fun r => (r, sldcAt c.t n (c.t.sreg r f.a.toNat + c.t.sreg r f.b.toNat), n)))
        (fun s vs => rowWrites c s d (vs.map (fun e => (e.1, extendT f.ty e.2)))))
    (fun c => dataReads c.s c.t (.ustream c.t.uid) [(0xFF, sldcAt c.t n (c.u.sreg f.a.toNat + c.u.sreg f.b.toNat), n)]
      (fun s vs => uWrite c s d (extendT f.ty ((vs.map (·.2)).headD [])))) s

/-! ### Arithmetic (R178, Table 9.6) -/

/-- R178. -/
def execSadd (f : FForm) (s : State) : Host.Outcome State Fault Refusal :=
  uni2 .sadd f (uniArith f.ty (f.mb 3) (fun _ a b => a + b)) s

/-- R178. -/
def execSsub (f : FForm) (s : State) : Host.Outcome State Fault Refusal :=
  uni2 .ssub f (uniArith f.ty (f.mb 3) (fun _ a b => a - b)) s

/-- R178. -/
def execSmul (f : FForm) (s : State) : Host.Outcome State Fault Refusal :=
  uni2 .smul f (uniArith f.ty (f.mb 3) (fun _ a b => a * b)) s

/-- R178: ⌊(a × b) ÷ 2^w⌋. -/
def execSmulh (f : FForm) (s : State) : Host.Outcome State Fault Refusal :=
  uni2 .smulh f (uniArith f.ty false (fun w a b => a * b / (2 ^ w : Nat))) s

/-- R178. -/
def execSand (f : FForm) (s : State) : Host.Outcome State Fault Refusal := uni2 .sand f (fun a b => a &&& b) s

/-- R178. -/
def execSor (f : FForm) (s : State) : Host.Outcome State Fault Refusal := uni2 .sor f (fun a b => a ||| b) s

/-- R178. -/
def execSxor (f : FForm) (s : State) : Host.Outcome State Fault Refusal := uni2 .sxor f (fun a b => a ^^^ b) s

/-- R178. -/
def execSnot (f : FForm) (s : State) : Host.Outcome State Fault Refusal := uni2 .snot f (fun a _ => ~~~a) s

/-- R179. -/
def execSshl (f : FForm) (s : State) : Host.Outcome State Fault Refusal := uni2 .sshl f (uniBits f.ty shlN) s

/-- R179. -/
def execSshr (f : FForm) (s : State) : Host.Outcome State Fault Refusal := uni2 .sshr f (uniBits f.ty shrN) s

/-- R179. -/
def execSsar (f : FForm) (s : State) : Host.Outcome State Fault Refusal := uni2 .ssar f (uniBits f.ty sarN) s

/-- R178. -/
def execSmin (f : FForm) (s : State) : Host.Outcome State Fault Refusal :=
  uni2 .smin f (uniArith f.ty false (fun _ a b => min a b)) s

/-- R178. -/
def execSmax (f : FForm) (s : State) : Host.Outcome State Fault Refusal :=
  uni2 .smax f (uniArith f.ty false (fun _ a b => max a b)) s

/-- R181, R165. -/
def execScmp (f : FForm) (s : State) : Host.Outcome State Fault Refusal :=
  let (w, sg) := intTy f.ty
  uniform .scmp (.f f) false (fun r _ =>
    .ok ([], [wP f.d.toNat (icmp f.opx (intVal w sg (r f.a.toNat).toNat) (intVal w sg (r f.b.toNat).toNat))])) s

/-- R181: the selecting predicate of a row is that of its lowest thread with a true guard. -/
def execSsel (f : FForm) (s : State) : Host.Outcome State Fault Refusal :=
  uniform .ssel (.f f) true (fun r p => .ok ([wS f.d.toNat (if p f.c.toNat then r f.a.toNat else r f.b.toNat)], [])) s

/-- R180. -/
def execSbfe (f : FForm) (s : State) : Host.Outcome State Fault Refusal :=
  uni2 .sbfe f (uniBits f.ty (fun w a b => bfeN w (intTy f.ty).2 a b)) s

/-- R180. -/
def execSbfi (f : FForm) (s : State) : Host.Outcome State Fault Refusal :=
  uniform .sbfi (.f f) true (fun r _ =>
    let (w, sg) := intTy f.ty
    .ok ([wS f.d.toNat (widen w sg (bfiN w (r f.a.toNat).toNat (r f.b.toNat).toNat (r f.c.toNat).toNat))], [])) s

/-- R178. -/
def execSclz (f : FForm) (s : State) : Host.Outcome State Fault Refusal := uni2 .sclz f (uniBits f.ty (fun w a _ => clzN w a)) s

/-- R178. -/
def execSpopc (f : FForm) (s : State) : Host.Outcome State Fault Refusal := uni2 .spopc f (uniBits f.ty (fun w a _ => popN w a)) s

/-! ### Memory (R184) -/

/-- The checks of a uniform access: alignment, and the canonical form that translation checks. -/
def uniAddr (n : Nat) (a : DWord) : Option Trap := if a.toNat % n = 0 then none else some .aln

/-- R184: a global load for each row, or for the U-stream. -/
def execSld (f : FForm) (s : State) : Host.Outcome State Fault Refusal :=
  let n := memSize f.ty
  let d := f.d.toNat
  let reads (s : State) (t : Team) (p : Party) (as : List (Nat × DWord)) (k : State → List (Nat × List Byte) → Out) : Out :=
    match lowest (as.map (fun e => uniAddr n e.2)) with
    | some e => trapNow s e
    | none => heldReads s t p 0 (as.map (fun e => (e.1, e.2, n))) k
  runRU .sld (.f f)
    (fun c =>
      if rowDet c then trapNow c.s .det
      else reads c.s c.t c.p ((rowsOf c.act).map (fun r => (r, c.t.sreg r f.a.toNat + c.t.sreg r f.b.toNat)))
        (fun s vs => rowWrites c s d (vs.map (fun e => (e.1, extendT f.ty e.2)))))
    (fun c => reads c.s c.t (.ustream c.t.uid) [(0xFF, c.u.sreg f.a.toNat + c.u.sreg f.b.toNat)]
      (fun s vs => uWrite c s d (extendT f.ty ((vs.map (·.2)).headD [])))) s

/-- The core of a home row, or, for 0xFF, of the U-stream. -/
def Team.coreFor (t : Team) (row : Nat) : Nat := if row = 0xFF then t.core else t.coreOf row

/-- Uniform stores, one for each row, or, as row 0xFF, that of the U-stream: every check is made before any store. -/
def uniStores (s : State) (t : Team) (p : Party) (n : Nat) (as : List (Nat × DWord × DWord)) : Out :=
  match lowest (as.map (fun e => uniAddr n e.2.1)) with
  | some e => trapNow s e
  | none =>
    let xs := as.map (fun e => (e, s.reach t.pitch t.die .write false [(e.2.1, n)]))
    match lowest (xs.map (fun x =>
        match x.2 with
        | .trap e => some e
        | _ => none)) with
    | some e => .trap s { code := e.code, va := ((xs.find? (fun x => x.2 == .trap e)).map (·.1.2.1)).getD 0 }
    | none =>
      match xs.findSome? (fun x =>
          match x.2 with
          | .recoverable va pg => some (va, pg)
          | _ => none) with
      | some (va, pg) => let q := s.hold t p 1 va pg; .wait q.2 (.fault q.1)
      | none =>
        match xs.findSome? (fun x =>
            match x.2 with
            | .busy f => some f
            | _ => none) with
        | some f => .wait s (.scrub f)
        | none =>
          .done (xs.foldl (fun s x =>
            match x.2 with
            | .ok (k :: _) c => (s.writeN k n x.1.2.2.toNat).fillFor t.pitch t.die (t.coreFor x.1.1) .l1 x.1.2.1 k c true
            | _ => s) s)

/-- R184. -/
def execSst (f : FForm) (s : State) : Host.Outcome State Fault Refusal :=
  let n := memSize f.ty
  runRU .sst (.f f)
    (fun c => uniStores c.s c.t c.p n ((rowsOf c.act).map (fun r =>
      (r, c.t.sreg r f.a.toNat + c.t.sreg r f.c.toNat, c.t.sreg r f.b.toNat))))
    (fun c => uniStores c.s c.t (.ustream c.t.uid) n [(0xFF, c.u.sreg f.a.toNat + c.u.sreg f.c.toNat, c.u.sreg f.b.toNat)]) s

/-- The bytes of a uniform load from team memory (R184, R205, R206). -/
def uniTeamRead (s : State) (t : Team) (ty : Ty) (o : DWord) : Except Trap DWord :=
  match s.localPlace t false (memSize ty) o with
  | .error e => .error e
  | .ok (_, k) => .ok (extendT ty (t.bytes k (memSize ty)))

/-- R184: full/empty bits are neither tested nor changed. -/
def execSldt (f : FForm) (s : State) : Host.Outcome State Fault Refusal :=
  let get (s : State) (t : Team) (r : Nat → DWord) : Except Trap (List RegW) :=
    match uniTeamRead s t f.ty (r f.a.toNat + r f.b.toNat) with
    | .error e => .error e
    | .ok v => .ok [wS f.d.toNat v]
  runRU .sldt (.f f) (perRow true (fun c r _ => (get c.s c.t (c.t.sreg r)).map (fun w => (w, []))))
    (uWrites (fun c => get c.s c.t c.u.sreg)) s

/-- Uniform stores to team memory. -/
def uniTeamStores (s : State) (t : Team) (n : Nat) (as : List (DWord × DWord)) : Out :=
  match lowest (as.map (fun e =>
      match s.localPlace t false n e.1 with
      | .error e => some e
      | .ok _ => none)) with
  | some e => trapNow s e
  | none => .done (s.setTeam t.uid (fun t => as.foldl (fun t e => t.writeBytes e.1.toNat (leBytes n e.2.toNat)) t))

/-- R184. -/
def execSstt (f : FForm) (s : State) : Host.Outcome State Fault Refusal :=
  let n := memSize f.ty
  runRU .sstt (.f f)
    (fun c => uniTeamStores c.s c.t n ((rowsOf c.act).map (fun r =>
      (c.t.sreg r f.a.toNat + c.t.sreg r f.c.toNat, c.t.sreg r f.b.toNat))))
    (fun c => uniTeamStores c.s c.t n [(c.u.sreg f.a.toNat + c.u.sreg f.c.toNat, c.u.sreg f.b.toNat)]) s

end Sys2Proof.Machine
end

