-- ==== Sys2Proof/Machine/VectorInt.lean ====
section
/-! DEFINITION. The vector integer, bitwise and predicate instructions, codes 0x30 to 0x55 (R163, R185 to R192). -/

namespace Sys2Proof.Machine

open Sys2Proof

/-- The first source of a thread. -/
def Ctx.vA (c : Ctx) (f : FForm) (h : Thread) : Opd := h.src c.cur.idx f.a.toNat

/-- The second source: a vector field, or under BS the home row's s register (R163). -/
def Ctx.vB (c : Ctx) (f : FForm) (h : Thread) : Opd :=
  if f.mb 8 then Opd.ofS (c.t.sreg h.row f.b.toNat) else h.src c.cur.idx f.b.toNat

/-- The third source. -/
def Ctx.vC (c : Ctx) (f : FForm) (h : Thread) : Opd := h.src c.cur.idx f.c.toNat

/-- The writes of a result of type T: a register, or a pair for a 64-bit type. -/
def wT (t : Ty) (d : Nat) (x : Nat) : List RegW :=
  if t.wide then wPair d (BitVec.ofNat 64 x) (tagOf t) else [wV d (BitVec.ofNat 32 x) (tagOf t)]

/-- The bits of an operand of type T. -/
def Opd.bitsT (t : Ty) (x : Opd) : Nat := if t.wide then x.dw.toNat else x.w.toNat

/-- Typed arithmetic on three operands (R185): each s8x4 element on its own, other types on the whole value. -/
def intLane (t : Ty) (sat : Bool) (g : Nat → Int → Int → Int → Int) (a b c : Opd) : Nat :=
  if t = .s8x4 then
    packElems t ((List.range 4).map (fun i =>
      intRes 8 true sat (g 8 (signed 8 (getElem t a.w.toNat i)) (signed 8 (getElem t b.w.toNat i)) (signed 8 (getElem t c.w.toNat i)))))
  else
    let (w, sg) := intTy t
    intRes w sg sat (g w (intVal w sg (a.bitsT t)) (intVal w sg (b.bitsT t)) (intVal w sg (c.bitsT t)))

/-- A typed arithmetic instruction of `n` sources, with its tag checks (R112, R185). -/
def vecArith (o : Opc) (f : FForm) (n : Nat) (sat : Bool) (g : Nat → Int → Int → Int → Int) (s : State) :
    Host.Outcome State Fault Refusal :=
  let raw := f.mb 4
  runRow o (.f f) (lanes (fun c h => do
    let a := c.vA f h
    let b := if n < 2 then a else c.vB f h
    let x := if n < 3 then a else c.vC f h
    needTags [tagOk f.ty raw a, tagOk f.ty raw b, tagOk f.ty raw x]
    .ok (wT f.ty f.d.toNat (intLane f.ty sat g a b x)))) s

/-- A bitwise, shift or count instruction on 32-bit patterns: any source tag (R186). -/
def vecBits (o : Opc) (f : FForm) (t : Tag) (g : Nat → Nat → Nat → Nat) (s : State) : Host.Outcome State Fault Refusal :=
  runRow o (.f f) (lanes (fun c h =>
    .ok [wV f.d.toNat (BitVec.ofNat 32 (g (c.vA f h).w.toNat (c.vB f h).w.toNat (c.vC f h).w.toNat)) t])) s

/-- A predicate instruction of row code and the U-stream: predicates A and B, each inverted under its negate bit (R192). -/
def predLogic (o : Opc) (f : FForm) (g : Bool → Bool → Bool) (s : State) : Host.Outcome State Fault Refusal :=
  let r (p : Nat → Bool) : Bool := g ((p f.a.toNat).xor (f.mb 0)) ((p f.b.toNat).xor (f.mb 1))
  runRU o (.f f) (lanes (fun _ h => .ok [wP f.d.toNat (r h.pred)]))
    (uWrites (fun c => .ok [wP f.d.toNat (r (predOf c.u.p))])) s

/-- The two registers of an operand with their tags as they stand: one register, or a pair (R187). -/
def asStands (t : Ty) (d : Nat) (x : Opd) : List RegW :=
  if t.wide then [wV d x.lo.val x.lo.tag, wV (if d = 120 then 120 else d + 1) x.hi.val x.hi.tag] else [wV d x.lo.val x.lo.tag]

/-- R187. -/
def execVmov (f : FForm) (s : State) : Host.Outcome State Fault Refusal :=
  runRow .vmov (.f f) (lanes (fun c h => .ok (asStands f.ty f.d.toNat (c.vA f h)))) s

/-- R188: the immediate with the tag of T. -/
def execVli (i : IForm) (s : State) : Host.Outcome State Fault Refusal :=
  let v : DWord := if i.ty = .s64 then i.imm.signExtend 64 else i.imm.zeroExtend 64
  runRow .vli (.i i) (lanes (fun _ _ => .ok (wT i.ty i.d.toNat v.toNat))) s

/-- R188: a word or two of the data area, held as `slk` is held. -/
def execVlk (i : IForm) (s : State) : Host.Outcome State Fault Refusal :=
  let n := memSize i.ty
  runRow .vlk (.i i) (fun c =>
    match c.act with
    | [] => .done c.s
    | h :: _ =>
      dataReads c.s c.t c.p [(h.row, c.t.dataAt (4 * i.imm.toInt) n, n)] (fun s vs =>
        let x := leNat ((vs.map (·.2)).headD [])
        .done (s.setTeam c.t.uid (fun t => c.act.foldl (fun t h => t.commit c.md h.row h.pos (wT i.ty i.d.toNat x)) t)))) s

/-- R188. -/
def execVbcs (f : FForm) (s : State) : Host.Outcome State Fault Refusal :=
  runRow .vbcs (.f f) (lanes (fun c h =>
    let v := c.t.sreg h.row f.a.toNat
    .ok (wT f.ty f.d.toNat v.toNat))) s

/-- R185. -/
def execVadd (f : FForm) (s : State) : Host.Outcome State Fault Refusal :=
  vecArith .vadd f 2 (f.mb 3) (fun _ a b _ => a + b) s

/-- R185. -/
def execVsub (f : FForm) (s : State) : Host.Outcome State Fault Refusal :=
  vecArith .vsub f 2 (f.mb 3) (fun _ a b _ => a - b) s

/-- R185. -/
def execVmul (f : FForm) (s : State) : Host.Outcome State Fault Refusal :=
  vecArith .vmul f 2 (f.mb 3) (fun _ a b _ => a * b) s

/-- R185: ⌊(a × b) ÷ 2^w⌋. -/
def execVmulh (f : FForm) (s : State) : Host.Outcome State Fault Refusal :=
  vecArith .vmulh f 2 false (fun w a b _ => a * b / (2 ^ w : Nat)) s

/-- R185. -/
def execVmad (f : FForm) (s : State) : Host.Outcome State Fault Refusal :=
  vecArith .vmad f 3 (f.mb 3) (fun _ a b c => a * b + c) s

/-- R185. -/
def execVabs (f : FForm) (s : State) : Host.Outcome State Fault Refusal :=
  vecArith .vabs f 1 (f.mb 3) (fun _ a _ _ => if a < 0 then -a else a) s

/-- R185. -/
def execVneg (f : FForm) (s : State) : Host.Outcome State Fault Refusal :=
  vecArith .vneg f 1 (f.mb 3) (fun _ a _ _ => -a) s

/-- R185. -/
def execVmin (f : FForm) (s : State) : Host.Outcome State Fault Refusal :=
  vecArith .vmin f 2 false (fun _ a b _ => min a b) s

/-- R185. -/
def execVmax (f : FForm) (s : State) : Host.Outcome State Fault Refusal :=
  vecArith .vmax f 2 false (fun _ a b _ => max a b) s

/-- R186. -/
def execVand (f : FForm) (s : State) : Host.Outcome State Fault Refusal :=
  vecBits .vand f .b32 (fun a b _ => a &&& b) s

/-- R186. -/
def execVor (f : FForm) (s : State) : Host.Outcome State Fault Refusal :=
  vecBits .vor f .b32 (fun a b _ => a ||| b) s

/-- R186. -/
def execVxor (f : FForm) (s : State) : Host.Outcome State Fault Refusal :=
  vecBits .vxor f .b32 (fun a b _ => a ^^^ b) s

/-- R186. -/
def execVnot (f : FForm) (s : State) : Host.Outcome State Fault Refusal :=
  vecBits .vnot f .b32 (fun a _ _ => (2 ^ 32 - 1) ^^^ a) s

/-- R186. -/
def execVandn (f : FForm) (s : State) : Host.Outcome State Fault Refusal :=
  vecBits .vandn f .b32 (fun a b _ => a &&& ((2 ^ 32 - 1) ^^^ b)) s

/-- R179, R186. -/
def execVshl (f : FForm) (s : State) : Host.Outcome State Fault Refusal :=
  vecBits .vshl f .b32 (fun a b _ => shlN 32 a b) s

/-- R179, R186. -/
def execVshr (f : FForm) (s : State) : Host.Outcome State Fault Refusal :=
  vecBits .vshr f .b32 (fun a b _ => shrN 32 a b) s

/-- R179, R186. -/
def execVsar (f : FForm) (s : State) : Host.Outcome State Fault Refusal :=
  vecBits .vsar f .b32 (fun a b _ => sarN 32 a b) s

/-- R179, R186. -/
def execVrol (f : FForm) (s : State) : Host.Outcome State Fault Refusal :=
  vecBits .vrol f .b32 (fun a b _ => rolN a b) s

/-- R186. -/
def execVclz (f : FForm) (s : State) : Host.Outcome State Fault Refusal :=
  vecBits .vclz f .n32 (fun a _ _ => clzN 32 a) s

/-- R186. -/
def execVctz (f : FForm) (s : State) : Host.Outcome State Fault Refusal :=
  vecBits .vctz f .n32 (fun a _ _ => ctzN 32 a) s

/-- R186. -/
def execVpopc (f : FForm) (s : State) : Host.Outcome State Fault Refusal :=
  vecBits .vpopc f .n32 (fun a _ _ => popN 32 a) s

/-- R186. -/
def execVbrev (f : FForm) (s : State) : Host.Outcome State Fault Refusal :=
  vecBits .vbrev f .b32 (fun a _ _ => revN 32 a) s

/-- R180, R186. -/
def execVbfi (f : FForm) (s : State) : Host.Outcome State Fault Refusal :=
  vecBits .vbfi f .b32 (fun a b c => bfiN 32 a b c) s

/-- R180, R186: the result carries the tag of T. -/
def execVbfe (f : FForm) (s : State) : Host.Outcome State Fault Refusal :=
  vecBits .vbfe f (tagOf f.ty) (fun a b _ => bfeN 32 (intTy f.ty).2 a b) s

/-- R189, R165. -/
def execVcmp (f : FForm) (s : State) : Host.Outcome State Fault Refusal :=
  let (w, sg) := intTy f.ty
  runRow .vcmp (.f f) (lanes (fun c h => do
    let a := c.vA f h
    let b := c.vB f h
    needTags [tagOk f.ty (f.mb 4) a, tagOk f.ty (f.mb 4) b]
    .ok [wP f.d.toNat (icmp f.opx (intVal w sg (a.bitsT f.ty)) (intVal w sg (b.bitsT f.ty)))])) s

/-- R187: a selected uniform b takes tag b32, or the tags of T as a pair. -/
def execVsel (f : FForm) (s : State) : Host.Outcome State Fault Refusal :=
  runRow .vsel (.f f) (lanes (fun c h =>
    if h.pred f.c.toNat then .ok (asStands f.ty f.d.toNat (c.vA f h))
    else if f.mb 8 then
      let v := c.t.sreg h.row f.b.toNat
      .ok (if f.ty.wide then wPair f.d.toNat v (tagOf f.ty) else [wV f.d.toNat (v.truncate 32) .b32])
    else .ok (asStands f.ty f.d.toNat (c.vB f h)))) s

/-- R190: c + Σ a_e × b_e, exact, then wrapped or clamped to s32. -/
def execVdot4 (f : FForm) (s : State) : Host.Outcome State Fault Refusal :=
  let raw := f.mb 4
  runRow .vdot4 (.f f) (lanes (fun c h => do
    let a := c.vA f h
    let b := c.vB f h
    let x := c.vC f h
    needTags [tagOk .s8x4 raw a, tagOk .s8x4 raw b, tagOk .s32 raw x]
    let sum := (List.range 4).foldl (fun acc i =>
      acc + signed 8 (getElem .s8x4 a.w.toNat i) * signed 8 (getElem .s8x4 b.w.toNat i)) (signed 32 x.w.toNat)
    .ok [wV f.d.toNat (BitVec.ofNat 32 (intRes 32 true (f.mb 3) sum)) .s32])) s

/-- R191: the data unchanged with the tag of T. -/
def execVtag (f : FForm) (s : State) : Host.Outcome State Fault Refusal :=
  runRow .vtag (.f f) (lanes (fun c h => .ok (wT f.ty f.d.toNat ((c.vA f h).bitsT f.ty)))) s

/-- R192. -/
def execPand (f : FForm) (s : State) : Host.Outcome State Fault Refusal := predLogic .pand f (fun a b => a && b) s

/-- R192. -/
def execPor (f : FForm) (s : State) : Host.Outcome State Fault Refusal := predLogic .por f (fun a b => a || b) s

/-- R192. -/
def execPxor (f : FForm) (s : State) : Host.Outcome State Fault Refusal := predLogic .pxor f Bool.xor s

/-- R192. -/
def execPnot (f : FForm) (s : State) : Host.Outcome State Fault Refusal := predLogic .pnot f (fun a _ => !a) s

/-- R192: true when the bits are not all zero; any tag. -/
def execPset (f : FForm) (s : State) : Host.Outcome State Fault Refusal :=
  runRow .pset (.f f) (lanes (fun c h => .ok [wP f.d.toNat ((c.vA f h).w != 0)])) s

/-- R192. -/
def execPget (f : FForm) (s : State) : Host.Outcome State Fault Refusal :=
  runRow .pget (.f f) (lanes (fun _ h => .ok [wV f.d.toNat (if h.pred f.a.toNat then 1 else 0) .n32])) s

end Sys2Proof.Machine
end

