-- ==== Sys2Proof/Machine/VectorFloat.lean ====
section
/-! DEFINITION. The vector float, conversion and scale instructions, codes 0x60 to 0x7A (R193 to R201). -/

namespace Sys2Proof.Machine

open Sys2Proof

/-- The rounding mode of an instruction in a thread: RM, or SR_RMODE when RM is 0 (R94, Table 9.1). -/
def modeOf (f : FForm) (h : Thread) : Nat := if f.m 0 3 = 0 then h.rmode.toNat else f.m 0 3 - 1

/-- A float instruction of `n` f32 sources that writes an f32: `g` is given the mode and the sources' words. -/
def vecFloat (o : Opc) (f : FForm) (n : Nat) (g : Nat → Word → Word → Word → Word) (s : State) : Host.Outcome State Fault Refusal :=
  let raw := f.mb 4
  runRow o (.f f) (lanes (fun c h => do
    let a := c.vA f h
    let b := if n < 2 then a else c.vB f h
    let x := if n < 3 then a else c.vC f h
    needTags [tagOk .f32 raw a, tagOk .f32 raw b, tagOk .f32 raw x]
    .ok [wV f.d.toNat (g (modeOf f h) a.w b.w x.w) .f32])) s

/-- An exact result rounded to f32 in the mode (R193). -/
def fres (f : FForm) (mode : Nat) (v : FVal) : Word := BitVec.ofNat 32 (Fmt.f32.round mode (f.mb 3) v)

/-- R193, Table 9.9. -/
def execVfadd (f : FForm) (s : State) : Host.Outcome State Fault Refusal :=
  vecFloat .vfadd f 2 (fun m a b _ => fres f m (fsum (m == 3) [ofF32 a, ofF32 b])) s

/-- R193, Table 9.9. -/
def execVfsub (f : FForm) (s : State) : Host.Outcome State Fault Refusal :=
  vecFloat .vfsub f 2 (fun m a b _ => fres f m (fsum (m == 3) [ofF32 a, (ofF32 b).negate])) s

/-- R193, Table 9.9. -/
def execVfmul (f : FForm) (s : State) : Host.Outcome State Fault Refusal :=
  vecFloat .vfmul f 2 (fun m a b _ => fres f m ((ofF32 a).mul (ofF32 b))) s

/-- R193, Table 9.9: one rounding. -/
def execVffma (f : FForm) (s : State) : Host.Outcome State Fault Refusal :=
  vecFloat .vffma f 3 (fun m a b x => fres f m (fsum (m == 3) [(ofF32 a).mul (ofF32 b), ofF32 x])) s

/-- R194, R99. -/
def execVfmin (f : FForm) (s : State) : Host.Outcome State Fault Refusal := vecFloat .vfmin f 2 (fun _ a b _ => fminmax false a b) s

/-- R194, R99. -/
def execVfmax (f : FForm) (s : State) : Host.Outcome State Fault Refusal := vecFloat .vfmax f 2 (fun _ a b _ => fminmax true a b) s

/-- A NaN operand gives the canonical NaN (R194). -/
def nanOr (a r : Word) : Word := if (ofF32 a).isNan then BitVec.ofNat 32 Fmt.f32.cnan else r

/-- R194. -/
def execVfabs (f : FForm) (s : State) : Host.Outcome State Fault Refusal :=
  vecFloat .vfabs f 1 (fun _ a _ _ => nanOr a (a &&& 0x7FFFFFFF)) s

/-- R194. -/
def execVfneg (f : FForm) (s : State) : Host.Outcome State Fault Refusal :=
  vecFloat .vfneg f 1 (fun _ a _ _ => nanOr a (a ^^^ 0x80000000)) s

/-- R195, R165. -/
def execVfcmp (f : FForm) (s : State) : Host.Outcome State Fault Refusal :=
  runRow .vfcmp (.f f) (lanes (fun c h => do
    let a := c.vA f h
    let b := c.vB f h
    needTags [tagOk .f32 (f.mb 4) a, tagOk .f32 (f.mb 4) b]
    .ok [wP f.d.toNat (fcmp f.opx (ofF32 a.w) (ofF32 b.w))])) s

/-- R195. -/
def execVfclass (f : FForm) (s : State) : Host.Outcome State Fault Refusal :=
  runRow .vfclass (.f f) (lanes (fun c h => do
    let a := c.vA f h
    needTags [tagOk .f32 (f.mb 4) a]
    .ok [wV f.d.toNat (BitVec.ofNat 32 (fclass a.w)) .n32])) s

/-- R193, Table 9.9. -/
def execVfrnd (f : FForm) (s : State) : Host.Outcome State Fault Refusal := vecFloat .vfrnd f 1 (fun m a _ _ => frnd m (ofF32 a)) s

/-- R196, Table 9.9. -/
def execVrcp (f : FForm) (s : State) : Host.Outcome State Fault Refusal :=
  vecFloat .vrcp f 1 (fun m a _ _ => fdiv m (f.mb 3) (.fin false 1 0) (ofF32 a)) s

/-- R196, Table 9.9. -/
def execVrsq (f : FForm) (s : State) : Host.Outcome State Fault Refusal := vecFloat .vrsq f 1 (fun m a _ _ => frsq m (ofF32 a)) s

/-- R196, Table 9.9. -/
def execVsqrt (f : FForm) (s : State) : Host.Outcome State Fault Refusal := vecFloat .vsqrt f 1 (fun m a _ _ => fsqrt m (ofF32 a)) s

/-- R196, Table 9.9. -/
def execVdiv (f : FForm) (s : State) : Host.Outcome State Fault Refusal :=
  vecFloat .vdiv f 2 (fun m a b _ => fdiv m (f.mb 3) (ofF32 a) (ofF32 b)) s

/-- R196, Table 9.10. -/
def execVexp2 (f : FForm) (s : State) : Host.Outcome State Fault Refusal := vecFloat .vexp2 f 1 (fun _ a _ _ => fexp2 (f.mb 3) (ofF32 a)) s

/-- R196, Table 9.10. -/
def execVlog2 (f : FForm) (s : State) : Host.Outcome State Fault Refusal := vecFloat .vlog2 f 1 (fun _ a _ _ => flog2 (ofF32 a)) s

/-- R196, Table 9.10. -/
def execVsinpi (f : FForm) (s : State) : Host.Outcome State Fault Refusal := vecFloat .vsinpi f 1 (fun _ a _ _ => fsinpi (ofF32 a)) s

/-- R196, Table 9.10. -/
def execVcospi (f : FForm) (s : State) : Host.Outcome State Fault Refusal := vecFloat .vcospi f 1 (fun _ a _ _ => fcospi (ofF32 a)) s

/-! ### Packed forms (Table 9.9) -/

/-- The format of the elements of a packed type. -/
def elemFmt (t : Ty) : Fmt := (fmtOf t).getD .bf16

/-- Element `i` of a packed word as a value. -/
def elemReal (t : Ty) (x : Word) (i : Nat) : FVal := (elemFmt t).real (getElem t x.toNat i)

/-- A packed instruction of `n` sources of type T, element by element. -/
def vecPacked (o : Opc) (f : FForm) (n : Nat) (g : Nat → FVal → FVal → FVal → FVal) (s : State) : Host.Outcome State Fault Refusal :=
  let raw := f.mb 4
  runRow o (.f f) (lanes (fun c h => do
    let a := c.vA f h
    let b := c.vB f h
    let x := if n < 3 then a else c.vC f h
    needTags [tagOk f.ty raw a, tagOk f.ty raw b, tagOk f.ty raw x]
    let m := modeOf f h
    .ok [wV f.d.toNat (BitVec.ofNat 32 (packElems f.ty ((List.range 2).map (fun i =>
      (elemFmt f.ty).round m (f.mb 3) (g m (elemReal f.ty a.w i) (elemReal f.ty b.w i) (elemReal f.ty x.w i)))))) (tagOf f.ty)])) s

/-- Table 9.9, Table 5.10: a₀b₀ + a₁b₁ + c exact, one rounding to f32; C is checked as f32. -/
def execVfdot2 (f : FForm) (s : State) : Host.Outcome State Fault Refusal :=
  let raw := f.mb 4
  runRow .vfdot2 (.f f) (lanes (fun c h => do
    let a := c.vA f h
    let b := c.vB f h
    let x := c.vC f h
    needTags [tagOk f.ty raw a, tagOk f.ty raw b, tagOk .f32 raw x]
    let m := modeOf f h
    let p (i : Nat) : FVal := (elemReal f.ty a.w i).mul (elemReal f.ty b.w i)
    .ok [wV f.d.toNat (fres f m (fsum (m == 3) [p 0, p 1, ofF32 x.w])) .f32])) s

/-- Table 9.9. -/
def execVpfma (f : FForm) (s : State) : Host.Outcome State Fault Refusal :=
  vecPacked .vpfma f 3 (fun m a b x => fsum (m == 3) [a.mul b, x]) s

/-- Table 9.9. -/
def execVpfadd (f : FForm) (s : State) : Host.Outcome State Fault Refusal :=
  vecPacked .vpfadd f 2 (fun m a b _ => fsum (m == 3) [a, b]) s

/-- Table 9.9. -/
def execVpfmul (f : FForm) (s : State) : Host.Outcome State Fault Refusal :=
  vecPacked .vpfmul f 2 (fun _ a b _ => a.mul b) s

/-! ### Conversions (R197 to R201, Table 5.7) -/

/-- A conversion from S to T: the result as a value of T's register form. -/
def convert (mode : Nat) (sat : Bool) (src dst : Ty) (a : Opd) : Nat :=
  let (w, sg) := intTy dst
  if src = .f32 then wrapN 64 (f2i mode w sg (ofF32 a.w))
  else
    let (sw, ssg) := intTy src
    let v := intVal sw ssg (a.bitsT src)
    if dst = .f32 then Fmt.f32.round mode sat (FVal.ofInt v)
    else if sw < w then wrapN 64 v
    else wrapN 64 (intVal w sg (intRes w sg sat v))

/-- R197. -/
def execVcvt (f : FForm) (s : State) : Host.Outcome State Fault Refusal :=
  let src := (tyOf (f.m 4 5)).getD .f32
  runRow .vcvt (.f f) (lanes (fun c h => do
    let a := c.vA f h
    needTags [tagOk src false a]
    .ok (wT f.ty f.d.toNat (convert (modeOf f h) (f.mb 3) src f.ty a)))) s

/-- One value as an element of a packed type (R198). -/
def packOne (t : Ty) (mode : Nat) (sat : Bool) (x : Word) : Nat :=
  match t with
  | .s8x4 => intRes 8 true sat (signed 32 x.toNat)
  | .sc10 => sc10Of (ofF32 x)
  | t => (elemFmt t).round mode sat (ofF32 x)

/-- R198, R199. -/
def execVpack (f : FForm) (s : State) : Host.Outcome State Fault Refusal :=
  let raw := f.mb 4
  let k := f.m 5 2
  let src : Ty := if f.ty = .s8x4 then .s32 else .f32
  let one := f.ty == .sc10 && k == 1
  runRow .vpack (.f f) (lanes (fun c h => do
    let a := c.vA f h
    let b := if one then a else c.vB f h
    let x := c.vC f h
    needTags [tagOk src raw a, tagOk src raw b, tagOk f.ty raw x]
    let m := modeOf f h
    let es := (elems f.ty x.w.toNat).zipIdx.map (fun e =>
      if e.2 = 2 * k then packOne f.ty m (f.mb 3) a.w
      else if e.2 = 2 * k + 1 then packOne f.ty m (f.mb 3) b.w
      else e.1)
    .ok [wV f.d.toNat (BitVec.ofNat 32 (packElems f.ty es)) (tagOf f.ty)])) s

/-- R200. -/
def execVunpk (f : FForm) (s : State) : Host.Outcome State Fault Refusal :=
  let k := f.opx
  runRow .vunpk (.f f) (lanes (fun c h => do
    let a := c.vA f h
    needTags [tagOk f.ty (f.mb 4) a]
    let e := getElem f.ty a.w.toNat k
    match f.ty with
    | .s8x4 => .ok [wV f.d.toNat (BitVec.ofInt 32 (signed 8 e)) .s32]
    | .sc10 => .ok [wV f.d.toNat (toF32 (sc10Real e)) .f32]
    | t => .ok [wV f.d.toNat (toF32 ((elemFmt t).real e)) .f32])) s

/-- a × s, or a ÷ s under DIV, rounded (R201). -/
def scaleBy (mode : Nat) (sat div : Bool) (a s : FVal) : Word :=
  if div then fdiv mode sat a s else BitVec.ofNat 32 (Fmt.f32.round mode sat (a.mul s))

/-- R201. -/
def execVscl (f : FForm) (s : State) : Host.Outcome State Fault Refusal :=
  runRow .vscl (.f f) (lanes (fun c h => do
    let a := c.vA f h
    let b := c.vB f h
    needTags [tagOk .f32 (f.mb 4) a, tagOk .sc10 (f.mb 4) b]
    .ok [wV f.d.toNat (scaleBy (modeOf f h) (f.mb 3) (f.mb 7) (ofF32 a.w) (sc10Real (getElem .sc10 b.w.toNat (f.m 5 2)))) .f32])) s

end Sys2Proof.Machine
end

