-- ==== Sys2Proof/Machine/CrossLane.lean ====
section
/-! DEFINITION. The cross-lane instructions, codes 0x90 to 0x99 (R65 to R67, R110, R227 to R229). -/

namespace Sys2Proof.Machine

open Sys2Proof

/-- The members of a cross-lane instruction, in ascending row position, the segment width and SR_XMASK afterwards. -/
structure Lanes where
  seg  : Nat
  mem  : List Thread
  xm   : DWord

/-- The positions of a mask that some threads hold. -/
def posMask (hs : List Thread) : Nat := hs.foldl (fun acc h => acc ||| 2 ^ h.pos) 0

/-- The segment width, the member mask and what it names absent (R65 to R67, R227). -/
def Ctx.lanesOf (c : Ctx) (f : FForm) : Lanes :=
  let w := c.t.width
  let mask :=
    if f.mb 8 then
      match c.mem with
      | h :: _ => (c.t.sreg h.row f.c.toNat).toNat % 2 ^ w
      | [] => 2 ^ w - 1
    else 2 ^ w - 1
  { seg := if f.m 6 2 = 0 then w else min w (4 * 2 ^ f.m 6 2),
    mem := c.act.filter (fun h => bitOf mask h.pos),
    xm := BitVec.ofNat 64 (mask &&& ((2 ^ w - 1) ^^^ (posMask c.mem % 2 ^ w))) }

/-- Is the thread a member? -/
def Lanes.has (l : Lanes) (h : Thread) : Bool := l.mem.any (fun g => g.pos == h.pos)

/-- The members of the segment of a position. -/
def Lanes.near (l : Lanes) (p : Nat) : List Thread := l.mem.filter (fun g => g.pos / l.seg == p / l.seg)

/-- The member at position `j` of the segment of a position. -/
def Lanes.at (l : Lanes) (p j : Nat) : Option Thread := l.mem.find? (fun g => g.pos == p / l.seg * l.seg + j)

/-- A cross-lane instruction: each thread with a true guard computes its own writes; SR_XMASK is written (R66). -/
def crossLane (o : Opc) (f : FForm) (g : Lanes → Ctx → Thread → LaneOut) (s : State) : Host.Outcome State Fault Refusal :=
  runRow o (.f f) (fun c =>
    let l := c.lanesOf f
    match lanes (g l) c with
    | .done s' => .done (s'.setTeam c.t.uid (fun t => t.setFrag c.fid (fun fr => { fr with xmask := l.xm })))
    | e => e) s

/-- The value of `a` in the member at position `j` of the segment, or the reader's own (R65). -/
def takeFrom (f : FForm) (l : Lanes) (c : Ctx) (h : Thread) (j : Nat) : LaneOut :=
  match l.at h.pos j with
  | some g => .ok (asStands f.ty f.d.toNat (c.vA f g))
  | none => .ok (asStands f.ty f.d.toNat (c.vA f h))

/-- A thread's own value, unchanged (R65). -/
def ownA (f : FForm) (c : Ctx) (h : Thread) : LaneOut := .ok (asStands f.ty f.d.toNat (c.vA f h))

/-- The source position of a shuffle (Table 11.16). -/
def shuffleIndex (mode seg p b : Nat) : Nat :=
  match mode with
  | 0 => b % seg
  | 1 => (p + (seg - b % seg)) % seg
  | 2 => (p + b) % seg
  | _ => (p ^^^ b) % seg

/-- R228. -/
def execVshfl (f : FForm) (s : State) : Host.Outcome State Fault Refusal :=
  crossLane .vshfl f (fun l c h =>
    if l.has h then takeFrom f l c h (shuffleIndex (f.m 0 2) l.seg (h.pos % l.seg) (h.src c.cur.idx f.b.toNat).w.toNat)
    else ownA f c h) s

/-- R228: the position that the segment's lowest member names. -/
def execVbcast (f : FForm) (s : State) : Host.Outcome State Fault Refusal :=
  crossLane .vbcast f (fun l c h =>
    match l.has h, l.near h.pos with
    | true, g :: _ => takeFrom f l c h ((g.src c.cur.idx f.b.toNat).w.toNat % l.seg)
    | _, _ => ownA f c h) s

/-! ### Reductions and scans (R110, R229) -/

/-- The identity of an operation in T (Table 5.11), as register bits. -/
def identity (op : Nat) (t : Ty) : Nat :=
  let (w, sg) := intTy t
  match op with
  | 0 => if t = .f32 then 0x80000000 else 0
  | 1 => if t = .f32 then Fmt.f32.cnan else wrapN w (clampTo w sg (2 ^ 70 : Nat))
  | 2 => if t = .f32 then Fmt.f32.cnan else wrapN w (clampTo w sg (-(2 ^ 70 : Nat)))
  | 3 => 2 ^ w - 1
  | _ => 0

/-- One combination of two f32 values (R229: RoundNE). -/
def combineF (op : Nat) (a b : Nat) : Nat :=
  match op with
  | 0 => Fmt.f32.round 0 false (fsum false [Fmt.f32.real a, Fmt.f32.real b])
  | 1 => (fminmax false (BitVec.ofNat 32 a) (BitVec.ofNat 32 b)).toNat
  | _ => (fminmax true (BitVec.ofNat 32 a) (BitVec.ofNat 32 b)).toNat

/-- The pairwise tree of Table 5.10, one level. -/
def treeLevel (g : Nat → Nat → Nat) : List Nat → List Nat
  | a :: b :: r => g a b :: treeLevel g r
  | r => r

/-- The pairwise tree over at most 2^n values. -/
def tree (g : Nat → Nat → Nat) : Nat → List Nat → Nat
  | 0, vs => vs.headD 0
  | n + 1, vs => tree g n (treeLevel g vs)

/-- An f32 NaN is the canonical one (R98). -/
def canonF (x : Nat) : Nat := if (Fmt.f32.real x).isNan then Fmt.f32.cnan else x

/-- The exact sum of f32 values, rounded once (R105). -/
def exactSumF (vs : List Nat) : Nat := Fmt.f32.round 0 false (fsum false (vs.map Fmt.f32.real))

/-- The integer result of an operation over values (Table 5.10). -/
def reduceInt (op : Nat) (t : Ty) (sat : Bool) (vs : List Nat) : Nat :=
  let (w, sg) := intTy t
  match op with
  | 0 => intRes w sg sat (vs.foldl (fun acc v => acc + intVal w sg v) 0)
  | 1 => wrapN w ((vs.map (intVal w sg)).foldl min (clampTo w sg (2 ^ 70 : Nat)))
  | 2 => wrapN w ((vs.map (intVal w sg)).foldl max (clampTo w sg (-(2 ^ 70 : Nat))))
  | 3 => vs.foldl (· &&& ·) (2 ^ w - 1)
  | 4 => vs.foldl (· ||| ·) 0
  | _ => vs.foldl (· ^^^ ·) 0

/-- The reduction of a segment's contributions, in position order. -/
def reduceAll (op : Nat) (t : Ty) (x : Bool) (vs : List Nat) : Nat :=
  if t = .f32 then (if x then exactSumF vs else tree (combineF op) 6 (vs.map canonF))
  else reduceInt op t x vs

/-- The scan at the last of some positions. -/
def scanTo (op : Nat) (t : Ty) (x : Bool) (vs : List Nat) : Nat :=
  if t = .f32 then
    if x then exactSumF vs
    else
      match vs with
      | [] => identity op t
      | v :: r => r.foldl (fun acc w => combineF op acc (canonF w)) (canonF v)
  else reduceInt op t x vs

/-- What each position of the segment contributes: a member's value, and the identity elsewhere (R65). -/
def contributions (f : FForm) (l : Lanes) (c : Ctx) (p : Nat) : List Nat :=
  (List.range l.seg).map (fun j =>
    match l.at p j with
    | some g => (c.vA f g).bitsT f.ty
    | none => identity (f.m 0 3) f.ty)

/-- A reduction's or scan's output in a thread that is no member: its own value, with the code of T (R112, R229). -/
def ownT (f : FForm) (c : Ctx) (h : Thread) : LaneOut := .ok (wT f.ty f.d.toNat ((c.vA f h).bitsT f.ty))

/-- R229. -/
def execVred (f : FForm) (s : State) : Host.Outcome State Fault Refusal :=
  crossLane .vred f (fun l c h =>
    if !tagOk f.ty (f.mb 4) (c.vA f h) then .error .fmt
    else if l.has h then .ok (wT f.ty f.d.toNat (reduceAll (f.m 0 3) f.ty (f.mb 3) (contributions f l c h.pos)))
    else ownT f c h) s

/-- R229: positions 0 to p, or 0 to p − 1 under EXC. -/
def execVscan (f : FForm) (s : State) : Host.Outcome State Fault Refusal :=
  crossLane .vscan f (fun l c h =>
    if !tagOk f.ty (f.mb 4) (c.vA f h) then .error .fmt
    else if l.has h then
      let n := h.pos % l.seg + (if f.mb 5 then 0 else 1)
      let vs := (contributions f l c h.pos).take n
      .ok (wT f.ty f.d.toNat (if n = 0 then identity (f.m 0 3) f.ty else scanTo (f.m 0 3) f.ty (f.mb 3) vs))
    else ownT f c h) s

/-- The tag check of `vmatch`: it carries no value on, so under s64 and n64 its pair is checked as T (Table 5.13; DEDUCED, log 64). -/
def matchOk (f : FForm) (c : Ctx) (h : Thread) : Bool := f.ty == .none || tagOk f.ty false (c.vA f h)

/-- R228: the positions of members whose value equals the reader's, bit for bit. -/
def execVmatch (f : FForm) (s : State) : Host.Outcome State Fault Refusal :=
  crossLane .vmatch f (fun l c h =>
    let a := c.vA f h
    if !matchOk f c h then .error .fmt
    else if l.has h then
      .ok (wPair f.d.toNat (BitVec.ofNat 64 (posMask ((l.near h.pos).filter (fun g => (c.vA f g).bitsT f.ty == a.bitsT f.ty)))) .n64)
    else .ok (wPair f.d.toNat (a.w.zeroExtend 64) .n64)) s

/-- R228. -/
def execVcompact (f : FForm) (s : State) : Host.Outcome State Fault Refusal :=
  crossLane .vcompact f (fun l c h =>
    if l.has h then
      let ms := l.near h.pos
      let rank := (ms.filter (fun g => decide (g.pos < h.pos))).length
      match (ms.filter (fun g => g.pred f.b.toNat))[rank]? with
      | some g => .ok (asStands f.ty f.d.toNat (c.vA f g))
      | none => ownA f c h
    else ownA f c h) s

/-- The members of the segment whose predicate A is true. -/
def trueNear (f : FForm) (l : Lanes) (h : Thread) : List Thread := (l.near h.pos).filter (fun g => g.pred f.a.toNat)

/-- A predicate as 1 or 0. -/
def ownP (f : FForm) (h : Thread) : Nat := if h.pred f.a.toNat then 1 else 0

/-- R228. -/
def execVballot (f : FForm) (s : State) : Host.Outcome State Fault Refusal :=
  crossLane .vballot f (fun l _ h =>
    .ok (wPair f.d.toNat (BitVec.ofNat 64 (if l.has h then posMask (trueNear f l h) else ownP f h)) .n64)) s

/-- R228. -/
def execVvote (f : FForm) (s : State) : Host.Outcome State Fault Refusal :=
  crossLane .vvote f (fun l _ h =>
    let n := (l.near h.pos).length
    let k := (trueNear f l h).length
    let r :=
      match f.m 0 2 with
      | 0 => k == n
      | 1 => k != 0
      | _ => k == 0 || k == n
    .ok [wP f.d.toNat (if l.has h then r else h.pred f.a.toNat)]) s

/-- R228. -/
def execVrank (f : FForm) (s : State) : Host.Outcome State Fault Refusal :=
  crossLane .vrank f (fun l _ h =>
    let k := ((trueNear f l h).filter (fun g => decide (g.pos < h.pos))).length
    .ok [wV f.d.toNat (BitVec.ofNat 32 (if l.has h then k else ownP f h)) .n32]) s

/-- R228. -/
def execVfirst (f : FForm) (s : State) : Host.Outcome State Fault Refusal :=
  crossLane .vfirst f (fun l _ h =>
    let r := match trueNear f l h with
      | g :: _ => g.pos
      | [] => 0xFFFFFFFF
    .ok [wV f.d.toNat (BitVec.ofNat 32 (if l.has h then r else ownP f h)) .n32]) s

end Sys2Proof.Machine
end

