-- ==== Sys2Proof/Machine/MemoryFam.lean ====
section
/-! DEFINITION. The load, store, full/empty, atomic, fence, invalidation, prefetch and fetch instructions, codes 0xA0 to 0xAF
(R203 to R226). -/

namespace Sys2Proof.Machine

open Sys2Proof

/-! ### Values -/

/-- The register writes of a load of type T (Table 11.4). -/
def loadWrites (t : Ty) (d : Nat) (bs : List Byte) : List RegW :=
  let x := leNat bs
  let (w, sg) := intTy t
  match t with
  | .s64 | .n64 => wPair d (BitVec.ofNat 64 x) (tagOf t)
  | .s8 | .s16 | .n8 | .n16 => [wV d (BitVec.ofInt 32 (intVal w sg x)) (tagOf t)]
  | t => [wV d (BitVec.ofNat 32 x) (tagOf t)]

/-- The tag check of store data and of atomic operands: b32 accepts any tag (Table 5.13, Table 11.4, R219). -/
def dataOk (t : Ty) (x : Opd) : Bool := t == .b32 || tagOk t false x

/-- The bytes of store data. -/
def dataBytes (t : Ty) (x : Opd) : List Byte := leBytes (memSize t) (x.bitsT t)

/-- The scope of a twin team's and a team's acquire in the caches (Table 13.4). -/
def Ctx.acquires (c : Ctx) (h : Thread) (scope : Nat) (s : State) : State :=
  s.acquire scope c.t.hdr.twin c.t.die (c.t.coreOf h.row)

/-! ### Global loads and stores (R203, R204, R206 to R211, R217) -/

/-- The virtual address of a thread's global access, aligned to its size. -/
def globalAt (c : Ctx) (f : FForm) (field : BitVec 7) (n : Nat) (h : Thread) : Plan :=
  let a := gBase c.t.rcd.window f (c.env h) + indexOf f field n (c.env h)
  match aligned n a with
  | .error e => .error e
  | .ok () => .ok [(a, n)]

/-- A thread as a party. -/
def Ctx.me (c : Ctx) (h : Thread) : Party := .lane c.t.uid h.row h.pos

/-- The scope of a release, where there is one. -/
def scopeIf (b : Bool) (n : Nat) : Option Nat := if b then some n else none

/-- R208. -/
def execLd (f : FForm) (s : State) : Host.Outcome State Fault Refusal :=
  let n := memSize f.ty
  runRow .ld (.f f) (globalOp .l1 .read true false 0
    (fun c h => c.s.relOk (c.me h) (scopeIf (f.m 4 2 == 2) (f.m 1 3)) (globalAt c f f.b n h))
    (fun c h ps ks s =>
      let s1 := if f.m 4 2 = 0 then s else c.acquires h (f.m 1 3) s
      (s1, loadWrites f.ty f.d.toNat (s1.gather ps ks)))) s

/-- The data register of a store or atomic: field B is a vector field whatever AU holds. -/
def Ctx.regB (c : Ctx) (f : FForm) (h : Thread) : Opd := h.src c.cur.idx f.b.toNat

/-- The acquire half of the `fence.sc` that follows a store under `.sc` (R259, R263). -/
def Ctx.scFence (c : Ctx) (f : FForm) (h : Thread) (scope : Nat) (s : State) : State :=
  if f.m 4 2 = 2 then c.acquires h scope s else s

/-- R208, R210, R259: threads act in ascending row position, so the highest position's bytes stand. -/
def execSt (f : FForm) (s : State) : Host.Outcome State Fault Refusal :=
  let n := memSize f.ty
  runRow .st (.f f) (globalOp .l1 .write false false 1
    (fun c h => c.s.relOk (c.me h) (scopeIf (f.m 4 2 != 0) (f.m 1 3))
      (if dataOk f.ty (c.regB f h) then globalAt c f f.c n h else .error .fmt))
    (fun c h ps ks s => (c.scFence f h (f.m 1 3) (s.scatter ps ks (dataBytes f.ty (c.regB f h))), []))) s

/-! ### Team and plot loads and stores (R205, R206, R212 to R215, R218) -/

/-- A waiting instruction over team memory: each thread's checks, then each thread's act (R207, R214, R215). `at_` gives the
team and offset a thread names, `go` what it does there. -/
def localOp (w : FeWait) (det : Bool) (at_ : Ctx → Thread → Except Trap (Nat × Nat))
    (go : Ctx → Thread → Nat → Nat → State → State × List RegW) (c : Ctx) : Out :=
  let todo := c.act.filter (fun h => !h.made)
  let rs : List (Thread × Except Trap (Nat × Nat)) := todo.map (fun h =>
    (h, (at_ c h).bind (fun e => (feDet c w e.1 (e.2 / 16) h.row).map (fun _ => e))))
  match lowest ((if det && !c.act.isEmpty then some Trap.det else none) :: rs.map (fun r =>
      match r.2 with
      | .error e => some e
      | .ok _ => none)) with
  | some e => trapNow c.s e
  | none =>
    feRun w c (rs.filterMap (fun r =>
      match r.2 with
      | .error _ => none
      | .ok (uid, o) =>
        some { row := r.1.row, pos := r.1.pos, uid := uid, g := o / 16,
               go := fun s =>
                 let (s1, ws) := go c r.1 uid o s
                 (s1.feChange w uid (o / 16) (partyNo c.t.uid (1 + r.1.row)), ws) }))

/-- The team and offset of a thread's access of `n` bytes. -/
def localAt (c : Ctx) (f : FForm) (plot : Bool) (field : BitVec 7) (n : Nat) (h : Thread) : Except Trap (Nat × Nat) :=
  c.s.localPlace c.t plot n (tBase f (c.env h) + indexOf f field n (c.env h))

/-- The wider of the encoded scope and team scope, when the access orders at all (R213). -/
def feScope (f : FForm) : Option Nat :=
  if f.m 2 2 ≠ 0 then some (max 1 (f.m 0 2)) else if f.m 4 2 ≠ 0 then some (f.m 0 2) else none

/-- A team or plot load (R208, R212). -/
def localLoad (f : FForm) (plot : Bool) : Ctx → Out :=
  let n := memSize f.ty
  let w : FeWait := match f.m 2 2 with
    | 1 => .full
    | 2 => .consume
    | _ => .none
  localOp w false (fun c h => localAt c f plot f.b n h)
    (fun c h uid o s =>
      let s1 := match feScope f with
        | some sc => c.acquires h sc s
        | none => s
      (s1, loadWrites f.ty f.d.toNat (((s1.team? uid).map (fun t => t.bytes o n)).getD [])))

/-- A team or plot store (R208, R210, R212, R259). -/
def localStore (f : FForm) (plot : Bool) : Ctx → Out :=
  let n := memSize f.ty
  localOp (if f.m 2 2 = 2 then .fill else .none) false
    (fun c h => if dataOk f.ty (c.regB f h) then localAt c f plot f.c n h else .error .fmt)
    (fun c h uid o s =>
      (c.scFence f h ((feScope f).getD 0) (s.setTeam uid (fun t =>
        let t1 := t.writeBytes o (dataBytes f.ty (c.regB f h))
        if f.m 2 2 = 1 then t1.setFull (o / 16) true else t1)), []))

/-- R212. -/
def execLdt (f : FForm) (s : State) : Host.Outcome State Fault Refusal := runRow .ldt (.f f) (localLoad f false) s

/-- R212. -/
def execStt (f : FForm) (s : State) : Host.Outcome State Fault Refusal := runRow .stt (.f f) (localStore f false) s

/-- R205, R212. -/
def execLdp (f : FForm) (s : State) : Host.Outcome State Fault Refusal := runRow .ldp (.f f) (localLoad f true) s

/-- R205, R212. -/
def execStp (f : FForm) (s : State) : Host.Outcome State Fault Refusal := runRow .stp (.f f) (localStore f true) s

/-- R216: the granule that holds each thread's address. -/
def execFe (f : FForm) (s : State) : Host.Outcome State Fault Refusal :=
  let op := f.m 3 3
  let plot := f.mb 2
  let sc := if plot then 2 else 1
  let w : FeWait := match op with
    | 3 => .full
    | 4 => .empty
    | _ => .none
  runRow .fe (.f f) (fun c =>
    localOp w (c.t.hdr.det && op == 2)
      (fun c h => c.s.localPlace c.t plot 1 (tBase f (c.env h) + indexOf f f.b 16 (c.env h)))
      (fun c h uid o s =>
        match op with
        | 0 => (s.setTeam uid (fun t => t.setFull (o / 16) false), [])
        | 1 => (s.setTeam uid (fun t => t.setFull (o / 16) true), [])
        | 2 =>
          if s.isFull uid (o / 16) then (c.acquires h sc s, [wV f.d.toNat 1 .n32]) else (s, [wV f.d.toNat 0 .n32])
        | 3 => (c.acquires h sc s, [])
        | _ => (s, [])) c) s

/-! ### Atomics (R219 to R221) -/

/-- The new value of an atomic operation in T (Table 11.12). -/
def atomNew (op : Nat) (t : Ty) (old b : Nat) : Nat :=
  let (w, sg) := intTy t
  match op with
  | 0 =>
    match t with
    | .f32 => Fmt.f32.round 0 false (fsum false [Fmt.f32.real old, Fmt.f32.real b])
    | .bf16x2 | .f16x2 =>
      packElems t ((List.range 2).map (fun i =>
        (elemFmt t).round 0 false (fsum false [elemReal t (BitVec.ofNat 32 old) i, elemReal t (BitVec.ofNat 32 b) i])))
    | _ => (old + b) % 2 ^ w
  | 1 => if t = .f32 then combineF 1 old b else wrapN w (min (intVal w sg old) (intVal w sg b))
  | 2 => if t = .f32 then combineF 2 old b else wrapN w (max (intVal w sg old) (intVal w sg b))
  | 3 => old &&& b
  | 4 => old ||| b
  | 5 => old ^^^ b
  | _ => b

/-- A compare-and-swap: the compare is bitwise (R219). -/
def casNew (old cmp new : Nat) : Nat := if old = cmp then new else old

/-- DET for an atomic under `.det` (R221). -/
def atomDet (c : Ctx) (f : FForm) (cas : Bool) : Bool :=
  c.t.hdr.det && (f.d.toNat != 120 || cas || f.m 5 3 == 6
    || (f.m 5 3 == 0 && (f.ty == .f32 || f.ty == .bf16x2 || f.ty == .f16x2)))

/-- The acquire half of an atomic (Table 11.11). -/
def atomAcquire (c : Ctx) (f : FForm) (h : Thread) (s : State) : State :=
  if f.m 3 2 = 1 ∨ f.m 3 2 = 3 then c.acquires h (f.m 0 3) s else s

/-- The release half of an atomic (Table 11.11). -/
def atomRelease (f : FForm) : Option Nat := scopeIf (decide (2 ≤ f.m 3 2)) (f.m 0 3)

/-- A global atomic: `g` answers the new value from the old, and the field C is the index unless `solo`. -/
def globalAtomic (f : FForm) (solo : Bool) (checks : Ctx → Thread → Bool) (g : Ctx → Thread → Nat → Nat) (c : Ctx) : Out :=
  let n := memSize f.ty
  globalOp .home .write true (atomDet c f solo) 3
    (fun c h =>
      let a := gBase c.t.rcd.window f (c.env h) + (if solo then 0 else ((c.env h).v f.c.toNat).w.zeroExtend 64)
      c.s.relOk (c.me h) (atomRelease f) (if checks c h then (match aligned n a with
        | .error e => .error e
        | .ok () => .ok [(a, n)])
      else .error .fmt))
    (fun c h _ ks s =>
      let s1 := atomAcquire c f h s
      let k := ks.headD 0
      let old := s1.readN k n
      (s1.writeN k n (g c h old), loadWrites f.ty f.d.toNat (leBytes n old))) c

/-- A team or plot atomic. -/
def localAtomic (f : FForm) (plot solo : Bool) (checks : Ctx → Thread → Bool) (g : Ctx → Thread → Nat → Nat) (c : Ctx) : Out :=
  let n := memSize f.ty
  localOp .none (atomDet c f solo)
    (fun c h =>
      let o := tBase f (c.env h) + (if solo then 0 else ((c.env h).v f.c.toNat).w.zeroExtend 64)
      c.s.relOk (c.me h) (atomRelease f) (if checks c h then c.s.localPlace c.t plot n o else .error .fmt))
    (fun c h uid o s =>
      let s1 := atomAcquire c f h s
      let old := leNat (((s1.team? uid).map (fun t => t.bytes o n)).getD [])
      (s1.setTeam uid (fun t => t.writeBytes o (leBytes n (g c h old))), loadWrites f.ty f.d.toNat (leBytes n old))) c

/-- The operand B of an atomic as bits of T. -/
def opB (f : FForm) (c : Ctx) (h : Thread) : Nat := (c.regB f h).bitsT f.ty

/-- The operand C of an atomic as bits of T. -/
def opC (f : FForm) (c : Ctx) (h : Thread) : Nat := (c.vC f h).bitsT f.ty

/-- R219, R220. -/
def execAtom (f : FForm) (s : State) : Host.Outcome State Fault Refusal :=
  runRow .atom (.f f) (globalAtomic f false (fun c h => dataOk f.ty (c.regB f h))
    (fun c h old => atomNew (f.m 5 3) f.ty old (opB f c h))) s

/-- R219, R220. -/
def execAtomt (f : FForm) (s : State) : Host.Outcome State Fault Refusal :=
  runRow .atomt (.f f) (localAtomic f false false (fun c h => dataOk f.ty (c.regB f h))
    (fun c h old => atomNew (f.m 5 3) f.ty old (opB f c h))) s

/-- R219, R220: under `.cas` the compare value is C and the address comes from A alone. -/
def execAtomp (f : FForm) (s : State) : Host.Outcome State Fault Refusal :=
  let cas := f.m 5 3 == 7
  runRow .atomp (.f f) (localAtomic f true cas
    (fun c h => dataOk f.ty (c.regB f h) && (!cas || dataOk f.ty (c.vC f h)))
    (fun c h old => if cas then casNew old (opC f c h) (opB f c h) else atomNew (f.m 5 3) f.ty old (opB f c h))) s

/-- R219, R220: compare B, new C. -/
def execCas (f : FForm) (s : State) : Host.Outcome State Fault Refusal :=
  runRow .cas (.f f) (globalAtomic f true (fun c h => dataOk f.ty (c.regB f h) && dataOk f.ty (c.vC f h))
    (fun c h old => casNew old (opB f c h) (opC f c h))) s

/-- R219, R220: compare B, new C. -/
def execCast (f : FForm) (s : State) : Host.Outcome State Fault Refusal :=
  runRow .cast (.f f) (localAtomic f false true (fun c h => dataOk f.ty (c.regB f h) && dataOk f.ty (c.vC f h))
    (fun c h old => casNew old (opB f c h) (opC f c h))) s

/-! ### Fences, invalidation, prefetch (R222 to R224, R263) -/

/-- R222: every earlier write of the model's parties stands at its home already, so a fence completes at once; its acquire
half drops the lines of Table 13.4 (log 2). A release whose writes another device cannot acknowledge takes XLAT (R461). -/
def execFence (f : FForm) (s : State) : Host.Outcome State Fault Refusal :=
  let acq := f.m 3 2 != 1
  let sc := f.m 0 3
  let rel := scopeIf (f.m 3 2 != 0) sc
  runRU .fence (.f f)
    (fun c =>
      match lowest (c.act.map (fun h =>
          match c.s.relOk (c.me h) rel (.ok ()) with
          | .error e => some e
          | .ok () => none)) with
      | some e => trapNow c.s e
      | none => .done (if acq then c.act.foldl (fun s h => c.acquires h sc s) c.s else c.s))
    (fun c =>
      match c.s.relOk (.ustream c.t.uid) rel (.ok ()) with
      | .error e => trapNow c.s e
      | .ok () => .done (if acq then c.s.acquire sc c.t.hdr.twin c.t.die c.t.core else c.s)) s

/-- The caches that LVL names for a core (R223). -/
def cinvCaches (lvl die core : Nat) : List Cache :=
  match lvl with
  | 0 => [.l1 die core]
  | 1 => [.l1 die core, .rdc die]
  | 2 => [.fu die (core / 10)]
  | _ => [.l1 die core, .rdc die, .fu die (core / 10)]

/-- The pages of a range, at most `n` of them: each page's address and size within the range. -/
def pagesOf : Nat → DWord → Nat → List (DWord × Nat)
  | 0, _, _ => []
  | n + 1, va, len =>
    let room := 65536 - va.toNat % 65536
    if len ≤ room then [(va, len)] else (va, room) :: pagesOf n (va + BitVec.ofNat 64 room) (len - room)

/-- Drops the lines that overlap a virtual range from some caches. A length of 0, and a range of more than 64 pages, drops
every line of them (log 18). -/
def State.cinv (s : State) (x d : Nat) (cs : List Cache) (va : DWord) (len : Nat) : State :=
  if len = 0 ∨ 64 * 65536 < len then s.drop (fun e => cs.contains e.cache)
  else
    (pagesOf 66 va len).foldl (fun s p =>
      match s.translate x d p.1 .read with
      | .ok k _ => s.drop (fun e => cs.contains e.cache && decide (k / 128 ≤ e.line) && decide (e.line ≤ (k + p.2 - 1) / 128))
      | _ => s) s

/-- R223. It takes no trap but that of an address that is not canonical (R204). -/
def execCinv (f : FForm) (s : State) : Host.Outcome State Fault Refusal :=
  let lvl := f.m 4 2
  runRU .cinv (.f f)
    (fun c =>
      let at_ (h : Thread) : DWord := gBase c.t.rcd.window f (c.env h)
      if c.act.any (fun h => !canonical (at_ h)) then trapNow c.s .xlat
      else
        .done (c.act.foldl (fun s h =>
          s.cinv c.t.pitch c.t.die (cinvCaches lvl c.t.die (c.t.coreOf h.row)) (at_ h) (indexOf f f.b 1 (c.env h)).toNat) c.s))
    (fun c =>
      let a := gBase c.t.rcd.window f c.env
      if !canonical a then trapNow c.s .xlat
      else .done (c.s.cinv c.t.pitch c.t.die (cinvCaches lvl c.t.die c.t.core) a (indexOf f f.b 1 c.env).toNat)) s

/-- Brings the line of an address into the level, as an access of the page's cache policy does; an address that would fault drops its
request (R224). -/
def State.prefetch (s : State) (x d core lvl : Nat) (va : DWord) : State :=
  match s.translate x d va .read with
  | .ok k cached =>
    match lvl with
    | 0 => s.fillFor x d core .l1 va k cached false
    | 1 => s.fillDie x d va k cached false
    | _ => s.fillFor x d core .fu va k cached false
  | _ => s

/-- R224. -/
def execPref (f : FForm) (s : State) : Host.Outcome State Fault Refusal :=
  let lvl := f.m 4 2
  runRU .pref (.f f)
    (fun c => .done (c.act.foldl (fun s h =>
      s.prefetch c.t.pitch c.t.die (c.t.coreOf h.row) lvl (gBase c.t.rcd.window f (c.env h) + indexOf f f.b 128 (c.env h))) c.s))
    (fun c => .done (c.s.prefetch c.t.pitch c.t.die c.t.core lvl (gBase c.t.rcd.window f c.env + indexOf f f.b 128 c.env))) s

/-! ### The fetch unit (R225, R226, R273) -/

/-- The byte address, size and bit position of element `i` of an array of format S (R93, R225). -/
def fetchAt (t : Ty) (dense : Bool) (base : DWord) (i : Nat) : DWord × Nat × Nat :=
  match t with
  | .e2m1 => (base + BitVec.ofNat 64 (i / 2), 1, i % 2 * 4)
  | .e3m2 | .e2m3 => if dense then (base + BitVec.ofNat 64 (i / 4 * 3), 3, i % 4 * 6) else (base + BitVec.ofNat 64 i, 1, 0)
  | .e4m3 | .e5m2 | .s8 | .n8 => (base + BitVec.ofNat 64 i, 1, 0)
  | .s16 | .n16 | .bf16 | .f16 => (base + BitVec.ofNat 64 (2 * i), 2, 0)
  | _ => (base + BitVec.ofNat 64 (4 * i), 4, 0)

/-- The byte address and size of the scale of element `i` (R91, R225). -/
def scaleAt (e8 : Bool) (base : DWord) (i : Nat) : DWord × Nat :=
  if e8 then (base + BitVec.ofNat 64 (i / 32), 1) else (base + BitVec.ofNat 64 (2 * (i / 32)), 2)

/-- A scale as stored: an E8M0 byte, or SC10 in a half (R91). -/
def scaleOf (e8 : Bool) (x : Nat) : FVal := if e8 then sc10Real (4 * (x % 256)) else sc10Real (x % 1024)

/-- What `fetch` reads: the element's piece, and the scale's under MX; ALN when one is misaligned (R225). -/
def fetchPlan (f : FForm) (base : DWord) (i : Nat) (scales : DWord) : Plan :=
  let src := (tyOf (f.m 4 5)).getD .f32
  let (va, n, _) := fetchAt src (f.mb 3) base i
  let (sv, sn) := scaleAt (f.mb 1) scales i
  if (n = 2 ∨ n = 4) ∧ va.toNat % n ≠ 0 then .error .aln
  else if f.mb 2 then
    if sv.toNat % sn ≠ 0 then .error .aln else .ok (pieces va n ++ [(sv, sn)])
  else .ok (pieces va n)

/-- The result of `fetch` from the bytes read, the element's before the scale's (R225). -/
def fetchValue (f : FForm) (i : Nat) (bs : List Byte) : Word :=
  let src := (tyOf (f.m 4 5)).getD .f32
  let (_, n, lo) := fetchAt src (f.mb 3) 0 i
  let x := leNat (bs.take n)
  match fmtOf src with
  | some fm =>
    let v := fm.real (bits x lo fm.size)
    if f.mb 2 then toF32 (v.mul (scaleOf (f.mb 1) (leNat (bs.drop n)))) else toF32 v
  | none => BitVec.ofInt 32 (intVal (intTy src).1 (intTy src).2 x)

/-- R225. -/
def execFetch (f : FForm) (s : State) : Host.Outcome State Fault Refusal :=
  let src := (tyOf (f.m 4 5)).getD .f32
  let out (x : Word) : List RegW := [wV f.d.toNat x (if (fmtOf src).isSome then .f32 else tagOf f.ty)]
  runRU .fetch (.f f)
    (globalOp .fu .read true false 0
      (fun c h => fetchPlan f (c.t.sreg h.row f.a.toNat) (c.regB f h).w.toNat (c.t.sreg h.row f.c.toNat))
      (fun c h ps ks s =>
        (s, out (fetchValue f (c.regB f h).w.toNat (s.gather ps ks)))))
    (fun c =>
      let i := (c.u.sreg f.b.toNat).toNat % 2 ^ 32
      match fetchPlan f (c.u.sreg f.a.toNat) i (c.u.sreg f.c.toNat) with
      | .error e => trapNow c.s e
      | .ok ps =>
        match c.s.reach c.t.pitch c.t.die .read true ps with
        | .trap e => .trap c.s { code := e.code, va := (ps.head?.map (·.1)).getD 0 }
        | .recoverable va pg => let q := c.s.hold c.t (.ustream c.t.uid) 0 va pg; .wait q.2 (.fault q.1)
        | .busy fr => .wait c.s (.scrub fr)
        | .ok ks cached =>
          let s1 := c.s.fillPieces c.t.pitch c.t.die c.t.core .fu ps ks cached false
          .done (s1.setTeam c.t.uid (fun t =>
            { t with u := t.u.commit c.md [wS f.d.toNat ((fetchValue f i (c.s.gather ps ks)).zeroExtend 64)] }))) s

end Sys2Proof.Machine
end

