-- ==== Sys2Proof/Machine/Sync.lean ====
section
/-! DEFINITION. The rendezvous and queue instructions, codes 0xC0 to 0xC7 (R68 to R79, R230 to R232). -/

namespace Sys2Proof.Machine

open Sys2Proof

/-! ### Rendezvous points (R68 to R73) -/

/-- A rendezvous point of a team. -/
def Team.point (t : Team) (p : Nat) : Rdv := FMap.get (fun _ => ({} : Rdv)) t.rdv p

/-- Sets a rendezvous point. -/
def Team.setPoint (t : Team) (p : Nat) (r : Rdv) : Team := { t with rdv := FMap.set (fun _ => ({} : Rdv)) t.rdv p r }

/-- One arrival: the phase in which it counts, and the point after it (R70). -/
def Rdv.arrive (r : Rdv) : BitVec 16 × Rdv :=
  (r.phase, if r.e ≤ r.a + 1 then { r with a := 0, phase := r.phase + 1 } else { r with a := r.a + 1 })

/-- The misuse of Table 3.5 by an arrival, wait or test. -/
def Team.pointBad (t : Team) (p : Nat) : Bool := decide (23 < p) || !(t.point p).init

/-- Sets the expected count of a point; RDV on a misuse of Table 3.5 (R69). -/
def rdvInit (s : State) (t : Team) (p n : Nat) : Out :=
  let r := t.point p
  if 23 < p ∨ n = 0 ∨ 4095 < n ∨ 0 < r.a then trapNow s .rdv
  else .done (s.setTeam t.uid (fun t => t.setPoint p { r with init := true, e := n, a := 0 }))

/-- R69: the count of the lowest-positioned member. -/
def execRdvinit (f : FForm) (s : State) : Host.Outcome State Fault Refusal :=
  let p := f.m 0 5
  runRU .rdvinit (.f f)
    (fun c =>
      match c.act with
      | [] => .done c.s
      | h :: _ => rdvInit c.s c.t p (h.src c.cur.idx f.b.toNat).w.toNat)
    (fun c => rdvInit c.s c.t p (c.u.sreg f.b.toNat).toNat) s

/-- R70: arrivals are counted one at a time in ascending row position. -/
def execRdvarr (f : FForm) (s : State) : Host.Outcome State Fault Refusal :=
  let p := f.m 0 5
  runRU .rdvarr (.f f)
    (fun c =>
      if c.act.isEmpty then .done c.s
      else if c.t.pointBad p then trapNow c.s .rdv
      else if c.t.hdr.det ∧ f.d.toNat ≠ 120 then trapNow c.s .det
      else
        .done (c.s.setTeam c.t.uid (fun t => c.act.foldl (fun t h =>
          let (ph, r) := (t.point p).arrive
          (t.setPoint p r).commit c.md h.row h.pos [wV f.d.toNat (ph.zeroExtend 32) .n32]) t)))
    (fun c =>
      if c.t.pointBad p then trapNow c.s .rdv
      else if c.t.hdr.det ∧ f.d.toNat ≠ 64 then trapNow c.s .det
      else
        .done (c.s.setTeam c.t.uid (fun t =>
          let (ph, r) := (t.point p).arrive
          { t.setPoint p r with u := t.u.commit c.md [wS f.d.toNat (ph.zeroExtend 64)] }))) s

/-- The phase numbers that the threads of an instruction compare (R71). -/
def phasesOf (c : Ctx) (f : FForm) : List (BitVec 16) := c.act.map (fun h => (h.src c.cur.idx f.b.toNat).w.truncate 16)

/-- R71: waits until the phase differs from every thread's value, and acquires at team scope (R72). Where threads of one fragment hold
different values, all of them must differ from the phase at one moment: no thread's wait ends on its own (DESIGN CHOICE, log 65). -/
def execRdvwait (f : FForm) (s : State) : Host.Outcome State Fault Refusal :=
  let p := f.m 0 5
  runRU .rdvwait (.f f)
    (fun c =>
      if c.act.isEmpty then .done c.s
      else if c.t.pointBad p then trapNow c.s .rdv
      else if (phasesOf c f).contains (c.t.point p).phase then .wait c.s (.phase p (phasesOf c f))
      else .done (c.act.foldl (fun s h => c.acquires h 1 s) c.s))
    (fun c =>
      let h : BitVec 16 := (c.u.sreg f.b.toNat).truncate 16
      if c.t.pointBad p then trapNow c.s .rdv
      else if (c.t.point p).phase = h then .wait c.s (.phase p [h])
      else .done (c.s.acquire 1 c.t.hdr.twin c.t.die c.t.core)) s

/-- R71, R79. -/
def execRdvtest (f : FForm) (s : State) : Host.Outcome State Fault Refusal :=
  let p := f.m 0 5
  runRU .rdvtest (.f f)
    (fun c =>
      if c.act.isEmpty then .done c.s
      else if c.t.pointBad p then trapNow c.s .rdv
      else if c.t.hdr.det then trapNow c.s .det
      else
        let differs (h : Thread) : Bool := (c.t.point p).phase != (h.src c.cur.idx f.b.toNat).w.truncate 16
        let s1 := c.act.foldl (fun s h => if differs h then c.acquires h 1 s else s) c.s
        .done (s1.setTeam c.t.uid (fun t => c.act.foldl (fun t h =>
          t.commit c.md h.row h.pos [wP f.d.toNat (differs h)]) t)))
    (fun c =>
      if c.t.pointBad p then trapNow c.s .rdv
      else if c.t.hdr.det then trapNow c.s .det
      else
        let differs := (c.t.point p).phase != (c.u.sreg f.b.toNat).truncate 16
        let s1 := if differs then c.s.acquire 1 c.t.hdr.twin c.t.die c.t.core else c.s
        .done (s1.setTeam c.t.uid (fun t => { t with u := t.u.commit c.md [wP f.d.toNat differs] }))) s

/-! ### Queues (R74 to R79) -/

/-- The queues that a party may push to: q0 to q7 as 0 to 7, mq0 to mq3 as 8 to 11 (Table 3.6). The party is a role, 3 for
the U-stream. -/
def mayPush : Nat → List Nat
  | 0 => [4, 5]
  | 1 => [4, 5, 6, 7]
  | 2 => [6, 7]
  | _ => [0, 1, 2, 3, 8, 9, 10, 11]

/-- The queues that a party may pop from. -/
def mayPop : Nat → List Nat
  | 0 => [0, 1]
  | 1 => [0, 1, 2, 3]
  | 2 => [2, 3]
  | _ => [4, 5, 6, 7]

/-- The entries of q0 to q7. -/
def Team.queue (t : Team) (q : Nat) : List VReg := FMap.get (fun _ => []) t.q q

/-- Sets the entries of a queue. -/
def Team.setQueue (t : Team) (q : Nat) (es : List VReg) : Team := { t with q := FMap.set (fun _ => []) t.q q es }

/-- The entries of mq0 to mq3. -/
def Team.mqueue (t : Team) (q : Nat) : List DWord := FMap.get (fun _ => []) t.mq q

/-- Sets the entries of mq0 to mq3. -/
def Team.setMqueue (t : Team) (q : Nat) (es : List DWord) : Team := { t with mq := FMap.set (fun _ => []) t.mq q es }

/-- How many entries a queue holds, mq0 to mq3 as 8 to 11. -/
def Team.qCount (t : Team) (q : Nat) : Nat := if q < 8 then (t.queue q).length else (t.mqueue (q - 8)).length

/-- How many a queue can hold (R74). -/
def qDepth (q : Nat) : Nat := if q < 8 then 64 else 32

/-- Has a queue a permitted pushing party that has neither exited nor retired (R78)? -/
def Team.pushersAlive (t : Team) (q : Nat) : Bool :=
  ((mayPush 3).contains q && t.u.alive) || t.threads.any (fun h => h.live && (mayPush (t.hdr.role h.row)).contains q)

/-- The queue that a form names. -/
def qOf (f : FForm) : Nat := f.m 0 3 + (if f.mb 3 then 8 else 0)

/-- The role of the threads of an instruction. -/
def Ctx.role (c : Ctx) : Nat := c.t.hdr.role ((c.act.map (·.row)).headD 0)

/-- The traps of a push or pop: QUE outside Table 3.6, then DET under `.det` when another party has used the queue so, or
the fragment does not hold its rows (R78, R79, R231). `log` is the queue's party so far, 0 for none. -/
def qCheck (det : Bool) (allowed : Bool) (holds : Bool) (log : Nat) (parties : List Nat) : Option Trap :=
  if !allowed then some .que
  else if det && (!holds || parties.any (fun p => decide (1 < parties.length) || (log != 0 && log != p))) then some .det
  else none

/-- The parties of a row-code instruction in the log of a queue. -/
def Ctx.parties (c : Ctx) : List Nat := (rowsOf c.act).map (fun r => partyNo c.t.uid (1 + r))

/-- Does the fragment hold every live thread of the rows that act? -/
def Ctx.holds (c : Ctx) : Bool := c.t.holdsRows c.fid

/-- The party log of pushes, and of pops. -/
def Team.notePush (t : Team) (q p : Nat) : Team := { t with pushed := FMap.set (fun _ => 0) t.pushed q p }

/-- Notes a pop. -/
def Team.notePop (t : Team) (q p : Nat) : Team := { t with popped := FMap.set (fun _ => 0) t.popped q p }

/-- R76, R231. -/
def execQpush (f : FForm) (s : State) : Host.Outcome State Fault Refusal :=
  let q := qOf f
  runRU .qpush (.f f)
    (fun c =>
      if c.act.isEmpty then .done c.s
      else
        match qCheck c.t.hdr.det ((mayPush c.role).contains q) c.holds (FMap.get (fun _ => 0) c.t.pushed q) c.parties with
        | some e => trapNow c.s e
        | none =>
          if 64 < c.t.qCount q + c.act.length then .wait c.s (.queueRoom q c.act.length)
          else
            .done (c.s.setTeam c.t.uid (fun t =>
              (t.setQueue q (t.queue q ++ c.act.map (fun h => (h.src c.cur.idx f.a.toNat).lo))).notePush q (c.parties.headD 0))))
    (fun c =>
      let me := partyNo c.t.uid 100
      match qCheck c.t.hdr.det ((mayPush 3).contains q) true (FMap.get (fun _ => 0) c.t.pushed q) [me] with
      | some e => trapNow c.s e
      | none =>
        if qDepth q ≤ c.t.qCount q then .wait c.s (.queueRoom q 1)
        else
          let v := c.u.sreg f.a.toNat
          .done (c.s.setTeam c.t.uid (fun t =>
            (if q < 8 then t.setQueue q (t.queue q ++ [⟨v.truncate 32, .b32⟩])
             else t.setMqueue (q - 8) (t.mqueue (q - 8) ++ [v])).notePush q me))) s

/-- Row code takes entries in ascending row position, and acquires at team scope (R77, R232). -/
def popRow (c : Ctx) (f : FForm) (q : Nat) (more : List RegW) : State :=
  let es := c.t.queue q
  let s1 := c.act.foldl (fun s h => c.acquires h 1 s) c.s
  s1.setTeam c.t.uid (fun t =>
    let t1 := (t.setQueue q (es.drop c.act.length)).notePop q (c.parties.headD 0)
    (c.act.zip es).foldl (fun t e =>
      t.commit c.md e.1.row e.1.pos (wV f.d.toNat e.2.val e.2.tag :: more)) t1)

/-- The U-stream takes one entry, zero-extended. -/
def popU (c : UCtx) (f : FForm) (q : Nat) (more : List RegW) : State :=
  let es := c.t.queue q
  (c.s.acquire 1 c.t.hdr.twin c.t.die c.t.core).setTeam c.t.uid (fun t =>
    let t1 := (t.setQueue q (es.drop 1)).notePop q (partyNo c.t.uid 100)
    { t1 with u := t1.u.commit c.md (wS f.d.toNat ((es.headD {}).val.zeroExtend 64) :: more) })

/-- R77: a pop that no permitted party can serve any more takes QUE (R78). -/
def execQpop (f : FForm) (s : State) : Host.Outcome State Fault Refusal :=
  let q := qOf f
  runRU .qpop (.f f)
    (fun c =>
      if c.act.isEmpty then .done c.s
      else
        match qCheck c.t.hdr.det ((mayPop c.role).contains q) c.holds (FMap.get (fun _ => 0) c.t.popped q) c.parties with
        | some e => trapNow c.s e
        | none =>
          if c.act.length ≤ c.t.qCount q then .done (popRow c f q [])
          else if c.t.pushersAlive q then .wait c.s (.queueEntries q c.act.length)
          else trapNow c.s .que)
    (fun c =>
      match qCheck c.t.hdr.det ((mayPop 3).contains q) true (FMap.get (fun _ => 0) c.t.popped q) [partyNo c.t.uid 100] with
      | some e => trapNow c.s e
      | none =>
        if 1 ≤ c.t.qCount q then .done (popU c f q [])
        else if c.t.pushersAlive q then .wait c.s (.queueEntries q 1)
        else trapNow c.s .que) s

/-- R77, R79. -/
def execQtry (f : FForm) (s : State) : Host.Outcome State Fault Refusal :=
  let q := qOf f
  runRU .qtry (.f f)
    (fun c =>
      if c.act.isEmpty then .done c.s
      else if (mayPop c.role).contains q = false then trapNow c.s .que
      else if c.t.hdr.det then trapNow c.s .det
      else if c.act.length ≤ c.t.qCount q then .done (popRow c f q [wP f.c.toNat true])
      else
        .done (c.s.setTeam c.t.uid (fun t => c.act.foldl (fun t h =>
          t.commit c.md h.row h.pos [wP f.c.toNat false]) t)))
    (fun c =>
      if (mayPop 3).contains q = false then trapNow c.s .que
      else if c.t.hdr.det then trapNow c.s .det
      else if 1 ≤ c.t.qCount q then .done (popU c f q [wP f.c.toNat true])
      else .done (c.s.setTeam c.t.uid (fun t => { t with u := t.u.commit c.md [wP f.c.toNat false] }))) s

/-- R231. -/
def execQcnt (f : FForm) (s : State) : Host.Outcome State Fault Refusal :=
  let q := qOf f
  runRU .qcnt (.f f)
    (lanes (fun c _ =>
      if 8 ≤ q then .error .que
      else if c.t.hdr.det then .error .det
      else .ok [wV f.d.toNat (BitVec.ofNat 32 (c.t.qCount q)) .n32]))
    (uWrites (fun c =>
      if 8 ≤ q then .error .que
      else if c.t.hdr.det then .error .det
      else .ok [wS f.d.toNat (BitVec.ofNat 64 (c.t.qCount q))])) s

end Sys2Proof.Machine
end

