-- ==== Sys2Proof/Machine/Engine.lean ====
section
/-! DEFINITION. What Barrow commands and Gleaner passes share: chit writes (R241, R476), pauses on recoverable faults and
their service (R425, R428), and accesses of an engine through translation. -/

namespace Sys2Proof.Machine

open Sys2Proof

/-! ### Chits -/

/-- The 16 bytes of a chit (Table 11.22). -/
def chitBytes (done status side count : Nat) : List Byte :=
  leBytes 8 done ++ leBytes 4 status ++ leBytes 4 (side * 2 ^ 31 + count % 2 ^ 31)

/-- How chit writes ended. -/
inductive ChitEnd where
  | clear
  /-- A write was not made, nor will a later one be (R476). -/
  | lost
  /-- The writes that wait, with the fault record, 0 for a frame being cleared. -/
  | held (fseq : Nat) (ws : List (Nat × Nat × Nat))
  deriving DecidableEq, Repr

/-- The KIND 17 record of a chit write that is not made (R476, Table 25.6). -/
def State.chitLost (s : State) (pitch die : Nat) (addr : DWord) : State :=
  s.report pitch die { kind := 17, code := Trap.xlat.code, rflags := 8, pitch := pitch, va := addr.toNat }

/-- Makes chit writes in order, each a DONE, a status and a SIDE, through translation at the moment (R241, R476). `r` gives
the fault record's fields. -/
def State.chitWrites (s : State) (pitch die : Nat) (v : Victim) (r : Rec) (c : ChitSt) :
    List (Nat × Nat × Nat) → State × ChitSt × ChitEnd
  | [] => (s, c, .clear)
  | w :: ws =>
    if c.addr = 0 ∨ c.dead then (s, c, .clear)
    else
      match s.translate pitch die c.addr .write with
      | .ok k _ =>
        let c1 := { c with count := (c.count + 1) % 2 ^ 31 }
        State.chitWrites (s.put pitch k (chitBytes w.1 w.2.1 w.2.2 c1.count)) pitch die v r c1 ws
      | .recoverable p =>
        let q := s.raise pitch die v p { r with rflags := 9, va := c.addr.toNat }
        (q.2, c, .held q.1 (w :: ws))
      | .busy _ => (s, c, .held 0 (w :: ws))
      | .trap _ => (s.chitLost pitch die c.addr, { c with dead := true }, .lost)

/-! ### Engine operations -/

/-- The fault record of an engine operation (Table 23.5). -/
def Engine.faultRec (e : Engine) : Rec :=
  { kind := 1, rflags := 8, core := e.core, launch := e.launch, team := e.team, pc := e.chit.addr.toNat }

/-- A status that ends an operation. -/
def finalStatus (n : Nat) : Bool := n == 1 || n == 3 || n == 4

/-- An operation makes chit writes and goes on: it has ended when the last is final or a write is lost, it is paused when
`fault` is not 0, and otherwise it runs. -/
def State.engineChit (s : State) (e : Engine) (ws : List (Nat × Nat × Nat)) (fault : Nat) : State × Option Engine :=
  match s.chitWrites e.pitch e.die (.chit e.id) e.faultRec e.chit ws with
  | (s1, c, .clear) =>
    if ws.any (fun w => finalStatus w.2.1) then (s1, none)
    else (s1, some { e with chit := c, st := if fault = 0 then .running else .paused fault })
  | (s1, _, .lost) => (s1, none)
  | (s1, c, .held q ws') => (s1, some { e with chit := c, st := .chitWait q ws' fault })

/-- The operation meets a recoverable fault: its record, and the chit with STATUS 2 (R241, R425). `fl` are RFLAGS bits, `side`
is 1 at the destination. -/
def State.enginePause (s : State) (e : Engine) (done side fl : Nat) (va : DWord) (page : Bool) : State × Option Engine :=
  let q := s.raise e.pitch e.die (.engine e.id) page { e.faultRec with rflags := 8 + fl + 128 * side, va := va.toNat }
  q.2.engineChit e [(done, 2, side)] q.1

/-- Does the operation wait for leave from the Weighbridge (R408)? -/
def State.noLeave (s : State) (id : Nat) : Bool := s.grants.any (fun g => g.op == id)

/-- Asks the Weighbridge of a bed for leave, charged to a die (R408). -/
def State.askLeave (s : State) (die pitch grains op uid : Nat) : Nat × State :=
  (s.nextId, { s with grants := s.grants ++ [{ id := s.nextId, die := die, pitch := pitch, grains := grains, op := op, uid := uid }],
                      nextId := s.nextId + 1 })

/-- Is there something for an operation to do? -/
def Engine.ready (s : State) (e : Engine) : Bool :=
  match e.st with
  | .running => !s.noLeave e.id
  | .paused q => s.signalOf q != 0
  | .chitWait q _ _ => q == 0 || s.signalOf q != 0

/-- The service of a held operation (R428, R476): none when it is not held, or not yet serviced. -/
def State.engineServe (s : State) (e : Engine) (done : Nat) : Option (State × Option Engine) :=
  match e.st with
  | .paused q =>
    match s.signalOf q with
    | 0 => some (s, some e)
    | 1 => some ((s.served q).engineChit e [(done, 0, 0)] 0)
    | _ => some ((s.served q).engineChit e [(done, 4, 0)] 0)
  | .chitWait q ws fault =>
    if q = 0 then some (s.engineChit e ws fault)
    else
      match s.signalOf q with
      | 0 => some (s, some e)
      | 1 => some ((s.served q).engineChit e ws fault)
      | _ => some ((s.served q).chitLost e.pitch e.die e.chit.addr, none)
  | _ => none

/-- The end of an operation by a forced reset or system software: STATUS 3 with its DONE (R241, R287). -/
def State.engineCancel (s : State) (e : Engine) (done : Nat) : State × Option Engine :=
  match e.st with
  | .chitWait q ws _ => (s, some { e with st := .chitWait q (ws ++ [(done, 3, 0)]) 0 })
  | _ => s.engineChit e [(done, 3, 0)] 0

/-! ### Accesses of an engine -/

/-- What stops an engine's access. -/
inductive Stop where
  | err
  | fault (va : DWord) (page : Bool)
  | busy
  deriving DecidableEq, Repr

/-- The memory of a team space that an offset names: 1 team, 2 plot. -/
def State.spacePlace (s : State) (t : Team) (sp : Nat) (o : DWord) : Except Trap (Nat × Nat) :=
  if sp = 2 then s.plotPlace t o else t.teamPlace o

/-- The bytes of a team space from an offset on, as many of `n` as lie within the allocation. -/
def State.spaceBytes (s : State) (t : Team) (sp : Nat) (o : DWord) : Nat → List Byte
  | 0 => []
  | n + 1 =>
    match s.spacePlace t sp o with
    | .error _ => []
    | .ok (uid, x) =>
      (match s.team? uid with
       | some q => q.byte x
       | none => 0) :: State.spaceBytes s t sp (o + 1) n

/-- Reads up to `n` bytes of a space: those before the first that cannot be read, and what stops the rest. -/
def State.engineRead (s : State) (t : Team) (sp : Nat) (a : DWord) (n : Nat) : List Byte × Option Stop :=
  if sp = 0 then
    let one (va : DWord) (m : Nat) : List Byte × Option Stop :=
      match s.translate t.pitch t.die va .read with
      | .ok k _ => if s.poisoned k m then ([], some .err) else (s.bytes k m, none)
      | .trap _ => ([], some .err)
      | .recoverable p => ([], some (.fault va p))
      | .busy _ => ([], some .busy)
    match pieces a n with
    | [p, q] =>
      let r := one p.1 p.2
      if r.2.isSome then r else (r.1 ++ (one q.1 q.2).1, (one q.1 q.2).2)
    | _ => one a n
  else
    let bs := s.spaceBytes t sp a n
    (bs, if bs.length = n then none else some .err)

/-- The key under which a team's memory counts beside the keys of State's memory. -/
def teamKey (uid o : Nat) : Nat := 2 ^ 62 + uid * 2 ^ 20 + o

/-- The key of the word at an address of a space; none where it does not answer. -/
def State.engineKey (s : State) (t : Team) (sp : Nat) (a : DWord) (acc : Access) : Option Nat :=
  if sp = 0 then
    match s.translate t.pitch t.die a acc with
    | .ok k _ => some k
    | _ => none
  else
    match s.spacePlace t sp a with
    | .ok (uid, x) => some (teamKey uid x)
    | .error _ => none

/-- What a write of an engine does. -/
inductive Wrote where
  | ok (s : State)
  | stop (e : Stop)
  /-- Under WE the granule is still full. -/
  | full (uid g : Nat)

/-- Writes bytes that cross neither a page nor, in a team space, a granule (R238): `head` is set at the first byte written of
the granule, which waits for it to be empty under WE, `last` at its last, which sets it full unless KF. -/
def State.engineWrite (s : State) (t : Team) (sp : Nat) (we kf head last : Bool) (a : DWord) (bs : List Byte) : Wrote :=
  if sp = 0 then
    match s.translate t.pitch t.die a .write with
    | .ok k _ => .ok (s.put t.pitch k bs)
    | .trap _ => .stop .err
    | .recoverable p => .stop (.fault a p)
    | .busy _ => .stop .busy
  else
    match s.spacePlace t sp a with
    | .error _ => .stop .err
    | .ok (uid, x) =>
      if we && head && s.isFull uid (x / 16) then .full uid (x / 16)
      else
        .ok (s.setTeam uid (fun q =>
          let q1 := q.writeBytes x bs
          if kf || !last then q1 else q1.setFull (x / 16) true))

end Sys2Proof.Machine
end

