-- ==== Sys2Proof/Machine/Barrow.lean ====
section
/-! DEFINITION. The Barrow instructions, codes 0xC8 to 0xCF, and the steps of the Barrow engine (R233 to R245). -/

namespace Sys2Proof.Machine

open Sys2Proof

/-! ### Descriptors (Tables 11.19 to 11.21) -/

/-- The fields of FLAGS. -/
def Barrow.ssp (b : Barrow) : Nat := bits b.flags.toNat 0 2
/-- The destination space. -/
def Barrow.dsp (b : Barrow) : Nat := bits b.flags.toNat 2 2
/-- KF. -/
def Barrow.kf (b : Barrow) : Bool := bitOf b.flags.toNat 8
/-- WE. -/
def Barrow.we (b : Barrow) : Bool := bitOf b.flags.toNat 9
/-- ET; none for an illegal code. -/
def Barrow.et (b : Barrow) : Option Ty := tyOf (bits b.flags.toNat 10 5)
/-- TR. -/
def Barrow.tr (b : Barrow) : Bool := bitOf b.flags.toNat 15
/-- DN. -/
def Barrow.dn (b : Barrow) : Bool := bitOf b.flags.toNat 16
/-- ROP. -/
def Barrow.rop (b : Barrow) : Nat := bits b.flags.toNat 17 3
/-- SQ. -/
def Barrow.sq (b : Barrow) : Bool := bitOf b.flags.toNat 20

/-- The element bits of a `btile` format (R234), and the bits an element takes in memory (R93, Table 5.14). -/
def tileBits (t : Ty) (dense : Bool) : Option (Nat × Nat) :=
  match t with
  | .f32 => some (32, 32)
  | .bf16 | .f16 => some (16, 16)
  | .e4m3 | .e5m2 => some (8, 8)
  | .e3m2 | .e2m3 => some (6, if dense then 6 else 8)
  | .e2m1 => some (4, 4)
  | _ => none

/-- The element types and operations of `bred` (R235, Table 11.12). -/
def bredOk (t : Ty) (rop : Nat) : Bool :=
  match t with
  | .s32 | .s64 | .f32 => decide (rop ≤ 2)
  | .n32 | .n64 => decide (rop ≤ 5)
  | .bf16x2 | .f16x2 => rop == 0
  | _ => false

/-- Do two ranges of one space overlap? -/
def overlap (a n b m : Nat) : Bool := decide (0 < n) && decide (0 < m) && decide (a < b + m) && decide (b < a + n)

/-- The checks of R236 at issue; true ends the command with status 4. WE and KF with DSP 0 are not among them and are not used there: whether
Table 11.21 gives them no use, so that they make it bad, is open (DESIGN CHOICE, log 80). -/
def Barrow.bad (b : Barrow) : Bool :=
  let f := b.flags.toNat
  let src := b.src.toNat
  let dst := b.dst.toNat
  let same := b.ssp == b.dsp
  let common := bits f 4 4 != 0 || bits f 21 11 != 0 || b.ssp == 3 || b.dsp == 3 || decide (2 ^ 40 < b.len)
  let noEt := bits f 10 5 != 0 || b.dn || b.rop != 0 || b.sq || b.seq != 0
  let noP := b.p0 != 0 || b.p1 != 0
  let word := src % 4 != 0 || dst % 4 != 0
  common ||
  match b.op with
  | .bcp => noEt || noP || b.p2 != 0 || b.tr || word || b.len % 4 != 0 || (same && overlap src b.len dst b.len)
  | .bfill => noEt || noP || b.tr || b.src != 0 || b.ssp != 0 || word || b.len % 4 != 0
  | .bgat | .bsct =>
    noEt || b.tr || b.p2 != 0 || word || b.p1.toNat % 4 != 0 || decide (b.p1.toNat < 4) || decide (256 < b.p1.toNat)
    || b.p0.toNat % 4 != 0
  | .bred =>
    match b.et with
    | none => true
    | some t =>
      let n := memSize t
      !bredOk t b.rop || b.tr || b.dn || noP || b.dsp != 0 || (!b.sq && (b.seq != 0 || b.p2 != 0)) || b.p2.toNat % 8 != 0
      || src % n != 0 || dst % n != 0 || (same && overlap src (b.len * n) dst (b.len * n))
  | .btile =>
    match b.et.bind (fun t => tileBits t b.dn) with
    | none => true
    | some (w, mw) =>
      let r := bits b.p1.toNat 0 16
      let c := bits b.p1.toNat 16 16
      let n := max 1 (w / 8)
      b.rop != 0 || b.sq || b.seq != 0 || b.len != 0 || (b.dn && w != 6) || b.dsp == 0 || r == 0 || decide (128 < r)
      || c == 0 || decide (128 < c) || bits b.p1.toNat 32 32 != 0 || decide (2 ^ w ≤ b.p2.toNat)
      || src % n != 0 || dst % (2048 * mw) != 0
      || (same && overlap src ((r - 1) * b.p0.toNat + (c * mw + 7) / 8) dst (2048 * mw))

/-- The size of an element of the commands that count elements. -/
def Barrow.elem (b : Barrow) : Nat :=
  match b.op with
  | .bgat | .bsct => b.p1.toNat
  | .bred => memSize (b.et.getD .b32)
  | _ => 1

/-- The bytes that the command's order counts (R242). -/
def Barrow.total (b : Barrow) : Nat :=
  match b.op with
  | .bcp | .bfill => b.len
  | .bgat | .bsct | .bred => b.len * b.elem
  | .btile => 2048 * (((b.et.bind (fun t => tileBits t b.dn)).map (·.2)).getD 0)

/-- DONE as the chit gives it: whole elements for the commands that count elements (R242). Where an element lies across two pages and the
second faults, the faulting address is still that of its byte there (DESIGN CHOICE, log 80). -/
def Barrow.shown (b : Barrow) : Nat := b.eng.done / b.elem * b.elem

/-! ### Issue (R233, R236, R240, R244) -/

/-- The command of a descriptor. -/
def Barrow.parse (e : Engine) (op : BarrowOp) (bs : List Byte) : Barrow :=
  { eng := { e with chit := { addr := BitVec.ofNat 64 (field bs 16 8) } }, op := op,
    src := BitVec.ofNat 64 (field bs 0 8), dst := BitVec.ofNat 64 (field bs 8 8), len := field bs 24 8,
    p0 := BitVec.ofNat 64 (field bs 32 8), p1 := BitVec.ofNat 64 (field bs 40 8), flags := BitVec.ofNat 32 (field bs 48 4),
    seq := BitVec.ofNat 32 (field bs 52 4), p2 := BitVec.ofNat 64 (field bs 56 8) }

/-- An engine operation's issue: a descriptor at a team offset, with its alignment, and the chit's checks (R233, R236). The
answer is the descriptor's bytes, or a frame to wait for. -/
def engineDesc (s : State) (t : Team) (n align chitAt : Nat) (o : DWord) : Except Trap (List Byte × Option Nat) :=
  if o.toNat % align ≠ 0 then .error .aln
  else if t.hdr.tmem < o.toNat + n then .error .prot
  else
    let bs := t.bytes o.toNat n
    let ch : DWord := BitVec.ofNat 64 (field bs chitAt 8)
    if ch = 0 then .ok (bs, none)
    else if ch.toNat % 16 ≠ 0 then .error .aln
    else
      match s.translate t.pitch t.die ch .write with
      | .trap e => .error e
      | .busy f => .ok (bs, some f)
      | _ => .ok (bs, none)

/-- The command begins: it ends at once, or its chit takes STATUS 0 (Table 11.23), and a command of more than 65,536 bytes
asks for leave (Table 21.7). A command that ends at once, by R236 or with LEN 0, was never accepted: its one chit write, the first,
is the final one (DESIGN CHOICE, log 60). -/
def State.barrowBegin (s : State) (b : Barrow) : State :=
  let ws := if b.bad then [(0, 4, 0)] else if b.len = 0 ∧ b.op ≠ .btile then [(0, 1, 0)] else [(0, 0, 0)]
  match s.engineChit b.eng ws 0 with
  | (s1, some e) =>
    let s2 : State := { s1 with barrows := s1.barrows ++ [{ b with eng := e }] }
    if 65536 < b.total ∧ b.bad = false then (s2.askLeave e.die e.pitch (ceilDiv b.total 32768) e.id e.uid).2 else s2
  | (s1, none) => s1

/-- The DET of R240 for a command. -/
def barrowDet (op : BarrowOp) (bs : List Byte) : Bool :=
  let f := field bs 48 4
  op == .bred && !bitOf f 20 &&
  match tyOf (bits f 10 5) with
  | some .f32 | some .bf16x2 | some .f16x2 => true
  | _ => false

/-- One issuer's command: its wait counter rises, and it begins. Which of the die's four Barrows serves it affects no result (R233,
log 62). -/
def State.barrowStart (op : BarrowOp) (wc : Nat) (t : Team) (ks : List (Nat × Nat)) (core : Nat) (bs : List Byte) (s : State) : State :=
  let (id, s1) := s.fresh
  let e : Engine := { id := id, uid := t.uid, pitch := t.pitch, die := t.die, core := core, launch := t.launch,
                      team := t.team, chit := { addr := 0 }, unit := id % 4 }
  (if ks.isEmpty then s1.countU t.uid wc id else s1.count t.uid ks wc id).barrowBegin (Barrow.parse e op bs)

/-- One command for each issuer, an issuer given by its threads (none for the U-stream), its core and its offset. -/
def barrowIssue (op : BarrowOp) (wc : Nat) (s : State) (t : Team) (who : List (List (Nat × Nat) × Nat × DWord)) : Out :=
  let rs := who.map (fun w => (w, (engineDesc s t 64 64 16 w.2.2).bind (fun d =>
    if t.hdr.det && barrowDet op d.1 then .error .det else .ok d)))
  match lowest (rs.map (fun r =>
      match r.2 with
      | .error e => some e
      | .ok _ => none)) with
  | some e => trapNow s e
  | none =>
    match rs.findSome? (fun r =>
        match r.2 with
        | .ok (_, b) => b
        | .error _ => none) with
    | some f => .wait s (.scrub f)
    | none =>
      .done (rs.foldl (fun s r =>
        match r.2 with
        | .error _ => s
        | .ok (bs, _) => s.barrowStart op wc t r.1.1 r.1.2.1 bs) s)

/-- A Barrow command of row code or of the U-stream. -/
def barrowCmd (o : Opc) (op : BarrowOp) (f : FForm) (s : State) : Host.Outcome State Fault Refusal :=
  runRU o (.f f)
    (fun c => barrowIssue op f.wc.toNat c.s c.t (c.act.map (fun h => ([(h.row, h.pos)], c.t.coreOf h.row, tBase f (c.env h)))))
    (fun c => barrowIssue op f.wc.toNat c.s c.t [([], c.t.core, tBase f c.env)]) s

/-- R233, Table 11.21. -/
def execBcp (f : FForm) (s : State) : Host.Outcome State Fault Refusal := barrowCmd .bcp .bcp f s
/-- R233, R234. -/
def execBtile (f : FForm) (s : State) : Host.Outcome State Fault Refusal := barrowCmd .btile .btile f s
/-- R233, R236. -/
def execBgat (f : FForm) (s : State) : Host.Outcome State Fault Refusal := barrowCmd .bgat .bgat f s
/-- R233, R236. -/
def execBsct (f : FForm) (s : State) : Host.Outcome State Fault Refusal := barrowCmd .bsct .bsct f s
/-- R233, R235, R239, R240. -/
def execBred (f : FForm) (s : State) : Host.Outcome State Fault Refusal := barrowCmd .bred .bred f s
/-- R233, Table 11.21. -/
def execBfill (f : FForm) (s : State) : Host.Outcome State Fault Refusal := barrowCmd .bfill .bfill f s

/-! ### bwait and bpoll (R245) -/

/-- The address of a chit's STATUS word. -/
def chitAt (win : DWord) (f : FForm) (e : AEnv) : Plan :=
  let a := gBase win f e + indexOf f f.b 16 e
  match aligned 16 a with
  | .error x => .error x
  | .ok () => .ok [(a + 8, 4)]

/-- R245 in row code: parks threads that meet a recoverable fault; under `wait` the instruction waits until every status read
is final. -/
def chitRow (wait : Bool) (f : FForm) (c : Ctx) : Out :=
  let stOf (ks : List Nat) (s : State) : Nat := s.readN (ks.headD 0) 4
  let r := globalOp .l1 .read true (!wait && c.t.hdr.det) 0 (fun c h => chitAt c.t.rcd.window f (c.env h))
    (fun c h _ ks s =>
      let st := stOf ks s
      (if finalStatus st then c.acquires h 3 s else s, [wV f.d.toNat (BitVec.ofNat 32 st) .n32])) c
  if !wait then r
  else
    match c.act.findSome? (fun h =>
        match chitAt c.t.rcd.window f (c.env h) with
        | .error _ => none
        | .ok ps =>
          match c.s.reach c.t.pitch c.t.die .read true ps with
          | .ok ks _ => if finalStatus (stOf ks c.s) then none else some ((ps.headD (0, 0)).1)
          | _ => none), r with
    | some a, .done _ =>
      -- only the parks of this try stand
      .wait (c.act.foldl (fun s h =>
        match chitAt c.t.rcd.window f (c.env h) with
        | .error _ => s
        | .ok ps =>
          match c.s.reach c.t.pitch c.t.die .read true ps with
          | .recoverable va p => s.park c.t.uid c.cur h 0 va p
          | _ => s) c.s) (.chit a)
    | _, r => r

/-- R245 in the U-stream. -/
def chitU (wait : Bool) (f : FForm) (c : UCtx) : Out :=
  match chitAt c.t.rcd.window f c.env with
  | .error e => trapNow c.s e
  | .ok ps =>
    let a := (ps.headD (0, 0)).1
    let det := if !wait && c.t.hdr.det then some Trap.det else none
    match lowest [det, match c.s.readVA c.t.pitch c.t.die a 4 with
      | .trap e _ => some e
      | _ => none] with
    | some e => .trap c.s { code := e.code, va := if det = some e then 0 else a }
    | none =>
      heldRead c.s c.t (.ustream c.t.uid) 0 a 4 (fun bs =>
        let st := leNat bs
        if wait && !finalStatus st then .wait c.s (.chit a)
        else
          let s1 := if finalStatus st then c.s.acquire 3 c.t.hdr.twin c.t.die c.t.core else c.s
          .done (s1.setTeam c.t.uid (fun t => { t with u := t.u.commit c.md [wS f.d.toNat (BitVec.ofNat 64 st)] })))

/-- R245. -/
def execBwait (f : FForm) (s : State) : Host.Outcome State Fault Refusal := runRU .bwait (.f f) (chitRow true f) (chitU true f) s

/-- R240, R245. -/
def execBpoll (f : FForm) (s : State) : Host.Outcome State Fault Refusal := runRU .bpoll (.f f) (chitRow false f) (chitU false f) s

/-! ### The transfer (R237, R238, R242) -/

/-- Puts an operation back, or removes it when it has ended. -/
def State.putBarrow (s : State) (id : Nat) (b : Option Barrow) : State :=
  { s with barrows := s.barrows.filterMap (fun x => if x.eng.id = id then b else some x) }

/-- Puts back the outcome of an engine operation. -/
def barrowNow (b : Barrow) (r : State × Option Engine) : State :=
  r.1.putBarrow b.eng.id (r.2.map (fun e => { b with eng := e }))

/-- A stop of an access of the command: an error ends it with status 4, a recoverable fault pauses it, a frame being cleared
leaves it as it is (R236, R241). -/
def State.barrowStop (s : State) (b : Barrow) (side : Nat) (e : Stop) : State :=
  match e with
  | .err => barrowNow b (s.engineChit b.eng [(b.shown, 4, 0)] 0)
  | .fault va p => barrowNow b (s.enginePause b.eng b.shown side (if side = 1 then 1 else 0) va p)
  | .busy => s.putBarrow b.eng.id (some b)

/-- What the pick of an overwritten word may depend on: under `.det` the word's place in the command alone, never the moment (R84, R236). -/
def State.gatherSeed (s : State) (t : Team) (o k : Nat) : Nat × Nat := if t.hdr.det then (o, 0) else (s.tick, k)

/-- The 4-byte words of a range with their keys: the history of words this command has overwritten gives the values a read
may yield, one of which is picked (R236). `o` numbers the words read by the command. -/
def State.pickWords (s : State) (t : Team) (b : Barrow) (sp : Nat) (acc : Access) : Nat → DWord → List Byte → List Byte
  | o, a, b0 :: b1 :: b2 :: b3 :: r =>
    let now := [b0, b1, b2, b3]
    let w := match s.engineKey t sp a acc with
      | some k =>
        let past := b.past.filter (fun e => e.1 == k)
        if past.isEmpty then now
        else
          let seed := s.gatherSeed t o k
          match past[Config.gatherPick seed.1 seed.2 % (past.length + 1)]? with
          | some e => leBytes 4 e.2.toNat
          | none => now
      | none => now
    w ++ State.pickWords s t b sp acc (o + 1) (a + 4) r
  | _, _, r => r

/-- The words a write of the command is about to overwrite join its history. -/
def State.noteOver (s : State) (t : Team) (b : Barrow) (a : DWord) (n : Nat) : List (Nat × Word) :=
  b.past ++ (List.range (n / 4)).filterMap (fun j =>
    (s.engineKey t b.dsp (a + BitVec.ofNat 64 (4 * j)) .write).map (fun k =>
      (k, BitVec.ofNat 32 (leNat (s.engineRead t b.dsp (a + BitVec.ofNat 64 (4 * j)) 4).1))))

/-- The index of element `k` (Table 11.21): read as the element begins, and kept while it is under way. -/
def State.elemIndex (s : State) (t : Team) (b : Barrow) (k : Nat) : Except Stop Nat :=
  match b.idx with
  | some (j, i) => if j = k then .ok i else idxRead
  | none => idxRead
where
  /-- Reads idx[k]. -/
  idxRead : Except Stop Nat :=
    let a := b.p0 + BitVec.ofNat 64 (4 * k)
    match s.engineRead t 0 a 4 with
    | (bs, none) => .ok (leNat (s.pickWords t b 0 .read (2 ^ 48 + k) a bs))
    | (_, some e) => .error e

/-- The bytes of a `bgat` from byte `o` of its order on, at most `n`, element by element. -/
def State.gatBytes (s : State) (t : Team) (b : Barrow) : Nat → Nat → Nat → List Byte × Option Stop × Option (Nat × Nat)
  | 0, _, _ => ([], none, b.idx)
  | fuel + 1, o, n =>
    if n = 0 then ([], none, b.idx)
    else
      let e := b.elem
      let k := o / e
      match s.elemIndex t b k with
      | .error x => ([], some x, b.idx)
      | .ok i =>
        let m := min n (e - o % e)
        let a := b.src + BitVec.ofNat 64 (i * e + o % e)
        let r := s.engineRead t b.ssp a m
        let bs := s.pickWords t b b.ssp .read (o / 4) a r.1
        if r.2.isSome then (bs, r.2, some (k, i))
        else
          let x := State.gatBytes s t { b with idx := some (k, i) } fuel (o + m) (n - m)
          (bs ++ x.1, x.2.1, x.2.2)

/-- The element of a canonical blocked layout at element offset `n` (R115). -/
def unblock (n : Nat) : Nat × Nat := (n / 64 / 16 * 8 + n % 64 / 8, n / 64 % 16 * 8 + n % 8)

/-- The element of a `btile` at element offset `n`: pad, or its source element's bits (R93, R234). -/
def State.tileElem (s : State) (t : Team) (b : Barrow) (w mw n : Nat) : Except Stop Nat :=
  let ij := unblock n
  let row := if b.tr then ij.2 else ij.1
  let col := if b.tr then ij.1 else ij.2
  if bits b.p1.toNat 0 16 ≤ row ∨ bits b.p1.toNat 16 16 ≤ col then .ok b.p2.toNat
  else
    let lo := mw * col / 8
    let hi := (mw * col + w + 7) / 8
    match s.engineRead t b.ssp (b.src + BitVec.ofNat 64 (row * b.p0.toNat + lo)) (hi - lo) with
    | (bs, none) => .ok (bits (leNat bs) (mw * col % 8) w)
    | (_, some e) => .error e

/-- The elements of a `btile` from offset `n` on, `m` of them, up to the first that cannot be read. -/
def State.tileElems (s : State) (t : Team) (b : Barrow) (w mw : Nat) : Nat → Nat → List Nat × Option Stop
  | 0, _ => ([], none)
  | m + 1, n =>
    match s.tileElem t b w mw n with
    | .error e => ([], some e)
    | .ok x =>
      let r := State.tileElems s t b w mw m (n + 1)
      (x :: r.1, r.2)

/-- The number of elements each in `mw` bits. -/
def packBits (mw : Nat) : List Nat → Nat
  | [] => 0
  | x :: r => x + 2 ^ mw * packBits mw r

/-- The bytes of a `bcp` that have been read and not yet written, from byte DONE on. -/
def Barrow.ahead (b : Barrow) : List Byte := if b.blk.1 ≤ b.eng.done then b.blk.2.drop (b.eng.done - b.blk.1) else []

/-- A `bcp` reads its next block, up to what can be read of it, when fewer than `n` bytes are read ahead (Table 11.21). -/
def State.readAhead (s : State) (t : Team) (b : Barrow) (n : Nat) : Barrow × Option Stop :=
  let bs := b.ahead
  if n ≤ bs.length then (b, none)
  else
    let o := b.eng.done + bs.length
    let r := s.engineRead t b.ssp (b.src + BitVec.ofNat 64 o) (min (64 - o % 64) (b.total - o))
    ({ b with blk := (b.eng.done, bs ++ r.1) }, r.2)

/-- The bytes of the next quantum of at most `n` bytes from byte DONE on, what stops the rest, and the element under way. -/
def State.barrowSource (s : State) (t : Team) (b : Barrow) (n : Nat) : List Byte × Option Stop × Option (Nat × Nat) :=
  let o := b.eng.done
  match b.op with
  | .bfill => ((List.range n).map (fun j => b.p2.extractLsb' (8 * ((o + j) % 8)) 8), none, none)
  | .bcp => (b.ahead.take n, none, none)
  | .bgat => s.gatBytes t b n o n
  | .bsct =>
    let a := b.src + BitVec.ofNat 64 o
    let r := s.engineRead t b.ssp a n
    (s.pickWords t b b.ssp .read (o / 4) a r.1, r.2, none)
  | .btile =>
    match b.et.bind (fun t => tileBits t b.dn) with
    | none => ([], some .err, none)
    | some (w, mw) =>
      let n0 := 8 * o / mw
      let r := s.tileElems t b w mw (ceilDiv (8 * (o + n)) mw - n0) n0
      let whole := if r.2.isSome then min n (mw * (n0 + r.1.length) / 8 - o) else n
      (leBytes whole (packBits mw r.1 / 2 ^ (8 * o - mw * n0)), r.2, none)
  | .bred => ([], none, none)

/-- Where the quantum goes, and how many bytes may go there at once: up to the end of a 64-byte block and of a page, in a team space
of a granule, which is written whole wherever the blocks end (R238), and for `bsct` of the element. -/
def State.barrowDest (s : State) (t : Team) (b : Barrow) : Except Stop (DWord × Nat × Option (Nat × Nat)) :=
  let o := b.eng.done
  let cut (a : DWord) (n : Nat) : Nat := if b.dsp = 0 then min n (65536 - a.toNat % 65536) else min n (16 - a.toNat % 16)
  match b.op with
  | .bsct =>
    let e := b.elem
    match s.elemIndex t b (o / e) with
    | .error x => .error x
    | .ok i =>
      let a := b.dst + BitVec.ofNat 64 (i * e + o % e)
      .ok (a, cut a (e - o % e), some (o / e, i))
  | _ =>
    let a := b.dst + BitVec.ofNat 64 o
    .ok (a, cut a (if b.dsp = 0 then min (64 - o % 64) (b.total - o) else b.total - o), none)

/-- Moves one quantum of a command that is no `bred`. A recoverable fault on the index array reports SIDE 0 and the address of the
index word, which is neither the source nor the destination of R242 (DESIGN CHOICE, log 61). -/
def State.barrowMove (s : State) (t : Team) (b : Barrow) : State :=
  match s.barrowDest t b with
  | .error e => s.barrowStop b 0 e
  | .ok (a, n, under) =>
    let (b0, late) := if b.op = .bcp then s.readAhead t b n else (b, none)
    let (bs, stop, idx) := s.barrowSource t b0 n
    let b1 := { b0 with idx := if b.op = .bsct then under else idx }
    match bs, (if b.op = .bcp then late else stop) with
    | [], some e => s.barrowStop b1 0 e
    | _, _ =>
      let o := b.eng.done
      let begins := if b.op = .bsct then o % b.elem == 0 else o == 0
      let ends := if b.op = .bsct then (o + bs.length) % b.elem == 0 else o + bs.length == b.total
      let gone := if b.op = .bgat ∨ b.op = .bsct then s.noteOver t b a bs.length else []
      match s.engineWrite t b.dsp b.we b.kf (begins || a.toNat % 16 == 0) (ends || (a.toNat + bs.length) % 16 == 0) a bs with
      | .stop e => s.barrowStop b1 1 e
      | .full _ _ => s.putBarrow b.eng.id (some b1)
      | .ok s1 => s1.putBarrow b.eng.id (some { b1 with eng := { b.eng with done := o + bs.length }, past := gone })

/-- One element of a `bred`: an atomic update at the destination's home (R235). -/
def State.barrowElem (s : State) (t : Team) (b : Barrow) : State :=
  let n := b.elem
  let o := b.eng.done
  let a := b.dst + BitVec.ofNat 64 o
  match s.engineRead t b.ssp (b.src + BitVec.ofNat 64 o) n with
  | (_, some e) => s.barrowStop b 0 e
  | (bs, none) =>
    match s.translate t.pitch t.die a .write with
    | .trap _ => s.barrowStop b 1 .err
    | .recoverable p => s.barrowStop b 1 (.fault a p)
    | .busy _ => s.putBarrow b.eng.id (some b)
    | .ok k _ =>
      if s.poisoned k n then s.barrowStop b 1 .err
      else
        let s1 := s.put t.pitch k (leBytes n (atomNew b.rop (b.et.getD .b32) (s.readN k n) (leNat bs)))
        s1.putBarrow b.eng.id (some { b with eng := { b.eng with done := o + n } })

/-- The command as it stands. -/
def State.barrow? (s : State) (id : Nat) : Option Barrow := s.barrows.find? (fun b => b.eng.id == id)

/-- After a quantum: the last byte ends the command with status 1; at a block boundary the Barrow may write a progress chit
(Table 11.23). -/
def State.barrowAfter (s : State) (id : Nat) : State :=
  match s.barrow? id with
  | none => s
  | some b =>
    if b.eng.st ≠ .running then s
    else if b.total ≤ b.eng.done ∧ b.sq = false then barrowNow b (s.engineChit b.eng [(b.shown, 1, 0)] 0)
    else if b.eng.done % 64 = 0 ∧ b.eng.done ≠ 0 ∧ Config.progressChit s.tick then
      barrowNow b (s.engineChit b.eng [(b.shown, 0, 0)] 0)
    else s

/-- R242: a Barrow moves a block of a command that is not sequenced, or takes up a held command after its service. -/
def execBarrowBlock (op : Nat) (s : State) : Host.Outcome State Fault Refusal :=
  match s.barrow? op with
  | none => .next s
  | some b =>
    match s.engineServe b.eng b.shown with
    | some r => .next (barrowNow b r)
    | none =>
      match s.owner? b.eng.uid with
      | none => .next (s.putBarrow op none)
      | some t =>
        if s.noLeave op then .next s
        else if b.total ≤ b.eng.done then .next (s.barrowAfter op)
        else if b.op = .bred then (if b.sq then .next s else .next ((s.barrowElem t b).barrowAfter op))
        else .next ((s.barrowMove t b).barrowAfter op)

/-! ### Sequenced reducing copies (R239) -/

/-- The die that a key is homed on: a die of the package, or of another device; none in host memory. -/
def homeOf (k : Nat) : Option (Nat × Nat) :=
  if 2 ^ 61 ≤ k then some (1 + (k - 2 ^ 61) / 2 ^ 44, keyDie ((k - 2 ^ 61) % 2 ^ 44))
  else if 2 ^ 60 ≤ k then none
  else some (0, keyDie k)

/-- The homes of the pages of a range; what stops the translation of one. -/
def State.homesOf (s : State) (x d : Nat) : List (DWord × Nat) → Except Stop (List (Option (Nat × Nat)))
  | [] => .ok []
  | p :: r =>
    match s.translate x d p.1 .write with
    | .trap _ => .error .err
    | .recoverable g => .error (.fault p.1 g)
    | .busy _ => .error .busy
    | .ok k _ => (State.homesOf s x d r).map (fun hs => homeOf k :: hs)

/-- Applies up to `fuel` elements in ascending order, while the command runs. -/
def State.barrowElems (s : State) (t : Team) (id : Nat) : Nat → State
  | 0 => s
  | fuel + 1 =>
    match s.barrow? id with
    | none => s
    | some b =>
      if b.eng.st ≠ .running ∨ b.total ≤ b.eng.done then s
      else
        let s1 := s.barrowElem t b
        if s1.barrow? id = some b then s1 else State.barrowElems s1 t id fuel

/-- R239: on arrival the homes are checked and the word compared; once it equals SEQ every element is applied and the word
becomes SEQ + 1. A recoverable fault on the word itself reports SIDE 1 and the word's address (DESIGN CHOICE, log 80). -/
def execSequencedReducingCopy (op : Nat) (s : State) : Host.Outcome State Fault Refusal :=
  match s.barrow? op with
  | none => .next s
  | some b =>
    match s.owner? b.eng.uid with
    | none => .next (s.putBarrow op none)
    | some t =>
      if b.eng.st ≠ .running ∨ b.sq = false ∨ b.op ≠ .bred ∨ s.noLeave op then .next s
      else
        let pages := pagesOf (b.total / 65536 + 2) b.dst b.total
        match s.homesOf t.pitch t.die ((b.p2, 8) :: pages) with
        | .error e => .next (s.barrowStop b 1 e)
        | .ok hs =>
          match s.translate t.pitch t.die b.p2 .write with
          | .ok k _ =>
            let w := s.readN k 8
            if hs.any (fun h => h.isNone || h != hs.headD none) || s.poisoned k 8 then .next (s.barrowStop b 1 .err)
            else if !b.arrived && decide (b.seq.toNat < w) then .next (s.barrowStop b 1 .err)
            else if w ≠ b.seq.toNat then .next (s.putBarrow op (some { b with arrived := true }))
            else
              let s1 := (s.putBarrow op (some { b with arrived := true })).barrowElems t op (b.len + 1)
              match s1.barrow? op with
              | none => .next s1
              | some b1 =>
                if b1.eng.st = .running ∧ b1.total ≤ b1.eng.done then
                  .next (barrowNow b1
                    ((s1.put t.pitch k (leBytes 8 (b.seq.toNat + 1))).engineChit b1.eng [(b1.shown, 1, 0)] 0))
                else .next s1
          | _ => .next s

end Sys2Proof.Machine
end

