-- ==== Sys2Proof/Machine/Schedule.lean ====
section
/-! DEFINITION. Launch records and code images, their acceptance (R386 to R391), launch queues (R395), completion chits, and the
forming batches of work graphs (R412 to R415). -/

namespace Sys2Proof.Machine

open Sys2Proof

/-! ### Launch records and code images -/

/-- The launch record of 128 bytes (Table 21.2). -/
def LRec.parse (bs : List Byte) : LRec :=
  let q (o : Nat) : DWord := BitVec.ofNat 64 (field bs o 8)
  { code := q 0, arg := q 8, window := q 16, chit := q 24, rngKey := q 32, teams := field bs 40 4, deadline := field bs 44 4,
    lflags := BitVec.ofNat 32 (field bs 48 4), rngTab := field bs 52 4, dep0 := q 56, dep1 := q 64,
    tileown := BitVec.ofNat 32 (field bs 72 4), rvsoff := field bs 76 4, rvslen := field bs 80 4, ninit := field bs 84 4,
    pool := q 88, poollen := field bs 96 8, init := q 104 }

/-- LFLAGS.PRIO (Table 21.3). -/
def LRec.prio (r : LRec) : Nat := bits r.lflags.toNat 12 4
/-- The plot size P. -/
def LRec.plot (r : LRec) : Nat := bits r.lflags.toNat 8 3 + 1
/-- LFLAGS.GRAPH. -/
def LRec.isGraph (r : LRec) : Bool := bitOf r.lflags.toNat 4
/-- LFLAGS.REPLAY. -/
def LRec.isReplay (r : LRec) : Bool := bitOf r.lflags.toNat 5

/-- A width code of LFLAGS.WIDTH and of BFLAGS: 0 for none. -/
def widthOf (c : Nat) : Nat :=
  match c with
  | 1 => 16
  | 2 => 32
  | 3 => 64
  | _ => 0

/-- The width that the launch record asks for. -/
def LRec.width (r : LRec) : Nat := widthOf (bits r.lflags.toNat 6 2)

/-- The code image header in 64 bytes (Table 21.1). -/
def KHdr.parse (bs : List Byte) : KHdr :=
  let f := field bs 4 4
  { twin := bitOf f 0, det := bitOf f 1, idem := bitOf f 2, excl := bitOf f 3, ustream := bitOf f 4, mstream := bitOf f 5,
    contd := bitOf f 6, width := field bs 8 1, rows := field bs 9 1, lrows := field bs 10 1, erows := field bs 11 1,
    cregs := field bs 12 1, lregs := field bs 13 1, eregs := field bs 14 1, arrays := field bs 15 1, tmem := field bs 16 4,
    rowcode := field bs 20 4, uentry := field bs 24 4, mentry := field bs 28 4, cont := field bs 32 4, data := field bs 36 4,
    datalen := field bs 40 4, codelen := field bs 44 4 }

/-- A header that R389 rejects, for a launch record: a field outside Tables 21.1 and 3.1 or R42, a width that differs, or a
replay table beyond the team memory. -/
def hdrBad (bs : List Byte) (r : LRec) : Bool :=
  let h := KHdr.parse bs
  let regsBad (rows regs : Nat) : Bool := rows != 0 && (regs % 8 != 0 || decide (regs < 8) || decide (120 < regs))
  field bs 0 4 != 1 || field bs 4 4 / 128 != 0 || field bs 48 16 != 0 || !(h.width ∈ [0, 16, 32, 64])
  || h.rows == 0 || decide ((if h.twin then 32 else 16) < h.rows) || decide (h.rows < h.lrows + h.erows)
  || regsBad h.lrows h.lregs || regsBad (h.rows - h.lrows - h.erows) h.cregs || regsBad h.erows h.eregs
  || (if h.mstream then h.arrays == 0 || decide (16 < h.arrays) else h.arrays != 0)
  || h.tmem % 4096 != 0 || decide ((if h.twin then 524288 else 262144) < h.tmem)
  || h.rowcode == 0 || h.ustream != (h.uentry != 0) || h.mstream != (h.mentry != 0) || h.contd != (h.cont != 0)
  || h.data % 4 != 0 || decide (h.data < h.codelen)
  || (r.width != 0 && h.width != 0 && r.width != h.width)
  || (h.det && (!(h.width ∈ [0, 64]) || r.width == 16 || r.width == 32))
  || (r.isReplay && decide (h.tmem < r.rngTab + 64))

/-- A launch record that R389 rejects by itself, for a pitch. -/
def State.recBad (s : State) (x : Nat) (bs : List Byte) : Bool :=
  let r := LRec.parse bs
  let part := (s.pitch x).part
  let vs := if part = 0xFF then [] else partVDies s.pkg.mode part
  field bs 112 16 != 0 || bits r.lflags.toNat 0 4 != 0 || bits r.lflags.toNat 16 16 != 0
  || r.code.toNat % 64 != 0 || r.chit.toNat % 16 != 0 || r.dep0.toNat % 16 != 0 || r.dep1.toNat % 16 != 0
  || (if r.isGraph then r.teams != 0 || r.pool.toNat % 64 != 0 else r.teams == 0 || r.pool != 0 || r.poollen != 0)
  || bits r.tileown.toNat 18 14 != 0 || decide (1 < bits r.tileown.toNat 16 2)
  || r.rvsoff % 8192 != 0 || vs.any (fun d => decide ((s.die d).rvsN * 2 ^ 23 < r.rvsoff + r.rvslen))
  || r.rngTab % 64 != 0 || (!r.isReplay && r.rngTab != 0)

/-- Has some bed of the pitch's partition its M-die online? -/
def State.mDieOnline (s : State) (x : Nat) : Bool :=
  let part := (s.pitch x).part
  part != 0xFF && (partVDies s.pkg.mode part).any (fun d => (s.die (mDieOf (bedOf d))).online)

/-! ### The scheduler's reads (R389) -/

/-- The die of the scheduler that reads for a pitch: the lowest online V-die of its partition. -/
def State.schedDie (s : State) (x : Nat) : Nat :=
  let part := (s.pitch x).part
  ((if part = 0xFF then [] else partVDies s.pkg.mode part).find? (fun d => (s.die d).online)).getD 1

/-- What ends or holds an acceptance. -/
inductive SchedStop where
  | bad | fatal
  | recoverable (va : DWord) (page : Bool) (write : Bool)
  | busy (frame : Nat)
  deriving DecidableEq, Repr

/-- A read of the scheduler, of any length. -/
def State.schedRead (s : State) (x : Nat) (va : DWord) (n : Nat) : Except SchedStop (List Byte) :=
  let ps := pagesOf (n / 65536 + 2) va n
  match s.reach x (s.schedDie x) .read true ps with
  | .ok ks _ => .ok (s.gather ps ks)
  | .trap _ => .error .fatal
  | .recoverable va p => .error (.recoverable va p false)
  | .busy f => .error (.busy f)

/-- A write of the scheduler: the pieces and their keys. -/
def State.schedWrite (s : State) (x : Nat) (va : DWord) (n : Nat) : Except SchedStop (List (DWord × Nat) × List Nat) :=
  let ps := pagesOf (n / 65536 + 2) va n
  match s.reach x (s.schedDie x) .write false ps with
  | .ok ks _ => .ok (ps, ks)
  | .trap _ => .error .fatal
  | .recoverable va p => .error (.recoverable va p true)
  | .busy f => .error (.busy f)

/-! ### Batches and slots (R347, R412, R413) -/

/-- The lowest free slot of a node's pool. -/
def Graph.freeSlot (g : Graph) (n : Nat) : Option Nat :=
  match g.nodes[n]? with
  | none => none
  | some nd => (List.range (min nd.pcap (g.used.length + 1))).find? (fun k => !g.used.contains (n, k))

/-- The open batch of a node closes and becomes an invocation (R414). -/
def Graph.close (g : Graph) (n : Nat) : Graph :=
  { g with forming := g.forming.filter (fun f => f.1 != n),
           queued := g.queued ++ (g.forming.filter (fun f => f.1 == n)).map (fun f => { node := n, slots := f.2.2 }) }

/-- An `emit` that waits for a slot of a node's pool closes the open batch of the node (R413). -/
def Graph.press (g : Graph) (n : Nat) : Graph :=
  if g.waiting.any (fun w => w.1 == n) && (g.freeSlot n).isNone then g.close n else g

/-- A record joins the open batch of a node; a batch of BATCH records closes, and one on whose pool an `emit` waits. -/
def Graph.join (g : Graph) (n slot now : Nat) : Graph :=
  let g1 := { g with used := (n, slot) :: g.used }
  let g2 := if g1.forming.any (fun f => f.1 == n) then
      { g1 with forming := g1.forming.map (fun f => if f.1 = n then (f.1, f.2.1, f.2.2 ++ [slot]) else f) }
    else { g1 with forming := g1.forming ++ [(n, now, [slot])] }
  let size : Nat := ((g2.forming.find? (fun f => f.1 == n)).map (·.2.2.length)).getD 0
  let most : Nat := ((g2.nodes[n]?).map (·.batch)).getD 0
  if most ≤ size then g2.close n else g2.press n

/-- No invocation is queued or resident, and no `emit` waits (R413). -/
def Graph.quiet (g : Graph) : Bool := g.queued.isEmpty && g.resident.isEmpty && g.waiting.isEmpty

/-- A quiescent graph closes its open batches. -/
def Graph.settle (g : Graph) : Graph := if g.quiet then g.forming.foldl (fun g f => g.close f.1) g else g

/-- The address of a record slot (R347). -/
def slotVA (pool : DWord) (nd : GNode) (slot : Nat) : DWord := pool + BitVec.ofNat 64 (nd.pool + nd.rsize * slot)

/-! ### Node tables (R345, R346) -/

/-- The entry of a node in 64 bytes. -/
def GNode.parse (bs : List Byte) : GNode :=
  { code := BitVec.ofNat 64 (field bs 0 8), arg := BitVec.ofNat 64 (field bs 8 8), pool := field bs 16 8, rsize := field bs 24 4,
    pcap := field bs 28 4, batch := field bs 32 2, prio := field bs 34 1, entry := bitOf (field bs 35 1) 0, tmo := field bs 36 4,
    succ := (List.range 8).map (fun k => field bs (40 + k) 1) }

/-- An entry outside the limits of Table 17.7. -/
def gnodeBad (bs : List Byte) (nodes : Nat) : Bool :=
  let n := GNode.parse bs
  n.code.toNat % 64 != 0 || n.pool % 64 != 0 || n.rsize % 16 != 0 || decide (n.rsize < 16) || decide (1024 < n.rsize)
  || n.pcap == 0 || decide (1048576 < n.pcap) || n.batch == 0 || decide (1024 < n.batch) || decide (15 < n.prio)
  || decide (1 < field bs 35 1) || n.succ.any (fun x => x != 0xFF && decide (nodes ≤ x)) || field bs 48 16 != 0

/-- Two pools of a graph overlap, or one leaves the pool area (R412). -/
def poolsBad (ns : List GNode) (len : Nat) : Bool :=
  let fits (n : GNode) : Bool := decide (n.pool + n.rsize * n.pcap ≤ len)
  ns.any (fun n => !fits n) ||
  (ns.zipIdx).any (fun a => (ns.zipIdx).any (fun b =>
    decide (a.2 < b.2) && decide (a.1.pool < b.1.pool + b.1.rsize * b.1.pcap) && decide (b.1.pool < a.1.pool + a.1.rsize * a.1.pcap)))

/-- Reads the node entries from number `i` on, with the headers of their code images. -/
def State.readNodes (s : State) (x : Nat) (r : LRec) (total : Nat) : Nat → Nat → Except SchedStop (List GNode)
  | 0, _ => .ok []
  | k + 1, i =>
    match s.schedRead x (r.code + BitVec.ofNat 64 (64 + 64 * i)) 64 with
    | .error e => .error e
    | .ok bs =>
      if gnodeBad bs total then .error .bad
      else
        match s.schedRead x (GNode.parse bs).code 64 with
        | .error e => .error e
        | .ok hb =>
          if hdrBad hb r || ((KHdr.parse hb).mstream && !s.mDieOnline x) then .error .bad
          else
            match State.readNodes s x r total k (i + 1) with
            | .error e => .error e
            | .ok ns => .ok ({ GNode.parse bs with hdr := KHdr.parse hb } :: ns)

/-- What acceptance makes of a record: its header, its graph, and the initial records to be written. -/
structure Accepted where
  hdr   : KHdr := {}
  graph : Option Graph := none
  put   : List (DWord × Nat) × List Nat × List Byte := ([], [], [])

/-- Reads the node table, and places the initial records (R346, R412). A non-zero reserved bit of GFLAGS lies outside the limits of the
table, as one of a node entry does, and rejects it; R8 would also let it be ignored (DESIGN CHOICE, log 58). -/
def State.readGraph (s : State) (x : Nat) (r : LRec) : Except SchedStop Accepted :=
  match s.schedRead x r.code 64 with
  | .error e => .error e
  | .ok bs =>
    let n := field bs 0 4
    let fl := field bs 4 4
    if n = 0 ∨ 64 < n ∨ 1 < fl ∨ field bs 8 56 ≠ 0 then .error .bad
    else
      match s.readNodes x r n n 0 with
      | .error e => .error e
      | .ok ns =>
        let entry := ns.findIdx? (·.entry)
        let nd := (entry.bind (fun i => ns[i]?)).getD ⟨0, 0, 0, 0, 0, 1, 0, false, 0, [], {}⟩
        if poolsBad ns r.poollen || decide (nd.pcap < r.ninit) then .error .bad
        else
          let g : Graph := { excl := bitOf fl 0, nodes := ns }
          if r.ninit = 0 then .ok { graph := some g }
          else
            match s.schedRead x r.init (r.ninit * nd.rsize), s.schedWrite x (slotVA r.pool nd 0) (r.ninit * nd.rsize) with
            | .error e, _ => .error e
            | _, .error e => .error e
            | .ok ib, .ok w =>
              let g1 := (List.range r.ninit).foldl (fun g k => g.join (entry.getD 0) k s.now) g
              .ok { graph := some g1.settle, put := (w.1, w.2, ib) }

/-- The reads and checks of an acceptance (R389). -/
def State.acceptance (s : State) (x : Nat) (bs : List Byte) : Except SchedStop Accepted :=
  let r := LRec.parse bs
  if s.recBad x bs then .error .bad
  else if r.isGraph then s.readGraph x r
  else
    match s.schedRead x r.code 64 with
    | .error e => .error e
    | .ok hb => if hdrBad hb r || ((KHdr.parse hb).mstream && !s.mDieOnline x) then .error .bad else .ok { hdr := KHdr.parse hb }

/-! ### Launches and their chits (R390, R391, R476) -/

/-- The launch of an id. -/
def State.launch? (s : State) (lid : Nat) : Option Launch := s.launches.find? (fun l => l.lid == lid)

/-- Changes a launch. -/
def State.setLaunch (s : State) (lid : Nat) (f : Launch → Launch) : State :=
  { s with launches := s.launches.map (fun l => if l.lid = lid then f l else l) }

/-- The fault record of a completion chit (R476). -/
def Launch.faultRec (l : Launch) : Rec := { kind := 1, rflags := 8, launch := l.lid, pc := l.chit.addr.toNat }

/-- A launch that has made its last chit write is no more. -/
def State.dropDone (s : State) (lid : Nat) : State :=
  { s with launches := s.launches.filter (fun l => l.lid != lid || l.final.isNone || l.pendChit.isSome) }

/-- The scope at which the last write of a launch's completion chit releases: system under CHSYS, else device (R391, Table 21.3). The
machine's earlier writes all stand at their homes and hosts, so the release has nothing to wait for (log 2). -/
def LRec.chitScope (r : LRec) : Nat := if bitOf r.lflags.toNat 11 then 5 else 3

/-- Chit writes of a launch, behind those that already wait. -/
def State.launchChit (s : State) (lid : Nat) (ws : List (Nat × Nat × Nat)) : State :=
  match s.launch? lid with
  | none => s
  | some l =>
    match l.pendChit with
    | some (q, old) => s.setLaunch lid (fun l => { l with pendChit := some (q, old ++ ws) })
    | none =>
      match s.chitWrites l.pitch (s.schedDie l.pitch) (.launchChit lid) l.faultRec l.chit ws with
      | (s1, c, .held q ws') => s1.setLaunch lid (fun l => { l with chit := c, pendChit := some (q, ws') })
      | (s1, c, _) => (s1.setLaunch lid (fun l => { l with chit := c })).dropDone lid

/-- The service of a held completion chit (R428, R476). -/
def State.launchChitServe (s : State) (lid : Nat) : State :=
  match s.launch? lid with
  | none => s
  | some l =>
    match l.pendChit with
    | none => s
    | some (q, ws) =>
      let free (s : State) : State := s.setLaunch lid (fun l => { l with pendChit := none })
      if q = 0 then (free s).launchChit lid ws
      else
        match s.signalOf q with
        | 0 => s
        | 1 => (free (s.served q)).launchChit lid ws
        | _ =>
          let s1 := (s.served q).chitLost l.pitch (s.schedDie l.pitch) l.chit.addr
          (s1.setLaunch lid (fun l => { l with pendChit := none, chit := { l.chit with dead := true } })).dropDone lid

/-- The launch ends: its last chit write (R391). -/
def State.endLaunch (s : State) (lid status : Nat) : State :=
  match s.launch? lid with
  | none => s
  | some l =>
    if l.final.isSome then s
    else
      (s.setLaunch lid (fun l => { l with st := .done, final := some status, depHold := none })).launchChit lid
        [(l.retired, status, 0)]

/-- The end of a launch when its teams have all retired, or when its graph is ready and quiescent with no open batch (R81, R391,
R415). -/
def State.checkLaunch (s : State) (lid : Nat) : State :=
  let s1 := s.setLaunch lid (fun l => { l with graph := l.graph.map Graph.settle })
  match s1.launch? lid with
  | none => s1
  | some l =>
    let status := if l.cancelled then 3 else if l.failed then 4 else 1
    let resident := s1.teams.any (fun t => t.launch == lid && !t.retired) || s1.saved.any (fun v => v.team.launch == lid)
    let gone := match l.graph with
      | some g => l.st == .ready && g.quiet && g.forming.isEmpty
      | none => decide (l.rcd.teams ≤ l.retired + l.ended)
    if resident then s1
    else if l.cancelled || gone then s1.endLaunch lid status
    else s1

/-! ### Launch queues (R395) -/

/-- Does the launch occupy an entry of its queue? -/
def Launch.queuedIn (l : Launch) : Bool := l.st != .done && (l.graph.isSome || decide (l.next < l.rcd.teams))

/-- Is there room in a launch queue of a pitch? A record whose acceptance is held keeps its entry. -/
def State.queueRoom (s : State) (x prio : Nat) : Bool :=
  decide ((s.launches.filter (fun l => l.pitch == x && l.rcd.prio == prio && l.queuedIn)).length
    + (s.accepts.filter (fun a => a.pitch == x && (LRec.parse a.bytes).prio == prio)).length < 256)

/-! ### Acceptance (R389 to R391) -/

/-- How an attempt at acceptance ended. -/
inductive Accept where
  /-- Accepted or rejected, under the id. -/
  | settled (lid : Nat)
  | held (fseq : Nat)
  | busy (frame : Nat)

/-- The next launch id. -/
def State.takeLid (s : State) : Nat × State :=
  (s.pkg.nextLid, s.setPkg (fun k => { k with nextLid := (k.nextLid + 1) % 2 ^ 32 }))

/-- A rejected record takes an id, and its chit STATUS 4; a chit that is misaligned is none. -/
def State.reject (s : State) (x : Nat) (bs : List Byte) : Nat × State :=
  let r := LRec.parse bs
  let (lid, s1) := s.takeLid
  let chit : DWord := if r.chit.toNat % 16 = 0 then r.chit else 0
  let l : Launch := { lid := lid, pitch := x, rcd := { r with teams := 0 }, hdr := {}, chit := { addr := chit }, st := .done }
  (lid, ({ s1 with launches := s1.launches ++ [l] } : State).endLaunch lid 4)

/-- The width of a launch that neither its kernel nor its record leaves to policy firmware; 0 where R397 lets it choose. -/
def fixedWidth (h : KHdr) (r : LRec) : Nat := if h.det then 64 else if h.width ≠ 0 then h.width else r.width

/-- An accepted record takes an id and its place in its queue; its chit takes STATUS 0. -/
def State.admitRecord (s : State) (x : Nat) (va : DWord) (bs : List Byte) (a : Accepted) : Nat × State :=
  let r := LRec.parse bs
  let (lid, s1) := (s.scatterFor x a.put.1 a.put.2.1 a.put.2.2).takeLid
  let l : Launch :=
    { lid := lid, pitch := x, rcd := r, hdr := a.hdr, from_ := va, chit := { addr := r.chit }, width := fixedWidth a.hdr r, graph := a.graph,
      st := if r.dep0 = 0 ∧ r.dep1 = 0 then .ready else .queued }
  let s2 := ({ s1 with launches := s1.launches ++ [l] } : State).launchChit lid [(0, 0, 0)]
  (lid, if a.graph.isSome then s2.checkLaunch lid else s2)

/-- One attempt to accept a record read at `va`. A held attempt leaves an entry that a later one takes up. -/
def State.tryAccept (s : State) (x : Nat) (who : Bringer) (va : DWord) (bs : List Byte) : Accept × State :=
  let hold (s : State) (q : Nat) : State :=
    { s with accepts := s.accepts ++ [{ id := s.nextId, fseq := q, pitch := x, who := who, bytes := bs, at_ := va }],
             nextId := s.nextId + 1 }
  match s.acceptance x bs with
  | .ok a => let r := s.admitRecord x va bs a; (.settled r.1, r.2)
  | .error .bad => let r := s.reject x bs; (.settled r.1, r.2)
  | .error .fatal => let r := s.reject x bs; (.settled r.1, r.2)
  | .error (.recoverable fva p w) =>
    let q := s.raise x (s.schedDie x) (.accept s.nextId) p
      { kind := 1, rflags := if w then 257 else 256, launch := some 0xFFFFFFFF, team := some 0, va := fva.toNat, pc := va.toNat }
    (.held q.1, hold q.2 q.1)
  | .error (.busy f) => (.busy f, hold s 0)

/-- A held acceptance is taken up: after service it is tried again, a FAIL signal rejects it (R389). -/
def State.retryAccept (s : State) (a : Accepting) : Accept × State :=
  let s1 : State := { s with accepts := s.accepts.filter (fun b => b.id != a.id) }
  if a.fseq = 0 then s1.tryAccept a.pitch a.who a.at_ a.bytes
  else
    match s.signalOf a.fseq with
    | 0 => (.held a.fseq, s)
    | 1 => (s1.served a.fseq).tryAccept a.pitch a.who a.at_ a.bytes
    | _ => let r := (s1.served a.fseq).reject a.pitch a.bytes; (.settled r.1, r.2)

end Sys2Proof.Machine
end

