-- ==== Sys2Proof/Machine/GraphFam.lean ====
section
/-! DEFINITION. The work-graph and launch instructions, codes 0xE9 to 0xEC (R344 to R350). -/

namespace Sys2Proof.Machine

open Sys2Proof

/-! ### Parameters (Table 19.12) -/

/-- A number of the descriptor. -/
def Glean.n (g : Glean) (o k : Nat) : Nat := field g.desc o k
/-- A bit of PFLAGS. -/
def Glean.flag (g : Glean) (i : Nat) : Bool := bitOf (g.n 55 1) i
/-- Tile x. -/
def Glean.tx (g : Glean) : Nat := g.n 8 2
/-- Tile y. -/
def Glean.ty (g : Glean) : Nat := g.n 10 2
/-- Screen width. -/
def Glean.width (g : Glean) : Nat := g.n 48 2
/-- Screen height. -/
def Glean.height (g : Glean) : Nat := g.n 50 2

/-- The owner of a tile of a launch on its partition (R388). -/
def tileOwner (vs : List Nat) (tileown : Word) (tx ty : Nat) : Option Nat :=
  let tw := bits tileown.toNat 0 16
  let n := vs.length
  let k := if tw = 0 then 0 else if bits tileown.toNat 16 2 = 0 then min (tx * n / tw) (n - 1) else (tx + ty) % n
  vs[k]?

/-- Parameters that end the pass with status 4 before any read (R380, R381). -/
def gleanBad (s : State) (t : Team) (g : Glean) : Bool :=
  let slot := g.n 12 4
  let halo := g.n 16 4
  let out := g.n 20 4
  let gsize := g.n 52 2
  let vf := g.n 96 4
  tileOwner (partVDies s.pkg.mode t.part) t.rcd.tileown g.tx g.ty != some t.die
  || slot % 8192 != 0 || halo % 32768 != 0 || out % 8192 != 0 || overlap out 8192 halo 32768
  || decide (t.rcd.rvslen < slot + 8192) || decide (t.rcd.rvslen < halo + 32768) || decide (t.rcd.rvslen < out + 8192)
  || g.n 24 8 % 32 != 0 || g.n 32 8 % 4 != 0 || g.n 40 8 % 4 != 0 || g.width == 0 || g.height == 0
  || gsize % 4 != 0 || decide (gsize < 4) || decide (64 < gsize) || decide (8 < g.n 54 1) || decide (8 ≤ g.n 55 1)
  || g.n 56 2 == 0 || decide (t.hdr.codelen ≤ g.n 60 4) || g.n 60 4 % 4 != 0 || g.n 64 8 % 64 != 0
  || (List.range 16).any (fun k => decide (8 < (signed 8 (g.n (80 + k) 1)).natAbs))
  || decide (65536 ≤ vf) || (bitOf vf 8 && bitOf vf 9) || g.n 100 28 != 0

/-! ### glean (R344) -/

/-- A Gleaner pass begins: it ends at once, or its chit takes STATUS 0 and it asks for two grains (Table 21.7). One rejected for its
parameters has its STATUS 4 written only (DESIGN CHOICE, log 85). -/
def State.gleanBegin (s : State) (t : Team) (g : Glean) : State :=
  match s.engineChit g.eng [(0, if gleanBad s t g then 4 else 0, 0)] 0 with
  | (s1, some e) =>
    let s2 : State := { s1 with gleans := s1.gleans ++ [{ g with eng := e }] }
    if gleanBad s t g then s2 else (s2.askLeave e.die e.pitch 2 e.id e.uid).2
  | (s1, none) => s1

/-- One issuer's pass: its wait counter rises, and it begins (R344). -/
def State.gleanStart (wc : Nat) (t : Team) (ks : List (Nat × Nat)) (core : Nat) (key : DWord) (bs : List Byte) (s : State) : State :=
  let (id, s1) := s.fresh
  let e : Engine := { id := id, uid := t.uid, pitch := t.pitch, die := t.die, core := core, launch := t.launch,
                      team := t.team, chit := { addr := BitVec.ofNat 64 (field bs 0 8) }, unit := id % 2 }
  (if ks.isEmpty then s1.countU t.uid wc id else s1.count t.uid ks wc id).gleanBegin t
    { eng := e, desc := bs, rngMode := if t.replay then 1 else 0, rngTab := t.rcd.rngTab, rngKey := key }

/-- One pass for each issuer: its threads (none for the U-stream), its core, its offset and its key. -/
def gleanIssue (wc : Nat) (s : State) (t : Team) (who : List (List (Nat × Nat) × Nat × DWord × DWord)) : Out :=
  let rs := who.map (fun w => (w, engineDesc s t 128 64 0 w.2.2.1))
  match lowest (rs.map (fun r =>
      match r.2 with
      | .error e => some e
      | .ok _ => none)) with
  | some e => trapNow s e
  | none =>
    match rs.findSome? (fun r =>
        match r.2 with
        | .ok (_, b) => b
        | .error _ => none) with
    | some f => .wait s (.scrub f)
    | none =>
      .done (rs.foldl (fun s r =>
        match r.2 with
        | .error _ => s
        | .ok (bs, _) => s.gleanStart wc t r.1.1 r.1.2.1 r.1.2.2.2 bs) s)

/-- R344. -/
def execGlean (f : FForm) (s : State) : Host.Outcome State Fault Refusal :=
  runRU .glean (.f f)
    (fun c => gleanIssue f.wc.toNat c.s c.t
      (c.act.map (fun h => ([(h.row, h.pos)], c.t.coreOf h.row, tBase f (c.env h), h.rngKey))))
    (fun c => gleanIssue f.wc.toNat c.s c.t [([], c.t.core, tBase f c.env, c.u.rngKey)]) s

/-! ### emit (R348) -/

/-- The successor node of an output of the invocation's node, with its number; none outside an invocation. -/
def emitTarget (s : State) (t : Team) (out : Nat) : Option (Nat × GNode) :=
  match (s.launch? t.launch).bind (·.graph) with
  | none => none
  | some g =>
    match (g.nodes[t.node]?).bind (fun n => n.succ[out]?) with
    | none => none
    | some k => (g.nodes[k]?).map (fun n => (k, n))

/-- Changes the graph of a launch. -/
def State.setGraph (s : State) (lid : Nat) (f : Graph → Graph) : State := s.setLaunch lid (fun l => { l with graph := l.graph.map f })

/-! Records that wait for room (R348, R350). The instruction has issued; its destination is written, and its wait counter falls, when the
record is placed. -/

/-- The write of a slot number or a launch id: an n32 number in a v register, or, for row 0xFF, in an s register. -/
def numberWrite (row d x : Nat) : RegW := if row = 0xFF then wS d (BitVec.ofNat 64 x) else wV d (BitVec.ofNat 32 x) .n32

/-- The writes of a thread, or, for row 0xFF, of the U-stream. -/
def Team.commitFor (md : WriteMode) (t : Team) (row pos : Nat) (ws : List RegW) : Team :=
  if row = 0xFF then { t with u := t.u.commit md ws } else t.commit md row pos ws

/-- Raises a wait counter of threads, or of the U-stream, as row 0xFF, for what has been placed at once. -/
def State.countFor (s : State) (uid : Nat) (ks : List (Nat × Nat)) (wc : Nat) : State :=
  if ks.any (fun k => k.1 == 0xFF) then s.countU uid wc 0 else s.count uid ks wc 0

/-- Are two waiting records of one kind: for the pool of the same node, or both launches? -/
def LateOp.like (a b : LateOp) : Bool :=
  match a, b with
  | .emit n _, .emit m _ => n == m
  | .launch .., .launch .. => true
  | _, _ => false

/-- Has a party an earlier record of the kind that waits? -/
def State.lateBy (s : State) (uid row pos : Nat) (op : LateOp) : Bool :=
  s.inflight.any (fun i => i.uid == uid && i.late.any (fun l => l.row == row && l.pos == pos && l.op.like op))

/-- A number for the destination that a waiting record leaves unwritten: a pending write under VER 00, an interlock under VER 01 (R142,
R143). -/
def owed (md : WriteMode) (id reg : Nat) (old : List Pend × List (Nat × Nat)) : List Pend × List (Nat × Nat) :=
  if !realReg reg then old
  else
    match md.delay with
    | some look => (old.1 ++ [{ reg := reg, val := 0, tag := .b32, left := look + 1, link := false, due := some (2 + id) }], old.2)
    | none => (old.1, old.2 ++ [(id, reg)])

/-- The party of a waiting record. -/
def lateParty (uid row pos : Nat) : Party := if row = 0xFF then .ustream uid else .lane uid row pos

/-- A record begins to wait: the counter rises, the destination stands out, and a waiting `emit` closes the open batch of its pool (R413). -/
def State.addLate (s : State) (uid row pos : Nat) (md : WriteMode) (d wc group : Nat) (op : LateOp) : State :=
  let id := s.nextId
  let reg := (numberWrite row d 0).reg
  let up (w : FMap Nat) : FMap Nat := if wc = 7 then w else FMap.modify (fun _ => 0) w wc (· + 1)
  let s1 : State := { s with
    inflight := s.inflight ++ [{ id := id, uid := uid, threads := if row = 0xFF then [] else [(row, pos)], wc := wc, dep := 0,
                                 late := some { group := group, row := row, pos := pos, op := op, d := d } }]
    nextId := id + 1 }
  let s2 := s1.setTeam uid (fun t =>
    if row = 0xFF then
      let o := owed md id reg (t.u.pend, t.u.late)
      { t with u := { t.u with w := up t.u.w, pend := o.1, late := o.2 } }
    else
      t.setThread row pos (fun h =>
        let o := owed md id reg (h.pend, h.late)
        { h with w := up h.w, pend := o.1, late := o.2 }))
  match op, s.team? uid with
  | .emit n _, some t => s2.setGraph t.launch (fun g => ({ g with waiting := g.waiting ++ [(n, lateParty uid row pos)] } : Graph).press n)
  | _, _ => s2

/-- A waiting record has been placed: its destination is written, its counter falls, and nothing of it is in flight any more. -/
def State.lateDone (s : State) (i : Inflight) (l : Late) (x : Nat) : State :=
  let w := numberWrite l.row l.d x
  let down (c : FMap Nat) : FMap Nat := if i.wc = 7 then c else FMap.modify (fun _ => 0) c i.wc (· - 1)
  let gone (es : List (Nat × Nat)) : List (Nat × Nat) := es.filter (fun e => e.1 != i.id)
  let s1 : State := { s with inflight := s.inflight.filter (fun j => j.id != i.id) }
  s1.setTeam i.uid (fun t =>
    if l.row = 0xFF then
      let u := if t.u.late.any (fun e => e.1 == i.id) then t.u.put w else t.u
      { t with u := ({ u with w := down u.w, late := gone u.late, pend := u.pend.map (Pend.fill (2 + i.id) [w]) } : UStream).makePend Pend.spent }
    else
      let t1 := if (t.thread? l.row l.pos).any (fun h => h.late.any (fun e => e.1 == i.id)) then t.put l.row l.pos w else t
      (t1.setThread l.row l.pos (fun h =>
        { h with w := down h.w, late := gone h.late, pend := h.pend.map (Pend.fill (2 + i.id) [w]) })).makePend Pend.spent l.row l.pos)

/-- The trap of an `emit`, if any, for the offsets of its payloads (R207, R348). -/
def emitTrap (t : Team) (target : Option (Nat × GNode)) (offs : List DWord) : Option Trap :=
  let size := (target.map (·.2.rsize)).getD 16
  lowest ((if target.isNone then some .prot else none) :: (if t.hdr.det then some .det else none) ::
    offs.map (fun o => if o.toNat % 16 ≠ 0 then some .aln else if t.hdr.tmem < o.toNat + size then some .prot else none))

/-- How one `emit` of a record ended. -/
inductive Emit where
  | ok (s : State) (slot : Nat)
  | full
  | trap (t : Trap) (va : DWord)
  | fault (va : DWord) (page : Bool)
  | busy (frame : Nat)

/-- The translation of a record slot of a node, for a team's write. -/
def State.slotReach (s : State) (t : Team) (nd : GNode) (k : Nat) : Reach :=
  s.reach t.pitch t.die .write false (pieces (slotVA t.rcd.pool nd k) nd.rsize)

/-- The payload goes from team memory into a slot, and the record to its place in the batch. -/
def State.fillSlot (s : State) (t : Team) (n : Nat) (nd : GNode) (o : DWord) (k : Nat) (ks : List Nat) : State :=
  (s.scatterFor t.pitch (pieces (slotVA t.rcd.pool nd k) nd.rsize) ks (((s.team? t.uid).getD t).bytes o.toNat nd.rsize)).setGraph t.launch
    (fun g => g.join n k s.now)

/-- One record: the lowest free slot, and the payload written into it. -/
def State.emitOne (s : State) (t : Team) (n : Nat) (nd : GNode) (o : DWord) : Emit :=
  match ((s.launch? t.launch).bind (·.graph)).bind (fun g => g.freeSlot n) with
  | none => .full
  | some k =>
    match s.slotReach t nd k with
    | .trap e => .trap e (slotVA t.rcd.pool nd k)
    | .recoverable va pg => .fault va pg
    | .busy f => .busy f
    | .ok ks _ => .ok (s.fillSlot t n nd o k ks) k

/-- The slots that so many records would take now, in order. -/
def Graph.freeSlots (g : Graph) (n : Nat) : Nat → List Nat
  | 0 => []
  | m + 1 =>
    match g.freeSlot n with
    | none => []
    | some k => k :: Graph.freeSlots { g with used := (n, k) :: g.used } n m

/-- The records of one instruction, each a thread (or the U-stream, as row 0xFF) and an offset, in order. Those that find a slot are made
now, after every check (R207); from the first that finds none, or stands behind an earlier record of its own party, on, they wait
without holding the party (R141, R348; log 83). -/
def emitRun (s : State) (t : Team) (p : Party) (n : Nat) (nd : GNode) (md : WriteMode) (d wc : Nat) (who : List (Nat × Nat × DWord)) : Out :=
  let free := ((s.launch? t.launch).bind (·.graph)).elim [] (fun g => g.freeSlots n who.length)
  let now := ((who.takeWhile (fun w => !s.lateBy t.uid w.1 w.2.1 (.emit n 0))).zip free).map (fun e => (e.1, e.2, s.slotReach t nd e.2))
  match lowest (now.map (fun e =>
      match e.2.2 with
      | .trap x => some x
      | _ => none)) with
  | some x => .trap s { code := x.code, va := ((now.find? (fun e => e.2.2 == .trap x)).map (fun e => slotVA t.rcd.pool nd e.2.1)).getD 0 }
  | none =>
    match now.findSome? (fun e =>
        match e.2.2 with
        | .recoverable va pg => some (va, pg)
        | _ => none), now.findSome? (fun e =>
        match e.2.2 with
        | .busy f => some f
        | _ => none) with
    | some (va, pg), _ => let q := s.hold t p 1 va pg; .wait q.2 (.fault q.1)
    | none, some f => .wait s (.scrub f)
    | none, none =>
      let s1 := now.foldl (fun s e =>
        match e.2.2 with
        | .ok ks _ => (s.fillSlot t n nd e.1.2.2 e.2.1 ks).setTeam t.uid (fun t => t.commitFor md e.1.1 e.1.2.1 [numberWrite e.1.1 d e.2.1])
        | _ => s) s
      .done ((who.drop now.length).foldl (fun s w => s.addLate t.uid w.1 w.2.1 md d wc s1.nextId (.emit n w.2.2))
        (s1.countFor t.uid (now.map (fun e => (e.1.1, e.1.2.1))) wc))

/-- R348. -/
def execEmit (f : FForm) (s : State) : Host.Outcome State Fault Refusal :=
  runRU .emit (.f f)
    (fun c =>
      let target := emitTarget c.s c.t (f.m 0 3)
      match emitTrap c.t target (c.act.map (fun h => tBase f (c.env h))), target with
      | some e, _ => if c.act.isEmpty then .done c.s else trapNow c.s e
      | none, none => .done c.s
      | none, some (n, nd) =>
        emitRun c.s c.t c.p n nd c.md f.d.toNat f.wc.toNat (c.act.map (fun h => (h.row, h.pos, tBase f (c.env h)))))
    (fun c =>
      let target := emitTarget c.s c.t (f.m 0 3)
      match emitTrap c.t target [tBase f c.env], target with
      | some e, _ => trapNow c.s e
      | none, none => .done c.s
      | none, some (n, nd) => emitRun c.s c.t (.ustream c.t.uid) n nd c.md f.d.toNat f.wc.toNat [(0xFF, 0, tBase f c.env)]) s

/-! ### recget (R349) -/

/-- The address of record `k` of the invocation. -/
def recAddr (s : State) (t : Team) (k : Nat) : Except Trap DWord :=
  match t.recs[k]?, ((s.launch? t.launch).bind (·.graph)).bind (fun g => g.nodes[t.node]?) with
  | some slot, some nd => .ok (slotVA t.rcd.pool nd slot)
  | _, _ => .error .prot

/-- R349. The record number of row code is an n32 operand (R112). -/
def execRecget (f : FForm) (s : State) : Host.Outcome State Fault Refusal :=
  runRU .recget (.f f)
    (lanes (fun c h =>
      let x := h.src c.cur.idx f.a.toNat
      if !tagOk .n32 false x then .error .fmt
      else (recAddr c.s c.t x.w.toNat).map (fun a => wPair f.d.toNat a .n64)))
    (uWrites (fun c => (recAddr c.s c.t ((c.u.sreg f.a.toNat).toNat % 2 ^ 32)).map (fun a => [wS f.d.toNat a]))) s

/-! ### launch (R350) -/

/-- The address of a launch record. -/
def launchPlan (win : DWord) (f : FForm) (e : AEnv) : Plan :=
  let a := gBase win f e + indexOf f f.b 64 e
  match aligned 64 a with
  | .error x => .error x
  | .ok () => .ok (pieces a 128)

/-- What has become of one launch record. -/
inductive Launched where
  | done (lid : Nat)
  | wait
  deriving DecidableEq, Repr

/-- One record of a party: a held acceptance of its own is taken up first; a new record waits for room in its queue. -/
def State.launchOne (s : State) (x : Nat) (who : Bringer) (at_ : DWord) (bs : List Byte) : State × Launched :=
  let after (r : Accept × State) : State × Launched :=
    match r with
    | (.settled lid, s1) => (s1, .done lid)
    | (_, s1) => (s1, .wait)
  match s.accepts.find? (fun a => a.who == who) with
  | some a => after (s.retryAccept a)
  | none => if s.queueRoom x (LRec.parse bs).prio then after (s.tryAccept x who at_ bs) else (s, .wait)

/-- Who brings the record of a thread, or, for row 0xFF, of the U-stream. -/
def bringer (uid row pos : Nat) : Bringer := if row = 0xFF then .ustream uid else .thread uid row pos

/-- The copied records of one instruction, each of a thread (or the U-stream, as row 0xFF), with the address it was read at, in order.
From the first that must wait, or stands behind an earlier record of its own party, on, they wait without holding the party (R141,
R350). -/
def launchRun (md : WriteMode) (t : Team) (d wc group : Nat) : List (Nat × Nat × DWord × List Byte) → State → State
  | [], s => s
  | (row, pos, a, bs) :: rest, s =>
    let stay (s : State) : State :=
      ((row, pos, a, bs) :: rest).foldl (fun s w => s.addLate t.uid w.1 w.2.1 md d wc group (.launch w.2.2.1 w.2.2.2)) s
    if s.lateBy t.uid row pos (.launch a bs) then stay s
    else
      match s.launchOne t.pitch (bringer t.uid row pos) a bs with
      | (s1, .wait) => stay s1
      | (s1, .done lid) =>
        launchRun md t d wc group rest
          ((s1.setTeam t.uid (fun t => t.commitFor md row pos [numberWrite row d lid])).countFor t.uid [(row, pos)] wc)

/-- R350 in row code: every record is read whole at issue. Threads that meet a recoverable fault on the record read park (R217). -/
def launchRow (f : FForm) (c : Ctx) : Out :=
  let rs := c.act.map (fun h =>
    match launchPlan c.t.rcd.window f (c.env h) with
    | .error e => (h, [], Reach.trap e)
    | .ok ps => (h, ps, c.s.reach c.t.pitch c.t.die .read true ps))
  match lowest ((if c.t.hdr.det && f.d != 120#7 && !c.act.isEmpty then some Trap.det else none) :: rs.map (fun r =>
      match r.2.2 with
      | .trap e => some e
      | _ => none)) with
  | some e =>
    let va := (rs.find? (fun r => r.2.2 == .trap e)).bind (fun r => r.2.1.head?.map (·.1))
    .trap c.s { code := e.code, va := va.getD 0 }
  | none =>
    match rs.findSome? (fun r =>
        match r.2.2 with
        | .busy f => some f
        | _ => none) with
    | some fr => .wait c.s (.scrub fr)
    | none =>
      let s1 := rs.foldl (fun s r =>
        match r.2.2 with
        | .recoverable va pg => s.park c.t.uid c.cur r.1 0 va pg
        | _ => s) c.s
      .done (launchRun c.md c.t f.d.toNat f.wc.toNat s1.nextId (rs.filterMap (fun r =>
        match r.2.2 with
        | .ok ks _ => some (r.1.row, r.1.pos, (r.2.1.headD (0, 0)).1, c.s.gather r.2.1 ks)
        | _ => none)) s1)

/-- R350 in the U-stream. -/
def launchU (f : FForm) (c : UCtx) : Out :=
  match launchPlan c.t.rcd.window f c.env with
  | .error e => trapNow c.s e
  | .ok ps =>
    let a := (ps.headD (0, 0)).1
    if c.s.readVA c.t.pitch c.t.die a 128 matches .trap .xlat _ then .trap c.s { code := Trap.xlat.code, va := a }
    else if c.t.hdr.det && f.d != 64#7 then trapNow c.s .det
    else heldRead c.s c.t (.ustream c.t.uid) 0 a 128 (fun bs =>
      .done (launchRun c.md c.t f.d.toNat f.wc.toNat c.s.nextId [(0xFF, 0, a, bs)] c.s))

/-- R350. -/
def execLaunch (f : FForm) (s : State) : Host.Outcome State Fault Refusal := runRU .launch (.f f) (launchRow f) (launchU f) s

/-! ### When a record that waits is placed -/

/-- Does a record stand behind an earlier one of the same kind of its instruction, or of its party? -/
def State.lateBehind (s : State) (i : Inflight) (l : Late) : Bool :=
  s.inflight.any (fun j => decide (j.id < i.id) && j.uid == i.uid &&
    j.late.any (fun m => m.op.like l.op && (m.group == l.group || (m.row == l.row && m.pos == l.pos))))

/-- Changes what an instruction in flight still has to place. -/
def State.setLate (s : State) (id : Nat) (f : Late → Late) : State :=
  { s with inflight := s.inflight.map (fun j => if j.id = id then { j with late := j.late.map f } else j) }

/-- A slot meets a recoverable fault after the issue: the record waits under a fault record of its party (log 83). -/
def State.lateFault (s : State) (t : Team) (i : Inflight) (l : Late) (va : DWord) (page : Bool) : State :=
  let p := lateParty t.uid l.row l.pos
  let pl := t.causePlace p
  let r : Rec := { kind := 1, rflags := if l.row = 0xFF then 17 else 1, launch := t.launch, team := t.team, va := va.toNat, pc := pl.2.2.toNat,
                   idx := pl.2.1, core := if l.row = 0xFF then t.core else t.coreOf l.row, fid := if l.row = 0xFF then none else some pl.1,
                   hrow := if l.row = 0xFF then none else some l.row, pos := if l.row = 0xFF then 0xFF else l.pos }
  let q := s.raise t.pitch t.die (if l.row = 0xFF then .ustream t.uid else .thread t.uid l.row l.pos) page
    (if l.row = 0xFF then r else r.withDrill (t.drillOf l.row l.pos))
  q.2.setLate i.id (fun l => { l with fault := q.1 })

/-- A record that waits is tried again: it takes the slot, or the place in the queue, that has become free (R348, R350). -/
def State.placeLate (s : State) (t : Team) (i : Inflight) (l : Late) : State :=
  let p := lateParty t.uid l.row l.pos
  match l.op with
  | .launch a bs =>
    match s.launchOne t.pitch (bringer t.uid l.row l.pos) a bs with
    | (s1, .done lid) => s1.lateDone i l lid
    | (s1, .wait) => s1
  | .emit n o =>
    match (((s.launch? t.launch).bind (·.graph)).bind (fun g => g.nodes[n]?)) with
    | none => s
    | some nd =>
      -- it waits no more when it takes its slot
      let left := s.setGraph t.launch (fun g => { g with waiting := g.waiting.erase (n, p) })
      match left.emitOne t n nd o with
      | .ok s1 k => s1.lateDone i l k
      | .full | .busy _ => s
      | .trap e va => s.trap p { code := e.code, va := va }
      | .fault va pg => s.lateFault t i l va pg

/-- What becomes of a record that waits when its turn comes; a fault of its slot is serviced first (R428). -/
def State.serveLate (s : State) (i : Inflight) (l : Late) : State :=
  match s.team? i.uid with
  | none => s
  | some t =>
    if s.lateBehind i l then s
    else if l.fault = 0 then s.placeLate t i l
    else
      match s.signalOf l.fault with
      | 0 => s
      | 1 => ((s.served l.fault).setLate i.id (fun l => { l with fault := 0 })).placeLate t i { l with fault := 0 }
      | _ => (s.served l.fault).trap (lateParty t.uid l.row l.pos) { code := Trap.xlat.code, va := s.faultVA l.fault }

/-- Can a record that waits be placed, or go on being accepted? -/
def State.lateReady (s : State) (i : Inflight) (l : Late) : Bool :=
  !s.lateBehind i l && (l.fault == 0 || s.signalOf l.fault != 0) &&
  (s.team? i.uid).any (fun t =>
    match l.op with
    | .emit n _ => ((((s.launch? t.launch).bind (·.graph)).bind (fun g => g.freeSlot n))).isSome
    | .launch _ bs =>
      match s.accepts.find? (fun a => a.who == bringer t.uid l.row l.pos) with
      | some a => a.fseq == 0 || s.signalOf a.fseq != 0
      | none => s.queueRoom t.pitch (LRec.parse bs).prio)

end Sys2Proof.Machine
end

