-- ==== Sys2Proof/Machine/Groups.lean ====
section
/-! DEFINITION. Groups of threads: fragment ids, and the Graft table with its releases (R57, R336 to R339, R385). -/

namespace Sys2Proof.Machine

open Sys2Proof

/-- The lowest fragment id from 32 to 4,095 that is free in the team, from `n` on (R57). -/
def Team.freeFid (t : Team) : Nat → Nat → Nat
  | 0, n => n
  | k + 1, n => if t.frags.any (fun g => g.fid == n) then Team.freeFid t k (n + 1) else n

/-- Fragments all of whose threads have exited, or belong to another fragment now, are no more (R62). -/
def Team.dropFrags (t : Team) : Team :=
  { t with frags := t.frags.filter (fun g => t.threads.any (fun h => h.live && h.fid == g.fid)) }

/-! ### The Graft table -/

/-- The place in the Graft table where a thread waits: the clause header, the index, and its key. -/
def Thread.graftAt (h : Thread) : Option (DWord × Nat × Nat) :=
  match h.st with
  | .grafted a i k => some (a, i, k.toNat)
  | _ => none

/-- The waiting threads at one `graft` address of one role on one core, in ascending home row. -/
def Team.waiters (t : Team) (role core : Nat) (a : DWord) (i : Nat) : List Thread :=
  (List.range 32).flatMap (fun r => t.threads.filter (fun h =>
    h.row == r && t.hdr.role r == role && t.coreOf r == core && h.graftAt.any (fun e => e.1 == a && e.2.1 == i)))

/-- The key of a waiting thread. -/
def Thread.graftKey (h : Thread) : Nat := (h.graftAt.map (·.2.2)).getD 0

/-- The stack level of a waiting thread of its key: how many of that key and row position stand in lower home rows. -/
def graftLevel (ws : List Thread) (h : Thread) : Nat :=
  (ws.filter (fun g => g.graftKey == h.graftKey && g.pos == h.pos && decide (g.row < h.row))).length

/-- The least number of a list above a bound. -/
def nextUp (ns : List Nat) (lo : Nat) : Option Nat :=
  ns.foldl (fun acc n => if n < lo then acc else
    match acc with
    | none => some n
    | some m => some (min m n)) none

/-- The keys of some threads, ascending, each once. -/
def graftKeys (ws : List Thread) : Nat → Nat → List Nat
  | 0, _ => []
  | n + 1, lo =>
    match nextUp (ws.map Thread.graftKey) lo with
    | none => []
    | some k => k :: graftKeys ws n (k + 1)

/-- Forms one fragment of waiting threads, which goes on after the `graft` (R337). -/
def Team.graftForm (t : Team) (ws : List Thread) : Team :=
  match ws with
  | [] => t
  | h :: _ =>
    let fid := t.freeFid t.frags.length 32
    let cur := h.cur.advance
    let t1 := ws.foldl (fun t w => t.setThread w.row w.pos (fun g => { g with fid := fid, st := .run })) t
    { t1 with frags := t1.frags ++ [{ fid := fid, cur := cur }] }

/-- Releases groups of waiting threads: the fragments left empty end first (R385), then the new ones take their ids in order. -/
def Team.graftRelease (t : Team) (groups : List (List Thread)) : Team :=
  let out (h : Thread) : Bool := groups.any (fun g => g.any (fun w => w.row == h.row && w.pos == h.pos))
  let kept := t.frags.filter (fun g => t.threads.any (fun h => h.live && h.fid == g.fid && !out h))
  groups.foldl Team.graftForm { t with frags := kept }

/-- The groups of a whole release: ascending key, then ascending stack level (R337). -/
def graftGroups (ws : List Thread) : List (List Thread) :=
  (graftKeys ws ws.length 0).flatMap (fun k =>
    let ks := ws.filter (fun h => h.graftKey == k)
    ((List.range 32).map (fun j => sortPos (ks.filter (fun h => graftLevel ws h == j)))).filter (fun g => !g.isEmpty))

/-- The key, if any, whose threads fill every position at stack level 0. -/
def Team.graftFull (t : Team) (ws : List Thread) : Option (List Thread) :=
  (graftKeys ws ws.length 0).findSome? (fun k =>
    let g := sortPos (ws.filter (fun h => h.graftKey == k && graftLevel ws h == 0))
    if g.length = t.width then some g else none)

/-- Full-fragment releases at an address, as long as there is one (R337). -/
def Team.graftFulls (t : Team) (role core : Nat) (a : DWord) (i : Nat) : Nat → Team
  | 0 => t
  | n + 1 =>
    match t.graftFull (t.waiters role core a i) with
    | none => t
    | some g => Team.graftFulls (t.graftRelease [g]) role core a i n

/-- The release events of R337 at an address: full fragments, except under `.det`, and completion. -/
def Team.graftCheck (t : Team) (role core : Nat) (a : DWord) (i : Nat) : Team :=
  let t1 := if t.hdr.det then t else t.graftFulls role core a i 32
  let ws := t1.waiters role core a i
  let others := t1.threads.any (fun h => h.live && t1.hdr.role h.row == role && t1.coreOf h.row == core
    && !ws.any (fun w => w.row == h.row && w.pos == h.pos))
  if ws.isEmpty || others then t1 else t1.graftRelease (graftGroups ws)

/-- The addresses at which threads wait, each once: role, core, clause header, index. -/
def Team.graftPlaces (t : Team) : List (Nat × Nat × DWord × Nat) :=
  t.threads.foldl (fun acc h =>
    match h.graftAt with
    | some (a, i, _) =>
      let p := (t.hdr.role h.row, t.coreOf h.row, a, i)
      if acc.contains p then acc else acc ++ [p]
    | none => acc) []

/-- Looks at every address again. -/
def Team.graftCheckAll (t : Team) : Team := t.graftPlaces.foldl (fun t p => t.graftCheck p.1 p.2.1 p.2.2.1 p.2.2.2) t

/-- A flush for a role on a core: every address in ascending order (R338). -/
def Team.graftFlush (t : Team) (role core : Nat) : Nat → List (DWord × Nat) → Team
  | 0, _ => t
  | n + 1, ps =>
    match ps.foldl (fun (acc : Option (DWord × Nat)) p =>
        match acc with
        | none => some p
        | some q => if p.1.toNat < q.1.toNat ∨ (p.1 = q.1 ∧ p.2 < q.2) then some p else some q) none with
    | none => t
    | some p =>
      Team.graftFlush (t.graftRelease (graftGroups (t.waiters role core p.1 p.2))) role core n (ps.filter (· != p))

end Sys2Proof.Machine
end

