-- ==== Sys2Proof/Machine/Control.lean ====
section
/-! DEFINITION. The control and system instructions, codes 0x00 to 0x0F (R57, R60 to R62, R124 to R127, R167 to R177, R432,
R434, R473). -/

namespace Sys2Proof.Machine

open Sys2Proof

/-! ### Control transfers -/

/-- The least of some addresses. -/
def leastAddr (as : List DWord) : Option DWord :=
  as.foldl (fun acc a =>
    match acc with
    | none => some a
    | some b => if a.toNat < b.toNat then some a else some b) none

/-- Places the threads of one target group in fragment `fid` at the target. -/
def Team.placeGroup (t : Team) (fid : Nat) (ks : List (Nat × Nat)) (pc : DWord) : Team :=
  ks.foldl (fun t k => t.setThread k.1 k.2 (fun h => { h with fid := fid, cur := { pc := pc } })) t

/-- The target groups beyond the first take new fragments in ascending order of address (R57); a new fragment has executed
no cross-lane instruction, and its SR_XMASK is 0 (log 17). -/
def Team.splitRest (t : Team) (skid : Nat) : Nat → List ((Nat × Nat) × DWord) → Team
  | 0, _ => t
  | n + 1, ts =>
    match leastAddr (ts.map (·.2)) with
    | none => t
    | some a =>
      let fid := t.freeFid t.frags.length 32
      let t1 := t.placeGroup fid ((ts.filter (fun e => e.2 == a)).map (·.1)) a
      Team.splitRest { t1 with frags := t1.frags ++ [{ fid := fid, cur := { pc := a }, skid := skid }] } skid n
        (ts.filter (fun e => e.2 != a))

/-- The threads of fragment `fid` go each to its own target; the lowest target keeps the id (R57). -/
def Team.transfer (t : Team) (fid : Nat) (ts : List ((Nat × Nat) × DWord)) : Team :=
  match leastAddr (ts.map (·.2)) with
  | none => t
  | some a =>
    let skid := ((t.frag? fid).map (·.skid)).getD 0
    let t1 := (t.setFrag fid (fun g => { g with cur := { pc := a }, wait := none })).placeGroup fid
      ((ts.filter (fun e => e.2 == a)).map (·.1)) a
    t1.splitRest skid ts.length (ts.filter (fun e => e.2 != a))

/-- Each thread with a true guard goes to its target, the others of the fragment to the next clause header. -/
def Ctx.goTo (c : Ctx) (s : State) (target : Thread → DWord) : State :=
  let next := c.cur.nextHeader
  let ts := c.mem.map (fun h =>
    ((h.row, h.pos), if c.act.any (fun g => g.row == h.row && g.pos == h.pos) then target h else next))
  s.setTeam c.t.uid (fun t => t.transfer c.fid ts)

/-- A transfer of row code. -/
def rowTransfer (c : Ctx) (s : State) (target : Thread → DWord) : Out := .moved (c.goTo s target)

/-- A transfer of the U-stream. -/
def uTransfer (c : UCtx) (s : State) (target : DWord) : Out :=
  .moved (s.setTeam c.t.uid (fun t => { t with u := { t.u with cur := { pc := target } } }))

/-- The target of `bra` and `call` (R127). -/
def braTarget (pc : DWord) (x : IForm) : DWord := pc + 4 * x.imm.signExtend 64

/-- R167. -/
def execNop (f : FForm) (s : State) : Host.Outcome State Fault Refusal :=
  runRU .nop (.f f) (fun c => .done c.s) (fun c => .done c.s) s

/-- R125, R60: the next instructions of the clause run as if the guards of these threads were false. -/
def execSkip (i : IForm) (s : State) : Host.Outcome State Fault Refusal :=
  let n := i.imm.toNat + 1
  runRU .skip (.i i)
    (fun c => .done (c.s.setTeam c.t.uid (fun t =>
      (keysOf c.act).foldl (fun t k => t.setThread k.1 k.2 (fun h => { h with skip := n })) t)))
    (fun c => .done (c.s.setTeam c.t.uid (fun t => { t with u := { t.u with skip := n } }))) s

/-- R168. -/
def execBra (i : IForm) (s : State) : Host.Outcome State Fault Refusal :=
  runRU .bra (.i i) (fun c => rowTransfer c c.s (fun _ => braTarget c.cur.pc i))
    (fun c => uTransfer c c.s (braTarget c.u.cur.pc i)) s

/-- The checks of a code offset (R170). -/
def brxCheck (t : Team) (o : Word) : Except Trap DWord :=
  if o.toNat % 4 ≠ 0 then .error .aln
  else if t.hdr.codelen ≤ o.toNat then .error .prot
  else .ok (t.codeVA + o.zeroExtend 64)

/-- R170. -/
def execBrx (f : FForm) (s : State) : Host.Outcome State Fault Refusal :=
  runRU .brx (.f f)
    (fun c =>
      let rs := c.act.map (fun h =>
        let a := h.src c.cur.idx f.a.toNat
        if tagOk .n32 (f.mb 4) a then (h, brxCheck c.t a.w) else (h, .error .fmt))
      match lowest (rs.map (fun r =>
          match r.2 with
          | .error e => some e
          | .ok _ => none)) with
      | some e => trapNow c.s e
      | none => rowTransfer c c.s (fun h =>
          match rs.find? (fun r => r.1.row == h.row && r.1.pos == h.pos) with
          | some (_, .ok a) => a
          | _ => c.cur.nextHeader))
    (fun c =>
      match brxCheck c.t ((c.u.sreg f.a.toNat).truncate 32) with
      | .error e => trapNow c.s e
      | .ok a => uTransfer c c.s a) s

/-- R168, R169: a seventeenth address takes STK and no thread transfers. -/
def execCall (i : IForm) (s : State) : Host.Outcome State Fault Refusal :=
  runRU .call (.i i)
    (fun c =>
      if c.act.any (fun h => decide (16 ≤ h.rets.length)) then trapNow c.s .stk
      else
        let s1 := c.s.setTeam c.t.uid (fun t => (keysOf c.act).foldl (fun t k =>
          t.setThread k.1 k.2 (fun h => { h with rets := c.cur.nextHeader :: h.rets })) t)
        rowTransfer c s1 (fun _ => braTarget c.cur.pc i))
    (fun c =>
      if 16 ≤ c.u.rets.length then trapNow c.s .stk
      else
        let s1 := c.s.setTeam c.t.uid (fun t => { t with u := { t.u with rets := c.u.cur.nextHeader :: t.u.rets } })
        uTransfer c s1 (braTarget c.u.cur.pc i)) s

/-- The check of a popped address (R127, R169). -/
def retCheck (rets : List DWord) : Except Trap DWord :=
  match rets with
  | [] => .error .stk
  | a :: _ => if a.toNat % 4 ≠ 0 then .error .aln else .ok a

/-- R169. -/
def execRet (f : FForm) (s : State) : Host.Outcome State Fault Refusal :=
  runRU .ret (.f f)
    (fun c =>
      match lowest (c.act.map (fun h =>
          match retCheck h.rets with
          | .error e => some e
          | .ok _ => none)) with
      | some e => trapNow c.s e
      | none =>
        let s1 := c.s.setTeam c.t.uid (fun t => (keysOf c.act).foldl (fun t k =>
          t.setThread k.1 k.2 (fun h => { h with rets := h.rets.tail })) t)
        rowTransfer c s1 (fun h => h.rets.headD 0))
    (fun c =>
      match retCheck c.u.rets with
      | .error e => trapNow c.s e
      | .ok a => uTransfer c (c.s.setTeam c.t.uid (fun t => { t with u := { t.u with rets := t.u.rets.tail } })) a) s

/-! ### join and exit -/

/-- When every live thread of a home row waits at one `join`, they form the fragment of the row (R61). Its SR_XMASK is 0, as of a new
fragment, which no rule states (DESIGN CHOICE, log 17). -/
def Team.joinRow (t : Team) (row : Nat) : Team :=
  let live := t.threads.filter (fun h => h.row == row && h.live)
  match live with
  | [] => t
  | h :: _ =>
    if live.all (fun g => g.st == .joinWait && g.cur.pc == h.cur.pc && g.cur.idx == h.cur.idx) then
      let pc := h.cur.nextHeader
      let t1 := t.mapThreads (fun (g : Thread) =>
        if g.row = row ∧ g.live then { g with fid := row, st := .run, cur := { pc := pc } } else g)
      let t2 := { t1 with frags := t1.frags.filter (fun (g : Frag) => g.fid != row) ++ [Frag.mk row { pc := pc } 0 none false 0 0] }
      t2.dropFrags
    else t

/-- Every home row of the list is examined. -/
def Team.joinRows (t : Team) (rows : List Nat) : Team := rows.foldl Team.joinRow t

/-- The threads of a fragment whose guard is false go on at the next clause header. -/
def Team.goOn (t : Team) (c : Ctx) : Team :=
  let next := c.cur.nextHeader
  match c.p with
  | .lane _ row pos => t.setThread row pos (fun h => { h with cur := { pc := next } })
  | _ => t.setFrag c.fid (fun g => { g with cur := { pc := next }, wait := none })

/-- R61, R171. -/
def execJoin (f : FForm) (s : State) : Host.Outcome State Fault Refusal :=
  runRow .join (.f f) (fun c =>
    .moved (c.s.setTeam c.t.uid (fun t =>
      let t1 := (keysOf c.act).foldl (fun t k =>
        t.setThread k.1 k.2 (fun h => { h with st := .joinWait, cur := c.cur })) t
      (t1.goOn c).joinRows (rowsOf c.act)))) s

/-- A thread of the fragment that stands at the convergence point finds no other still on its way (R426). -/
def Team.regroupFid (t : Team) (fid : Nat) : Team :=
  match t.threads.find? (fun h => h.fid == fid && h.st == .atConv) with
  | some h => t.regroup h.row h.pos
  | none => t

/-- Threads end: their pending writes are discarded (R62, R144), and what waited for them is looked at again (R61, R337,
R426). -/
def Team.exitThreads (t : Team) (fid : Nat) (ks : List (Nat × Nat)) : Team :=
  let t1 := ks.foldl (fun t k => t.setThread k.1 k.2 (fun h =>
    { h with st := .exited, pend := [], arr := [], epi := false, resumeParked := 0 })) t
  ((t1.dropFrags.regroupFid fid).joinRows ((List.range 32).filter (fun r => ks.any (fun k => k.1 == r)))).graftCheckAll

/-- R62, R171: in the U-stream, `exit` retires the stream. -/
def execExit (f : FForm) (s : State) : Host.Outcome State Fault Refusal :=
  runRU .exit (.f f)
    (fun c =>
      .moved (c.s.setTeam c.t.uid (fun t =>
        let t1 := if c.act.length = c.mem.length then t else t.goOn c
        t1.exitThreads c.fid (keysOf c.act))))
    (fun c => .moved (c.s.setTeam c.t.uid (fun t => { t with u := { t.u with alive := false, pend := [] } }))) s

/-! ### Hints, waits, breakpoints -/

/-- R172, R123: only the order of issue. -/
def execYield (f : FForm) (s : State) : Host.Outcome State Fault Refusal :=
  runRU .yield (.f f) (fun c => .done c.s) (fun c => .done c.s) s

/-- R172. -/
def execWait (i : IForm) (s : State) : Host.Outcome State Fault Refusal :=
  let mask := i.imm.toNat
  runRU .wait (.i i)
    (fun c => if c.act.any (fun h => countersBusy h.wcnt mask) then .wait c.s (.waits mask) else .done c.s)
    (fun c => if countersBusy c.u.wcnt mask then .wait c.s (.waits mask) else .done c.s) s

/-- `brk` and `trap` take their trap when at least one thread has a true guard, and count as issued (R173, R434, R435). -/
def trapImm (t : Trap) (i : IForm) (s : State) (p : Party) (act : List Thread) : Out :=
  .done (s.trap p { code := t.code, imm := i.imm.toNat % 2 ^ 14, who := act.head?.map (fun h => (h.row, h.pos)) })

/-- R173. -/
def execBrk (i : IForm) (s : State) : Host.Outcome State Fault Refusal :=
  runRU .brk (.i i) (fun c => if c.act.isEmpty then .done c.s else trapImm .brk i c.s c.p c.act)
    (fun c => trapImm .brk i c.s (.ustream c.t.uid) []) s

/-- R173. -/
def execTrap (i : IForm) (s : State) : Host.Outcome State Fault Refusal :=
  runRU .trap (.i i) (fun c => if c.act.isEmpty then .done c.s else trapImm .trapi i c.s c.p c.act)
    (fun c => trapImm .trapi i c.s (.ustream c.t.uid) []) s

/-! ### Status registers -/

/-- The status registers whose values do not depend on the reading thread (Table 9.4). -/
def teamStatus (s : State) (t : Team) (n : Nat) : DWord :=
  match n with
  | 1 => 64
  | 2 => BitVec.ofNat 64 t.width
  | 5 => BitVec.ofNat 64 t.team
  | 6 => BitVec.ofNat 64 t.rcd.teams
  | 7 => BitVec.ofNat 64 t.launch
  | 8 => BitVec.ofNat 64 t.core
  | 9 => BitVec.ofNat 64 t.die
  | 10 => BitVec.ofNat 64 (bedOf t.die)
  | 11 => BitVec.ofNat 64 t.part
  | 12 => BitVec.ofNat 64 t.pitch
  | 13 => s.clk
  | 16 => BitVec.ofNat 64 t.recs.length
  | 17 => if t.hdr.det then 1 else 0
  | 20 => if t.replay then 1 else 0
  | 21 => if t.replay then BitVec.ofNat 64 t.rcd.rngTab else 0
  | _ => 0

/-- A status register as a thread reads it. -/
def threadStatus (c : Ctx) (h : Thread) (n : Nat) : DWord :=
  match n with
  | 0 => BitVec.ofNat 64 h.pos
  | 3 => BitVec.ofNat 64 h.row
  | 4 => BitVec.ofNat 64 c.fid
  | 8 => BitVec.ofNat 64 (c.t.coreOf h.row)
  | 14 => ((c.t.frag? c.fid).map (·.xmask)).getD 0
  | 15 => h.token
  | 18 => h.rmode.zeroExtend 64
  | 19 => h.rngKey
  | n => teamStatus c.s c.t n

/-- A status register as the U-stream reads it: those of R50 read as all ones. -/
def uStatus (c : UCtx) (n : Nat) : DWord :=
  match n with
  | 0 | 3 | 4 | 14 => -1
  | 18 => c.u.rmode.zeroExtend 64
  | 19 => c.u.rngKey
  | n => teamStatus c.s c.t n

/-- The registers whose read takes DET (R50). -/
def detStatus (n : Nat) : Bool := n ∈ [4, 7, 8, 9, 10, 11, 12, 13]

/-- R174. -/
def execSr (i : IForm) (s : State) : Host.Outcome State Fault Refusal :=
  let n := i.imm.toNat
  let d := i.d.toNat
  runRU .sr (.i i)
    (lanes (fun c h =>
      if c.t.hdr.det && detStatus n then .error .det
      else
        let x := threadStatus c h n
        .ok (if n = 13 ∨ n = 14 ∨ n = 15 ∨ n = 19 then wPair d x .n64 else [wV d (x.truncate 32) .n32])))
    (uWrites (fun c => if c.t.hdr.det && detStatus n then .error .det else .ok [wS d (uStatus c n)])) s

/-- R175: a write to any register but SR_RMODE and SR_RNGKEY takes PROT. -/
def execSrw (i : IForm) (s : State) : Host.Outcome State Fault Refusal :=
  let n := i.imm.toNat
  let d := i.d.toNat
  runRU .srw (.i i)
    (fun c =>
      if n = 18 then
        .done (c.s.setTeam c.t.uid (fun t => c.act.foldl (fun t h =>
          t.setThread h.row h.pos (fun g => { g with rmode := (h.src c.cur.idx d).w.truncate 2 })) t))
      else if n = 19 then
        .done (c.s.setTeam c.t.uid (fun t => c.act.foldl (fun t h =>
          t.setThread h.row h.pos (fun g => { g with rngKey := (h.src c.cur.idx d).dw })) t))
      else if c.act.isEmpty then .done c.s
      else trapNow c.s .prot)
    (fun c =>
      if n = 18 then
        .done (c.s.setTeam c.t.uid (fun t => { t with u := { t.u with rmode := (c.u.sreg d).truncate 2 } }))
      else if n = 19 then
        .done (c.s.setTeam c.t.uid (fun t => { t with u := { t.u with rngKey := c.u.sreg d } }))
      else trapNow c.s .prot) s

/-! ### fresume (R432) -/

/-- Is a fault signalled, or no longer on record? -/
def State.signalled (s : State) (q : Nat) : Bool := s.signalOf q != 0

/-- The episode of a thread. -/
def Team.episodeOf (t : Team) (row pos : Nat) : Option Episode :=
  t.episodes.find? (fun e => e.threads.contains (row, pos))

/-- Every live thread of the episode stands at one `fresume`, and its token is signalled; threads at different ones wait until the
launch deadline. -/
def State.episodeReady (s : State) (t : Team) (e : Episode) : Bool :=
  let live := (e.threads.filterMap (fun k => t.thread? k.1 k.2)).filter Thread.live
  e.recs.all s.signalled && live.all (fun h => h.st == .fresumeWait
    && live.head?.any (fun g => g.cur.pc == h.cur.pc && g.cur.idx == h.cur.idx))

/-- The threads of the episode form one fragment again with the id held at entry: those parked at entry replay, the others
wait at the convergence point, or, when none of those parked lives, go on there (R426, R432). -/
def Team.endEpisode (t : Team) (e : Episode) : Team :=
  let t1 := e.threads.foldl (fun t k => t.setThread k.1 k.2 (fun h =>
    if h.live then
      { h with fid := e.fid, token := 0, epi := false, cur := h.resume, resume := { pc := 0 }, res := h.resumeRes, resumeRes := [],
               skip := h.resumeSkip, resumeSkip := 0, st := if h.resumeParked = 0 then .atConv else .replay, resumeParked := 0 }
    else h)) t
  let t2 := t1.dropFrags
  let place : Cursor := ((e.threads.filterMap (fun k => t1.thread? k.1 k.2)).find? (fun h => h.live && h.st == .atConv)).elim
    { pc := 0 } (·.cur)
  let t3 := if t2.frags.any (fun g => g.fid == e.fid) then
      t2.setFrag e.fid (fun g => { g with cur := place, wait := some .parked })
    else { t2 with frags := t2.frags ++ [{ fid := e.fid, cur := place, wait := some .parked }] }
  Team.regroupFid { t3 with episodes := t3.episodes.filter (fun g => g.token != e.token) } e.fid

/-- R432. A thread in no episode takes PROT. The others wait at the `fresume`; the last of an episode whose token is
signalled ends it. -/
def execFresume (f : FForm) (s : State) : Host.Outcome State Fault Refusal :=
  runRow .fresume (.f f) (fun c =>
    if c.act.any (fun h => !h.epi) then trapNow c.s .prot
    else
      let s1 := c.s.setTeam c.t.uid (fun t =>
        ((keysOf c.act).foldl (fun t k =>
          t.setThread k.1 k.2 (fun h => { h with st := .fresumeWait, cur := c.cur })) t).goOn c)
      match s1.team? c.t.uid with
      | none => .moved s1
      | some t =>
        let es := t.episodes.filter (fun e => e.threads.any (fun k => (keysOf c.act).contains k) && s1.episodeReady t e)
        .moved (s1.setTeam c.t.uid (fun t => es.foldl Team.endEpisode t))) s

/-! ### sysc (R177, R473) -/

/-- A ring header of Table 21.4 as it stands in memory. -/
structure RingHdr where
  tail : Nat
  head : Nat
  cap  : Nat
  rsv  : Nat
  base : Nat
  rest : Nat
  deriving DecidableEq, Repr

/-- The header in 64 bytes. -/
def RingHdr.parse (bs : List Byte) : RingHdr :=
  { tail := field bs 0 8, head := field bs 8 8, cap := field bs 16 4, rsv := field bs 20 4, base := field bs 24 8,
    rest := field bs 32 32 }

/-- The 32-byte request record of Table 25.8. -/
def syscRecord (t : Team) (tag : Nat) (arg : DWord) (n row : Nat) : List Byte :=
  leBytes 8 tag ++ leBytes 8 arg.toNat ++ leBytes 4 t.launch ++ leBytes 4 t.team ++ leBytes 2 n ++ leBytes 1 t.pitch
  ++ leBytes 1 row ++ leBytes 1 (if row = 0xFF then t.core else t.coreOf row) ++ leBytes 3 0

/-- What lies in a range of device physical addresses for a party on die `d`: what its first byte meets, or else its last. -/
def State.rangeAt (s : State) (d pa n : Nat) : Place :=
  match s.placeAt d pa with
  | .present => s.placeAt d (pa + n - 1)
  | p => p

/-- What the A6 meets at a range of a service ring: the trap of the party that sends, or the frame for which it waits. R20 and R473 state no
outcome for an address that is not memory; it is that of Table 23.3 for a translation that gives it (DESIGN CHOICE, log 77). -/
def State.ringMeets (s : State) (d pa n : Nat) (reads : Bool) : Option (Except Nat Trap) :=
  match s.rangeAt d pa n with
  | .absent => some (.ok .xlat)
  | .registers => some (.ok .prot)
  | .scrubbing f => some (.error f)
  | .present => if reads && s.poisoned pa n then some (.ok .ecc) else none

/-- What comes of a request: it is made, or waits, or its party takes a trap. -/
inductive SyscOut where
  | made (s : State) (q : Sysc)
  | wait (w : WaitFor)
  | trap (t : Trap)

/-- One request of a home row or of the U-stream (`row` 0xFF): its entry among the team's requests. The writing of its record is a release
at device scope, which has nothing to wait for (R473; log 2). A request that is not sent is answered at once with all ones; while the ring is
full it waits; a ring that is no memory gives the trap of `State.ringMeets` (DESIGN CHOICE, log 77). -/
def State.sysc (s : State) (t : Team) (row fid d n : Nat) (arg : DWord) : SyscOut :=
  let ringPA := (s.die t.die).svcring
  let answer (r : Option DWord) (tag : Nat) : Sysc := { tag := tag, row := row, d := d, fid := fid, reply := r }
  let add (s : State) (e : Sysc) : State := s.setTeam t.uid (fun t => { t with syscs := t.syscs ++ [e] })
  if 255 < n ∨ (s.pitch t.pitch).svcmask.getLsbD n = false ∨ ringPA = 0 then
    let e := answer (some (-1)) 0
    .made (add s e) e
  else
    match s.ringMeets t.die ringPA.toNat 64 true with
    | some (.ok e) => .trap e
    | some (.error f) => .wait (.scrub f)
    | none =>
      let r := RingHdr.parse (s.bytes ringPA.toNat 64)
      let slot := r.base + 32 * (r.tail % r.cap)
      if r.cap ≤ (r.tail - r.head) then .wait (.serviceRing t.die)
      else
        match s.ringMeets t.die slot 32 false with
        | some (.ok e) => .trap e
        | some (.error f) => .wait (.scrub f)
        | none =>
          let tag := s.pkg.nextTag
          let e := answer none tag
          let s1 := (s.setPkg (fun k => { k with nextTag := tag + 1 })).put t.pitch slot (syscRecord t tag arg n row)
          let s2 := s1.put t.pitch ringPA.toNat (leBytes 8 (r.tail + 1))
          .made (add { s2 with svc := s2.svc ++ [{ tag := tag, uid := t.uid }], outbox := s2.outbox ++ [.service t.die tag] } e) e

/-- The request already made by a row of a fragment. -/
def Team.sysc? (t : Team) (row fid : Nat) : Option Sysc := t.syscs.find? (fun e => e.row == row && e.fid == fid)

/-- Some rows, or the U-stream as 0xFF, take their replies, and their requests are gone. -/
def Team.takeReplies (t : Team) (rows : List Nat) (fid d : Nat) : Team :=
  let t1 := rows.foldl (fun t r =>
    match (t.sysc? r fid).bind (·.reply) with
    | some v => if r = 0xFF then { t with u := t.u.setSreg d v } else t.setSreg r d v
    | none => t) t
  { t1 with syscs := t1.syscs.filter (fun q => !(rows.contains q.row && q.fid == fid)) }

/-- Some rows, or the U-stream as 0xFF, take their replies. The delivery of one that system software gave is an acquire at device scope
(R473). -/
def State.takeReplies (s : State) (uid : Nat) (rows : List Nat) (fid d : Nat) : State :=
  match s.team? uid with
  | none => s
  | some t =>
    let got := rows.filter (fun r => (t.sysc? r fid).any (fun q => q.tag != 0))
    (got.foldl (fun s r => s.acquire 3 t.hdr.twin t.die (if r = 0xFF then t.core else t.coreOf r)) s).setTeam uid
      (fun t => t.takeReplies rows fid d)

/-- The request of one row after those of others: what is still waited for, or the trap that has been met. -/
def syscRow (n d uid fid : Nat) (acc : State × Option (Except Trap WaitFor)) (e : Nat × DWord) : State × Option (Except Trap WaitFor) :=
  match acc.1.team? uid, acc.2 with
  | none, _ | _, some (.error _) => acc
  | some t, _ =>
    match t.sysc? e.1 fid with
    | some q => if q.reply.isSome then acc else (acc.1, acc.2 <|> some (.ok (.service q.tag)))
    | none =>
      match acc.1.sysc t e.1 fid d n e.2 with
      | .made s' q => if q.reply.isSome then (s', acc.2) else (s', acc.2 <|> some (.ok (.service q.tag)))
      | .wait w => (acc.1, acc.2 <|> some (.ok w))
      | .trap e => (acc.1, some (.error e))

/-- The requests of some rows: each is sent once; the instruction issues when every one has its reply. -/
def syscRows (rows : List (Nat × DWord)) (n d uid fid : Nat) (s : State) : Out :=
  let r := rows.foldl (syscRow n d uid fid) (s, none)
  match r.2 with
  | some (.ok w) => .wait r.1 w
  | some (.error e) => trapNow r.1 e
  | none => .done (r.1.takeReplies uid (rows.map (·.1)) fid d)

/-- R177, R473. -/
def execSysc (i : IForm) (s : State) : Host.Outcome State Fault Refusal :=
  let n := i.imm.toNat
  let d := i.d.toNat
  runRU .sysc (.i i)
    (fun c =>
      if c.act.isEmpty then .done c.s
      else if c.t.hdr.det then trapNow c.s .det
      else syscRows ((rowsOf c.act).map (fun r => (r, c.t.sreg r d))) n d c.t.uid c.fid c.s)
    (fun c => if c.t.hdr.det then trapNow c.s .det else syscRows [(0xFF, c.u.sreg d)] n d c.t.uid 0xFFFF c.s) s

end Sys2Proof.Machine
end

