-- ==== Sys2Proof/Machine/Rays.lean ====
section
/-! DEFINITION. The ray instructions, codes 0xD0 to 0xD8 (R352 to R367). Coordinates are whole multiples of 2^−149, and
parameters along a ray are exact fractions. -/

namespace Sys2Proof.Machine

open Sys2Proof

/-! ### Exact values -/

/-- A finite f32 as a multiple of 2^−149; none for an infinity or NaN. -/
def fixOf (x : Word) : Option Int :=
  match ofF32 x with
  | .fin n m e => let v : Int := (m * 2 ^ (e + 149).toNat : Nat); some (if n then -v else v)
  | _ => none

/-- A fraction with a positive denominator. -/
abbrev Frac := Int × Nat

/-- a ≤ b. -/
def Frac.le (a b : Frac) : Bool := decide (a.1 * (b.2 : Int) ≤ b.1 * (a.2 : Int))

/-- n ÷ d for d ≠ 0. -/
def Frac.of (n d : Int) : Frac := if d < 0 then (-n, d.natAbs) else (n, d.natAbs)

/-- RoundNE to f32 of a fraction (R96). -/
def Frac.f32 (a : Frac) : Word :=
  if a.1 = 0 then 0
  else
    let k := 64 + Nat.log2 a.2
    let n := a.1.natAbs * 2 ^ k
    BitVec.ofNat 32 (Fmt.f32.roundMag 0 false (decide (a.1 < 0)) (n / a.2) (-(k : Int)) (n % a.2 != 0))

/-- An extended real. -/
inductive XReal where
  | ninf | fin (x : Frac) | pinf
  deriving DecidableEq, Repr

/-- The extended real of an f32; none for NaN. -/
def xrealOf (x : Word) : Option XReal :=
  match ofF32 x with
  | .nan => none
  | .inf true => some .ninf
  | .inf false => some .pinf
  | .fin .. => (fixOf x).map (fun v => .fin (v, 2 ^ 149))

/-- a ≤ b on extended reals. -/
def XReal.le : XReal → XReal → Bool
  | .ninf, _ => true
  | _, .pinf => true
  | .fin a, .fin b => a.le b
  | _, _ => false

/-- a ≤ b for two f32 words; false when either is NaN. -/
def f32Le (a b : Word) : Bool :=
  match xrealOf a, xrealOf b with
  | some x, some y => x.le y
  | _, _ => false

/-- RoundNE to f32 of an extended real. -/
def XReal.f32 : XReal → Word
  | .ninf => 0xFF800000
  | .pinf => 0x7F800000
  | .fin x => x.f32

/-! ### Boxes and triangles (R354, R359) -/

/-- One axis of a box test: the interval [tlo, thi] clipped to [lo, hi]; none when no point is left on this axis, as in a box whose ends
are out of order. -/
def clipAxis (o d lo hi : Int) (iv : XReal × XReal) : Option (XReal × XReal) :=
  if hi < lo then none
  else if d = 0 then (if lo ≤ o ∧ o ≤ hi then some iv else none)
  else
    let t1 := Frac.of (lo - o) d
    let t2 := Frac.of (hi - o) d
    let a := if t1.le t2 then t1 else t2
    let b := if t1.le t2 then t2 else t1
    some (if iv.1.le (.fin a) then .fin a else iv.1, if (XReal.fin b).le iv.2 then .fin b else iv.2)

/-- The three coordinates of a point, from a word list. -/
def fix3 (ws : List Word) : Option (Int × Int × Int) :=
  match ws with
  | [x, y, z] =>
    match fixOf x, fixOf y, fixOf z with
    | some a, some b, some c => some (a, b, c)
    | _, _, _ => none
  | _ => none

/-- Is some real in the interval: its ends are in order, and it is not a lone infinity? -/
def hasReal (iv : XReal × XReal) : Bool := iv.1.le iv.2 && iv.1 != .pinf && iv.2 != .ninf

/-- The part of a ray segment within a closed box, ends as extended reals; none when the segment does not enter (R354). -/
def clipBox (o d lo hi : Int × Int × Int) (tmin tmax : Word) : Option (XReal × XReal) :=
  match xrealOf tmin, xrealOf tmax with
  | some a, some b =>
    if !hasReal (a, b) then none
    else
      ((clipAxis o.1 d.1 lo.1 hi.1 (a, b)).bind (clipAxis o.2.1 d.2.1 lo.2.1 hi.2.1)).bind (fun iv =>
        (clipAxis o.2.2 d.2.2 lo.2.2 hi.2.2 iv).filter hasReal)
  | _, _ => none

/-- a − b. -/
def sub3 (a b : Int × Int × Int) : Int × Int × Int := (a.1 - b.1, a.2.1 - b.2.1, a.2.2 - b.2.2)

/-- a · b. -/
def dot3 (a b : Int × Int × Int) : Int := a.1 * b.1 + a.2.1 * b.2.1 + a.2.2 * b.2.2

/-- a × b. -/
def cross3 (a b : Int × Int × Int) : Int × Int × Int :=
  (a.2.1 * b.2.2 - a.2.2 * b.2.1, a.2.2 * b.1 - a.1 * b.2.2, a.1 * b.2.1 - a.2.1 * b.1)

/-- k · a. -/
def scale3 (k : Int) (a : Int × Int × Int) : Int × Int × Int := (k * a.1, k * a.2.1, k * a.2.2)

/-- Where a line meets a triangle (R359): t, b₁, b₂ and whether it meets the front. -/
def hitTri (o d v0 v1 v2 : Int × Int × Int) : Option (Frac × Frac × Frac × Bool) :=
  let e1 := sub3 v1 v0
  let e2 := sub3 v2 v0
  let n := cross3 e1 e2
  let den := dot3 d n
  let nn := dot3 n n
  if nn = 0 ∨ den = 0 then none
  else
    let tn := dot3 (sub3 v0 o) n
    let w := sub3 (scale3 tn d) (scale3 den (sub3 v0 o))
    let b1 := Frac.of (dot3 (cross3 w e2) n) (den * nn)
    let b2 := Frac.of (dot3 (cross3 e1 w) n) (den * nn)
    if b1.1 < 0 ∨ b2.1 < 0 ∨ (b1.2 : Int) < b1.1 + b2.1 then none
    else some (Frac.of tn den, b1, b2, decide (den < 0))

/-! ### Records (Tables 19.1 to 19.4) -/

/-- The word at an offset of a record. -/
def wordAt (bs : List Byte) (o : Nat) : Word := BitVec.ofNat 32 (field bs o 4)

/-- `n` words from an offset of a record. -/
def wordsAt (bs : List Byte) (o n : Nat) : List Word := (List.range n).map (fun j => wordAt bs (o + 4 * j))

/-- The kind of child `i` of a node: its type and, for a leaf, its entries. -/
def nodeKind (nd : List Byte) (i : Nat) : Nat × Nat :=
  let k := field nd (56 + i) 1
  (k % 4, k / 4 + 1)

/-- The malformed nodes of R356. -/
def nodeBad (nd : List Byte) (top : Bool) : Bool :=
  field nd 15 1 != 0 || field nd 60 4 != 0 || (List.range 3).any (fun a => field nd (12 + a) 1 == 255)
  || (wordsAt nd 0 3).any (fun w => (fixOf w).isNone)
  || (List.range 4).any (fun i =>
    let (t, n) := nodeKind nd i
    (decide (t < 2) && n != 1) || (t != 0 && (List.range 3).any (fun a =>
      decide (field nd (19 + 6 * i + a) 1 < field nd (16 + 6 * i + a) 1))) || (t == 2 && top))

/-- A corner of child `i`'s box (R354); `at_` is the offset of its quantised corner. -/
def nodeCorner (nd : List Byte) (at_ : Nat) : Int × Int × Int :=
  let one (a : Nat) : Int :=
    ((fixOf (wordAt nd (4 * a))).getD 0) + (field nd (at_ + a) 1 * 2 ^ (field nd (12 + a) 1 + 22) : Nat)
  (one 0, one 1, one 2)

/-- The address that child `i` refers to. -/
def nodeRef (c : RCtx) (nd : List Byte) (i : Nat) : DWord := c.root + BitVec.ofNat 64 (64 * field nd (40 + 4 * i) 4)

/-! ### Traversal (R358 to R361) -/

/-- Why a traversal stops short. -/
inductive RayStop where
  | trap (t : Trap) (va : DWord)
  | fault (va : DWord) (page : Bool)
  | busy (frame : Nat)
  deriving DecidableEq, Repr

/-- A traversal under way: it goes on; it has ended or stopped at a candidate; it stops short. -/
inductive Walk where
  | go (q : Query)
  | halt (q : Query)
  | stop (e : RayStop)
  deriving DecidableEq, Repr

/-- Who traverses: the pitch and die of its reads, and whether as a visibility ray (R367). -/
structure RayEnv where
  pitch : Nat
  die   : Nat
  vis   : Bool := false

/-- A plain read of the ray unit (R361); the reads of a traversal that ends are noted in its query. -/
def State.rayRead (s : State) (v : RayEnv) (va : DWord) (n : Nat) : Except RayStop (List Byte) :=
  match s.readVA v.pitch v.die va n with
  | .ok bs _ _ => .ok bs
  | .trap t va => .error (.trap t va)
  | .recoverable va p => .error (.fault va p)
  | .busy f => .error (.busy f)

/-- The ray of a context, when every component is finite (R363). -/
def RCtx.fixed (c : RCtx) : Option ((Int × Int × Int) × (Int × Int × Int)) :=
  match fix3 (c.ray.take 3), fix3 (c.ray.drop 3) with
  | some o, some d => some (o, d)
  | _, _ => none

/-- Bit `n` of RFLAGS. -/
def Query.flag (q : Query) (n : Nat) : Bool := q.rflags.getLsbD n

/-- Is a hit committed? -/
def Query.hit (q : Query) : Bool := q.hitk != 0

/-- A commit (R360): of the candidate in the query, at t, with a kind and attributes. -/
def Query.commit (q : Query) (kind : Nat) (t hu hv : Word) : Query :=
  { q with tmax := t, hitk := kind, ht := t, hprim := q.cprim, hinst := q.cinst, hgeom := q.cgeom, hfront := q.cfront,
           hu := hu, hv := hv }

/-- No candidate stands. -/
def Query.clearCand (q : Query) : Query :=
  { q with ct := 0, cprim := 0, cinst := 0, cgeom := 0, cfront := 0, cu := 0, cv := 0, ccall := 0, ctexit := 0 }

/-- Traversal ends: HIT when a hit is committed, MISS otherwise (R361). -/
def Query.finish (q : Query) : Query :=
  { q.clearCand with state := if q.hit then 3 else 4, path := [], leafPos := 0, ipos := 0 }

/-- A commit, which under FIRST ends traversal (R360). -/
def Query.committed (q : Query) : Walk := if q.flag 10 then .halt q.finish else .go q.clearCand

/-- Is t in the interval of R360? -/
def Query.admits (q : Query) (t : Word) : Bool :=
  f32Le q.tmin t && f32Le t q.tmax && (!q.hit || !f32Le q.tmax t)

/-- A triangle record meets the ray (R359, R360). -/
def triEntry (c : RCtx) (bs : List Byte) (q : Query) : Walk :=
  match fix3 (wordsAt bs 0 3), fix3 (wordsAt bs 12 3), fix3 (wordsAt bs 24 3) with
  | some v0, some v1, some v2 =>
    let tf := field bs 42 2
    if tf / 2 ≠ 0 ∨ field bs 44 4 ≠ 0 then .stop (.trap .bvh 0)
    else if q.flag 13 then .go q
    else
      match c.fixed.bind (fun r => hitTri r.1 r.2 v0 v1 v2) with
      | none => .go q
      | some (t, b1, b2, fr) =>
        let front := fr.xor (bitOf c.iflags 3)
        if !q.admits t.f32 || (!bitOf c.iflags 2 && (if front then q.flag 12 else q.flag 11)) then .go q
        else
          let o1 := if bitOf c.iflags 0 then true else if bitOf c.iflags 1 then false else bitOf tf 0
          let opaq := if q.flag 8 then true else if q.flag 9 then false else o1
          let q1 := { q with ct := t.f32, cprim := wordAt bs 36, cinst := c.inst, cgeom := BitVec.ofNat 16 (field bs 40 2),
                             cfront := if front then 1 else 0, cu := b1.f32, cv := b2.f32, ccall := 0, ctexit := 0 }
          if opaq then (q1.commit 1 q1.ct q1.cu q1.cv).committed else .halt { q1 with state := 1 }
  | _, _, _ => .stop (.trap .bvh 0)

/-- A procedural primitive record meets the ray (R359, R360, R367). -/
def procEntry (v : RayEnv) (c : RCtx) (bs : List Byte) (q : Query) : Walk :=
  match fix3 (wordsAt bs 0 3), fix3 (wordsAt bs 12 3) with
  | some lo, some hi =>
    let pf := field bs 30 2
    if pf / 2 ≠ 0 then .stop (.trap .bvh 0)
    else if q.flag 14 then .go q
    else
      match c.fixed.bind (fun r => clipBox r.1 r.2 lo hi q.tmin q.tmax) with
      | none => .go q
      | some iv =>
        let q1 := { q with ct := iv.1.f32, ctexit := iv.2.f32, cprim := wordAt bs 24, cinst := c.inst, cgeom := 0, cfront := 0,
                           cu := 0, cv := 0, ccall := BitVec.ofNat 16 (field bs 28 2) }
        if v.vis then (if bitOf pf 0 then (q1.commit 2 q1.ct 0 0).committed else .go q)
        else .halt { q1 with state := 2 }
  | _, _ => .stop (.trap .bvh 0)

/-- The object ray of an instance (R359). -/
def objectRay (m ray : List Word) : List Word :=
  let g (l : List Word) (i : Nat) : FVal := ofF32 (l.getD i 0)
  let row (r base n : Nat) : Word :=
    toF32 (fsum false ((List.range 3).map (fun j => (g m (4 * r + j)).mul (g ray (base + j)))
      ++ (if n = 4 then [g m (4 * r + 3)] else [])))
  (List.range 3).map (fun r => row r 0 4) ++ (List.range 3).map (fun r => row r 3 3)

/-- An instance record: malformed, or the space it opens (R356). -/
def instSpace (c : RCtx) (bs : List Byte) : Except RayStop RCtx :=
  let fl := field bs 61 1
  let blas := field bs 48 8
  if 16 ≤ fl ∨ field bs 62 2 ≠ 0 ∨ fl % 4 = 3 ∨ blas % 64 ≠ 0 ∨ (wordsAt bs 0 12).any (fun w => (fixOf w).isNone) then
    .error (.trap .bvh 0)
  else
    .ok { top := false, root := BitVec.ofNat 64 blas, ray := objectRay (wordsAt bs 0 12) c.ray, inst := wordAt bs 56, iflags := fl }

/-- An instance record that traversal meets: malformed, masked out, or the space it opens (R356, R358). -/
def instEntry (c : RCtx) (bs : List Byte) (mask : Nat) : Except RayStop (Option RCtx) :=
  (instSpace c bs).map (fun c' => if mask &&& field bs 60 1 = 0 then none else some c')

/-- The entries of a leaf from `k` up to `n`, in ascending order; `enter` traverses an instance's structure. -/
def leafWalk (s : State) (v : RayEnv) (enter : RCtx → DWord → Query → Walk) (c : RCtx) (kind n : Nat) (a : DWord) (k : Nat)
    (q : Query) : Walk :=
  ((List.range n).drop k).foldl (fun w j =>
    match w with
    | .go q =>
      let saw (o n : Nat) : Query := { q with leafPos := j + 1, reads := (a + BitVec.ofNat 64 o, n) :: q.reads }
      if kind = 2 then
        match s.rayRead v (a + BitVec.ofNat 64 (48 * j)) 48 with
        | .error e => .stop e
        | .ok bs => triEntry c bs (saw (48 * j) 48)
      else if c.top then
        match s.rayRead v (a + BitVec.ofNat 64 (64 * j)) 64 with
        | .error e => .stop e
        | .ok bs =>
          match instEntry c bs (q.rflags.toNat % 256) with
          | .error e => .stop e
          | .ok none => .go (saw (64 * j) 64)
          | .ok (some c') => enter c' c'.root { saw (64 * j) 64 with ipos := j }
      else
        match s.rayRead v (a + BitVec.ofNat 64 (32 * j)) 32 with
        | .error e => .stop e
        | .ok bs => procEntry v c bs (saw (32 * j) 32)
    | w => w) (.go q)

/-- The children of a node from `i` on, in ascending order. -/
def kidsWalk (s : State) (v : RayEnv) (enter : RCtx → DWord → Query → Walk) (c : RCtx) (nd : List Byte) (i : Nat)
    (q : Query) : Walk :=
  ((List.range 4).drop i).foldl (fun (w : Walk) j =>
    match w with
    | .go q =>
      let (kind, n) := nodeKind nd j
      let inside := c.fixed.bind (fun r =>
        clipBox r.1 r.2 (nodeCorner nd (16 + 6 * j)) (nodeCorner nd (19 + 6 * j)) q.tmin q.tmax)
      if kind = 0 ∨ inside.isNone then .go q
      else
        let up := q.path
        let q1 := { q with path := { ctx := c, node := nd, child := j } :: up }
        match (if kind = 1 then enter c (nodeRef c nd j) q1 else leafWalk s v enter c kind n (nodeRef c nd j) 0 q1) with
        | .go q2 => .go { q2 with path := up }
        | w => w
    | w => w) (.go q)

/-- Traverses the node at an address with `fuel` levels left: 32 at the root (R356). -/
def nodeWalk (s : State) (v : RayEnv) : Nat → RCtx → DWord → Query → Walk
  | 0, _, _, _ => .stop (.trap .bvh 0)
  | fuel + 1, c, a, q =>
    match s.rayRead v a 64 with
    | .error e => .stop e
    | .ok nd => if nodeBad nd c.top then .stop (.trap .bvh 0)
      else kidsWalk s v (nodeWalk s v fuel) c nd 0 { q with reads := (a, 64) :: q.reads }

/-- The context of the world ray: of the top level, or of the identity instance under BLAS (R352). -/
def Query.world (q : Query) : RCtx := { top := !q.flag 15, root := q.root, ray := q.org ++ q.dir }

/-- A ray whose traversal ends with MISS (R363), or whose identity instance is masked out (R352, R358). -/
def Query.barren (q : Query) : Bool :=
  (q.org ++ q.dir).any (fun w => (fixOf w).isNone) || (xrealOf q.tmin).isNone || (xrealOf q.tmax).isNone
  || !f32Le q.tmin q.tmax || (q.flag 15 && q.rflags.toNat % 256 == 0)

/-- The rest of a path: what is left of the current leaf at `k`, then of each node up to the root. -/
def restWalk (s : State) (v : RayEnv) : List PathNode → Nat → Query → Walk
  | [], _, q => .go q
  | p :: up, k, q =>
    let fuel := 31 - up.length
    let enter := nodeWalk s v fuel
    let (kind, n) := nodeKind p.node p.child
    let w1 := if kind = 1 then Walk.go q
      else leafWalk s v enter p.ctx kind n (nodeRef p.ctx p.node p.child) k { q with path := p :: up }
    match w1 with
    | .go q1 =>
      match kidsWalk s v enter p.ctx p.node (p.child + 1) { q1 with path := up } with
      | .go q2 =>
        let k' := match up with
          | u :: _ => if u.ctx.top && !p.ctx.top then q.ipos + 1 else 64
          | [] => 64
        restWalk s v up k' q2
      | w => w
    | w => w

/-- Traversal advances from the query's place (R361). -/
def Query.advance (s : State) (v : RayEnv) (q : Query) : Walk :=
  let w := if q.state = 0 ∧ q.path = [] then
      (if q.barren then Walk.go q else nodeWalk s v 32 q.world q.root q)
    else restWalk s v q.path q.leafPos q.clearCand
  match w with
  | .go q1 => .halt q1.finish
  | w => w

/-! ### One thread at a time -/

/-- What one thread's part of an instruction answers: its changes and register writes, a trap, or a recoverable fault. -/
inductive Solo where
  | ok (f : State → State) (ws : List RegW)
  | trap (t : Trap) (va : DWord)
  | fault (va : DWord) (page : Bool) (fl : Nat)
  | busy (frame : Nat)

/-- The answer of a traversal that stops short. -/
def RayStop.solo : RayStop → Solo
  | .trap t va => .trap t va
  | .fault va p => .fault va p 0
  | .busy f => .busy f

/-- Each thread whose guard is true computes its part; the lowest trap is taken and then none acts (R207); threads that meet
a recoverable fault park, the others complete (R217). -/
def soloOp (f : Ctx → Thread → Solo) (c : Ctx) : Out :=
  let rs := c.act.map (fun h => (h, f c h))
  match lowest (rs.map (fun r =>
      match r.2 with
      | .trap e _ => some e
      | _ => none)) with
  | some e =>
    .trap c.s { code := e.code, va := (rs.findSome? (fun r =>
      match r.2 with
      | .trap e' va => if e' = e then some va else none
      | _ => none)).getD 0 }
  | none =>
    match rs.findSome? (fun r =>
        match r.2 with
        | .busy f => some f
        | _ => none) with
    | some f => .wait c.s (.scrub f)
    | none =>
      .done (rs.foldl (fun s r =>
        match r.2 with
        | .ok g ws => (g s).setTeam c.t.uid (fun t => t.commit c.md r.1.row r.1.pos ws)
        | .fault va p fl => s.park c.t.uid c.cur r.1 fl va p
        | _ => s) c.s)

/-- The same where the parts are served one after another, in ascending row position: the traps are those of all parts as they stand
at issue, and each part then acts on what the ones before it left (R351). -/
def soloSeq (f : Ctx → State → Thread → Solo) (c : Ctx) : Out :=
  match soloOp (fun c h => f c c.s h) c with
  | .done _ =>
    .done (c.act.foldl (fun s h =>
      match f c s h with
      | .ok g ws => (g s).setTeam c.t.uid (fun t => t.commit c.md h.row h.pos ws)
      | .fault va p fl => s.park c.t.uid c.cur h fl va p
      | _ => s) c.s)
  | r => r

/-- The reads of a thread's ray unit. -/
def Ctx.rayEnv (c : Ctx) : RayEnv := { pitch := c.t.pitch, die := c.t.die }

/-- A 16-byte aligned range, a multiple of 16 bytes long, in its 16-byte pieces: none of them crosses a line or a page. -/
def pieces16 (va : DWord) (n : Nat) : List (DWord × Nat) := (List.range (n / 16)).map (fun j => (va + BitVec.ofNat 64 (16 * j), 16))

/-- The lines that a thread's traversal has read are in the caches, at the policy of their pages (R361). -/
def Ctx.rayFill (c : Ctx) (h : Thread) (q : Query) (s : State) : State :=
  q.reads.foldr (fun r s => (pieces16 r.1 r.2).foldl (fun s p =>
    match s.reach c.t.pitch c.t.die .read false [p] with
    | .ok ks cached => s.fillPieces c.t.pitch c.t.die (c.t.coreOf h.row) .l1 [p] ks cached false
    | _ => s) s) s

/-- Sets a thread's query, after the reads that led to it. -/
def setQuery (c : Ctx) (h : Thread) (q : Query) (s : State) : State :=
  (c.rayFill h q s).setTeam c.t.uid (fun t => t.setThread h.row h.pos (fun g => { g with query := { q with reads := [] } }))

/-- A traversal's outcome for a thread: the query, and its status in D. -/
def walkSolo (c : Ctx) (h : Thread) (d : Nat) (w : Walk) : Solo :=
  match w with
  | .stop e => e.solo
  | .go q | .halt q => .ok (setQuery c h q) [wV d (BitVec.ofNat 32 q.state) .n32]

/-- The registers of a group, pair or triple from a field on. -/
def Thread.group (h : Thread) (n k : Nat) : List VReg := (List.range k).map (fun j => h.reg (n + j))

/-- A group's tag checks. -/
def groupOk (raw : Bool) (ts : List Tag) (rs : List VReg) : Bool :=
  (ts.zip rs).all (fun e => e.2.tag == e.1 || (raw && e.2.tag == .b32))

/-- The operands of `rqbegin` and `rtvis` as a READY query (R363). -/
def rayOperands (f : FForm) (c : Ctx) (h : Thread) : Except Trap Query :=
  let ws := h.group f.a.toNat 8
  let fl := h.src c.cur.idx f.b.toNat
  let root := c.t.sreg h.row f.c.toNat
  let w (i : Nat) : Word := (ws.getD i {}).val
  if !groupOk (f.mb 4) (List.replicate 8 .f32) ws || !tagOk .n32 (f.mb 4) fl then .error .fmt
  else if 2 ^ 16 ≤ fl.w.toNat ∨ (fl.w.getLsbD 8 ∧ fl.w.getLsbD 9) ∨ root.toNat % 64 ≠ 0 then .error .prot
  else
    .ok { org := [w 0, w 1, w 2], tmin := w 3, dir := [w 4, w 5, w 6], tmax := w 7, root := root, rflags := fl.w, state := 0 }

/-- R363. -/
def execRqbegin (f : FForm) (s : State) : Host.Outcome State Fault Refusal :=
  runRow .rqbegin (.f f) (soloOp (fun c h =>
    match rayOperands f c h with
    | .error e => .trap e 0
    | .ok q => .ok (setQuery c h q) [wV f.d.toNat 0 .n32])) s

/-- R364: READY advances; HIT and MISS stand. -/
def execRqstep (f : FForm) (s : State) : Host.Outcome State Fault Refusal :=
  runRow .rqstep (.f f) (soloOp (fun c h =>
    match h.query.state with
    | 0 => walkSolo c h f.d.toNat (h.query.advance c.s c.rayEnv)
    | 3 | 4 => .ok id [wV f.d.toNat (BitVec.ofNat 32 h.query.state) .n32]
    | _ => .trap .prot 0)) s

/-- After a commit by instruction: END and FIRST finish as HIT, otherwise traversal advances (R360, R364). -/
def afterCommit (c : Ctx) (endBit : Bool) (q : Query) : Walk :=
  if endBit || q.flag 10 then .halt q.finish else q.advance c.s c.rayEnv

/-- R364. -/
def execRqcommit (f : FForm) (s : State) : Host.Outcome State Fault Refusal :=
  runRow .rqcommit (.f f) (soloOp (fun c h =>
    let q := h.query
    if q.state ≠ 1 then .trap .prot 0
    else walkSolo c h f.d.toNat (afterCommit c (f.mb 0) (q.commit 1 q.ct q.cu q.cv)))) s

/-- The path after the current instance: its nodes are left, and the instance leaf goes on after it; under BLAS nothing is
left (R364). -/
def Query.leaveInstance (q : Query) : Query :=
  { q with path := q.path.dropWhile (fun p => !p.ctx.top), leafPos := q.ipos + 1 }

/-- R364. -/
def execRqskip (f : FForm) (s : State) : Host.Outcome State Fault Refusal :=
  runRow .rqskip (.f f) (soloOp (fun c h =>
    let q := h.query
    if q.state ≠ 1 ∧ q.state ≠ 2 then .trap .prot 0
    else walkSolo c h f.d.toNat ((if f.mb 0 then q.leaveInstance else q).advance c.s c.rayEnv))) s

/-- R364. -/
def execRqresume (f : FForm) (s : State) : Host.Outcome State Fault Refusal :=
  runRow .rqresume (.f f) (soloOp (fun c h =>
    let q := h.query
    let t := c.vA f h
    let attr := h.src c.cur.idx f.b.toNat
    if !tagOk .f32 (f.mb 4) t then .trap .fmt 0
    else if q.state ≠ 2 then .trap .prot 0
    else
      walkSolo c h f.d.toNat
        (if f32Le q.ct t.w && f32Le t.w q.ctexit && (!q.hit || !f32Le q.tmax t.w) then
          afterCommit c (f.mb 0) (q.commit 2 t.w attr.w 0)
         else q.advance c.s c.rayEnv))) s

/-- A field of Table 19.9 with its tag. -/
def Query.get (q : Query) (f : Nat) : Word × Tag :=
  let cand := q.state == 1 || q.state == 2
  let c (w : Word) (t : Tag) : Word × Tag := (if cand then w else 0, t)
  let hw (w none : Word) (t : Tag) : Word × Tag := (if q.hit then w else none, t)
  let ray (i : Nat) : Word × Tag :=
    (((if cand then (q.path.head?.map (·.ctx.ray)).getD (q.org ++ q.dir) else q.org ++ q.dir).getD i 0), .f32)
  match f with
  | 0 => (BitVec.ofNat 32 q.state, .n32)
  | 1 => hw q.ht 0x7F800000 .f32
  | 2 => hw q.hprim 0xFFFFFFFF .n32
  | 3 => hw q.hinst 0xFFFFFFFF .n32
  | 4 => hw (q.hgeom.zeroExtend 32) 0 .n32
  | 5 => hw q.hu 0 (if q.hitk = 2 then .b32 else .f32)
  | 6 => hw q.hv 0 (if q.hitk = 2 then .b32 else .f32)
  | 7 => hw (q.hfront.zeroExtend 32) 0 .n32
  | 8 => c q.ct .f32
  | 9 => c q.cprim .n32
  | 10 => c q.cinst .n32
  | 11 => c (q.cgeom.zeroExtend 32) .n32
  | 12 => c q.cu .f32
  | 13 => c q.cv .f32
  | 14 => c (q.cfront.zeroExtend 32) .n32
  | 15 => c (q.ccall.zeroExtend 32) .n32
  | 22 => (q.tmin, .f32)
  | 23 => (q.tmax, .f32)
  | 24 => c q.ctexit .f32
  | n => ray (n - 16)

/-- R365. -/
def execRqget (f : FForm) (s : State) : Host.Outcome State Fault Refusal :=
  runRow .rqget (.f f) (lanes (fun _ h =>
    if h.query.state = 5 then .error .prot
    else
      let r := h.query.get (f.m 0 5)
      .ok [wV f.d.toNat r.1 r.2])) s

/-- R367. -/
def execRtvis (f : FForm) (s : State) : Host.Outcome State Fault Refusal :=
  runRow .rtvis (.f f) (soloOp (fun c h =>
    match rayOperands f c h with
    | .error e => .trap e 0
    | .ok q =>
      match Query.advance c.s { c.rayEnv with vis := true } { q with rflags := (q.rflags ||| 0x500) &&& ~~~0x200 } with
      | .stop e => e.solo
      | .go r | .halt r => .ok (c.rayFill h r) [wV f.d.toNat (if r.hit then 0 else 1) .n32])) s

/-! ### The saved image (R366, Table 19.10) -/

/-- The trail of a path: the child index at level i in bits [2i+1:2i]. -/
def trailOf (path : List PathNode) : Nat := path.reverse.zipIdx.foldl (fun acc e => acc + e.1.child * 4 ^ e.2) 0

/-- The 128 bytes of a query. -/
def Query.image (q : Query) : List Byte :=
  let w (x : Word) : List Byte := leBytes 4 x.toNat
  let h (x : BitVec 16) : List Byte := leBytes 2 x.toNat
  q.org.flatMap w ++ w q.tmin ++ q.dir.flatMap w ++ w q.tmax ++ leBytes 8 q.root.toNat ++ w q.rflags
  ++ leBytes 1 q.state ++ leBytes 1 1 ++ leBytes 1 q.path.length ++ leBytes 1 (q.path.filter (fun p => p.ctx.top)).length
  ++ leBytes 8 (trailOf q.path) ++ leBytes 1 q.leafPos ++ leBytes 1 q.hitk ++ leBytes 1 q.ipos ++ leBytes 1 0
  ++ w q.ht ++ w q.hprim ++ w q.hinst ++ h q.hgeom ++ h q.hfront ++ w q.hu ++ w q.hv
  ++ w q.ct ++ w q.cprim ++ w q.cinst ++ h q.cgeom ++ h q.cfront ++ w q.cu ++ w q.cv ++ h q.ccall ++ leBytes 2 0
  ++ w q.ctexit ++ leBytes 12 0

/-- The fields of an image, the path apart. -/
def Query.parse (bs : List Byte) : Query :=
  let w := wordAt bs
  let h (o : Nat) : BitVec 16 := BitVec.ofNat 16 (field bs o 2)
  { org := wordsAt bs 0 3, tmin := w 12, dir := wordsAt bs 16 3, tmax := w 28, root := BitVec.ofNat 64 (field bs 32 8),
    rflags := w 40, state := field bs 44 1, leafPos := field bs 56 1, hitk := field bs 57 1, ipos := field bs 58 1,
    ht := w 60, hprim := w 64, hinst := w 68, hgeom := h 72, hfront := h 74, hu := w 76, hv := w 80, ct := w 84, cprim := w 88,
    cinst := w 92, cgeom := h 96, cfront := h 98, cu := w 100, cv := w 104, ccall := h 108, ctexit := w 112 }

/-- The limits of an image (R366). The reserved bits [31:16] of RFLAGS are two of its reserved bytes (DEDUCED, log 63). -/
def imageBad (bs : List Byte) : Bool :=
  field bs 42 2 != 0 || field bs 45 1 != 1 || decide (4 < field bs 44 1) || field bs 59 1 != 0 || field bs 110 2 != 0 || field bs 116 12 != 0
  || decide (32 < field bs 46 1) || decide (field bs 46 1 < field bs 47 1)

/-- The descent of a trail: `n` levels from level `i` on, the node at `a` first. A node or child that does not lead on fails
as R356 does (log 19); whether the mask would enter an instance is not asked, nor which level TDEPTH gives. The answer is the path and
the reads made. -/
def descend (s : State) (v : RayEnv) (trail ipos : Nat) : Nat → Nat → RCtx → DWord → List PathNode → List (DWord × Nat) →
    Except RayStop (List PathNode × List (DWord × Nat))
  | 0, _, _, _, path, rs => .ok (path, rs)
  | n + 1, i, c, a, path, rs =>
    match s.rayRead v a 64 with
    | .error e => .error e
    | .ok nd =>
      let j := bits trail (2 * i) 2
      let (kind, m) := nodeKind nd j
      let path1 := { ctx := c, node := nd, child := j } :: path
      let rs1 := (a, 64) :: rs
      if nodeBad nd c.top ∨ kind = 0 then .error (.trap .bvh 0)
      else if n = 0 then (if kind = 1 then .error (.trap .bvh 0) else .ok (path1, rs1))
      else if kind = 1 then descend s v trail ipos n (i + 1) c (nodeRef c nd j) path1 rs1
      else if kind = 3 ∧ c.top ∧ ipos < m then
        let ia := nodeRef c nd j + BitVec.ofNat 64 (64 * ipos)
        match s.rayRead v ia 64 with
        | .error e => .error e
        | .ok bs =>
          match instSpace c bs with
          | .error e => .error e
          | .ok c' => descend s v trail ipos n (i + 1) c' c'.root path1 ((ia, 64) :: rs1)
      else .error (.trap .bvh 0)

/-- The query of an image: its path re-derived (R366). -/
def loadQuery (s : State) (v : RayEnv) (bs : List Byte) : Except RayStop Query :=
  if imageBad bs then .error (.trap .prot 0)
  else
    let q := Query.parse bs
    match descend s v (field bs 48 8) q.ipos (field bs 46 1) 0 q.world q.root [] [] with
    | .ok p => .ok { q with path := p.1, reads := p.2 }
    | .error (.trap .bvh _) => .error (.trap .prot 0)
    | .error e => .error e

/-- The place of an image in a space: a virtual address, or a team's memory. -/
def imagePlace (f : FForm) (c : Ctx) (h : Thread) : Except Trap (Sum DWord (Nat × Nat)) :=
  let sp := f.m 4 2
  if sp = 0 then
    let a := gBase c.t.rcd.window f (c.env h)
    match aligned 16 a with
    | .error e => .error e
    | .ok () => .ok (.inl a)
  else
    match aligned 16 (tBase f (c.env h)) with
    | .error e => .error e
    | .ok () =>
      match c.s.spacePlace c.t sp (tBase f (c.env h)) with
      | .error e => .error e
      | .ok (uid, o) => if (((c.s.team? uid).map (·.hdr.tmem)).getD 0) < o + 128 then .error .prot else .ok (.inr (uid, o))

/-- R366. -/
def execRqsave (f : FForm) (s : State) : Host.Outcome State Fault Refusal :=
  runRow .rqsave (.f f) (fun c =>
    soloOp (fun c h =>
      match imagePlace f c h with
      | .error e => .trap e 0
      | .ok pl =>
        if h.query.state = 5 then .trap .prot 0
        else
          let bs := h.query.image
          match pl with
          | .inr (uid, o) => .ok (fun s => s.setTeam uid (fun t => t.writeBytes o bs)) []
          | .inl a =>
            let ps := pieces16 a 128
            match c.s.reach c.t.pitch c.t.die .write false ps with
            | .ok ks cached =>
              .ok (fun s => (s.scatter ps ks bs).fillPieces c.t.pitch c.t.die (c.t.coreOf h.row) .l1 ps ks cached true) []
            | .trap t => .trap t a
            | .recoverable va p => .fault va p 1
            | .busy f => .busy f) c) s

/-- R366. -/
def execRqload (f : FForm) (s : State) : Host.Outcome State Fault Refusal :=
  runRow .rqload (.f f) (soloOp (fun c h =>
    let make (bs : List Byte) (rs : List (DWord × Nat)) : Solo :=
      match loadQuery c.s c.rayEnv bs with
      | .ok q => .ok (setQuery c h { q with reads := q.reads ++ rs }) []
      | .error e => e.solo
    match imagePlace f c h with
    | .error e => .trap e 0
    | .ok (.inr (uid, o)) => make (((c.s.team? uid).map (fun t => t.bytes o 128)).getD []) []
    | .ok (.inl a) =>
      match c.s.rayRead c.rayEnv a 128 with
      | .error e => e.solo
      | .ok bs => make bs [(a, 128)])) s

end Sys2Proof.Machine
end

