-- ==== Sys2Proof/Machine/Reservoir.lean ====
section
/-! DEFINITION. The reservoir, random-number and light-sampling instructions, codes 0xD9 to 0xDF (R370 to R378). -/

namespace Sys2Proof.Machine

open Sys2Proof

/-! ### Reservoir records (R370, Table 19.14) -/

/-- The tags of the eight words. -/
def rsvTags : List Tag := [.n32, .f32, .f32, .f32, .n32, .f32, .f32, .n32]

/-- A reservoir by fields. -/
structure Rsv where
  y    : Word
  wsum : Word
  w    : Word
  phat : Word
  m    : Nat
  age  : Nat
  u    : Word
  v    : Word
  fl   : Word
  deriving DecidableEq, Repr

/-- The reservoir of eight words. -/
def Rsv.ofWords (ws : List Word) : Rsv :=
  let g (i : Nat) : Word := ws.getD i 0
  { y := g 0, wsum := g 1, w := g 2, phat := g 3, m := (g 4).toNat % 65536, age := (g 4).toNat / 65536, u := g 5, v := g 6,
    fl := g 7 }

/-- Its eight words. -/
def Rsv.words (r : Rsv) : List Word :=
  [r.y, r.wsum, r.w, r.phat, BitVec.ofNat 32 (r.m + 65536 * r.age), r.u, r.v, r.fl]

/-- The null sample. -/
def nullSample : Word := 0xFFFFFFFF

/-- The register writes of a group. -/
def groupWrites (d : Nat) (ts : List Tag) (ws : List Word) : List RegW :=
  ((ws.zip ts).zipIdx).map (fun e => wV (d + e.2) e.1.1 e.1.2)

/-- A reservoir group of a thread, with its tag check. -/
def Thread.rsv (h : Thread) (raw : Bool) (n : Nat) : Except Trap Rsv :=
  let rs := h.group n 8
  if groupOk raw rsvTags rs then .ok (Rsv.ofWords (rs.map (·.val))) else .error .fmt

/-! ### Arithmetic (R372 to R374) -/

/-- The weight of a candidate: NaN, a negative and +∞ count as 0, and are bad (R372). -/
def saneWeight (w : Word) : Word × Bool :=
  match ofF32 w with
  | .fin n m _ => if n && m != 0 then (0, true) else (w, false)
  | _ => (0, true)

/-- u × ws < w on extended reals, u being draw ÷ 256 in units of 2^−24 (R372). -/
def drawBelow (draw ws w : Word) : Bool :=
  let u := draw.toNat / 256
  u == 0 ||
  match ofF32 ws, fixOf w with
  | .fin .., some x => decide ((u : Int) * ((fixOf ws).getD 0) < x * 2 ^ 24)
  | .inf n, _ => n
  | _, _ => false

/-- A candidate is streamed into the reservoir: `w` its weight, `age` the age on acceptance, `m` what M grows by (R372). -/
def Rsv.stream (r : Rsv) (y w phat u v : Word) (bad : Bool) (age m : Nat) (draw : Word) : Rsv :=
  let ws := toF32 (fsum false [ofF32 r.wsum, ofF32 w])
  let acc := (ofF32 w).isZero == false && drawBelow draw ws w
  let fl := (r.fl ||| (if bad then 1 else 0)) &&& ~~~2
  let r1 := { r with wsum := ws, m := min (r.m + m) 65535, fl := if acc then fl ||| 2 else fl }
  if acc then { r1 with y := y, phat := phat, u := u, v := v, age := age } else r1

/-- R373: the neighbour is merged into the owner. -/
def Rsv.merge (r nb : Rsv) (phat2 draw : Word) : Rsv :=
  let (w, bad) := if nb.y = nullSample then (0, false)
    else saneWeight (toF32 ((ofF32 (toF32 ((ofF32 phat2).mul (ofF32 nb.w)))).mul (.fin false nb.m 0)))
  r.stream nb.y w phat2 nb.u nb.v bad nb.age nb.m draw

/-- A negative value; −0 is not one (R374). -/
def isNegative (w : Word) : Bool :=
  match ofF32 w with
  | .nan => false
  | .inf n => n
  | .fin n m _ => n && m != 0

/-- R374. -/
def Rsv.norm (r : Rsv) : Rsv :=
  let nan := (ofF32 r.wsum).isNan || (ofF32 r.phat).isNan
  if nan || isNegative r.wsum || isNegative r.phat then { r with y := nullSample, w := 0, fl := r.fl ||| 1 }
  else if r.y = nullSample ∨ (ofF32 r.wsum).isZero ∨ (ofF32 r.phat).isZero ∨ r.m = 0 then { r with y := nullSample, w := 0 }
  else { r with w := fdiv 0 false (ofF32 r.wsum) (ofF32 (toF32 ((FVal.fin false r.m 0).mul (ofF32 r.phat)))) }

/-- An instruction that rewrites the reservoir of group D. -/
def rsvOp (o : Opc) (f : FForm) (raw : Bool) (g : Ctx → Thread → Rsv → Except Trap Rsv) (s : State) :
    Host.Outcome State Fault Refusal :=
  runRow o (.f f) (lanes (fun c h =>
    match h.rsv raw f.d.toNat with
    | .error e => .error e
    | .ok r => (g c h r).map (fun r' => groupWrites f.d.toNat rsvTags r'.words))) s

/-- R372. -/
def execRsvupd (f : FForm) (s : State) : Host.Outcome State Fault Refusal :=
  let raw := f.mb 4
  rsvOp .rsvupd f raw (fun c h r =>
    let cs := h.group f.a.toNat 5
    let dr := h.src c.cur.idx f.b.toNat
    let w (i : Nat) : Word := (cs.getD i {}).val
    if !groupOk raw [.n32, .f32, .f32, .f32, .f32] cs || !tagOk .n32 raw dr then .error .fmt
    else
      let x := saneWeight (w 1)
      .ok (r.stream (w 0) x.1 (w 2) (w 3) (w 4) x.2 0 1 dr.w)) s

/-- R373. -/
def execRsvmrg (f : FForm) (s : State) : Host.Outcome State Fault Refusal :=
  let raw := f.mb 4
  rsvOp .rsvmrg f raw (fun c h r => do
    let nb ← h.rsv raw f.a.toNat
    let ph := h.src c.cur.idx f.b.toNat
    let dr := h.src c.cur.idx f.c.toNat
    if !tagOk .f32 raw ph || !tagOk .n32 raw dr then .error .fmt else .ok (r.merge nb ph.w dr.w)) s

/-- R374. -/
def execRsvnorm (f : FForm) (s : State) : Host.Outcome State Fault Refusal :=
  rsvOp .rsvnorm f false (fun _ _ r => .ok r.norm) s

/-! ### Loads and stores (R371, R378) -/

/-- The device address of an RVS offset of the team's window on its die (R378); PROT beyond RVSLEN. -/
def rvsPlace (t : Team) (n : Nat) (o : DWord) : Except Trap Nat :=
  if o.toNat % n ≠ 0 then .error .aln
  else if t.rcd.rvslen < o.toNat + n then .error .prot
  else .ok (rvsBase + 2 ^ 32 * t.die + t.rcd.rvsoff + o.toNat)

/-- A reservoir's place for a thread: a virtual address, a team's memory, or a device address of the RVS. -/
inductive RsvPlace where
  | va (a : DWord)
  | mem (uid o : Nat)
  | rvs (pa : Nat)

/-- The place of a 32-byte record (R204, R205, R371, R378). -/
def rsvAt (f : FForm) (n : BitVec 7) (c : Ctx) (h : Thread) : Except Trap RsvPlace :=
  let e := c.env h
  match f.m 4 2 with
  | 0 =>
    let a := gBase c.t.rcd.window f e + indexOf f n 32 e
    (aligned 32 a).map (fun _ => .va a)
  | 3 =>
    match rvsPlace c.t 32 (tBase f e + indexOf f n 32 e) with
    | .error x => .error x
    | .ok k => if c.s.place c.t.pitch c.t.die k = .present then .ok (.rvs k) else .error .xlat
  | sp => (c.s.localPlace c.t (sp == 2) 32 (tBase f e + indexOf f n 32 e)).map (fun p => .mem p.1 p.2)

/-- R371. -/
def execRsvld (f : FForm) (s : State) : Host.Outcome State Fault Refusal :=
  runRow .rsvld (.f f) (soloOp (fun c h =>
    let ws (bs : List Byte) : List RegW := groupWrites f.d.toNat rsvTags (wordsAt bs 0 8)
    match rsvAt f f.b c h with
    | .error e => .trap e 0
    | .ok (.mem uid o) => .ok id (ws (((c.s.team? uid).map (fun t => t.bytes o 32)).getD []))
    | .ok (.rvs k) => if c.s.poisoned k 32 then .trap .ecc 0 else .ok id (ws (c.s.bytes k 32))
    | .ok (.va a) =>
      match c.s.readVA c.t.pitch c.t.die a 32 with
      | .ok bs k cached => .ok (fun s => s.fillFor c.t.pitch c.t.die (c.t.coreOf h.row) .l1 a k cached false) (ws bs)
      | .trap t va => .trap t va
      | .recoverable va p => .fault va p 0
      | .busy x => .busy x)) s

/-- R371: threads act in ascending row position (R210). -/
def execRsvst (f : FForm) (s : State) : Host.Outcome State Fault Refusal :=
  runRow .rsvst (.f f) (soloOp (fun c h =>
    match h.rsv (f.mb 3) f.b.toNat with
    | .error e => .trap e 0
    | .ok r =>
      let bs := r.words.flatMap (fun w => leBytes 4 w.toNat)
      match rsvAt f f.c c h with
      | .error e => .trap e 0
      | .ok (.mem uid o) => .ok (fun s => s.setTeam uid (fun t => t.writeBytes o bs)) []
      | .ok (.rvs k) => .ok (fun s => s.writeBytes k bs) []
      | .ok (.va a) =>
        match c.s.translate c.t.pitch c.t.die a .write with
        | .ok k cached => .ok (fun s => (s.writeBytes k bs).fillFor c.t.pitch c.t.die (c.t.coreOf h.row) .l1 a k cached true) []
        | .trap t => .trap t a
        | .recoverable p => .fault a p 1
        | .busy x => .busy x)) s

/-! ### Random numbers (R375) -/

/-- Ten rounds of Philox-4×32 from round `r`: the four counter words and the two key words. -/
def philoxRounds : Nat → Word × Word × Word × Word → Word × Word → Word
  | 0, c, _ => c.1
  | n + 1, (c0, c1, c2, c3), (k0, k1) =>
    let p0 : DWord := 0xD2511F53 * c0.zeroExtend 64
    let p1 : DWord := 0xCD9E8D57 * c2.zeroExtend 64
    philoxRounds n ((p1 >>> 32).truncate 32 ^^^ c1 ^^^ k0, p1.truncate 32, (p0 >>> 32).truncate 32 ^^^ c3 ^^^ k1, p0.truncate 32)
      (k0 + 0x9E3779B9, k1 + 0xBB67AE85)

/-- The hash-mode draw. -/
def philox (n : DWord) (stream : Word) (key : DWord) : Word :=
  philoxRounds 10 (n.truncate 32, (n >>> 32).truncate 32, stream, 0) (key.truncate 32, (key >>> 32).truncate 32)

/-- RngDraw: under REPLAY a word of the table in team memory, otherwise the hash (R375). -/
def rngDraw (t : Team) (replay : Bool) (tab : Nat) (key n : DWord) (stream : Word) : Except Trap Word :=
  if replay then
    let o := tab + 4 * (n.toNat % 16)
    if t.hdr.tmem < o + 4 then .error .prot else .ok (BitVec.ofNat 32 (leNat (t.bytes o 4)))
  else .ok (philox n stream key)

/-- R375. -/
def execRng (f : FForm) (s : State) : Host.Outcome State Fault Refusal :=
  runRow .rng (.f f) (lanes (fun c h => do
    let a := c.vA f h
    let b := h.src c.cur.idx f.b.toNat
    needTags [tagOk .n64 (f.mb 4) a, tagOk .n32 (f.mb 4) b]
    let x ← rngDraw c.t c.t.replay c.t.rcd.rngTab h.rngKey a.dw b.w
    .ok [wV f.d.toNat x .n32])) s

/-! ### Light trees (R376, R377) -/

/-- A node that R377 gives to the trap BVH: a NaN bound, a NaN or negative POWER, a child index beyond 2^31 − 2. -/
def lightBad (nd : List Byte) : Bool :=
  let ch := field nd 28 4
  (wordsAt nd 0 7).any (fun w => (ofF32 w).isNan) || isNegative (wordAt nd 24) || (!bitOf ch 31 && decide (2 ^ 31 - 2 < ch))

/-- A squared length. -/
def norm3 (a : Int × Int × Int) : Nat := (dot3 a a).natAbs

/-- The importance of a node at a point, up to a factor common to both children; none is +∞ (R376). Where a bound, the power
or the point is not finite, the value is open, and depends on nothing else (R84, log 20). -/
def importance (nd : List Byte) (x : List Word) : Option (Nat × Nat) :=
  match fixOf (wordAt nd 24), fix3 (wordsAt nd 0 3), fix3 (wordsAt nd 12 3), fix3 x with
  | some p, some lo, some hi, some x =>
    if p = 0 then some (0, 1)
    else
      let m := max (norm3 (sub3 (sub3 (scale3 2 x) lo) hi)) (norm3 (sub3 hi lo))
      if m = 0 then none else some (p.natAbs, m)
  | some 0, _, _, _ => some (0, 1)
  | _, _, _, _ => (Config.lightImportance nd x).map (fun e => (e.1, e.2 + 1))

/-- The walk from a node, with `n` levels left: the emitter and the probability as an exact fraction. -/
def lightWalk (s : State) (v : RayEnv) (root : DWord) (x : List Word) (draw : Nat → Except Trap Word) :
    Nat → Nat → Nat → Frac → Except RayStop (Word × Word)
  | 0, _, _, _ => .error (.trap .bvh 0)
  | n + 1, l, i, p =>
    let get (j : Nat) : Except RayStop (List Byte) := s.rayRead v (root + BitVec.ofNat 64 (32 * j)) 32
    match get i with
    | .error e => .error e
    | .ok nd =>
      let ch := field nd 28 4
      if lightBad nd then .error (.trap .bvh 0)
      else if bitOf ch 31 then .ok (BitVec.ofNat 32 (ch % 2 ^ 31), p.f32)
      else
        match get ch, get (ch + 1) with
        | .error e, _ => .error e
        | _, .error e => .error e
        | .ok a, .ok b =>
          if lightBad a || lightBad b then .error (.trap .bvh 0)
          else
            let il := importance a x
            let ir := importance b x
            let draws := (draw l).map (fun d => d.toNat / 256)
            -- IL and IR over a common denominator
            let sum := match il, ir with
              | some (ln, ld), some (rn, rd) => ln * rd + rn * ld
              | _, _ => 1
            if (il.isNone ∧ ir.isNone) ∨ sum = 0 then .ok (nullSample, 0)
            else
              match draws, il, ir with
              | .error e, _, _ => .error (.trap e 0)
              | .ok _, none, _ => lightWalk s v root x draw n (l + 1) ch p
              | .ok _, some _, none => lightWalk s v root x draw n (l + 1) (ch + 1) p
              | .ok u, some (ln, ld), some (rn, rd) =>
                if u * sum < ln * rd * 2 ^ 24 then lightWalk s v root x draw n (l + 1) ch (p.1 * (ln * rd : Nat), p.2 * sum)
                else lightWalk s v root x draw n (l + 1) (ch + 1) (p.1 * (rn * ld : Nat), p.2 * sum)

/-- R377. -/
def execLtw (f : FForm) (s : State) : Host.Outcome State Fault Refusal :=
  runRow .ltw (.f f) (soloOp (fun c h =>
    let x := h.group f.a.toNat 3
    let n := h.src c.cur.idx f.b.toNat
    let root := c.t.sreg h.row f.c.toNat
    let raw := f.mb 4
    if !groupOk raw [.f32, .f32, .f32] x || !tagOk .n64 raw n then .trap .fmt 0
    else if root.toNat % 32 ≠ 0 then .trap .aln 0
    else
      match lightWalk c.s c.rayEnv root (x.map (·.val))
          (fun l => rngDraw c.t c.t.replay c.t.rcd.rngTab h.rngKey (n.dw + BitVec.ofNat 64 l) 0) 48 0 0 (1, 1) with
      | .error e => e.solo
      | .ok (e, p) => .ok id [wV f.d.toNat e .n32, wV (f.d.toNat + 1) p .f32])) s

end Sys2Proof.Machine
end

