-- ==== Sys2Proof/Machine/Irregular.lean ====
section
/-! DEFINITION. The Drill, Graft and Merge instructions, codes 0xE0 to 0xE8 (R326 to R343). -/

namespace Sys2Proof.Machine

open Sys2Proof

/-! ### Drill groups (R326) -/

/-- A home row's index among the team's home rows on its core. -/
def Team.coreIndex (t : Team) (row : Nat) : Nat := if t.hdr.twin then row / 2 else row

/-- The rows of a row's group under group size `g`, ascending. -/
def Team.groupRows (t : Team) (row g : Nat) : List Nat :=
  (List.range t.hdr.rows).filter (fun r => t.coreOf r == t.coreOf row && t.coreIndex r / g == t.coreIndex row / g)

/-- The contributor index of a thread in a group of the given rows. -/
def Team.contributor (t : Team) (rows : List Nat) (row pos : Nat) : Nat := rows.findIdx (· == row) * t.width + pos

/-- The active session of a number in a row's group. -/
def Team.session (t : Team) (ds row : Nat) : Option Drill := t.drills.find? (fun d => d.ds == ds && d.rows.contains row)

/-- Changes one session. -/
def Team.setSession (t : Team) (d : Drill) : Team :=
  { t with drills := t.drills.map (fun e => if e.ds = d.ds ∧ e.rows = d.rows then d else e) }

/-- The live threads of some rows, in ascending contributor index. -/
def Team.groupLive (t : Team) (rows : List Nat) : List Thread :=
  rows.flatMap (fun r => sortPos (t.threads.filter (fun h => h.row == r && h.live)))

/-- A thread's slot in a session. -/
def Drill.slotOf (d : Drill) (h : Thread) : Option Nat := d.slots.findIdx? (· == (h.row, h.pos))

/-- Len of a contributor. -/
def Drill.len (d : Drill) (c : Nat) : Nat := (FMap.get (fun _ => (0 : Word)) d.lens c).toNat

/-- Pre of a contributor. -/
def Drill.pre (d : Drill) (c : Nat) : Nat := ((List.range c).map d.len).sum

/-- The owner of iteration `f`. -/
def Drill.owner (d : Drill) (width f : Nat) : Nat :=
  ((List.range (d.g * width)).find? (fun c => decide (d.pre c ≤ f) && decide (f < d.pre c + d.len c))).getD 0

/-- Next of a slot. -/
def Drill.next (d : Drill) (e : Nat) : Nat := FMap.get id d.nexts e

/-- Cur of a slot. -/
def Drill.current (d : Drill) (e : Nat) : Option Nat := FMap.get (fun _ => none) d.curs e

/-! ### Accumulators (R330, R331, Tables 5.11 and 17.3) -/

/-- The accumulator that no contribution has reached. -/
def accInit (rop : Nat) (t : Ty) : DrillAcc := { n := if t = .none ∨ (t = .f32 ∧ rop = 0) then 0 else BitVec.ofNat 64 (identity rop t) }

/-- The accumulator of a contributor. -/
def Drill.acc (d : Drill) (c : Nat) : DrillAcc := FMap.get (fun _ => accInit d.rop d.ty) d.accs c

/-- One contribution. -/
def DrillAcc.add (rop : Nat) (t : Ty) (a : DrillAcc) (x : Nat) : DrillAcc :=
  if t = .f32 then
    if rop = 0 then
      match Fmt.f32.real x with
      | .nan => { a with flags := a.flags ||| 12 }
      | .inf n => { a with flags := a.flags ||| (if n then 10 else 9) }
      | .fin n m _ =>
        { a with sum := a.sum + ((fixOf (BitVec.ofNat 32 x)).getD 0),
                 flags := if m = 0 ∧ n then a.flags else a.flags ||| 8 }
    else
      { a with n := BitVec.ofNat 64 (combineF rop a.n.toNat x),
               flags := if (Fmt.f32.real x).isNan then a.flags else a.flags ||| 1 }
  else { a with n := BitVec.ofNat 64 (atomNew rop t a.n.toNat x) }

/-- The result of an accumulator (R331): for f32 sums one rounding, with R105. -/
def DrillAcc.result (rop : Nat) (t : Ty) (a : DrillAcc) : Nat :=
  if t = .f32 ∧ rop = 0 then
    if bitOf a.flags 2 || (bitOf a.flags 0 && bitOf a.flags 1) then Fmt.f32.cnan
    else if bitOf a.flags 0 then Fmt.f32.sgn false Fmt.f32.infMag
    else if bitOf a.flags 1 then Fmt.f32.sgn true Fmt.f32.infMag
    else if a.sum ≠ 0 then Fmt.f32.roundMag 0 false (decide (a.sum < 0)) a.sum.natAbs (-149) false
    else Fmt.f32.sgn (!bitOf a.flags 3) 0
  else a.n.toNat

/-- Was every iteration of a contributor dealt? Slot e deals the iterations f with f mod E = e, in order (R329, R331). -/
def Drill.allDealt (d : Drill) (c : Nat) : Bool :=
  let a := d.pre c
  let b := a + d.len c
  (List.range d.e).all (fun e =>
    if b ≤ e then true
    else
      let last := b - 1 - (b - 1 - e) % d.e
      decide (last < a) || decide (last < d.next e))

/-! ### The image (R332, Tables 17.2 and 17.3) -/

/-- An entry of 48 bytes. -/
def DrillAcc.image (rop : Nat) (t : Ty) (a : DrillAcc) : List Byte :=
  (if t = .f32 ∧ rop = 0 then leBytes 40 (wrapN 320 a.sum) else leBytes 40 a.n.toNat) ++ leBytes 1 a.flags ++ leBytes 7 0

/-- The 16,448 bytes of a session. -/
def Drill.image (d : Drill) (width : Nat) : List Byte :=
  let n := d.g * width
  leBytes 4 1 ++ leBytes 1 width ++ leBytes 1 d.g ++ leBytes 1 d.rop ++ leBytes 1 d.ty.code ++ leBytes 4 d.total
  ++ leBytes 2 d.e ++ leBytes 50 0
  ++ (List.range 256).flatMap (fun c =>
      leBytes 4 (FMap.get (fun _ => (0 : Word)) d.starts c).toNat ++ leBytes 4 (d.len c))
  ++ (List.range 256).flatMap (fun e =>
      if e < d.e then leBytes 4 (d.next e) ++ leBytes 4 ((d.current e).getD 0xFFFFFFFF) else leBytes 8 0)
  ++ (List.range 256).flatMap (fun c => if c < n then (d.acc c).image d.rop d.ty else leBytes 48 0)

/-- An accumulator of its entry. -/
def DrillAcc.parse (rop : Nat) (t : Ty) (bs : List Byte) (o : Nat) : DrillAcc :=
  if t = .f32 ∧ rop = 0 then { sum := signed 320 (field bs o 40), flags := field bs (o + 40) 1 }
  else { n := BitVec.ofNat 64 (field bs o 8), flags := field bs (o + 40) 1 }

/-- The legal pairs of ROP and TY, those of `drlld` (R328). -/
def drillPair (rop : Nat) (t : Ty) : Bool := decide (t ∈ Opc.drlld.tys) && drillTyOk rop t

/-- The session of an image for the live threads of a group; none where R332 refuses it. -/
def Drill.parse (ds : Nat) (rows : List Nat) (g width : Nat) (live : List (Nat × Nat)) (bs : List Byte) : Option Drill :=
  let rop := field bs 6 1
  let n := g * width
  let e := field bs 12 2
  match tyOf (field bs 7 1) with
  | none => none
  | some t =>
    let lens := FMap.ofFn (fun _ => (0 : Word)) n (fun c => wordAt bs (68 + 8 * c))
    let entry (c : Nat) : Nat := 4160 + 48 * c
    let tail (c : Nat) : Nat :=
      if t = .none ∨ rop = 6 then field bs (entry c) 48
      else if t = .f32 ∧ rop = 0 then field bs (entry c + 41) 7 + field bs (entry c + 40) 1 / 16
      else if t = .f32 then field bs (entry c + 4) 36 + field bs (entry c + 41) 7 + field bs (entry c + 40) 1 / 2
      else field bs (entry c + (if t.wide then 8 else 4)) (if t.wide then 40 else 44)
    let reserved := field bs 14 50 != 0
      || (List.range 256).any (fun c => decide (n ≤ c) && (field bs (64 + 8 * c) 8 != 0 || field bs (entry c) 48 != 0))
      || (List.range 256).any (fun i => decide (e ≤ i) && field bs (2112 + 8 * i) 8 != 0)
      || (List.range n).any (fun c => tail c != 0)
    if field bs 0 4 ≠ 1 ∨ field bs 4 1 ≠ width ∨ field bs 5 1 ≠ g ∨ e ≠ live.length ∨ reserved ∨ drillPair rop t = false
      ∨ ((List.range n).map (fun c => (wordAt bs (68 + 8 * c)).toNat)).sum ≠ field bs 8 4 then none
    else
      some { ds := ds, rows := rows, g := g, rop := rop, ty := t,
             starts := FMap.ofFn (fun _ => (0 : Word)) n (fun c => wordAt bs (64 + 8 * c)), lens := lens, total := field bs 8 4,
             e := e, slots := live,
             nexts := FMap.ofFn id e (fun i => field bs (2112 + 8 * i) 4),
             curs := FMap.ofFn (fun _ => none) e (fun i =>
               if field bs (2116 + 8 * i) 4 = 0xFFFFFFFF then none else some (field bs (2116 + 8 * i) 4)),
             accs := FMap.ofFn (fun _ => accInit rop t) n (fun c => DrillAcc.parse rop t bs (entry c)) }

/-! ### Ranges -/

/-- What a range of a space gives a thread. -/
inductive Span where
  | ok (bytes : List Byte)
  | trap (t : Trap) (va : DWord)
  | fault (va : DWord) (page : Bool)
  | busy (frame : Nat)

/-- The pages of a global range. -/
def spanPages (a : DWord) (n : Nat) : List (DWord × Nat) := if n = 0 then [] else pagesOf (n / 65536 + 2) a n

/-- Is a range of a team space within the allocation? -/
def State.spanIn (s : State) (t : Team) (sp : Nat) (o : DWord) (n : Nat) : Bool :=
  n == 0 ||
  match s.spacePlace t sp o with
  | .ok (uid, x) => decide (x + n ≤ ((s.team? uid).map (·.hdr.tmem)).getD 0)
  | .error _ => false

/-- Reads a range. -/
def State.spanRead (s : State) (t : Team) (sp : Nat) (a : DWord) (n : Nat) : Span :=
  if sp = 0 then
    match s.reach t.pitch t.die .read true (spanPages a n) with
    | .ok ks _ => .ok (s.gather (spanPages a n) ks)
    | .trap e => .trap e a
    | .recoverable va p => .fault va p
    | .busy f => .busy f
  else if s.spanIn t sp a n then .ok (s.spaceBytes t sp a n)
  else .trap .prot 0

/-- Checks that a range can be written; the answer holds no bytes. -/
def State.spanCheck (s : State) (t : Team) (sp : Nat) (a : DWord) (n : Nat) : Span :=
  if sp = 0 then
    match s.reach t.pitch t.die .write false (spanPages a n) with
    | .ok _ _ => .ok []
    | .trap e => .trap e a
    | .recoverable va p => .fault va p
    | .busy f => .busy f
  else if s.spanIn t sp a n then .ok []
  else .trap .prot 0

/-- Writes a range that was checked. -/
def State.spanWrite (s : State) (t : Team) (sp : Nat) (a : DWord) (bs : List Byte) : State :=
  if sp = 0 then
    match s.reach t.pitch t.die .write false (spanPages a bs.length) with
    | .ok ks _ => s.scatterFor t.pitch (spanPages a bs.length) ks bs
    | _ => s
  else
    match s.spacePlace t sp a with
    | .ok (uid, x) => s.setTeam uid (fun q => q.writeBytes x bs)
    | .error _ => s

/-! ### Group operations (R327) -/

/-- The outstanding arrival of a thread for a session. -/
def Thread.arrival (h : Thread) (ds : Nat) : Option Arrival := h.arr.find? (fun a => a.ds == ds)

/-- Two group operations that may stand together: the same, and for `drlld` with the same G, ROP and TY. -/
def GroupOp.same (a b : GroupOp) : Bool := decide (a = b)

/-- The pending writes of an arrival under VER 00: their places, and no values yet (R143, R327). -/
def Arrival.pends (a : Arrival) (look : Nat) : List Pend :=
  (pendsOf look (a.regs.map (fun r => ⟨r, 0, .b32⟩))).map (fun e => { e with due := some a.ds })

/-- A thread arrives: where its guard is true, its wait counter rises until the group operation ends (R122, R135, R327). -/
def State.arrive (s : State) (uid wc : Nat) (delay : Option Nat) (h : Thread) (a : Arrival) : State :=
  let wc := if a.guard then wc else 7
  let s1 := s.setTeam uid (fun t => t.setThread h.row h.pos (fun h =>
    { h with arr := h.arr ++ [{ a with lock := delay.isNone, wc := wc }],
             pend := h.pend ++ (delay.map a.pends).getD [],
             w := if wc = 7 then h.w else FMap.modify (fun _ => 0) h.w wc (· + 1) }))
  { s1 with inflight := s1.inflight ++ [{ id := s1.nextId, uid := uid, threads := [(h.row, h.pos)], wc := wc,
                                          dep := 0, grp := some a.ds }],
            nextId := s1.nextId + 1 }

/-- The arrivals of a session end: their counters fall (R122, R327). -/
def State.groupEnd (s : State) (uid ds : Nat) (ks : List (Nat × Nat)) : State :=
  let s1 := s.setTeam uid (fun t => ks.foldl (fun t k =>
    t.setThread k.1 k.2 (fun h =>
      match h.arrival ds with
      | none => h
      | some a =>
        { h with arr := h.arr.filter (fun b => b.ds != ds), pend := h.pend.filter (fun e => e.due != some ds),
                 w := if a.wc = 7 then h.w else FMap.modify (fun _ => 0) h.w a.wc (· - 1) })) t)
  { s1 with inflight := s1.inflight.filter (fun i =>
      !(i.uid == uid && i.grp == some ds && i.threads.all (fun k => ks.contains k))) }

/-- Does a thread's row stand at a `drlrst` of a session with no true guard, and no other thread of its core at one with a true guard?
Such a `drlrst` reads no image, so that no group is known but the row; it may still be restored with it (R135, R327; log 21). -/
def Team.idleRestore (t : Team) (ds : Nat) (h : Thread) : Bool :=
  (t.groupLive [h.row]).all (fun x => (x.arrival ds).any (fun a => a.op == .rst && !a.guard))
  && !t.threads.any (fun x => t.coreOf x.row == t.coreOf h.row && (x.arrival ds).any (fun a => a.op == .rst && a.guard))

/-- Members leave a `drlrst` that restored nothing. -/
def Ctx.leaveRestore (c : Ctx) (ds : Nat) (ks : List (Nat × Nat)) : Ctx :=
  if ks.isEmpty then c
  else
    let s := c.s.groupEnd c.t.uid ds ks
    { c with s := s, t := (s.team? c.t.uid).getD c.t }

/-- Each thread of the fragment arrives, whatever its guard. `mk` gives the rows of a thread's group, or its trap, and its
arrival; none where a thread with a false guard meets no session, and passes (log 21). Where its guard is true, a thread of another
operation of the session in the group makes it PROT. A `drlend` under VER 00 needs room among the pending writes (R442). `opens` are
`drlld` and `drlrst`, at which a row leaves a `drlrst` that restored nothing. -/
def arriveAll (opens : Bool) (ds wc : Nat) (delay : Option Nat) (mk : Ctx → Thread → Except Trap (Option (List Nat × Arrival)))
    (c0 : Ctx) : Out :=
  if c0.mem.any (fun h => (h.arrival ds).isSome && !(opens && c0.t.idleRestore ds h)) then .wait c0.s .others
  else
    let c := c0.leaveRestore ds (keysOf (c0.mem.filter (fun h => (h.arrival ds).isSome)))
    let rs : List (Thread × Except Trap Arrival) := c.mem.filterMap (fun h =>
      match mk c h with
      | .error e => some (h, .error e)
      | .ok none => none
      | .ok (some (rows, a)) =>
        if a.guard && c.t.threads.any (fun g => rows.contains g.row && (g.arrival ds).any (fun b => !b.op.same a.op)) then
          some (h, .error Trap.prot)
        else some (h, .ok a))
    match lowest (rs.map (fun r =>
        match r.2 with
        | .error e => some e
        | .ok _ => none)) with
    | some e => trapNow c.s e
    | none =>
      let need (a : Arrival) : Nat := if delay.isSome then a.regs.length else 0
      let s1 := rs.foldl (fun s r =>
        match r.2 with
        | .ok a =>
          if 0 < need a ∧ 8 < r.1.pend.length + need a then s.setTeam c.t.uid (fun t => t.roomThread (need a) r.1.row r.1.pos) else s
        | .error _ => s) c.s
      match rs.find? (fun r =>
          match r.2 with
          | .ok a => decide (0 < need a) && decide (8 < (Pend.room (need a) 9 r.1.pend).2.length + need a)
          | .error _ => false) with
      | some (_, .ok a) => .wait s1 (.pendRoom (need a))
      | _ =>
        .done (rs.foldl (fun s r =>
          match r.2 with
          | .error _ => s
          | .ok a => s.arrive c.t.uid wc delay r.1 a) s1)

/-- An arrival that reads and writes nothing by itself. -/
def bareArrival (ds : Nat) (op : GroupOp) (guard : Bool) : Arrival :=
  { ds := ds, op := op, guard := guard, a := 0, b := 0, addr := 0, space := 0, d := 120, c := 7, lock := false, wc := 7 }

/-- Is a 64-bit operand of a session not a pair of the thread's registers (R87, R133)? The session's type is known at run time only. -/
def oddPair (t : Team) (h : Thread) (d : Drill) (n : Nat) : Bool :=
  d.ty.wide && decide (n < 120) && (n % 2 == 1 || decide (t.hdr.regs h.row ≤ n + 1))

/-- Is the thread's guard true? -/
def Ctx.isOn (c : Ctx) (h : Thread) : Bool := c.act.any (fun g => g.row == h.row && g.pos == h.pos)

/-- May no session of a number be made active in some rows: one is active there, or they hold more than one role (Table 17.4)? -/
def Team.noGroup (t : Team) (ds : Nat) (rows : List Nat) : Bool :=
  rows.any (fun r => (t.session ds r).isSome) || rows.any (fun r => t.hdr.role r != t.hdr.role (rows.headD 0))

/-- R328, Table 17.4. -/
def execDrlld (f : FForm) (s : State) : Host.Outcome State Fault Refusal :=
  let ds := f.m 0 1
  let g := f.m 4 2 + 1
  let rop := f.m 6 3
  runRow .drlld (.f f) (fun c =>
    arriveAll true ds f.wc.toNat c.md.delay (fun c h =>
      let rows := c.t.groupRows h.row g
      let a := h.src c.cur.idx f.a.toNat
      let b := h.src c.cur.idx f.b.toNat
      let on := c.isOn h
      if on && !(tagOk .n32 (f.mb 3) a && tagOk .n32 (f.mb 3) b) then .error .fmt
      else if on && c.t.noGroup ds rows then .error .prot
      else .ok (some (rows, { bareArrival ds (.ld g rop f.ty) on with a := a.w, b := b.w }))) c) s

/-- R331, Table 17.4. -/
def execDrlend (f : FForm) (s : State) : Host.Outcome State Fault Refusal :=
  let ds := f.m 0 1
  runRow .drlend (.f f) (fun c =>
    arriveAll false ds f.wc.toNat c.md.delay (fun c h =>
      match c.t.session ds h.row with
      | none => if c.isOn h then .error .prot else .ok none
      | some d =>
        if d.rop ≠ 6 ∧ oddPair c.t h d f.d.toNat then .error .il
        else .ok (some (d.rows,
          { bareArrival ds .fin (c.isOn h) with d := f.d.toNat, c := f.c.toNat, wide := d.ty.wide && d.rop != 6 }))) c) s

/-- The address of an image, 64-byte aligned in a team space and word-aligned in global memory (R332); a thread whose guard is
false names none (R135). -/
def drillAddr (f : FForm) (c : Ctx) (h : Thread) : Except Trap DWord :=
  if !c.isOn h then .ok 0
  else if f.m 6 2 = 0 then
    let a := gBase c.t.rcd.window f (c.env h)
    if !canonical a then .error .xlat else (aligned 4 a).map (fun _ => a)
  else (aligned 64 (tBase f (c.env h))).map (fun _ => tBase f (c.env h))

/-- R332, Table 17.4. -/
def execDrlsave (f : FForm) (s : State) : Host.Outcome State Fault Refusal :=
  let ds := f.m 0 1
  runRow .drlsave (.f f) (fun c =>
    arriveAll false ds f.wc.toNat c.md.delay (fun c h =>
      match drillAddr f c h, c.t.session ds h.row with
      | .error e, _ => .error e
      | .ok _, none => if c.isOn h then .error .prot else .ok none
      | .ok a, some d => .ok (some (d.rows, { bareArrival ds .save (c.isOn h) with addr := a, space := f.m 6 2 }))) c) s

/-- The rows of the group of a `drlrst` as far as its thread's arrival can tell: its own row, the group of the image where it can be
read now, and the rows that wait at a `drlld` whose group holds its row (R327; log 21). -/
def Ctx.restoreRows (c : Ctx) (ds : Nat) (h : Thread) (space : Nat) (a : DWord) : List Nat :=
  let image := match c.isOn h, c.s.spanRead c.t space a 16448 with
    | true, .ok bs => if decide (1 ≤ field bs 5 1) && decide (field bs 5 1 ≤ 4) then c.t.groupRows h.row (field bs 5 1) else []
    | _, _ => []
  let loads := c.t.threads.flatMap (fun (g : Thread) =>
    match (g.arrival ds).map Arrival.op with
    | some (.ld n _ _) => if (c.t.groupRows g.row n).contains h.row then [g.row] else []
    | _ => [])
  [h.row] ++ image ++ loads

/-- R332, Table 17.4. The group is that of the image, known when the operation acts (log 21). -/
def execDrlrst (f : FForm) (s : State) : Host.Outcome State Fault Refusal :=
  let ds := f.m 0 1
  runRow .drlrst (.f f) (fun c =>
    arriveAll true ds f.wc.toNat c.md.delay (fun c h =>
      match drillAddr f c h with
      | .error e => .error e
      | .ok a =>
        if c.isOn h && (c.t.session ds h.row).isSome then .error .prot
        else .ok (some (c.restoreRows ds h (f.m 6 2) a, { bareArrival ds .rst (c.isOn h) with addr := a, space := f.m 6 2 }))) c) s

/-- The members' outstanding arrivals of a session make an instruction on it wait (R329; log 21). -/
def afterGroup (ds : Nat) (k : Ctx → Out) (c : Ctx) : Out :=
  if c.act.any (fun h => (h.arrival ds).isSome) then .wait c.s .others else k c

/-- R329. -/
def execDrlnext (f : FForm) (s : State) : Host.Outcome State Fault Refusal :=
  let ds := f.m 0 1
  runRow .drlnext (.f f) (afterGroup ds (fun c =>
    if c.act.any (fun h => ((c.t.session ds h.row).bind (fun d => d.slotOf h)).isNone) then trapNow c.s .prot
    else
      .done (c.s.setTeam c.t.uid (fun t => c.act.foldl (fun t h =>
        match t.session ds h.row with
        | none => t
        | some d =>
          let e := (d.slotOf h).getD 0
          let i := d.next e
          if i < d.total then
            let o := d.owner t.width i
            let v : Word := FMap.get (fun _ => (0 : Word)) d.starts o + BitVec.ofNat 32 (i - d.pre o)
            (t.setSession { d with nexts := FMap.set id d.nexts e (i + d.e), curs := FMap.set (fun _ => none) d.curs e (some i) }).commit
              c.md h.row h.pos ((if f.d.toNat < 120 then [wV f.d.toNat v .n32, wV (f.d.toNat + 1) (BitVec.ofNat 32 o) .n32] else [])
                ++ [wP f.c.toNat true])
          else
            (t.setSession { d with curs := FMap.set (fun _ => none) d.curs e none }).commit c.md h.row h.pos [wP f.c.toNat false]) t)))) s

/-- R330, Table 17.4. -/
def execDrlred (f : FForm) (s : State) : Host.Outcome State Fault Refusal :=
  let ds := f.m 0 1
  let raw := f.mb 3
  runRow .drlred (.f f) (afterGroup ds (fun c =>
    let rs : List (Thread × Except Trap Nat) := c.act.map (fun h => (h, match c.t.session ds h.row with
      | none => .error Trap.prot
      | some d =>
        if d.rop = 6 ∨ (d.slotOf h).isNone then .error Trap.prot
        else if oddPair c.t h d f.a.toNat then .error Trap.il
        else
          let a := h.src c.cur.idx f.a.toNat
          if tagOk d.ty raw a then .ok (a.bitsT d.ty) else .error Trap.fmt))
    match lowest (rs.map (fun r =>
        match r.2 with
        | .error e => some e
        | .ok _ => none)) with
    | some e => trapNow c.s e
    | none =>
      .done (c.s.setTeam c.t.uid (fun t => rs.foldl (fun t r =>
        match t.session ds r.1.row, r.2 with
        | some d, .ok x =>
          match (d.slotOf r.1).bind d.current with
          | none => t
          | some i =>
            let o := d.owner t.width i
            t.setSession { d with accs := FMap.set (fun _ => accInit d.rop d.ty) d.accs o ((d.acc o).add d.rop d.ty x) }
        | _, _ => t) t)))) s

/-! ### When a group operation acts -/

/-- The trap of a group operation in every arriving thread (R328, R331): their fragments take it in ascending id, each in its
lowest arriving thread (R333). -/
def State.groupTrap (s : State) (uid ds : Nat) (ks : List (Nat × Nat)) (e : Trap) (va : DWord) : State :=
  let fids : List (Nat × Nat × Nat) := match s.team? uid with
    | some t => t.frags.filterMap (fun (g : Frag) =>
        (ks.find? (fun (k : Nat × Nat) => (t.thread? k.1 k.2).any (fun (h : Thread) => h.fid == g.fid))).map (fun k => (g.fid, k)))
    | none => []
  fids.foldl (fun s g => s.trap (.frag uid g.1) { code := e.code, va := va, who := some g.2 }) (s.groupEnd uid ds ks)

/-- The writes of one thread when its operation acts: at once under VER 01 (R142), else they take their places among the pending
writes, and those whose place has come are made (R143). -/
def Team.arriveWrite (t : Team) (h : Thread) (a : Arrival) (ws : List RegW) : Team :=
  if a.lock then t.putAll h.row h.pos ws
  else (t.setThread h.row h.pos (fun g => { g with pend := g.pend.map (Pend.fill a.ds ws) })).makePend Pend.spent h.row h.pos

/-- `drlld` acts (R328). Where none of its threads has a true guard and the session may not become active, nothing becomes of it
(R135; log 21). -/
def State.actLoad (s : State) (t : Team) (ds g rop : Nat) (ty : Ty) (rows : List Nat) (live : List Thread) : State :=
  let n := g * t.width
  let ks := live.map (fun h => (h.row, h.pos))
  let at_ (c : Nat) : Option Arrival :=
    ((live.find? (fun h => t.contributor rows h.row h.pos == c)).bind (fun h => h.arrival ds)).filter (·.guard)
  let lens := FMap.ofFn (fun _ => (0 : Word)) n (fun c => ((at_ c).map Arrival.b).getD 0)
  let starts := FMap.ofFn (fun _ => (0 : Word)) n (fun c => ((at_ c).map Arrival.a).getD 0)
  let total := (lens.map (fun e => e.2.toNat)).sum
  if t.noGroup ds rows then
    (if live.any (fun h => (h.arrival ds).any (·.guard)) then s.groupTrap t.uid ds ks .prot 0 else s.groupEnd t.uid ds ks)
  else if 0xFFFFFFFF < total then s.groupTrap t.uid ds ks .prot 0
  else
    let d : Drill := { ds := ds, rows := rows, g := g, rop := rop, ty := ty,
                       starts := starts, lens := lens, total := total,
                       e := live.length, slots := ks, nexts := [], curs := [], accs := [] }
    (s.setTeam t.uid (fun t => { t with drills := t.drills ++ [d] })).groupEnd t.uid ds ks

/-- `drlend` acts (R331). -/
def State.actEnd (s : State) (t : Team) (d : Drill) (live : List Thread) : State :=
  let ks := live.map (fun h => (h.row, h.pos))
  if d.rop = 6 ∧ live.any (fun h => (h.arrival d.ds).any (fun a => a.guard && decide (a.d ≠ 120))) then s.groupTrap t.uid d.ds ks .prot 0
  else
    let s1 := s.setTeam t.uid (fun t => live.foldl (fun t h =>
      match h.arrival d.ds with
      | none => t
      | some a =>
        if !a.guard then t
        else
          let c := t.contributor d.rows h.row h.pos
          let ws := if a.d < 120 ∧ d.rop ≠ 6 then wT d.ty a.d ((d.acc c).result d.rop d.ty) else []
          t.arriveWrite h a (ws ++ [wP a.c (d.allDealt c)])) t)
    (s1.setTeam t.uid (fun t => { t with drills := t.drills.filter (fun e => !(e.ds == d.ds && e.rows == d.rows)) })).groupEnd
      t.uid d.ds ks

/-- The image access of the lowest live thread meets a recoverable fault: the operation waits under its record (log 21). -/
def State.groupFault (s : State) (t : Team) (h : Thread) (ds fl : Nat) (va : DWord) (page : Bool) : State :=
  let r : Rec := { kind := 1, rflags := fl, core := t.coreOf h.row, pos := h.pos, launch := t.launch, team := t.team,
                   va := va.toNat, pc := h.cur.pc.toNat, fid := h.fid, hrow := h.row, idx := h.cur.idx }
  let q := s.raise t.pitch t.die (.thread t.uid h.row h.pos) page (r.withDrill (t.drillOf h.row h.pos))
  q.2.setTeam t.uid (fun t => t.setThread h.row h.pos (fun g =>
    { g with arr := g.arr.map (fun a => if a.ds = ds then { a with fault := q.1 } else a) }))

/-- The thread that makes the image access of a group operation: the lowest live one whose guard is true (R135, R332; log 21). -/
def imageThread (ds : Nat) (live : List Thread) : Option (Thread × Arrival) :=
  live.findSome? (fun x => ((x.arrival ds).filter (·.guard)).map (fun a => (x, a)))

/-- `drlsave` acts: the image is written, and the session is idle (R332). -/
def State.actSave (s : State) (t : Team) (d : Drill) (h : Thread) (a : Arrival) (ks : List (Nat × Nat)) : State :=
  match s.spanCheck t a.space a.addr 16448 with
  | .trap e va => s.groupTrap t.uid d.ds ks e va
  | .fault va p => s.groupFault t h d.ds 1 va p
  | .busy _ => s
  | .ok _ =>
    ((s.spanWrite t a.space a.addr (d.image t.width)).setTeam t.uid (fun t =>
      { t with drills := t.drills.filter (fun e => !(e.ds == d.ds && e.rows == d.rows)) })).groupEnd t.uid d.ds ks

/-- A `drlrst` at which no thread has a true guard ends once every live thread of the twelve rows that hold each group of its row, for G
of 1 to 4, has arrived: no image is read, and the session stays as it is (R135, R327; log 21). -/
def State.endRestore (s : State) (t : Team) (ds row : Nat) : State :=
  let live := t.groupLive (t.groupRows row 12)
  if live.all (fun x => (x.arrival ds).any (fun b => b.op == .rst && !b.guard)) then s.groupEnd t.uid ds (keysOf live) else s

/-- `drlrst` acts: the group is that of the G in the image of the thread that asks (R332; log 21). -/
def State.actRestore (s : State) (t : Team) (ds : Nat) (h : Thread) (a : Arrival) : State :=
  if !a.guard then s.endRestore t ds h.row
  else
  match s.spanRead t a.space a.addr 16448 with
  | .trap e va => s.groupTrap t.uid ds [(h.row, h.pos)] e va
  | .fault va p => s.groupFault t h ds 0 va p
  | .busy _ => s
  | .ok bs0 =>
    let g0 := field bs0 5 1
    let g := if 1 ≤ g0 ∧ g0 ≤ 4 then g0 else 1
    let rows := t.groupRows h.row g
    let live := t.groupLive rows
    let ks := live.map (fun x => (x.row, x.pos))
    if live.any (fun x => !(x.arrival ds).any (fun b => b.op == .rst)) then s
    else
      match imageThread ds live with
      | none => s
      | some (x, b) =>
        match s.spanRead t b.space b.addr 16448 with
        | .trap e va => s.groupTrap t.uid ds ks e va
        | .fault va p => s.groupFault t x ds 0 va p
        | .busy _ => s
        | .ok bs =>
          match Drill.parse ds rows g t.width ks bs with
          | none => s.groupTrap t.uid ds ks .prot 0
          | some d => (s.setTeam t.uid (fun t => { t with drills := t.drills ++ [d] })).groupEnd t.uid ds ks

/-- A waiting image access that may be tried: it waits for no record, or its record is signalled. -/
def Arrival.mayTry (s : State) (a : Arrival) : Bool := a.fault == 0 || s.signalOf a.fault != 0

/-- Can the group operation at which a thread has arrived act now (R327)? The lowest live thread of the group speaks for it. -/
def State.groupReady (s : State) (t : Team) (ds : Nat) (h : Thread) : Bool :=
  match h.arrival ds with
  | none => false
  | some a =>
    let all (rows : List Nat) : Bool :=
      let live := t.groupLive rows
      live.all (fun x => (x.arrival ds).any (fun b => b.op.same a.op))
      && (live.head?.any (fun x => x.row == h.row && x.pos == h.pos))
    a.mayTry s &&
    match a.op with
    | .ld g _ _ => all (t.groupRows h.row g)
    | .rst => (t.groupLive [h.row]).all (fun x => (x.arrival ds).any (fun b => b.op.same a.op))
    | _ => (t.session ds h.row).any (fun d => all d.rows)

/-- The group operation at which a thread has arrived acts, when every live thread of the group has arrived (R327). -/
def State.groupAct (s : State) (uid ds row pos : Nat) : State :=
  match s.team? uid with
  | none => s
  | some t =>
    match t.thread? row pos with
    | none => s
    | some h =>
      match h.arrival ds with
      | none => s
      | some a =>
        if !s.groupReady t ds h then s
        else
          let s1 := if a.fault = 0 then s else (s.served a.fault).setTeam uid (fun t =>
            t.setThread row pos (fun g => { g with arr := g.arr.map (fun b => if b.ds = ds then { b with fault := 0 } else b) }))
          match a.op with
          | .ld g rop ty => s1.actLoad t ds g rop ty (t.groupRows row g) (t.groupLive (t.groupRows row g))
          | .rst => s1.actRestore t ds h { a with fault := 0 }
          | .fin =>
            match t.session ds row with
            | none => s1
            | some d => s1.actEnd t d (t.groupLive d.rows)
          | .save =>
            match t.session ds row with
            | none => s1
            | some d =>
              let live := t.groupLive d.rows
              let ks := live.map (fun y => (y.row, y.pos))
              match imageThread ds live with
              | none => (s1.setTeam t.uid (fun t =>
                  { t with drills := t.drills.filter (fun e => !(e.ds == d.ds && e.rows == d.rows)) })).groupEnd t.uid ds ks
              | some (x, b) => if b.mayTry s1 then s1.actSave t d x b ks else s1

/-- The group operations of a team that can act do so: none stays open while a party of the team goes on (R327). -/
def State.actDue (s : State) (uid : Nat) : State :=
  match s.team? uid with
  | none => s
  | some t =>
    (t.threads.flatMap (fun h => h.arr.map (fun a => (a.ds, h.row, h.pos)))).foldl (fun s k => s.groupAct uid k.1 k.2.1 k.2.2) s

/-! ### Graft (R336 to R338) -/

/-- R336, R337: threads with a true guard enter the table; the others of the fragment go on. -/
def execGraft (f : FForm) (s : State) : Host.Outcome State Fault Refusal :=
  runRow .graft (.f f) (fun c =>
    if c.act.any (fun h => !tagOk .n32 (f.mb 4) (h.src c.cur.idx f.a.toNat)) then trapNow c.s .fmt
    else
      let enter (t : Team) : Team := c.act.foldl (fun t h =>
        t.setThread h.row h.pos (fun g =>
          { g with st := .grafted c.cur.pc c.cur.idx (h.src c.cur.idx f.a.toNat).w, cur := c.cur })) t
      if c.act.isEmpty then .done c.s
      else
        .moved (c.s.setTeam c.t.uid (fun t =>
          ((enter t).setFrag c.fid (fun g => { g with cur := g.cur.advance, wait := none })).graftCheckAll))) s

/-- R338. -/
def execGftflush (f : FForm) (s : State) : Host.Outcome State Fault Refusal :=
  runRow .gftflush (.f f) (fun c =>
    if c.act.isEmpty then .done c.s
    else if c.t.hdr.det then trapNow c.s .det
    else
      let who := (c.act.map (fun h => (c.t.hdr.role h.row, c.t.coreOf h.row))).foldl (fun acc p =>
        if acc.contains p then acc else acc ++ [p]) []
      .done (c.s.setTeam c.t.uid (fun t => who.foldl (fun t p =>
        let ps := (t.graftPlaces.filter (fun q => q.1 == p.1 && q.2.1 == p.2)).map (fun q => (q.2.2.1, q.2.2.2))
        t.graftFlush p.1 p.2 ps.length ps) t))) s

/-! ### The Merge unit (R340 to R343, Table 17.5) -/

/-- The negation of NEGB in VT 1, 2 or 3. -/
def mrgNeg (vt : Nat) (x : Word) : Word := if vt = 3 then x ^^^ 0x80000000 else -x

/-- The sum of two values in VT. -/
def mrgAdd (vt : Nat) (a b : Word) : Word := if vt = 3 then toF32 (fsum false [ofF32 a, ofF32 b]) else a + b

/-- Is a value a zero of VT? -/
def mrgZero (vt : Nat) (x : Word) : Bool := if vt = 3 then (ofF32 x).isZero else x == 0

/-- The union of two lists of entries, with at most `fuel` of them left (R342). -/
def mrgUnion (vt : Nat) (dz : Bool) : Nat → List (Word × Word) → List (Word × Word) → List (Word × Word)
  | 0, _, _ => []
  | n + 1, as, bs =>
    let keep (x v : Word) (r : List (Word × Word)) : List (Word × Word) := if dz && mrgZero vt v then r else (x, v) :: r
    match as, bs with
    | [], [] => []
    | (x, v) :: as', [] => keep x v (mrgUnion vt dz n as' [])
    | [], (y, w) :: bs' => keep y w (mrgUnion vt dz n [] bs')
    | (x, v) :: as', (y, w) :: bs' =>
      if x.toNat < y.toNat then keep x v (mrgUnion vt dz n as' bs)
      else if y.toNat < x.toNat then keep y w (mrgUnion vt dz n as bs')
      else keep x (mrgAdd vt v w) (mrgUnion vt dz n as' bs')

/-- Strictly ascending. -/
def ascending : List Word → Bool
  | x :: y :: r => decide (x.toNat < y.toNat) && ascending (y :: r)
  | _ => true

/-- Do two ranges share a byte, whichever space names it (R341)? -/
def State.spansMeet (s : State) (t : Team) (sp : Nat) (a : DWord × Nat) (sp' : Nat) (b : DWord × Nat) : Bool :=
  if sp = 0 ∨ sp' = 0 then sp == sp' && overlap a.1.toNat a.2 b.1.toNat b.2
  else
    match s.spacePlace t sp a.1, s.spacePlace t sp' b.1 with
    | .ok (u, x), .ok (v, y) => u == v && overlap x a.2 y b.2
    | _, _ => false

/-- One thread's `mrg` in a state: the descriptor is that of the issue, the lists are read when it is served (R340, R351). Where several
of its checks fail, the first in the order written here counts (DESIGN CHOICE, log 87). -/
def mrgThread (f : FForm) (c : Ctx) (s : State) (h : Thread) : Solo :=
  let o := tBase f (c.env h)
  let count (x : Word) : Solo := .ok id [wV f.d.toNat x .n32]
  if o.toNat % 64 ≠ 0 then .trap .aln 0
  else if c.t.hdr.tmem < o.toNat + 64 then .trap .prot 0
  else
    let bs := c.t.bytes o.toNat 64
    let fl := field bs 60 4
    let isp := bits fl 0 2
    let osp := bits fl 2 2
    let vt := bits fl 4 4
    let alen := field bs 48 4
    let blen := field bs 52 4
    let ocap := field bs 56 4
    if 1024 ≤ fl ∨ isp = 3 ∨ osp = 3 ∨ vt = 0 ∨ 3 < vt then count 0xFFFFFFFD
    else if (List.range 6).any (fun j => field bs (8 * j) 4 % 4 != 0) then .trap .aln 0
    else
      let ptr (j : Nat) : DWord := BitVec.ofNat 64 (field bs (8 * j) 8)
      let ins : List (DWord × Nat) := [(ptr 0, 4 * alen), (ptr 1, 4 * alen), (ptr 2, 4 * blen), (ptr 3, 4 * blen)]
      let outs : List (DWord × Nat) := [(ptr 4, 4 * ocap), (ptr 5, 4 * ocap)]
      if (isp ≠ 0 ∧ ins.any (fun r => !s.spanIn c.t isp r.1 r.2)) ∨ (osp ≠ 0 ∧ outs.any (fun r => !s.spanIn c.t osp r.1 r.2)) then
        .trap .prot 0
      else if outs.any (fun a => ins.any (fun b => s.spansMeet c.t osp a isp b)) then count 0xFFFFFFFE
      else
        let rd (r : DWord × Nat) : Span := s.spanRead c.t isp r.1 r.2
        match ins.map rd with
        | [.ok ai, .ok av, .ok bi, .ok bv] =>
          let A := (wordsAt ai 0 alen).zip (wordsAt av 0 alen)
          let B := ((wordsAt bi 0 blen).zip (wordsAt bv 0 blen)).map (fun e =>
            (e.1, if bitOf fl 9 then mrgNeg vt e.2 else e.2))
          if !ascending (A.map (·.1)) || !ascending (B.map (·.1)) then count 0xFFFFFFFF
          else
            let u := mrgUnion vt (bitOf fl 8) (alen + blen) A B
            let w := u.take ocap
            let n := 4 * w.length
            match s.spanCheck c.t osp (ptr 4) n, s.spanCheck c.t osp (ptr 5) n with
            | .ok _, .ok _ =>
              .ok (fun s => (s.spanWrite c.t osp (ptr 4) (w.flatMap (fun e => leBytes 4 e.1.toNat))).spanWrite c.t osp (ptr 5)
                    (w.flatMap (fun e => leBytes 4 e.2.toNat)))
                [wV f.d.toNat (BitVec.ofNat 32 u.length) .n32]
            | .trap e va, .trap e' va' => if e'.code < e.code then .trap e' va' else .trap e va
            | .trap e va, _ | _, .trap e va => .trap e va
            | .fault va p, _ | _, .fault va p => .fault va p 1
            | .busy x, _ | _, .busy x => .busy x
        | rs =>
          match lowest (rs.map (fun r =>
              match r with
              | .trap e _ => some e
              | _ => none)) with
          | some e => .trap e ((rs.findSome? (fun r =>
              match r with
              | .trap e' va => if e' = e then some va else none
              | _ => none)).getD 0)
          | none =>
            (rs.findSome? (fun r =>
              match r with
              | .fault va p => some (Solo.fault va p 0)
              | .busy x => some (.busy x)
              | _ => none)).getD (count 0xFFFFFFFF)

/-- R340 to R343, R351. -/
def execMrg (f : FForm) (s : State) : Host.Outcome State Fault Refusal :=
  runRow .mrg (.f f) (soloSeq (mrgThread f)) s

end Sys2Proof.Machine
end

