-- ==== Sys2Proof/Machine/Tiles.lean ====
section
/-! DEFINITION. The contents of the matrix arrays: elements of slots and tiles, weight images, compensated pairs, promotion of a
chunk, the Sieve, mask images and drained bytes (R101 to R109, R115, R308 to R321). -/

namespace Sys2Proof.Machine

open Sys2Proof

/-! ### Elements in bytes (R93, R115, Table 5.14) -/

/-- The element offset of (i, j) in the canonical blocked layout (R115). -/
def blocked (i j : Nat) : Nat := (i / 8 * 16 + j / 8) * 64 + i % 8 * 8 + j % 8

/-- `n` bytes of an array from `o` on, as a number. -/
def bytesAt (a : Array Byte) (o n : Nat) : Nat := leNat ((List.range n).map (fun j => a.getD (o + j) 0))

/-- The element number `k`, of `w` bits, held in `mw` bits, of a run that starts at byte `o`. -/
def elemAt (a : Array Byte) (o w mw k : Nat) : Nat :=
  let lo := mw * k / 8
  bits (bytesAt a (o + lo) ((mw * k + w + 7) / 8 - lo)) (mw * k % 8) w

/-- The bits of an element and those it takes in memory. -/
def elemBits (t : Ty) (dense : Bool) : Nat × Nat := (tileBits t dense).getD (8, 8)

/-- The bytes of a tile of a format. -/
def tileBytes (t : Ty) (dense : Bool) : Nat := 2048 * (elemBits t dense).2

/-- The bytes of numbers of `mw` bits each, eight numbers at a time. -/
def packAll (mw : Nat) (xs : Array Nat) : List Byte :=
  (List.range ((xs.size + 7) / 8)).flatMap (fun j => leBytes mw (packBits mw ((List.range 8).map (fun k => xs.getD (8 * j + k) 0))))

/-- The bytes of a slot. -/
def Slot.array (s : Slot) : Array Byte := (FMap.values (fun _ => (0 : Byte)) 16384 0 s.bytes).toArray

/-- A slot's bytes from part of a byte array. -/
def slotBytes (a : Array Byte) (o : Nat) : FMap Byte := FMap.ofFn (fun _ => (0 : Byte)) 16384 (fun k => a.getD (o + k) 0)

/-! ### Weight images (R310, R311, Table 15.6) -/

/-- The bits of an element in sparse and constant payloads. -/
def sparseBits (t : Ty) : Nat :=
  match t with
  | .bf16 => 16
  | .e2m1 => 4
  | _ => 8

/-- How many bits of a number are set among its low `n`. -/
def popLow (x n : Nat) : Nat := ((List.range n).filter (bitOf x)).length

/-- The mode of a sub-block. -/
def imageMode (img : Array Byte) (s : Nat) : Nat := bits (img.getD (s / 4) 0).toNat (2 * (s % 4)) 2

/-- The payload bytes of a sub-block at byte `p`. -/
def payload (img : Array Byte) (t : Ty) (dense : Bool) (mode p : Nat) : Nat :=
  match mode with
  | 0 => 8 * (elemBits t dense).2
  | 1 => 0
  | 2 => 8 + (popLow (bytesAt img p 8) 64 * sparseBits t + 7) / 8
  | _ => (sparseBits t + 7) / 8

/-- The places of the payloads of `n` sub-blocks from number `s` on, the first at byte `p`, and the end of the last. What is not
at hand yet of a sparse payload reads as zero. -/
def payloads (img : Array Byte) (t : Ty) (dense : Bool) : Nat → Nat → Nat → List Nat × Nat
  | 0, _, p => ([], p)
  | n + 1, s, p =>
    let r := payloads img t dense n (s + 1) (p + payload img t dense (imageMode img s) p)
    (p :: r.1, r.2)

/-- The bytes known to belong to an image of which a first part is at hand: at least one more than those, or all of it. -/
def imageNeed (img : Array Byte) (t : Ty) (dense half : Bool) : Nat :=
  if img.size < 64 then 64
  else
    let r := payloads img t dense (if half then 128 else 256) 0 64
    -- the first sparse mask beyond what is at hand ends what is known
    match (r.1.zipIdx).find? (fun e => imageMode img e.2 == 2 && decide (img.size < e.1 + 8)) with
    | some e => e.1 + 8
    | none => r.2

/-- The elements of a sub-block. -/
def subBlock (img : Array Byte) (t : Ty) (dense : Bool) (mode p : Nat) : List Nat :=
  let (w, mw) := elemBits t dense
  match mode with
  | 0 => (List.range 64).map (elemAt img p w mw)
  | 1 => List.replicate 64 0
  | 2 =>
    let mask := bytesAt img p 8
    (List.range 64).map (fun e => if bitOf mask e then elemAt img (p + 8) w (sparseBits t) (popLow mask e) else 0)
  | _ => List.replicate 64 (elemAt img p w (sparseBits t) 0)

/-- The elements of a compressed image. -/
def expandImage (img : Array Byte) (t : Ty) (dense half : Bool) : Array Nat :=
  ((payloads img t dense (if half then 128 else 256) 0 64).1.zipIdx.flatMap (fun e =>
    subBlock img t dense (imageMode img e.2) e.1)).toArray

/-- A complete image that breaks R311: under HALF a later sub-block that is not zero, or an element listed as non-zero that is. -/
def weightBad (img : Array Byte) (t : Ty) (dense half : Bool) : Bool :=
  (half && (List.range 128).any (fun s => imageMode img (128 + s) != 1)) ||
  (payloads img t dense (if half then 128 else 256) 0 64).1.zipIdx.any (fun e =>
    imageMode img e.2 == 2 &&
    (let mask := bytesAt img e.1 8
     ((subBlock img t dense 2 e.1).zipIdx.any (fun x => bitOf mask x.2 && x.1 == 0))))

/-! ### Slots and tiles of an array -/

/-- An A-stage slot. -/
def MArray.gSlot (a : MArray) (n : Nat) : Slot := FMap.get (fun _ => ({} : Slot)) a.g n
/-- A weight-buffer slot. -/
def MArray.wSlot (a : MArray) (n : Nat) : Slot := FMap.get (fun _ => ({} : Slot)) a.w n
/-- An accumulator tile. -/
def MArray.tile (a : MArray) (n : Nat) : Tile := FMap.get (fun _ => ({} : Tile)) a.t n
/-- Sets an A-stage slot. -/
def MArray.setG (a : MArray) (n : Nat) (x : Slot) : MArray := { a with g := FMap.set (fun _ => ({} : Slot)) a.g n x }
/-- Sets a weight-buffer slot. -/
def MArray.setW (a : MArray) (n : Nat) (x : Slot) : MArray := { a with w := FMap.set (fun _ => ({} : Slot)) a.w n x }
/-- Sets an accumulator tile. -/
def MArray.setT (a : MArray) (n : Nat) (x : Tile) : MArray := { a with t := FMap.set (fun _ => ({} : Tile)) a.t n x }

/-- The elements of an A tile, by element offset (R308). -/
def MArray.gElems (a : MArray) (n : Nat) : Array Nat :=
  let s := a.gSlot n
  let bs := if s.fmt = .bf16 then s.array ++ (a.gSlot (n + 1)).array else s.array
  let (w, mw) := elemBits s.fmt s.dense
  ((List.range 16384).map (elemAt bs 0 w mw)).toArray

/-- The elements of a B tile, or of a half tile, by element offset (R310 to R312). -/
def MArray.wElems (a : MArray) (n : Nat) : Array Nat :=
  let s := a.wSlot n
  let count := if s.half then 8192 else 16384
  if s.zero then (List.replicate count 0).toArray
  else
    let bs := if s.fmt = .bf16 ∧ s.half = false then s.array ++ (a.wSlot (n + 1)).array else s.array
    if s.unc then
      let (w, mw) := elemBits s.fmt s.dense
      ((List.range count).map (elemAt bs 0 w mw)).toArray
    else expandImage bs s.fmt s.dense s.half

/-- An MX scale, 1 when none is in use (R101, R102). -/
def Scales.mxAt (s : Scales) (k : Nat) : FVal :=
  if s.mxv then sc10Real (FMap.get (fun _ => (0 : BitVec 10)) s.mx k).toNat else .fin false 1 0

/-- A tile scale, 1 when none is in use (R103). -/
def Scales.tileAt (s : Scales) (k : Nat) : FVal :=
  if s.tsv then ofF32 (FMap.get (fun _ => (0 : Word)) s.tile k) else .fin false 1 0

/-- Real of an element of a format. -/
def slotReal (t : Ty) (x : Nat) : FVal := ((fmtOf t).map (fun f => f.real x)).getD .nan

/-- Is the tile one of a compensated pair (R289)? -/
def MArray.pairAt (a : MArray) (n : Nat) : Bool :=
  (a.tile (n / 2 * 2)).tag == .f32 && (a.tile (n / 2 * 2 + 1)).tag == .pairHigh

/-- May an instruction not read the tile: its tag is that of neither a plain tile nor the even one of a compensated pair (Table 5.13)? -/
def MArray.tileBad (a : MArray) (n : Nat) : Bool := (a.tile n).tag != .f32

/-- The 128 × 128 words of a tile. -/
def Tile.array (t : Tile) : Array Word := (FMap.values (fun _ => (0 : Word)) 16384 0 t.elems).toArray

/-- A tile of words. -/
def Tile.make (tag : Tag) (f : Nat → Word) : Tile := { elems := FMap.ofFn (fun _ => (0 : Word)) 16384 f, tag := tag }

/-- A plain f32 tile is written; a pair it belongs to dissolves (R289). -/
def MArray.putPlain (a : MArray) (n : Nat) (f : Nat → Word) : MArray :=
  let a1 := if a.pairAt n then
      let o := if n % 2 = 0 then n + 1 else n - 1
      a.setT o { a.tile o with tag := .f32 }
    else a
  a1.setT n (Tile.make .f32 f)

/-- hi and lo of an exact value (R109). -/
def hiLo (v : FVal) : Word × Word :=
  let hi := toF32 v
  match ofF32 hi with
  | .fin n m e => (hi, toF32 (fsum false [v, .fin (!n) m e]))
  | _ => (hi, 0)

/-- A compensated pair is written from exact values. -/
def MArray.putPair (a : MArray) (n : Nat) (f : Nat → FVal) : MArray :=
  let xs := ((List.range 16384).map (fun k => hiLo (f k))).toArray
  (a.setT n (Tile.make .f32 (fun k => (xs.getD k (0, 0)).1))).setT (n + 1) (Tile.make .pairHigh (fun k => (xs.getD k (0, 0)).2))

/-- The addends that the elements of a tile stand for: the word, or hi and lo of a pair named by its even tile (R289). -/
def MArray.addends (a : MArray) (n : Nat) : Array (List FVal) :=
  let hi := (a.tile n).array
  if a.pairAt n then
    let lo := (a.tile (n + 1)).array
    ((List.range 16384).map (fun k => [ofF32 (hi.getD k 0), ofF32 (lo.getD k 0)])).toArray
  else ((List.range 16384).map (fun k => [ofF32 (hi.getD k 0)])).toArray

/-- The values of a tile's elements. -/
def MArray.values (a : MArray) (n : Nat) : Array FVal := (a.addends n).map (fsum false)

/-! ### Multiplying (R104 to R109, R313, R315) -/

/-- A −0. -/
def FVal.negZero (v : FVal) : Bool := v.isZero && v.neg

/-- Promotion: the accumulator's addends and the chunk's products, with the tile scales (R104, R105). A zero is −0 only when
every addend is. -/
def promoted (olds ps : List FVal) (ta tb : FVal) : FVal :=
  let s := if ps.isEmpty then [] else [((fsum false ps).mul ta).mul tb]
  match fsum false (olds ++ s) with
  | .fin n m e => if m = 0 then .fin ((olds ++ ps).all FVal.negZero) 0 0 else .fin n m e
  | v => v

/-- The two kept rows of K group `q` in column `c`, from the metadata (R315). -/
def keptOf (md : Array Byte) (q c : Nat) : Nat × Nat :=
  let nib := bits (md.getD ((128 * q + c) / 2) 0).toNat (4 * (c % 2)) 4
  (nib % 4, nib / 4)

/-- Metadata that breaks R315. -/
def metaBad (md : Array Byte) : Bool :=
  (List.range 4096).any (fun n => let k := keptOf md (n / 128) (n % 128); decide (k.2 ≤ k.1))

/-- The scaled A elements by 128 × row + k. -/
def MArray.aVals (a : MArray) (n : Nat) (f : FVal → FVal) (scaled : Bool) : Array FVal :=
  let s := a.gSlot n
  let xs := a.gElems n
  ((List.range 16384).map (fun j =>
    let x := f (slotReal s.fmt (xs.getD (blocked (j / 128) (j % 128)) 0))
    if scaled then x.mul (s.scales.mxAt (4 * (j / 128) + j % 128 / 32)) else x)).toArray

/-- The scaled B elements by 128 × column + k; none for a product left out. `md` is the metadata of a half tile. -/
def MArray.bVals (a : MArray) (n : Nat) (f : FVal → FVal) (scaled : Bool) (md : Option (Array Byte)) : Array (Option FVal) :=
  let s := a.wSlot n
  let xs := a.wElems n
  ((List.range 16384).map (fun j =>
    let c := j / 128
    let k := j % 128
    let at_ : Option Nat := match md with
      | none => some (blocked k c)
      | some m =>
        let ks := keptOf m (k / 4) c
        if k % 4 = ks.1 then some (blocked (k / 4 * 2) c) else if k % 4 = ks.2 then some (blocked (k / 4 * 2 + 1) c) else none
    at_.map (fun o =>
      let y := f (slotReal s.fmt (xs.getD o 0))
      if scaled then y.mul (s.scales.mxAt (4 * c + k / 32)) else y))).toArray

/-- The products of element (r, c). -/
def products (av : Array FVal) (bv : Array (Option FVal)) (r c : Nat) : List FVal :=
  (List.range 128).filterMap (fun k => (bv.getD (128 * c + k) none).map (fun y => (av.getD (128 * r + k) .nan).mul y))

/-- An accumulating instruction on one array. -/
def MArray.accumulate (a : MArray) (d gi wi : Nat) (md : Option (Array Byte)) : MArray :=
  let av := a.aVals gi id true
  let bv := a.bVals wi id true md
  let old := a.addends d
  let tb := (a.wSlot wi).scales.tileAt 0
  let v (k : Nat) : FVal :=
    promoted (old.getD k []) (products av bv (k / 128) (k % 128)) ((a.gSlot gi).scales.tileAt (k / 128)) tb
  if a.pairAt d then a.putPair d v else a.setT d (Tile.make .f32 (fun k => toF32 (v k)))

/-- A value as a scout takes it: scaled by 2^−SH and rounded to e2m1 (R313). -/
def scoutVal (sh : Nat) (v : FVal) : FVal :=
  let x := match v with
    | .fin n m e => .fin n m (e - sh)
    | v => v
  Fmt.e2m1.real (Fmt.e2m1.round 0 false x)

/-- `mscout` on one array. -/
def MArray.scout (a : MArray) (d gi wi sh : Nat) : MArray :=
  let av := a.aVals gi (scoutVal sh) false
  let bv := a.bVals wi (scoutVal sh) false none
  a.putPlain d (fun k =>
    match fsum false (products av bv (k / 128) (k % 128)) with
    | .fin n m e => toF32 (.fin n m (e + 2 * sh))
    | v => toF32 v)

/-! ### The Sieve (R316) -/

/-- maximumNumber of a list; none when every value is NaN (R99). -/
def maxNumber (vs : List FVal) : Option FVal :=
  vs.foldl (fun acc v =>
    if v.isNan then acc
    else
      match acc with
      | none => some v
      | some w => if fcompare w v < 0 then some v else some w) none

/-- Row maxima of a tile. -/
def rowMaxima (vs : Array FVal) : List (Option FVal) :=
  (List.range 128).map (fun r => maxNumber ((List.range 128).map (fun c => vs.getD (128 * r + c) .nan)))

/-- Is an array kept, by its row maxima, the maxima over all arrays, and the thresholds (`abs_` none when off)? -/
def sieveKeep (rm g : List (Option FVal)) (rel : FVal) (abs_ : Option FVal) : Bool :=
  (rm.zip g).any (fun e =>
    match e with
    | (some x, some top) =>
      let relOk := rel == .inf false || (!rel.isNan && !(rel.neg && !rel.isZero) && decide (0 ≤ fcompare x (fsum false [top, rel.negate])))
      let absOk := match abs_ with
        | some y => !y.isNan && decide (0 ≤ fcompare x y)
        | none => false
      relOk || absOk
    | _ => false)

/-! ### Mask images (Table 15.8) -/

/-- The 48 bytes of a format-0 image. -/
def maskImage (k : BitVec 256) : List Byte :=
  leBytes 2 0 ++ leBytes 2 (popLow k.toNat 256) ++ leBytes 12 0 ++ leBytes 32 k.toNat

/-- Is a list strictly ascending? -/
def ascendingIx : List Nat → Bool
  | a :: b :: r => decide (a < b) && ascendingIx (b :: r)
  | _ => true

/-- The bytes of a mask image by its first granule; none for a header that R317 refuses. -/
def maskBytes (bs : List Byte) : Option Nat :=
  let n := field bs 2 2
  if field bs 1 1 ≠ 0 then none
  else
    match field bs 0 1 with
    | 0 => some 48
    | 1 => if 256 < n then none else some ((4 + n + 15) / 16 * 16)
    | _ => none

/-- The mask of a whole image. -/
def maskOf (bs : List Byte) : Except Trap (BitVec 256) :=
  if field bs 0 1 = 0 then
    if field bs 4 12 ≠ 0 then .error .fmt else .ok (BitVec.ofNat 256 (field bs 16 32))
  else
    let ix := ((bs.drop 4).take (field bs 2 2)).map (·.toNat)
    if !ascendingIx ix then .error .fmt else .ok (BitVec.ofNat 256 (ix.foldl (fun acc i => acc + 2 ^ i) 0))

/-! ### Draining (R319) -/

/-- The bytes of a drained tile. -/
def MArray.drain (a : MArray) (n : Nat) (t : Ty) (sat dense : Bool) : List Byte :=
  let mw := (elemBits t dense).2
  let f := (fmtOf t).getD .f32
  let xs : Array Nat :=
    if t = .f32 ∧ a.pairAt n = false then
      let ws := (a.tile n).array
      ((List.range 16384).map (fun o => let ij := unblock o; (ws.getD (128 * ij.1 + ij.2) 0).toNat)).toArray
    else
      let vs := a.values n
      ((List.range 16384).map (fun o => let ij := unblock o; f.round 0 sat (vs.getD (128 * ij.1 + ij.2) .nan))).toArray
  packAll mw xs

end Sys2Proof.Machine
end

