-- ==== Sys2Proof/Machine/Matrix.lean ====
section
/-! DEFINITION. The M-stream instructions, codes 0x00 to 0x17 of Table 7.12, and the steps of the arrays and drains (R288 to
R324). -/

namespace Sys2Proof.Machine

open Sys2Proof

/-! ### The common shape -/

/-- The context with the M-stream changed. -/
def MCtx.set (c : MCtx) (f : MStream → MStream) : MCtx :=
  let m := f c.m
  { s := c.s.setTeam c.t.uid (fun t => { t with m := some m }), t := { c.t with m := some m }, m := m }

/-- An instruction is checked whole at issue (R291). Which trap it takes when several checks fail no rule says: the lowest code, as R207
has it for rows (DESIGN CHOICE, log 81). -/
def MCtx.checked (c : MCtx) (ts : List (Option Trap)) (k : Out) : Out :=
  match lowest ts with
  | some e => trapNow c.s e
  | none => k

/-- The check that something holds. -/
def trapIf (b : Bool) (t : Trap) : Option Trap := if b then some t else none

/-- The selected arrays of the set (R294); PROT beyond it, before any other check (log 81). -/
def MCtx.sel (c : MCtx) (f : FForm) : Except Trap (List Nat) :=
  if f.mb 8 then .ok (List.range c.t.hdr.arrays)
  else if f.m 4 4 < c.t.hdr.arrays then .ok [f.m 4 4] else .error .prot

/-- An array of the set. -/
def MStream.array (m : MStream) (i : Nat) : MArray := FMap.get (fun _ => ({} : MArray)) m.arrays i

/-- Changes arrays, which hold one more operation each (R290). -/
def MStream.act (m : MStream) (is : List Nat) (f : Nat → MArray → MArray) : MStream :=
  is.foldl (fun m i =>
    { m with arrays := FMap.modify (fun _ => ({} : MArray)) m.arrays i (fun a => { f i a with ops := a.ops + 1 }) }) m

/-- The arrays' operation has been given to them: the instruction has issued. -/
def MCtx.acted (c : MCtx) (is : List Nat) (f : Nat → MArray → MArray) : Out := .done (c.set (fun m => m.act is f)).s

/-- Waits while a selected array holds an operation in execution and one waiting (R290). -/
def MCtx.free (c : MCtx) (is : List Nat) (k : Out) : Out :=
  if is.any (fun i => decide (2 ≤ (c.m.array i).ops)) then .wait c.s .arrays else k

/-- A team offset (R295). -/
def MCtx.off (c : MCtx) (f : FForm) : Nat := (c.m.mreg f.a.toNat).toNat + (c.m.mreg f.b.toNat).toNat

/-- The checks of a team offset with its size and alignment (R205, R295). -/
def MCtx.offBad (c : MCtx) (o n align : Nat) : List (Option Trap) :=
  [trapIf (o % 16 != 0 || o % align != 0) .aln, trapIf (decide (c.t.hdr.tmem < o + n)) .prot]

/-- The M-die of the bed. -/
def MCtx.mdie (c : MCtx) : Nat := mDieOf (bedOf c.t.die)

/-- A heavy instruction debits its leave once, asking the Weighbridge for what is missing (R305). -/
def MCtx.pay (c : MCtx) (cost : Nat) (k : MCtx → Out) : Out :=
  if c.m.paid then k c
  else if cost ≤ c.m.leave then k (c.set (fun m => { m with leave := m.leave - cost, paid := true }))
  else
    match c.s.grants.find? (fun g => g.op == 0 && g.uid == c.t.uid) with
    | some g => .wait c.s (.grant g.id)
    | none =>
      let r := c.s.askLeave c.mdie c.t.pitch (ceilDiv (cost - c.m.leave) 16) 0 c.t.uid
      .wait r.2 (.grant r.1)

/-- The party number of the M-stream in the logs of R215. -/
def MCtx.party (c : MCtx) : Nat := partyNo c.t.uid 101

/-- Under `.det`, a granule that another party has consumed (R215, R296). -/
def MCtx.notMine (c : MCtx) (g : Nat) : Bool :=
  let p := FMap.get (fun _ => 0) c.t.drained g
  c.t.hdr.det && p != 0 && p != c.party

/-- The check at issue of a consuming read of `n` bytes from byte `o` on (R291, R296). -/
def MCtx.detBad (c : MCtx) (consume : Bool) (o n : Nat) : Option Trap :=
  trapIf (consume && (List.range (ceilDiv n 16)).any (fun j => c.notMine (o / 16 + j))) .det

/-- Reads team memory granule by granule from byte `o` on, each once it is full, up to `n` bytes (R296). What has been read
stays in `got` while the instruction waits. Each read acquires at team scope (R213, R278), which drops no line of an M-die
(Table 13.4). -/
def MCtx.granules (c : MCtx) (consume : Bool) (o n : Nat) : Nat → Except Trap (MCtx × Option Nat)
  | 0 => .ok (c, none)
  | fuel + 1 =>
    let j := c.m.got.length
    let g := (o + j) / 16
    if n ≤ j then .ok (c, none)
    else if consume && c.notMine g then .error .det
    else if !c.t.full g then .ok (c, some g)
    else
      let s1 := (if consume then c.s.feChange .consume c.t.uid g c.party else c.s).acquire 1 false c.mdie 0
      match s1.team? c.t.uid with
      | none => .ok (c, none)
      | some t =>
        let c1 : MCtx := MCtx.set { s := s1, t := t, m := c.m } (fun m => { m with got := m.got ++ c.t.bytes (o + j) 16 })
        MCtx.granules c1 consume o n fuel

/-- The first `n` bytes from byte `o` on, or a wait for a granule. -/
def MCtx.tread (c : MCtx) (consume : Bool) (o n : Nat) (k : MCtx → List Byte → Out) : Out :=
  match c.granules consume o n (n / 16 + 1) with
  | .error e => trapNow c.s e
  | .ok (c1, some g) => .wait c1.s (.granule true [(c.t.uid, g)])
  | .ok (c1, none) => k c1 (c1.m.got.take n)

/-! ### Control and counters (R297 to R302) -/

/-- R297. -/
def execMnop (_ : FForm) (s : State) : Host.Outcome State Fault Refusal := runM (fun c => .done c.s) s

/-- R297. -/
def execMli (i : IForm) (s : State) : Host.Outcome State Fault Refusal :=
  runM (mSelf (fun c => .ok (c.m.setM i.d.toNat i.imm))) s

/-- The lowest set bit from `n` on; 256 for none (Table 15.3). -/
def kfind (k : BitVec 256) (n : Nat) : Nat := ((List.range 256).find? (fun j => decide (n ≤ j) && k.getLsbD j)).getD 256

/-- `madd` (R298, Table 15.3). -/
def maddOp (f : FForm) (m : MStream) : MStream :=
  let d := f.d.toNat
  let a := m.mreg f.a.toNat
  let b := m.mreg f.b.toNat
  let ka := m.kreg f.a.toNat
  match f.m 0 4 with
  | 0 => m.setM d (a + b)
  | 1 => m.setM d (a - b)
  | 2 => m.setM d (a &&& b)
  | 3 => m.setM d (a ||| b)
  | 4 => m.setM d (a ^^^ b)
  | 5 => m.setM d (a <<< b.toNat)
  | 6 => m.setM d (a >>> b.toNat)
  | 7 => m.setM d (a * b)
  | 8 => m.setM d (if ka.getLsbD (b.toNat % 256) then 1 else 0)
  | 9 => m.setM d (BitVec.ofNat 32 (popLow ka.toNat 256))
  | 10 => m.setM d (BitVec.ofNat 32 (kfind ka b.toNat))
  | 11 => m.setK d (ka ||| m.kreg f.b.toNat)
  | 12 => m.setK d (ka &&& m.kreg f.b.toNat)
  | 13 => m.setK d 0
  | _ =>
    let sh := 32 * (b.toNat % 8)
    m.setK d ((m.kreg d &&& ~~~((0xFFFFFFFF : BitVec 256) <<< sh)) ||| (a.zeroExtend 256 <<< sh))

/-- R298. -/
def execMadd (f : FForm) (s : State) : Host.Outcome State Fault Refusal := runM (mSelf (fun c => .ok (maddOp f c.m))) s

/-- The M-stream goes to an address. -/
def MCtx.goTo (c : MCtx) (a : DWord) : Out := .moved (c.set (fun m => { m with cur := { pc := a } })).s

/-- R299. -/
def execMbra (i : IForm) (s : State) : Host.Outcome State Fault Refusal :=
  runM (fun c =>
    if i.d = 48 ∨ c.m.mreg i.d.toNat ≠ 0 then c.goTo (braTarget c.m.cur.pc i) else c.goTo c.m.cur.nextHeader) s

/-- R299. -/
def execMloop (i : IForm) (s : State) : Host.Outcome State Fault Refusal :=
  runM (fun c =>
    let x := c.m.mreg i.d.toNat - 1
    let c1 := c.set (fun m => m.setM i.d.toNat x)
    if x ≠ 0 then c1.goTo (braTarget c.m.cur.pc i) else c1.goTo c.m.cur.nextHeader) s

/-- Has the stream drains under way? -/
def State.draining (s : State) (uid : Nat) : Bool := s.drains.any (fun d => d.uid == uid)

/-- The whole grains of the leave balance go back to the Weighbridge, and the balance becomes 0 (R307). -/
def State.returnLeave (s : State) (t : Team) : State :=
  match t.m with
  | none => s
  | some m =>
    (s.setDie (mDieOf (bedOf t.die)) (fun d => { d with credit := d.credit + (m.leave / 16 : Nat) })).setTeam t.uid (fun t =>
      { t with m := t.m.map (fun m => { m with leave := 0 }) })

/-- R300. -/
def execMend (_ : FForm) (s : State) : Host.Outcome State Fault Refusal :=
  runM (fun c =>
    if c.m.arrays.any (fun e => e.2.ops != 0) || c.s.draining c.t.uid then .wait c.s .arrays
    else .moved ((c.s.returnLeave c.t).setTeam c.t.uid (fun t => { t with m := t.m.map (fun m => { m with alive := false }) }))) s

/-- A status register as the M-stream reads it (R301, Tables 9.4 and 15.4): bits [63:32] of those of 32 bits or fewer are 0. -/
def mStatus (c : MCtx) (n : Nat) : DWord :=
  match n with
  | 14 | 15 | 18 | 19 => -1
  | 0 | 3 | 4 | 16 | 20 | 21 => 0xFFFFFFFF
  | 22 => BitVec.ofNat 64 c.t.hdr.arrays
  | 23 => BitVec.ofNat 64 (sliceOf c.t.die c.t.core % 20)
  | 24 => BitVec.ofNat 64 (c.m.leave / 16)
  | n => teamStatus c.s c.t n

/-- R301. -/
def execMsr (f : FForm) (s : State) : Host.Outcome State Fault Refusal :=
  let n := f.m 0 5
  runM (mSelf (fun c =>
    if c.t.hdr.det && n ∈ [7, 8, 9, 10, 11, 12, 13, 23, 24] then .error .det
    else
      let v := mStatus c n
      .ok (c.m.setM f.d.toNat (if f.mb 5 then (v >>> 32).truncate 32 else v.truncate 32)))) s

/-- R302. -/
def execMfence (f : FForm) (s : State) : Host.Outcome State Fault Refusal :=
  runM (fun c =>
    if c.s.draining c.t.uid then .wait c.s .drains
    else
      match c.s.relOk (.mstream c.t.uid) (scopeIf (f.m 3 2 != 0) (f.m 0 3)) (.ok ()) with
      | .error e => trapNow c.s e
      | .ok () => .done (if f.m 3 2 != 1 then c.s.acquire (f.m 0 3) false c.mdie 0 else c.s)) s

/-! ### Operand queues and rendezvous (R303, R304) -/

/-- R303. -/
def execMqpop (f : FForm) (s : State) : Host.Outcome State Fault Refusal :=
  let q := f.m 0 2
  runM (fun c =>
    match c.t.mqueue q with
    | [] => if c.t.pushersAlive (8 + q) then .wait c.s (.queueEntries (8 + q) 1) else trapNow c.s .que
    | x :: rest =>
      let c1 := c.set (fun m =>
        let m1 := m.setM f.d.toNat (x.truncate 32)
        if f.mb 2 then m1.setM (f.d.toNat + 1) ((x >>> 32).truncate 32) else m1)
      .done (c1.s.setTeam c.t.uid (fun t => t.setMqueue q rest))) s

/-- R304. -/
def execMarr (f : FForm) (s : State) : Host.Outcome State Fault Refusal :=
  let p := f.m 0 5
  runM (fun c =>
    c.checked [trapIf (c.t.pointBad p) .rdv, trapIf (c.t.hdr.det && f.d != 48#7) .det]
      (let r := (c.t.point p).arrive
       .done ((c.set (fun m => m.setM f.d.toNat (r.1.zeroExtend 32))).s.setTeam c.t.uid (fun t => t.setPoint p r.2)))) s

/-- R304. -/
def execMwait (f : FForm) (s : State) : Host.Outcome State Fault Refusal :=
  let p := f.m 0 5
  runM (fun c =>
    let h : BitVec 16 := (c.m.mreg f.b.toNat).truncate 16
    if c.t.pointBad p then trapNow c.s .rdv
    else if (c.t.point p).phase = h then .wait c.s (.phase p [h])
    else .done (c.s.acquire 1 false c.mdie 0)) s

/-- R306. -/
def execMleave (f : FForm) (s : State) : Host.Outcome State Fault Refusal :=
  runM (fun c =>
    let n := min (c.m.mreg f.a.toNat).toNat 4096
    match c.s.grants.find? (fun g => g.op == 0 && g.uid == c.t.uid) with
    | some g => .wait c.s (.grant g.id)
    | none =>
      if n = 0 ∨ c.m.paid then .done c.s
      else
        let r := (c.set (fun m => { m with paid := true })).s.askLeave c.mdie c.t.pitch n 0 c.t.uid
        .wait r.2 (.grant r.1)) s

/-! ### Loading operands (R308 to R312, R317) -/

/-- R308. -/
def execMast (f : FForm) (s : State) : Host.Outcome State Fault Refusal :=
  let dn := f.mb 3
  let n := tileBytes f.ty dn
  let d := f.d.toNat - 40
  runM (fun c =>
    match c.sel f with
    | .error e => trapNow c.s e
    | .ok is =>
      let o := c.off f
      c.checked (c.detBad (f.mb 2) o n :: c.offBad o n n) (c.free is (c.pay is.length (fun c => c.tread (f.mb 2) o n (fun c bs =>
        let a := bs.toArray
        let slot (o : Nat) (second : Bool) : Slot :=
          { bytes := slotBytes a o, zero := false, fmt := f.ty, dense := dn, second := second }
        c.acted is (fun _ x =>
          let x1 := x.setG d (slot 0 false)
          if f.ty = .bf16 then x1.setG (d + 1) (slot 16384 true) else x1)))))) s

/-- The image of an `mwb` as far as it is at hand, and how much of it is needed: under UNC its whole size (R310). -/
def mwbNeed (f : FForm) (bs : List Byte) : Nat :=
  if f.mb 2 then tileBytes f.ty (f.mb 0) / (if f.mb 1 then 2 else 1) else imageNeed bs.toArray f.ty (f.mb 0) (f.mb 1)

/-- The image of an `mwb` goes into its slots (R310). -/
def mwbLoad (f : FForm) (is : List Nat) (bs : List Byte) (c : MCtx) : Out :=
  let d := f.d.toNat - 24
  let a := bs.toArray
  let pair := f.ty == .bf16 && !f.mb 1
  let slot (o : Nat) (second : Bool) : Slot :=
    { bytes := slotBytes a o, zero := false, unc := f.mb 2, fmt := f.ty, dense := f.mb 0, half := f.mb 1, second := second }
  if !f.mb 2 && weightBad a f.ty (f.mb 0) (f.mb 1) then trapNow c.s .fmt
  else c.acted is (fun _ x => let x1 := x.setW d (slot 0 false); if pair then x1.setW (d + 1) (slot 16384 true) else x1)

/-- Reads an image from team memory, as much as its first part asks for. -/
def mwbTeam (f : FForm) (is : List Nat) (cap o : Nat) : Nat → MCtx → Out
  | 0, c => trapNow c.s .fmt
  | fuel + 1, c =>
    let n := mwbNeed f c.m.got
    if cap < n then trapNow c.s .fmt
    else if c.t.hdr.tmem < o + n then trapNow c.s .prot
    else if n ≤ c.m.got.length then mwbLoad f is (c.m.got.take n) c
    else c.tread false o n (fun c _ => mwbTeam f is cap o fuel c)

/-- Reads an image from global memory, each line of it into the RDC of the M-die when its home is elsewhere (R31). A recoverable fault
holds the stream (R295). -/
def mwbGlobal (f : FForm) (is : List Nat) (cap : Nat) (va : DWord) (c : MCtx) : Nat → List Byte → Out
  | 0, _ => trapNow c.s .fmt
  | fuel + 1, bs =>
    let n := mwbNeed f bs
    if cap < n then trapNow c.s .fmt
    else if n ≤ bs.length then mwbLoad f is (bs.take n) c
    else
      match c.s.readVA c.t.pitch c.mdie (va + BitVec.ofNat 64 bs.length) (n - bs.length) with
      | .ok more key cached =>
        let at_ := va + BitVec.ofNat 64 bs.length
        mwbGlobal f is cap va { c with s := c.s.fillDie c.t.pitch c.mdie at_ key cached false } fuel (bs ++ more)
      | .trap e va => .trap c.s { code := e.code, va := va }
      | .recoverable va p => let q := c.s.hold c.t (.mstream c.t.uid) 0 va p; .wait q.2 (.fault q.1)
      | .busy x => .wait c.s (.scrub x)

/-- The global address of R295. -/
def MCtx.global (c : MCtx) (f : FForm) : DWord :=
  (c.m.mreg (f.a.toNat + 1) ++ c.m.mreg f.a.toNat : DWord) + (c.m.mreg f.b.toNat).zeroExtend 64

/-- R310, R311. -/
def execMwb (f : FForm) (s : State) : Host.Outcome State Fault Refusal :=
  let cap := if f.ty = .bf16 ∧ f.mb 1 = false then 32768 else 16384
  runM (fun c =>
    match c.sel f with
    | .error e => trapNow c.s e
    | .ok is =>
      if f.mb 3 then
        let o := c.off f
        c.checked (c.offBad o (mwbNeed f []) 16) (c.free is (c.pay is.length (mwbTeam f is cap o 600)))
      else
        let va := c.global f
        c.checked [trapIf (va.toNat % 16 != 0) .aln, trapIf (!canonical va) .xlat]
          (c.free is (c.pay is.length (fun c => mwbGlobal f is cap va c 600 [])))) s

/-- The bytes that `mscl` reads (Table 15.5). -/
def msclBytes (kind : Nat) (g : Bool) : Nat :=
  match kind with
  | 0 => 512
  | 1 => 1024
  | 2 => if g then 512 else 4
  | _ => 0

/-- The scale store after `mscl` (R309). -/
def msclStore (kind : Nat) (a : Array Byte) (n : Nat) (x : Scales) : Scales :=
  match kind with
  | 0 => { x with mx := FMap.ofFn (fun _ => (0 : BitVec 10)) 512 (fun k => BitVec.ofNat 10 (4 * (a.getD k 0).toNat)), mxv := true }
  | 1 => { x with mx := FMap.ofFn (fun _ => (0 : BitVec 10)) 512 (fun k => BitVec.ofNat 10 (bytesAt a (2 * k) 2)), mxv := true }
  | 2 => { x with tile := FMap.ofFn (fun _ => (0 : Word)) (n / 4) (fun k => BitVec.ofNat 32 (bytesAt a (4 * k) 4)), tsv := true }
  | _ => { x with mxv := false, tsv := false }

/-- R309. -/
def execMscl (f : FForm) (s : State) : Host.Outcome State Fault Refusal :=
  let kind := f.m 2 2
  let g := decide (40 ≤ f.d.toNat)
  let d := f.d.toNat - (if g then 40 else 24)
  let n := msclBytes kind g
  runM (fun c =>
    match c.sel f with
    | .error e => trapNow c.s e
    | .ok is =>
      let second := is.any (fun i => if g then ((c.m.array i).gSlot d).second else ((c.m.array i).wSlot d).second)
      let put (c : MCtx) (bs : List Byte) : Out :=
        c.acted is (fun _ x =>
          if g then let y := x.gSlot d; x.setG d { y with scales := msclStore kind bs.toArray n y.scales }
          else let y := x.wSlot d; x.setW d { y with scales := msclStore kind bs.toArray n y.scales })
      let o := c.off f
      c.checked (trapIf second .fmt :: (if kind = 3 then [] else c.detBad (f.mb 0) o n :: c.offBad o n 16))
        (c.free is (if kind = 3 then put c [] else c.tread (f.mb 0) o n put))) s

/-- R317. -/
def execMmaskld (f : FForm) (s : State) : Host.Outcome State Fault Refusal :=
  let consume := !f.mb 0
  runM (fun c =>
    let o := c.off f
    c.checked (c.detBad consume o 16 :: c.offBad o 16 16) (c.tread consume o 16 (fun c bs =>
      match maskBytes bs with
      | none => trapNow c.s .fmt
      | some n =>
        c.checked [trapIf (decide (c.t.hdr.tmem < o + n)) .prot, c.detBad consume o n] (c.tread consume o n (fun c bs =>
          match maskOf bs with
          | .error e => trapNow c.s e
          | .ok k => .done (c.set (fun m => m.setK f.d.toNat k)).s))))) s

/-! ### Multiplying (R313 to R316) -/

/-- The FMT checks of a multiplying instruction on one array (R289, R312, R314). -/
def mulBad (a : MArray) (d gi wi : Nat) (half scout : Bool) : Bool :=
  let x := a.gSlot gi
  let y := a.wSlot wi
  x.second || y.second || y.half != half || (!scout && ((x.fmt == .bf16) != (y.fmt == .bf16) || a.tileBad d))

/-- The cost of a multiplication on one array, in sixteenth-grains (Table 15.9). -/
def mulCost (a : MArray) (gi wi : Nat) (half : Bool) : Nat :=
  let x := (a.gSlot gi).fmt
  let y := (a.wSlot wi).fmt
  let n := if x = .bf16 ∨ y = .bf16 then 2 else if x = .e2m1 ∧ y = .e2m1 then 0 else 1
  if half then n + 1 else if n = 0 then 2 else 3 * n

/-- A multiplying instruction over its selected arrays: `acts` tells which of them act, `cost` what each of those costs. -/
def mulOp (f : FForm) (half scout : Bool) (acts : MCtx → Nat → Bool) (cost : MArray → Nat)
    (go : MArray → Nat → Nat → Nat → MArray) (s : State) : Host.Outcome State Fault Refusal :=
  let d := f.d.toNat - 44
  let gi := f.a.toNat - 40
  let wi := f.b.toNat - 24
  runM (fun c =>
    match c.sel f with
    | .error e => trapNow c.s e
    | .ok is =>
      let on := is.filter (acts c)
      c.checked [trapIf (is.any (fun i => mulBad (c.m.array i) d gi wi half scout)) .fmt]
        (c.free on (c.pay (on.foldl (fun n i => n + cost (c.m.array i)) 0) (fun c => c.acted on (fun _ a => go a d gi wi))))) s

/-- R313. -/
def execMma (f : FForm) (s : State) : Host.Outcome State Fault Refusal :=
  mulOp f false false (fun _ _ => true) (fun a => mulCost a (f.a.toNat - 40) (f.b.toNat - 24) false)
    (fun a d gi wi => a.accumulate d gi wi none) s

/-- R313: arrays whose mask bit is clear are passed over. -/
def execMmak (f : FForm) (s : State) : Host.Outcome State Fault Refusal :=
  mulOp f false false (fun c i => (c.m.kreg f.c.toNat).getLsbD (16 * f.m 0 4 + i))
    (fun a => mulCost a (f.a.toNat - 40) (f.b.toNat - 24) false) (fun a d gi wi => a.accumulate d gi wi none) s

/-- R313. -/
def execMscout (f : FForm) (s : State) : Host.Outcome State Fault Refusal :=
  mulOp f false true (fun _ _ => true) (fun _ => 2) (fun a d gi wi => a.scout d gi wi (f.m 0 4)) s

/-- R315: reads the metadata of every selected array granule by granule, each once it is full, and consumes it unless KEEP. The
selected arrays are one or all from 0 on (R294), so their metadata is one range. -/
def execMmasp (f : FForm) (s : State) : Host.Outcome State Fault Refusal :=
  let d := f.d.toNat - 44
  let gi := f.a.toNat - 40
  let wi := f.b.toNat - 24
  runM (fun c =>
    match c.sel f with
    | .error e => trapNow c.s e
    | .ok is =>
      let base := (c.m.mreg f.c.toNat).toNat + 2048 * is.headD 0
      let n := 2048 * is.length
      c.checked (trapIf (is.any (fun i => mulBad (c.m.array i) d gi wi true false)) .fmt
          :: c.detBad (!f.mb 0) base n :: c.offBad base n 16)
        (c.free is (c.pay (is.foldl (fun n i => n + mulCost (c.m.array i) gi wi true) 0) (fun c =>
          c.tread (!f.mb 0) base n (fun c bs =>
            let md (i : Nat) : Array Byte := ((bs.drop (2048 * (i - is.headD 0))).take 2048).toArray
            if is.any (fun i => metaBad (md i)) then trapNow c.s .fmt
            else c.acted is (fun i a => a.accumulate d gi wi (some (md i)))))))) s

/-- R316. -/
def execMsieve (f : FForm) (s : State) : Host.Outcome State Fault Refusal :=
  let a := f.a.toNat - 44
  runM (fun c =>
    match c.sel f with
    | .error e => trapNow c.s e
    | .ok is =>
      c.checked [trapIf (is.any (fun i => (c.m.array i).tileBad a)) .fmt]
        (c.free is (c.pay is.length (fun c =>
          let rms := is.map (fun i => (i, rowMaxima ((c.m.array i).values a)))
          let g := (List.range 128).map (fun r => maxNumber (rms.filterMap (fun e => e.2.getD r none)))
          let rel := ofF32 (c.m.mreg f.b.toNat)
          let abs_ := if f.c = 48 then none else some (ofF32 (c.m.mreg f.c.toNat))
          let k := rms.foldl (fun (k : BitVec 256) e =>
            let bit := (1 : BitVec 256) <<< (16 * f.m 0 4 + e.1)
            if sieveKeep e.2 g rel abs_ then k ||| bit else k &&& ~~~bit) (c.m.kreg f.d.toNat)
          (c.set (fun m => m.setK f.d.toNat k)).acted is (fun _ x => x))))) s

/-! ### Zeroing, converting, draining (R318 to R321) -/

/-- R318. -/
def execMzero (f : FForm) (s : State) : Host.Outcome State Fault Refusal :=
  let d := f.d.toNat - 44
  runM (fun c =>
    match c.sel f with
    | .error e => trapNow c.s e
    | .ok is =>
      c.free is (c.acted is (fun _ a =>
        if f.mb 0 then (a.setT d {}).setT (d + 1) { tag := .pairHigh }
        else if d % 2 = 0 ∧ a.pairAt d then (a.setT d {}).setT (d + 1) {}
        else a.putPlain d (fun _ => 0)))) s

/-- R321. -/
def execMcvt (f : FForm) (s : State) : Host.Outcome State Fault Refusal :=
  let d := f.d.toNat - 44
  let a := f.a.toNat - 44
  runM (fun c =>
    match c.sel f with
    | .error e => trapNow c.s e
    | .ok is =>
      let k := ofF32 (c.m.mreg f.b.toNat)
      c.checked [trapIf (is.any (fun i => (c.m.array i).tileBad a)) .fmt]
        (c.free is (c.acted is (fun _ x =>
          let vs := x.values a
          match f.m 0 2 with
          | 0 => x.putPlain d (fun j => toF32 (vs.getD j .nan))
          | 1 => x.putPair d (fun j => vs.getD j .nan)
          | _ => x.putPlain d (fun j => toF32 ((vs.getD j .nan).mul k)))))) s

/-- The granules of some bytes from a team offset on. -/
def granulesOf (o : Nat) (bs : List Byte) : List (Nat × List Byte) :=
  let a := bs.toArray
  (List.range (a.size / 16)).map (fun j => (o / 16 + j, (List.range 16).map (fun k => a.getD (16 * j + k) 0)))

/-- A drain begins (R320). -/
def MCtx.drainNow (c : MCtx) (f : FForm) (gs : List (Nat × List Byte)) : State :=
  { c.s with drains := c.s.drains ++ [{ id := c.s.nextId, uid := c.t.uid, kf := f.mb 0, we := f.mb 1, granules := gs }],
             nextId := c.s.nextId + 1 }

/-- R319, R320: the source is read at issue, and the granules are written afterwards. -/
def execMdrain (f : FForm) (s : State) : Host.Outcome State Fault Refusal :=
  runM (fun c =>
    let o := c.off f
    if f.ty = .none then
      c.checked (c.offBad o 48 16) (c.pay 1 (fun c => .done (c.drainNow f (granulesOf o (maskImage (c.m.kreg f.d.toNat))))))
    else
      let d := f.d.toNat - 44
      let n := tileBytes f.ty (f.mb 2)
      match c.sel f with
      | .error e => trapNow c.s e
      | .ok is =>
        c.checked (trapIf (is.any (fun i => (c.m.array i).tileBad d)) .fmt :: c.offBad o (n * is.length) n)
          (c.free is (c.pay is.length (fun c =>
            let gs := is.zipIdx.flatMap (fun e =>
              granulesOf (o + n * e.2) ((c.m.array e.1).drain d f.ty (f.mb 3) (f.mb 2)))
            MCtx.acted { c with s := c.drainNow f gs } is (fun _ a => a))))) s

/-! ### Arrays and drains (R290, R320) -/

/-- R290: an array finishes an operation. -/
def execArrayOpComplete (team array : Nat) (s : State) : Host.Outcome State Fault Refusal :=
  .next (s.setTeam team (fun t => { t with m := t.m.map (fun m =>
    { m with arrays := FMap.modify (fun _ => ({} : MArray)) m.arrays array (fun a => { a with ops := a.ops - 1 }) }) }))

/-- Is an earlier drain of the same stream still to write the granule? -/
def drainBehind (ds : List DrainOp) (d : DrainOp) (g : Nat) : Bool :=
  ds.any (fun e => e.uid == d.uid && decide (e.id < d.id) && e.granules.any (fun x => x.1 == g))

/-- Can the next granule of a drain be written: no earlier drain has it still to write, and under WE it is empty? -/
def State.drainReady (s : State) (d : DrainOp) : Bool :=
  match d.granules with
  | [] => true
  | (g, _) :: _ => !drainBehind s.drains d g && !(d.we && s.isFull d.uid g)

/-- R238, R271: the next granule of a drain, set full unless KF. -/
def execMdrainGranuleWrite (op : Nat) (s : State) : Host.Outcome State Fault Refusal :=
  match s.drains.find? (fun d => d.id == op) with
  | none => .next s
  | some d =>
    if !s.drainReady d then .next s
    else
      let rest := d.granules.tail
      let s1 := match d.granules with
        | (g, bs) :: _ => s.setTeam d.uid (fun t =>
            let t1 := t.writeBytes (16 * g) bs
            if d.kf then t1 else t1.setFull g true)
        | [] => s
      .next { s1 with drains := s1.drains.filterMap (fun e =>
        if e.id = op then (if rest.isEmpty then none else some { e with granules := rest }) else some e) }

end Sys2Proof.Machine
end

