-- ==== Sys2Proof/Machine/Complete.lean ====
section
/-! DEFINITION. What the hardware does by itself around the code of a team: long-latency instructions complete (R122, R143, R327),
waiting parties resume (R82, R426, R428, R432), and report records reach their rings (R427, R475). -/

namespace Sys2Proof.Machine

open Sys2Proof

/-! ### Completion -/

/-- Is an engine operation still under way? -/
def State.engineLive (s : State) (id : Nat) : Bool := s.barrows.any (fun b => b.eng.id == id) || s.gleans.any (fun g => g.eng.id == id)

/-- A wait counter falls in the threads of an instruction, or in the U-stream (R122). -/
def Team.lower (t : Team) (hs : List (Nat × Nat)) (wc : Nat) : Team :=
  if hs.isEmpty then { t with u := { t.u with w := FMap.modify (fun _ => 0) t.u.w wc (· - 1) } }
  else hs.foldl (fun t k => t.setThread k.1 k.2 (fun h => { h with w := FMap.modify (fun _ => 0) h.w wc (· - 1) })) t

/-- R122, R143: an instruction in flight completes, when the engine operation it issued, if any, has ended. A Drill group
operation acts when every thread of the group has arrived (R327), and a record that waited takes its place when there is room (R348,
R350). Its register writes stand in the pending writes. -/
def execLongLatencyComplete (op : Nat) (s : State) : Host.Outcome State Fault Refusal :=
  match s.inflight.find? (fun i => i.id == op) with
  | none => .next s
  | some i =>
    match i.grp, i.late with
    | none, some l => .next (s.serveLate i l)
    | some ds, _ => .next (i.threads.foldl (fun s k => s.groupAct i.uid ds k.1 k.2) s)
    | none, none =>
      if (i.dep ≠ 0 ∧ s.engineLive i.dep) ∨ (s.team? i.uid).isNone then .next s
      else .next { s.setTeam i.uid (fun t => t.lower i.threads i.wc) with inflight := s.inflight.filter (fun j => j.id != op) }

/-! ### Waits -/

/-- Does the STATUS word at an address have a value that ends a wait, or can it not be read (R245)? -/
def State.chitSettled (s : State) (t : Team) (status : DWord) : Bool :=
  match s.readVA t.pitch t.die status 4 with
  | .ok bs _ _ => finalStatus (field bs 0 4)
  | .busy _ => false
  | _ => true

/-- The session that an instruction names (Table 17.1). -/
def Instr.session (i : Instr) : Nat :=
  match i.parts with
  | some (_, .f f) => f.m 0 1
  | _ => 0

/-- Is the destination that held an instruction up written (R142): in the threads of a fragment, or, where there are none, in the U-stream? -/
def Instr.freed (i : Option Instr) (mem : List Thread) (u : UStream) : Bool :=
  match i.bind Instr.parts with
  | some (o, fm) => mem.all (fun h => !heldUp o fm h) && (!mem.isEmpty || !u.heldUp o fm)
  | none => true

/-- Has the service ring of a die room for a request, does it answer at once, or can it not be read (R473)? -/
def State.serviceRoom (s : State) (die : Nat) : Bool :=
  let a := (s.die die).svcring
  let r := RingHdr.parse (s.bytes a.toNat 64)
  a == 0 || (s.ringMeets die a.toNat 64 true).isSome || decide (r.tail - r.head < r.cap)

/-- Those of some threads that execute an instruction: their guard is true and no `skip` passes over it (R125, R135). -/
def Instr.doing (i : Option Instr) (mem : List Thread) : List Thread :=
  match i.bind Instr.parts with
  | some (_, fm) => mem.filter (Thread.on fm.guard)
  | none => mem

/-- Does an instruction load or restore a Drill session? -/
def Instr.opens (i : Instr) : Bool :=
  match i with
  | .drlld _ | .drlrst _ => true
  | _ => false

/-- Is the condition true for which a party of a team waits (R82)? `mem` are the threads of a fragment, none for a stream. -/
def State.waitReady (s : State) (t : Team) (mem : List Thread) (i : Option Instr) (w : WaitFor) : Bool :=
  match w with
  | .counters m => mem.all (fun h => !countersBusy h.wcnt m) && (!mem.isEmpty || !countersBusy t.u.wcnt m)
  | .counterRoom c => (Instr.doing i mem).all (fun h => decide (h.wcnt c < 63)) && (!mem.isEmpty || decide (t.u.wcnt c < 63))
  | .waits m => (Instr.doing i mem).all (fun h => !countersBusy h.wcnt m) && (!mem.isEmpty || !countersBusy t.u.wcnt m)
  | .pendRoom n => (Instr.doing i mem).all (fun h => decide ((Pend.room n 9 h.pend).2.length + n ≤ 8))
  | .destination => Instr.freed i mem t.u
  | .phase p hs => !hs.contains (t.point p).phase
  | .queueRoom q n => decide (t.qCount q + n ≤ qDepth q)
  | .queueEntries q n => decide (n ≤ t.qCount q) || !t.pushersAlive q
  | .granule full gs => gs.any (fun g => s.isFull g.1 g.2 == full)
  | .chit a => s.chitSettled t a
  | .others =>
    let ds := (i.map Instr.session).getD 0
    mem.all (fun h => (h.arrival ds).isNone || (i.any Instr.opens && t.idleRestore ds h))
  | .service tag => t.syscs.any (fun q => q.tag == tag && q.reply.isSome)
  | .serviceRing d => s.serviceRoom d
  | .fault q => s.signalOf q != 0
  | .grant r => !s.grants.any (fun g => g.id == r)
  | .arrays => t.m.all (fun m => m.arrays.all (fun a => decide (a.2.ops < 2)))
  | .drains => !s.draining t.uid
  | .parked => !t.threads.any (fun h => mem.any (fun g => g.fid == h.fid) &&
      (match h.st with
       | .parked _ | .replay | .held _ => true
       | _ => false))
  | .scrub f => !(s.frame f).scrub

/-- A party that waits on a fault record goes on after its service, or takes XLAT after a FAIL signal (R428); another goes on. -/
def State.waitOver (s : State) (t : Team) (p : Party) (w : WaitFor) (go : Team → Team) : State :=
  match w with
  | .fault q =>
    if s.signalOf q = 2 then (s.served q).trap p { code := Trap.xlat.code, va := s.faultVA q }
    else (s.served q).setTeam t.uid go
  | _ => s.setTeam t.uid go

/-- The record on which a thread took a FAIL signal while its team was halted or saved: one it was parked on at the entry of its
episode, or one of a Drill image (R428, R431). -/
def State.failedOn (s : State) (h : Thread) : Option Nat :=
  (h.resumeParked :: h.arr.map (·.fault)).find? (fun q => q != 0 && s.signalOf q == 2)

/-- A thread that is parked and signalled replays (R426), and an episode whose threads all stand at `fresume` ends when its token
is signalled (R432). -/
def State.laneResume (s : State) (t : Team) (row pos : Nat) : State :=
  match t.thread? row pos with
  | none => s
  | some h =>
    match s.failedOn h, h.st with
    | some q, _ => (s.served q).trap (.lane t.uid row pos) { code := Trap.xlat.code, va := s.faultVA q }
    | none, .parked q | none, .held q =>
      match s.signalOf q with
      | 0 => s
      | 2 => (s.served q).trap (.lane t.uid row pos) { code := Trap.xlat.code, va := s.faultVA q }
      | _ => (s.served q).setTeam t.uid (fun t => t.setThread row pos (fun h => { h with st := .replay }))
    | none, .fresumeWait =>
      match t.episodeOf row pos with
      | some e => if s.episodeReady t e then e.recs.foldl State.served (s.setTeam t.uid (fun t => t.endEpisode e)) else s
      | none => s
    | _, _ => s

/-- The parties of a team that go on: all of a running team, and the fragment under STEP of a stopped one, but for a wait on a
fault record, whose service takes effect when the team resumes (R428). -/
def Team.goesOn (t : Team) (p : Party) : Bool :=
  !t.retired &&
  match p with
  | .frag _ fid =>
    t.halt.phase == .running
    || (t.halt.phase == .stopped && t.halt.stepping.any (fun e => e.1 == fid) && (keepFault ((t.frag? fid).bind (·.wait))).isNone)
  | _ => t.halt.phase == .running

/-- R82: the condition for which a party waits has become true, and it resumes. -/
def execWaitEnd (p : Party) (s : State) : Host.Outcome State Fault Refusal :=
  match s.team? (partyUid p) with
  | none => .next s
  | some t =>
    if !t.goesOn p then .next s
    else
      match p with
      | .frag _ fid =>
        match t.frag? fid with
        | none => .next s
        | some g =>
          match g.wait with
          | none => .next s
          | some w =>
            if s.waitReady t (t.members fid) g.cur.instr? w then
              .next (s.waitOver t p w (fun t => t.setFrag fid (fun g => { g with wait := none })))
            else .next s
      | .lane _ row pos => .next (s.laneResume t row pos)
      | .ustream _ =>
        match t.u.wait with
        | none => .next s
        | some w =>
          if s.waitReady t [] t.u.cur.instr? w then
            .next (s.waitOver t p w (fun t => { t with u := { t.u with wait := none } }))
          else .next s
      | .mstream _ =>
        match t.m.bind (·.wait) with
        | none => .next s
        | some w =>
          if s.waitReady t [] none w then
            .next (s.waitOver t p w (fun t => { t with m := t.m.map (fun m => { m with wait := none }) }))
          else .next s

/-! ### Rings (R427, R471, R475) -/

/-- Does the memory at a device physical address answer the A6 itself on die `d`? -/
def State.rawOpen (s : State) (d pa : Nat) : Bool :=
  decide (pa < 0x9000000000) && (s.die (homeDie pa)).online && s.route d (homeDie pa)

/-- The keys of a range of a ring: virtual addresses of the pitch, or device physical addresses. -/
def State.ringKeys (s : State) (ring die : Nat) (acc : Access) (a : DWord) (n : Nat) : Reach :=
  if ring = evRing then
    if s.rawOpen die a.toNat && s.rawOpen die (a.toNat + n - 1) && !(acc == .read && s.poisoned a.toNat n) then .ok [a.toNat] false
    else .trap .xlat
  else s.reach ring die acc (acc == .read) (pieces a n)

/-- The pieces that go with the keys. -/
def ringPieces (ring : Nat) (a : DWord) (n : Nat) : List (DWord × Nat) := if ring = evRing then [(a, n)] else pieces a n

/-- Is the header of a ring outside its limits (R475)? -/
def RingHdr.bad (h : RingHdr) (align : Nat) : Bool :=
  decide (h.cap < 16) || decide (65536 < h.cap) || h.cap &&& (h.cap - 1) != 0 || h.base % align != 0 || h.rsv != 0 || h.rest != 0

/-- TAIL − HEAD. -/
def RingHdr.used (h : RingHdr) : Nat := (h.tail + 2 ^ 64 - h.head) % 2 ^ 64

/-- The header address of a ring. -/
def State.ringAt (s : State) (ring : Nat) : DWord := if ring = evRing then s.pkg.evring else (s.pitch ring).ring

/-- A record leaves the records on their way. -/
def State.dropPend (s : State) (n : Nat) : State := { s with recs := s.recs.filter (fun r => r.n != n) }

/-- A ring breaks: the record meant for it is dropped; a report ring's break is a package event (R475). -/
def State.breakRing (s : State) (r : PendRec) : State :=
  let s1 := (s.dropPend r.n).dropRec r.ring
  if r.ring = evRing then s1.setPkg (fun k => { k with evBroken := true })
  else
    (s1.setPitch r.ring (fun p => { p with ringBroken := true })).report evRing r.die
      { kind := 16, pitch := r.ring, va := (s.ringAt r.ring).toNat }

/-- A record whose ring is full: a fault record waits, an error record takes one of the 64 places of its die, or is dropped
(R427). -/
def State.holdRec (s : State) (r : PendRec) : State :=
  if r.fault || r.held then s
  else if (s.recs.filter (fun q => q.held && q.die == r.die)).length < 64 then
    { s with recs := s.recs.map (fun q => if q.n = r.n then { q with held := true } else q) }
  else (s.dropPend r.n).dropRec r.ring

/-- A die's first record for a ring finds it full: it and the records behind it, which keep their order, are held or dropped. -/
def State.ringFull (s : State) (r : PendRec) : State :=
  (s.recs.filter (fun q => q.ring == r.ring && q.die == r.die)).foldl State.holdRec s

/-- The MSI-X vector of a ring (Table 25.3). -/
def ringVector (ring : Nat) : Answer := if ring = evRing then .msix 0 1 else .msix ring 0

/-- The record is written into its slot, and TAIL advances. -/
def State.putRecord (s : State) (r : PendRec) (h : RingHdr) (hk : List Nat) : State :=
  let a := s.ringAt r.ring
  let slot : DWord := BitVec.ofNat 64 (h.base + 64 * (h.tail % h.cap))
  match s.ringKeys r.ring r.die .write slot 64 with
  | .ok ks _ =>
    let s1 := s.scatterFor r.ring (ringPieces r.ring slot 64) ks r.bytes
    let s2 := s1.scatterFor r.ring (ringPieces r.ring a 8) hk (leBytes 8 (h.tail + 1))
    { s2.dropPend r.n with outbox := s2.outbox ++ [ringVector r.ring] }
  | .busy _ => s
  | _ => s.breakRing r

/-- R427, R475: the next record of a die for a ring is written, waits for room, or is dropped and counted. -/
def execReportRecordWrite (n : Nat) (s : State) : Host.Outcome State Fault Refusal :=
  match s.recs.find? (fun r => r.n == n) with
  | none => .next s
  | some r =>
    if (s.recs.find? (fun q => q.ring == r.ring && q.die == r.die)).any (fun q => q.n != n) then .next s
    else if !s.ringOpen r.ring then .next ((s.dropPend n).dropRec r.ring)
    else
      let a := s.ringAt r.ring
      match s.ringKeys r.ring r.die .read a 64, s.ringKeys r.ring r.die .write a 8 with
      | .busy _, _ => .next s
      | .ok ks _, .ok hk _ =>
        let h := RingHdr.parse (s.gather (ringPieces r.ring a 64) ks)
        if h.bad 64 then .next (s.breakRing r)
        else if h.cap ≤ h.used then .next (s.ringFull r)
        else .next (s.putRecord r h hk)
      | _, _ => .next (s.breakRing r)

end Sys2Proof.Machine
end

