-- ==== Sys2Proof/Machine/Gleaner.lean ====
section
/-! DEFINITION. Gleaner passes (R380 to R383) and the evaluation of a target callable (R369). -/

namespace Sys2Proof.Machine

open Sys2Proof

/-! ### The evaluator (R369) -/

/-- The meaning of an instruction that a target callable may use; none for any other. -/
def evalExec (i : Instr) (s : State) : Option (Host.Outcome State Fault Refusal) :=
  match i with
  | .nop x => some (execNop x s)
  | .skip x => some (execSkip x s)
  | .bra x => some (execBra x s)
  | .call x => some (execCall x s)
  | .ret x => some (execRet x s)
  | .smov x => some (execSmov x s)
  | .sli x => some (execSli x s)
  | .slk x => some (execSlk x s)
  | .sldc x => some (execSldc x s)
  | .sadd x => some (execSadd x s)
  | .ssub x => some (execSsub x s)
  | .smul x => some (execSmul x s)
  | .smulh x => some (execSmulh x s)
  | .sand x => some (execSand x s)
  | .sor x => some (execSor x s)
  | .sxor x => some (execSxor x s)
  | .snot x => some (execSnot x s)
  | .sshl x => some (execSshl x s)
  | .sshr x => some (execSshr x s)
  | .ssar x => some (execSsar x s)
  | .smin x => some (execSmin x s)
  | .smax x => some (execSmax x s)
  | .scmp x => some (execScmp x s)
  | .ssel x => some (execSsel x s)
  | .sbfe x => some (execSbfe x s)
  | .sbfi x => some (execSbfi x s)
  | .sclz x => some (execSclz x s)
  | .spopc x => some (execSpopc x s)
  | .vmov x => some (execVmov x s)
  | .vli x => some (execVli x s)
  | .vlk x => some (execVlk x s)
  | .vbcs x => some (execVbcs x s)
  | .vadd x => some (execVadd x s)
  | .vsub x => some (execVsub x s)
  | .vmul x => some (execVmul x s)
  | .vmulh x => some (execVmulh x s)
  | .vmad x => some (execVmad x s)
  | .vabs x => some (execVabs x s)
  | .vneg x => some (execVneg x s)
  | .vmin x => some (execVmin x s)
  | .vmax x => some (execVmax x s)
  | .vand x => some (execVand x s)
  | .vor x => some (execVor x s)
  | .vxor x => some (execVxor x s)
  | .vnot x => some (execVnot x s)
  | .vandn x => some (execVandn x s)
  | .vshl x => some (execVshl x s)
  | .vshr x => some (execVshr x s)
  | .vsar x => some (execVsar x s)
  | .vrol x => some (execVrol x s)
  | .vclz x => some (execVclz x s)
  | .vctz x => some (execVctz x s)
  | .vpopc x => some (execVpopc x s)
  | .vbrev x => some (execVbrev x s)
  | .vbfe x => some (execVbfe x s)
  | .vbfi x => some (execVbfi x s)
  | .vcmp x => some (execVcmp x s)
  | .vsel x => some (execVsel x s)
  | .vdot4 x => some (execVdot4 x s)
  | .vtag x => some (execVtag x s)
  | .pand x => some (execPand x s)
  | .por x => some (execPor x s)
  | .pxor x => some (execPxor x s)
  | .pnot x => some (execPnot x s)
  | .pset x => some (execPset x s)
  | .pget x => some (execPget x s)
  | .vfadd x => some (execVfadd x s)
  | .vfsub x => some (execVfsub x s)
  | .vfmul x => some (execVfmul x s)
  | .vffma x => some (execVffma x s)
  | .vfmin x => some (execVfmin x s)
  | .vfmax x => some (execVfmax x s)
  | .vfabs x => some (execVfabs x s)
  | .vfneg x => some (execVfneg x s)
  | .vfcmp x => some (execVfcmp x s)
  | .vfclass x => some (execVfclass x s)
  | .vfrnd x => some (execVfrnd x s)
  | .vrcp x => some (execVrcp x s)
  | .vrsq x => some (execVrsq x s)
  | .vsqrt x => some (execVsqrt x s)
  | .vdiv x => some (execVdiv x s)
  | .vexp2 x => some (execVexp2 x s)
  | .vlog2 x => some (execVlog2 x s)
  | .vsinpi x => some (execVsinpi x s)
  | .vcospi x => some (execVcospi x s)
  | .vcvt x => some (execVcvt x s)
  | .vpack x => some (execVpack x s)
  | .vunpk x => some (execVunpk x s)
  | .vscl x => some (execVscl x s)
  | .vfdot2 x => some (execVfdot2 x s)
  | .vpfma x => some (execVpfma x s)
  | .vpfadd x => some (execVpfadd x s)
  | .vpfmul x => some (execVpfmul x s)
  | .ld x => some (execLd x s)
  | _ => none

/-- Does a register field name a register the evaluator lacks: s16 to s63? -/
def beyondS (kind : Fld) (n : Nat) : Bool := kind == .s && decide (16 ≤ n) && decide (n < 64)

/-- May a target callable use the instruction with its registers: v0 to v31, s0 to s15, and a plain `ld`? -/
def evalMay (o : Opc) (fm : Form) : Bool :=
  (regsNamed o fm).all (fun n => decide (n < 32)) &&
  match fm with
  | .f f =>
    let sh := shape false o f
    !(beyondS sh.d f.d.toNat || beyondS sh.a f.a.toNat || beyondS sh.b f.b.toNat || beyondS sh.c f.c.toNat)
    && (o != .ld || f.m 4 2 == 0)
  | .i x => !beyondS (immFld false o x) x.d.toNat

/-- How an evaluation ended: the registers at the outermost `ret`, or what stops it. -/
abbrev Evaluated := Except Stop Thread

/-- The scratch team of an evaluation: one thread of the issuing launch's code, at the callable. -/
def evalTeam (t : Team) (uid : Nat) (at_ : DWord) (v : List VReg) : Team :=
  { t with
    uid := uid, plot := [uid], hdr := { t.hdr with rows := 1, lrows := 0, erows := 0, cregs := 32 },
    threads := [{ row := 0, pos := 0, fid := 0, cur := { pc := at_ }, v := FMap.ofFn (fun _ => ({} : VReg)) v.length (fun k => v.getD k {}) }],
    frags := [{ fid := 0, cur := { pc := at_ } }],
    u := { alive := false, cur := { pc := 0 } }, m := none, s := FMap.set (fun _ => (0 : DWord)) [] 0 t.argp,
    tmem := [], fe := [], q := [], mq := [], rdv := [], drills := [], episodes := [], syscs := [], halt := {} }

/-- What has stopped the scratch team, if anything: a recoverable fault, whose address its record gives; a frame being cleared;
a trap. -/
def evalStop (s0 s : State) (uid : Nat) : Option Stop :=
  match s.team? uid with
  | none => some .err
  | some t =>
    if t.halt.phase ≠ .running then some .err
    else
      let fault : Stop := .fault (BitVec.ofNat 64 (((s.recs.getLast?).map (fun r => field r.bytes 16 8)).getD 0))
        (decide (s0.outbox.length < s.outbox.length))
      let st : Option TStat := (t.thread? 0 0).map (fun h => h.st)
      let wt : Option WaitFor := (t.frag? 0).bind (fun g => g.wait)
      match st, wt with
      | some (.parked _), _ => some fault
      | _, some (.fault _) => some fault
      | _, some (.scrub _) => some .busy
      | some .run, none => none
      | _, _ => some .err

/-- Runs the callable for at most `fuel` more instructions (R369). -/
def evalRun (s0 : State) (uid : Nat) : Nat → State → Evaluated
  | 0, _ => .error .err
  | fuel + 1, s =>
    match prepare s (.frag uid 0) with
    -- a fetch from a frame being cleared waits (R456); it alone leaves the scratch team as it was
    | .stay s1 => .error ((evalStop s0 s1 uid).getD .busy)
    | .run i s1 =>
      match i.parts, s1.team? uid with
      | some (o, fm), some t =>
        -- R144: the `ret` of a VER 01 clause comes after the pending writes
        match (t.flushFor o fm [(0, 0)]).thread? 0 0 with
        | none => .error .err
        | some h =>
        if !evalMay o fm then .error .err
        else if o = .ret ∧ h.rets = [] ∧ h.on fm.guard then .ok h
        else
          match evalExec i { s1 with cur := some (.frag uid 0) } with
          | some (.next s2) =>
            match evalStop s0 s2 uid with
            | some e => .error e
            | none =>
              -- an access has completed before the next instruction
              let s3 : State := { s2.setTeam uid (fun t => t.setThread 0 0 (fun h => { h with w := [] })) with inflight := [] }
              if ((s3.team? uid).bind (fun t => t.thread? 0 0)).any (fun h => decide (4 < h.rets.length)) then .error .err
              else evalRun s0 uid fuel s3
          | _ => .error .err
      | _, _ => .error .err

/-- Evaluates the callable at an address on input registers. Nothing of the scratch state outlives it. -/
def State.evaluate (s : State) (t : Team) (at_ : DWord) (v : List VReg) : Evaluated :=
  let uid := s.nextId
  let s1 : State := { s with nextId := uid + 1, teams := s.teams ++ [evalTeam t uid at_ v], recs := [] }
  let s2 := s1.setPitch t.pitch (fun p => { p with ring := 1, ringBroken := false })
  evalRun s2 uid 512 s2

/-! ### A pixel (R382) -/

/-- A record of the Reservoir Store at a window offset of the issuing die. -/
def State.rvsRead (s : State) (t : Team) (o : Nat) : Except Stop Rsv :=
  let k := rvsBase + 2 ^ 32 * t.die + t.rcd.rvsoff + o
  if s.place t.pitch t.die k ≠ .present ∨ s.poisoned k 32 then .error .err
  else .ok (Rsv.ofWords (wordsAt (s.bytes k 32) 0 8))

/-- Bytes in global memory. -/
def State.passRead (s : State) (t : Team) (va : DWord) (n : Nat) : Except Stop (List Byte) :=
  match s.readVA t.pitch t.die va n with
  | .ok bs _ _ => .ok bs
  | .trap .. => .error .err
  | .recoverable va p => .error (.fault va p)
  | .busy _ => .error .busy

/-- Draw `j` of pixel `i`. -/
def Glean.draw (g : Glean) (t : Team) (i j : Nat) : Except Stop Word :=
  let tiles := (g.width + 15) / 16
  match rngDraw t (g.rngMode == 1) g.rngTab g.rngKey
      (BitVec.ofNat 64 (g.n 72 8 + 16 * (256 * (g.ty * tiles + g.tx) + i) + j)) 0 with
  | .ok x => .ok x
  | .error _ => .error .err

/-- Eval of R382: the callable's phat₂ for a sample at pixel (x, y), +0 when `vis` is on and its ray is occluded. -/
def State.evalSample (s : State) (t : Team) (g : Glean) (q : Rsv) (x y : Nat) (vis : Bool) : Except Stop Word :=
  let gsize := g.n 52 2
  match s.passRead t (BitVec.ofNat 64 (g.n 40 8 + gsize * (y * g.width + x))) gsize with
  | .error e => .error e
  | .ok gb =>
    let ins : List VReg :=
      [⟨q.y, .n32⟩, ⟨q.u, .f32⟩, ⟨q.v, .f32⟩, ⟨BitVec.ofNat 32 x, .n32⟩, ⟨BitVec.ofNat 32 y, .n32⟩, {}, {}, {}]
      ++ (wordsAt gb 0 (gsize / 4)).map (fun w => ⟨w, .b32⟩)
    match s.evaluate t (t.codeVA + BitVec.ofNat 64 (g.n 60 4)) ins with
    | .error e => .error e
    | .ok h =>
      let ray := (List.range 8).map (fun k => h.reg (1 + k))
      if (h.reg 0).tag ≠ .f32 then .error .err
      else if !vis then .ok (h.reg 0).val
      else if ray.any (fun r => r.tag != .f32) then .error .err
      else
        let w (k : Nat) : Word := (ray.getD k {}).val
        let vf := BitVec.ofNat 32 (g.n 96 4)
        match Query.advance s { pitch := t.pitch, die := t.die, vis := true }
            { org := [w 0, w 1, w 2], tmin := w 3, dir := [w 4, w 5, w 6], tmax := w 7, root := BitVec.ofNat 64 (g.n 64 8),
              rflags := (vf ||| 0x500) &&& ~~~0x200, state := 0 } with
        | .stop (.trap ..) => .error .err
        | .stop (.fault va p) => .error (.fault va p)
        | .stop (.busy _) => .error .busy
        | .go r | .halt r => .ok (if r.hit then 0 else (h.reg 0).val)

/-- The pixel that a motion vector leads back to: ⌊x + m + 1/2⌋ when it lies below `n`. -/
def motionTo (x n : Nat) (m : Word) : Option Nat :=
  match fixOf m with
  | none => none
  | some k =>
    let p := ((x * 2 ^ 149 : Nat) + k + (2 ^ 148 : Nat)) / (2 ^ 149 : Nat)
    if 0 ≤ p ∧ p < n then some p.toNat else none

/-- The temporal part of a pixel. -/
def State.temporal (s : State) (t : Team) (g : Glean) (i x y : Nat) (r : Rsv) : Except Stop Rsv :=
  let at_ (base size x y : Nat) : DWord := BitVec.ofNat 64 (base + size * (y * g.width + x))
  match s.passRead t (at_ (g.n 32 8) 8 x y) 8 with
  | .error e => .error e
  | .ok mb =>
    match motionTo x g.width (wordAt mb 0), motionTo y g.height (wordAt mb 4) with
    | some px, some py =>
      match s.passRead t (at_ (g.n 24 8) 32 px py) 32 with
      | .error e => .error e
      | .ok pb =>
        let q := Rsv.ofWords (wordsAt pb 0 8)
        if q.y = nullSample ∨ g.n 58 2 ≤ q.age then .ok r
        else
          let q1 := { q with m := min q.m (g.n 56 2), age := min (q.age + 1) 65535 }
          match s.evalSample t g q1 x y (g.flag 2), g.draw t i 0 with
          | .error e, _ => .error e
          | _, .error e => .error e
          | .ok ph, .ok d => .ok (r.merge q1 ph d)
    | _, _ => .ok r

/-- The spatial part: neighbours `k` to NSP − 1. -/
def State.spatial (s : State) (t : Team) (g : Glean) (i x y : Nat) : List Nat → Rsv → Except Stop Rsv
  | [], r => .ok r
  | k :: ks, r =>
    let qx := (x : Int) + signed 8 (g.n (80 + 2 * k) 1)
    let qy := (y : Int) + signed 8 (g.n (81 + 2 * k) 1)
    if qx < 0 ∨ (g.width : Int) ≤ qx ∨ qy < 0 ∨ (g.height : Int) ≤ qy then State.spatial s t g i x y ks r
    else
      let hx := (qx - 16 * g.tx + 8).toNat
      let hy := (qy - 16 * g.ty + 8).toNat
      match s.rvsRead t (g.n 16 4 + 32 * (32 * hy + hx)) with
      | .error e => .error e
      | .ok nb =>
        match s.evalSample t g nb x y (g.flag 1), g.draw t i (1 + k) with
        | .error e, _ => .error e
        | _, .error e => .error e
        | .ok ph, .ok d => State.spatial s t g i x y ks (r.merge nb ph d)

/-- One pixel: what is written to OUT; none for a pixel outside the screen. -/
def State.pixel (s : State) (t : Team) (g : Glean) (i : Nat) : Except Stop (Option (Nat × List Byte)) :=
  let x := 16 * g.tx + i % 16
  let y := 16 * g.ty + i / 16
  if g.width ≤ x ∨ g.height ≤ y then .ok none
  else
    match s.rvsRead t (g.n 12 4 + 32 * i) with
    | .error e => .error e
    | .ok r0 =>
      match (if g.flag 0 then s.temporal t g i x y r0 else .ok r0) with
      | .error e => .error e
      | .ok r1 =>
        match s.spatial t g i x y (List.range (g.n 54 1)) r1 with
        | .error e => .error e
        | .ok r2 =>
          .ok (some (rvsBase + 2 ^ 32 * t.die + t.rcd.rvsoff + g.n 20 4 + 32 * i, r2.norm.words.flatMap (fun w => leBytes 4 w.toNat)))

/-! ### The pass (R382, R383) -/

/-- Puts back the outcome of a pass, or removes it when it has ended. -/
def gleanNow (g : Glean) (r : State × Option Engine) : State :=
  { r.1 with gleans := r.1.gleans.filterMap (fun x =>
      if x.eng.id = g.eng.id then r.2.map (fun e => { g with eng := e }) else some x) }

/-- DONE of a pass. -/
def Glean.done (g : Glean) : Nat := 32 * g.pixel

/-- R382: the next pixel of a pass, its end, or its going on after service of a fault. Each pixel is done as a whole. -/
def execGleanerPass (op : Nat) (s : State) : Host.Outcome State Fault Refusal :=
  match s.gleans.find? (fun g => g.eng.id == op) with
  | none => .next s
  | some g =>
    match s.engineServe g.eng g.done with
    | some r => .next (gleanNow g r)
    | none =>
      match s.owner? g.eng.uid with
      | none => .next (gleanNow g (s, none))
      | some t =>
        if s.noLeave op then .next s
        else if 256 ≤ g.pixel then .next (gleanNow g (s.engineChit g.eng [(g.done, 1, 0)] 0))
        else
          match s.pixel t g g.pixel with
          | .error .err => .next (gleanNow g (s.engineChit g.eng [(g.done, 4, 0)] 0))
          | .error .busy => .next s
          | .error (.fault va p) => .next (gleanNow g (s.enginePause g.eng g.done 0 0 va p))
          | .ok w =>
            let s1 := match w with
              | some (k, bs) => s.put t.pitch k bs
              | none => s
            let g1 := { g with pixel := g.pixel + 1 }
            if g1.pixel = 256 then .next (gleanNow g1 (s1.engineChit g1.eng [(g1.done, 1, 0)] 0))
            else if g1.pixel % 2 = 0 ∧ Config.progressChit s.tick then
              .next (gleanNow g1 (s1.engineChit g1.eng [(g1.done, 0, 0)] 0))
            else .next (gleanNow g1 (s1, some g1.eng))

end Sys2Proof.Machine
end

