-- ==== Sys2Proof/Machine/Image.lean ====
section
/-! DEFINITION. The records of a team's state: the thread record of Table 23.10, the fragment entry of R439, and the context image
of Table 23.9, with the reading back of it (R443). The layouts that the spec leaves open are the model's (log 11). -/

namespace Sys2Proof.Machine

open Sys2Proof

/-- Zero bytes up to a length. -/
def padTo (n : Nat) (bs : List Byte) : List Byte := bs ++ leBytes (n - bs.length) 0

/-! ### Threads -/

/-- Where a thread stands: with its fragment, or at a place of its own. -/
def Team.placeOf (t : Team) (h : Thread) : Cursor :=
  match h.st with
  | .run => ((t.frag? h.fid).map (·.cur)).getD h.cur
  | _ => h.cur

/-- TSTATE of Table 23.10. -/
def Team.tstate (t : Team) (h : Thread) : Nat :=
  match h.st with
  | .run =>
    match (t.frag? h.fid).bind (·.wait) with
    | none => 0
    | some .parked => 3
    | some _ => 2
  | .parked _ => 1
  | .joinWait | .fresumeWait | .held _ => 2
  | .atConv => 3
  | .grafted .. => 4
  | .replay | .exited => 0

/-- A pending write of Table 23.10. -/
def Pend.bytes (p : Pend) : List Byte :=
  leBytes 1 p.reg ++ leBytes 1 p.tag.code ++ leBytes 1 p.left ++ leBytes 1 (if p.link then 1 else 0) ++ leBytes 4 0
  ++ leBytes 8 p.val.toNat

/-- The eight places for pending writes. -/
def pendBytes (ps : List Pend) : List Byte := padTo 128 ((ps.take 8).flatMap Pend.bytes)

/-- The sixteen places of a return stack. -/
def retBytes (rs : List DWord) : List Byte := padTo 128 ((rs.take 16).flatMap (fun a => leBytes 8 a.toNat))

/-- The wait counters. -/
def waitBytes (w : FMap Nat) : List Byte := (List.range 6).flatMap (fun n => leBytes 1 (FMap.get (fun _ => 0) w n))

/-- The `sysc` request of a home row, recorded in its lowest live thread (R473). -/
def Team.syscOf (t : Team) (h : Thread) : Option Sysc :=
  if (t.threads.find? (fun g => g.row == h.row && g.live)).any (fun g => g.pos == h.pos) then
    t.syscs.find? (fun q => q.row == h.row && q.tag != 0)
  else none

/-- The tag, the held reply and the mark of a reply. -/
def syscBytes (q : Option Sysc) : List Byte :=
  leBytes 8 ((q.map (·.tag)).getD 0) ++ leBytes 8 (((q.bind (·.reply)).map BitVec.toNat).getD 0)
  ++ leBytes 1 (if (q.bind (·.reply)).isSome then 1 else 0)

/-- The length of a thread record with its registers. -/
def threadSize (regs : Nat) : Nat := 512 + ceilDiv (5 * regs) 16 * 16

/-- The record of a thread (Table 23.10). -/
def Team.threadBytes (t : Team) (h : Thread) : List Byte :=
  let cur := t.placeOf h
  let regs := t.hdr.regs h.row
  let fseq := match h.st with
    | .parked q | .held q => q
    | _ => h.resumeParked
  let head := leBytes 8 cur.pc.toNat ++ leBytes 1 cur.idx ++ leBytes 1 (t.tstate h) ++ leBytes 2 h.fid ++ leBytes 1 h.row
    ++ leBytes 1 h.pos ++ leBytes 1 h.rets.length ++ leBytes 1 (if h.epi then 1 else 0) ++ leBytes 1 h.rmode.toNat
    ++ leBytes 1 h.p.toNat ++ waitBytes h.w ++ leBytes 8 h.rngKey.toNat ++ leBytes 8 h.token ++ leBytes 8 h.resume.pc.toNat
    ++ leBytes 1 h.resume.idx ++ leBytes 1 h.pend.length ++ leBytes 6 0
    ++ leBytes 8 (((t.frag? h.fid).map (·.xmask.toNat)).getD 0)
  let query := if h.query.state = 5 then leBytes 128 0 else h.query.image
  padTo 512 (head ++ retBytes h.rets ++ pendBytes h.pend ++ query ++ leBytes 8 fseq ++ syscBytes (t.syscOf h))
  ++ padTo (ceilDiv (5 * regs) 16 * 16)
    ((List.range regs).flatMap (fun n => leBytes 4 (h.reg n).val.toNat)
     ++ (List.range regs).flatMap (fun n => leBytes 1 (h.reg n).tag.code))

/-- The live threads in ascending home row and position. -/
def Team.liveThreads (t : Team) : List Thread :=
  (List.range 32).flatMap (fun r => sortPos (t.threads.filter (fun h => h.row == r && h.live)))

/-! ### Streams -/

/-- The section of the U-stream, 1 KiB. -/
def Team.ustreamBytes (t : Team) : List Byte :=
  let u := t.u
  let st : Nat := if !u.alive then 5 else if u.wait.isSome then 2 else 0
  padTo 24 (leBytes 8 u.cur.pc.toNat ++ leBytes 1 u.cur.idx ++ leBytes 1 st ++ leBytes 1 u.p.toNat ++ leBytes 1 u.rmode.toNat
    ++ waitBytes u.w ++ leBytes 1 u.rets.length ++ leBytes 1 u.pend.length)
  ++ padTo 40 (leBytes 8 u.rngKey.toNat ++ syscBytes (t.syscs.find? (fun q => q.row == 0xFF && q.tag != 0)))
  ++ retBytes u.rets ++ pendBytes u.pend ++ leBytes 192 0
  ++ (List.range 64).flatMap (fun n => leBytes 8 (u.sreg n).toNat)

/-- The section of the M-stream without its arrays. -/
def MStream.bytes (m : MStream) : List Byte :=
  (List.range 16).flatMap (fun n => leBytes 4 (m.mreg n).toNat) ++ (List.range 8).flatMap (fun n => leBytes 32 (m.kreg (16 + n)).toNat)
  ++ padTo 16 (leBytes 8 m.cur.pc.toNat ++ leBytes 1 m.cur.idx ++ leBytes 1 (if !m.alive then 5 else if m.wait.isSome then 2 else 0))

/-- A slot of an array: 16 KiB, its format record, its scale store. -/
def Slot.image (x : Slot) : List Byte :=
  let b (v : Bool) : List Byte := leBytes 1 (if v then 1 else 0)
  FMap.values (fun _ => (0 : Byte)) 16384 0 x.bytes
  ++ padTo 16 (leBytes 1 x.fmt.code ++ b x.zero ++ b x.unc ++ b x.second ++ b x.dense ++ b x.half ++ b x.scales.mxv ++ b x.scales.tsv)
  ++ (FMap.values (fun _ => (0 : BitVec 10)) 512 0 x.scales.mx).flatMap (fun v => leBytes 2 v.toNat)
  ++ (FMap.values (fun _ => (0 : Word)) 128 0 x.scales.tile).flatMap (fun v => leBytes 4 v.toNat)

/-- An array: its slots, its tiles and their tags. -/
def MArray.image (a : MArray) : List Byte :=
  (List.range 4).flatMap (fun k => (a.gSlot k).image) ++ (List.range 16).flatMap (fun k => (a.wSlot k).image)
  ++ (List.range 4).flatMap (fun k =>
    (FMap.values (fun _ => (0 : Word)) 16384 0 (a.tile k).elems).flatMap (fun v => leBytes 4 v.toNat) ++ leBytes 16 (a.tile k).tag.code)

/-! ### The other sections -/

/-- Team memory and its full/empty bits. -/
def Team.tmemBytes (t : Team) : List Byte :=
  t.bytes 0 t.hdr.tmem
  ++ (List.range (t.hdr.tmem / 128)).flatMap (fun k =>
    leBytes 1 ((List.range 8).foldl (fun acc j => acc + (if t.full (8 * k + j) then 2 ^ j else 0)) 0))

/-- The queues. -/
def Team.queueBytes (t : Team) : List Byte :=
  (List.range 8).flatMap (fun q =>
    let es := t.queue q
    leBytes 8 es.length ++ padTo 256 (es.flatMap (fun e => leBytes 4 e.val.toNat)) ++ padTo 64 (es.flatMap (fun e => leBytes 1 e.tag.code)))
  ++ (List.range 4).flatMap (fun q =>
    let es := t.mqueue q
    leBytes 8 es.length ++ padTo 256 (es.flatMap (fun e => leBytes 8 e.toNat)))

/-- The rendezvous points. -/
def Team.rdvBytes (t : Team) : List Byte :=
  (List.range 24).flatMap (fun p =>
    let r := t.point p
    leBytes 2 r.e ++ leBytes 2 r.a ++ leBytes 2 r.phase.toNat ++ leBytes 2 (if r.init then 1 else 0))

/-- The active Drill sessions (R334). -/
def Team.drillBytes (t : Team) : List Byte :=
  leBytes 16 t.drills.length
  ++ t.drills.flatMap (fun d => leBytes 8 d.ds ++ leBytes 8 (d.rows.foldl (fun acc r => acc + 2 ^ r) 0) ++ d.image t.width)

/-- The Graft entries in stacking order (R339). -/
def Team.graftBytes (t : Team) : List Byte :=
  let es := t.graftPlaces.flatMap (fun p => (graftGroups (t.waiters p.1 p.2.1 p.2.2.1 p.2.2.2)).flatten)
  leBytes 16 es.length
  ++ es.flatMap (fun h =>
    leBytes 8 h.cur.pc.toNat ++ leBytes 1 h.cur.idx ++ leBytes 1 (t.hdr.role h.row) ++ leBytes 1 h.row ++ leBytes 1 h.pos
    ++ leBytes 4 h.graftKey)

/-! ### The image -/

/-- KFLAGS of Table 21.1. -/
def KHdr.kflags (k : KHdr) : Nat :=
  let b (v : Bool) (n : Nat) : Nat := if v then n else 0
  b k.twin 1 + b k.det 2 + b k.idem 4 + b k.excl 8 + b k.ustream 16 + b k.mstream 32 + b k.contd 64

/-- The sections THREADS, USTREAM, MSTREAM, TEAMMEM, QUEUES, RDV, DRILL and GRAFT. -/
def Team.sections (t : Team) : List (List Byte) :=
  let rows := (List.range t.hdr.rows).flatMap (fun r => (List.range 64).flatMap (fun n => leBytes 8 (t.sreg r n).toNat))
  let m := match t.m with
    | none => []
    | some m => m.bytes ++ (List.range t.hdr.arrays).flatMap (fun i => (m.array i).image)
  [rows ++ t.liveThreads.flatMap t.threadBytes, t.ustreamBytes, m, t.tmemBytes, t.queueBytes, t.rdvBytes, t.drillBytes, t.graftBytes]

/-- The offsets of sections of given lengths. -/
def offsets : Nat → List Nat → List Nat
  | _, [] => []
  | o, n :: r => o :: offsets (o + n) r

/-- The context image of a team with so many deadline cycles left (Table 23.9). -/
def Team.image (t : Team) (dleft : Nat) : List Byte :=
  let secs := t.sections
  let sizes := secs.map List.length
  let head := leBytes 4 1 ++ leBytes 4 t.hdr.kflags ++ leBytes 8 (256 + sizes.sum) ++ leBytes 4 t.launch ++ leBytes 4 t.team
    ++ leBytes 1 t.pitch ++ leBytes 1 t.width ++ leBytes 1 t.hdr.rows ++ leBytes 1 t.hdr.arrays ++ leBytes 4 t.hdr.tmem
    ++ leBytes 8 t.codeVA.toNat ++ (offsets 256 sizes).flatMap (fun o => leBytes 8 o) ++ leBytes 4 t.liveThreads.length
    ++ leBytes 1 t.hdr.cregs ++ leBytes 1 t.hdr.lregs ++ leBytes 1 t.hdr.eregs ++ leBytes 1 0 ++ leBytes 8 dleft
  padTo 256 head ++ secs.flatten

/-! ### Reading an image back (R443)

Every item of the image is rebuilt from its bytes. What no item holds (log 11) comes from the team as it was saved. Each function answers
none for a reserved tag or a field outside its limits. -/

/-- `n` bytes from an offset. -/
def cut (bs : List Byte) (o n : Nat) : List Byte := (bs.drop o).take n

/-- The answers of all, or none. -/
def allSome {α : Type} : List (Option α) → Option (List α)
  | [] => some []
  | none :: _ => none
  | some a :: r => (allSome r).map (fun as => a :: as)

/-- Does a number name a register that a pending write of a party with `regs` v registers may have: v, p0 to p6 or s0 to s63? -/
def pendReg (regs n : Nat) : Bool := decide (n < regs) || (decide (128 ≤ n) && decide (n < 135)) || decide (192 ≤ n)

/-- A pending write: LOOK leaves at most 16 instructions, and only an entry behind another can be linked. -/
def Pend.parse (regs j : Nat) (bs : List Byte) : Option Pend :=
  if pendReg regs (field bs 0 1) = false ∨ 16 < field bs 2 1 ∨ 2 ≤ field bs 3 1 ∨ (j = 0 ∧ field bs 3 1 ≠ 0) ∨ field bs 4 4 ≠ 0 then none
  else
    (tagOfCode (field bs 1 1)).map (fun tg =>
      { reg := field bs 0 1, val := BitVec.ofNat 64 (field bs 8 8), tag := tg, left := field bs 2 1, link := field bs 3 1 == 1 })

/-- The first `n` of eight places for pending writes; the session that an outstanding value is due from is the saved one's. -/
def pendsParse (regs : Nat) (old : List Pend) (n : Nat) (bs : List Byte) : Option (List Pend) :=
  if 8 < n then none
  else allSome ((List.range n).map (fun j =>
    (Pend.parse regs j (cut bs (16 * j) 16)).map (fun e => { e with due := (old[j]?).bind (·.due) })))

/-- The wait counters. -/
def waitParse (bs : List Byte) : FMap Nat := FMap.ofFn (fun _ => 0) 6 (fun k => field bs k 1)

/-- `n` places of a return stack. -/
def retParse (n : Nat) (bs : List Byte) : List DWord := (List.range n).map (fun k => BitVec.ofNat 64 (field bs (8 * k) 8))

/-- A place; its clause is decoded again when it is another place than the one saved. -/
def cursorParse (old : Cursor) (pc idx : Nat) : Cursor :=
  { pc := BitVec.ofNat 64 pc, idx := idx, clause := if BitVec.ofNat 64 pc = old.pc then old.clause else none }

/-- A ray query: idle, the one that was saved, or another that is loaded as `rqload` does (R357, R366). -/
def queryOf (load : List Byte → Except RayStop Query) (h : Thread) (bs : List Byte) : Except RayStop Query :=
  if bs.all (· == 0) then .ok {}
  else if h.query.state ≠ 5 ∧ bs = h.query.image then .ok h.query
  else load bs

/-- What a thread does, of TSTATE and FSEQ: as it was saved when they are the same. -/
def Team.statOf (t : Team) (h : Thread) (ts fseq : Nat) : TStat :=
  let same := match h.st with
    | .parked q | .held q => q == fseq
    | _ => true
  if ts = t.tstate h ∧ same = true then h.st
  else
    match ts with
    | 1 => .parked fseq
    | 3 => .atConv
    | _ => .run

/-- A thread of its record (Table 23.10), with the SR_XMASK of its fragment. -/
def Team.threadOf (t : Team) (load : List Byte → Except RayStop Query) (h : Thread) (bs : List Byte) : Option (Thread × DWord) :=
  let regs := t.hdr.regs h.row
  let b (o : Nat) : Nat := field bs o 1
  let q (o : Nat) : DWord := BitVec.ofNat 64 (field bs o 8)
  if 15 ≤ b 8 ∨ 15 ≤ b 48 ∨ 4 < b 9 ∨ 4096 ≤ field bs 10 2 ∨ b 12 ≠ h.row ∨ b 13 ≠ h.pos ∨ 16 < b 14 ∨ 2 ≤ b 15 ∨ 4 ≤ b 16 ∨ 128 ≤ b 17
    ∨ (List.range 6).any (fun k => decide (64 ≤ b (18 + k))) ∨ field bs 50 6 ≠ 0 ∨ 2 ≤ b 472 ∨ field bs 473 39 ≠ 0 then none
  else
    match pendsParse regs h.pend (b 49) (bs.drop 192), allSome ((List.range regs).map (fun n => tagOfCode (field bs (512 + 4 * regs + n) 1))),
      queryOf load h (cut bs 320 128) with
    | some pends, some tags, .ok qu =>
      let st := t.statOf h (b 9) (field bs 448 8)
      some ({ h with
        fid := field bs 10 2
        st := st
        cur := cursorParse (t.placeOf h) (field bs 0 8) (b 8)
        rets := retParse (b 14) (bs.drop 64)
        epi := bitOf (b 15) 0
        rmode := BitVec.ofNat 2 (b 16)
        p := BitVec.ofNat 7 (b 17)
        w := waitParse (bs.drop 18)
        rngKey := q 24
        token := field bs 32 8
        resume := { h.resume with pc := q 40, idx := b 48 }
        resumeParked := match st with
          | .parked _ | .held _ => h.resumeParked
          | _ => field bs 448 8
        query := qu
        pend := pends
        v := FMap.ofFn (fun _ => ({} : VReg)) regs (fun n => ⟨BitVec.ofNat 32 (field bs (512 + 4 * n) 4), (tags[n]?).getD .b32⟩) }, q 56)
    | _, _, _ => none

/-- The live threads with their records, from an offset on. -/
def Team.threadRecs (t : Team) (bs : List Byte) : Nat → List Thread → List (Thread × List Byte)
  | _, [] => []
  | o, h :: r =>
    let n := threadSize (t.hdr.regs h.row)
    (h, cut bs o n) :: Team.threadRecs t bs (o + n) r

/-- A `sysc` request of a party, of its tag, its held reply and its mark; a reply that has come since the save is held beside the image
(R473). -/
def Team.syscOfBytes (t : Team) (row : Nat) (bs : List Byte) : List Sysc :=
  let tag := field bs 0 8
  if tag = 0 then []
  else
    let old : Sysc := (t.syscs.find? (fun q => q.row == row)).getD { tag := tag, row := row, d := 64, fid := row }
    let later := if old.tag = tag then old.reply else none
    [{ old with tag := tag, reply := if bitOf (field bs 16 1) 0 then some (BitVec.ofNat 64 (field bs 8 8)) else later }]

/-- The U-stream of its section. -/
def UStream.parse (u : UStream) (bs : List Byte) : Option UStream :=
  let b (o : Nat) : Nat := field bs o 1
  if 15 ≤ b 8 ∨ b 9 ∉ [0, 2, 5] ∨ (List.range 6).any (fun k => decide (64 ≤ b (12 + k))) = true ∨ 128 ≤ b 10 ∨ 4 ≤ b 11 ∨ 16 < b 18 ∨ 2 ≤ b 48 then none
  else
    (pendsParse 0 u.pend (b 19) (bs.drop 192)).map (fun pends =>
      { u with
        alive := b 9 != 5
        cur := cursorParse u.cur (field bs 0 8) (b 8)
        wait := if b 9 = 2 then u.wait else none
        p := BitVec.ofNat 7 (b 10)
        rmode := BitVec.ofNat 2 (b 11)
        w := waitParse (bs.drop 12)
        rets := retParse (b 18) (bs.drop 64)
        rngKey := BitVec.ofNat 64 (field bs 24 8)
        pend := pends
        s := FMap.ofFn (fun _ => (0 : DWord)) 64 (fun n => BitVec.ofNat 64 (field bs (512 + 8 * n) 8)) })

/-- A slot of an array, at an offset. -/
def Slot.parse (a : Array Byte) (o : Nat) : Option Slot :=
  let b (k : Nat) : Bool := bitOf (bytesAt a (o + 16384 + k) 1) 0
  (tyOf (bytesAt a (o + 16384) 1)).map (fun ty =>
    { bytes := FMap.ofFn (fun _ => (0 : Byte)) 16384 (fun k => a.getD (o + k) 0)
      fmt := ty, zero := b 1, unc := b 2, second := b 3, dense := b 4, half := b 5
      scales := {
        mx := FMap.ofFn (fun _ => (0 : BitVec 10)) 512 (fun k => BitVec.ofNat 10 (bytesAt a (o + 16400 + 2 * k) 2))
        tile := FMap.ofFn (fun _ => (0 : Word)) 128 (fun k => BitVec.ofNat 32 (bytesAt a (o + 17424 + 4 * k) 4))
        mxv := b 6, tsv := b 7 } })

/-- A tile with its tag, at an offset (R114). -/
def Tile.parse (a : Array Byte) (o : Nat) : Option Tile :=
  (tagOfCode (bytesAt a (o + 65536) 1)).map (fun tg =>
    { elems := FMap.ofFn (fun _ => (0 : Word)) 16384 (fun k => BitVec.ofNat 32 (bytesAt a (o + 4 * k) 4)), tag := tg })

/-- The bytes of an array in the image. -/
def arraySize : Nat := 20 * 17936 + 4 * 65552

/-- An array, at an offset; what it holds in execution is the saved one's. -/
def MArray.parse (x : MArray) (a : Array Byte) (o : Nat) : Option MArray :=
  match allSome ((List.range 20).map (fun k => Slot.parse a (o + 17936 * k))),
    allSome ((List.range 4).map (fun k => Tile.parse a (o + 20 * 17936 + 65552 * k))) with
  | some ss, some ts =>
    some { x with g := FMap.ofFn (fun _ => ({} : Slot)) 4 (fun k => ss.getD k {})
                  w := FMap.ofFn (fun _ => ({} : Slot)) 16 (fun k => ss.getD (4 + k) {})
                  t := FMap.ofFn (fun _ => ({} : Tile)) 4 (fun k => ts.getD k {}) }
  | _, _ => none

/-- The M-stream of its section. -/
def MStream.parse (m : MStream) (arrays : Nat) (bs : List Byte) : Option MStream :=
  let a := bs.toArray
  let st := bytesAt a 329 1
  if st ∉ [0, 2, 5] ∨ 15 ≤ bytesAt a 328 1 then none
  else
    (allSome ((List.range arrays).map (fun i => (m.array i).parse a (336 + arraySize * i)))).map (fun xs =>
      { m with
        alive := st != 5
        wait := if st = 2 then m.wait else none
        cur := cursorParse m.cur (bytesAt a 320 8) (bytesAt a 328 1)
        m := FMap.ofFn (fun _ => (0 : Word)) 16 (fun n => BitVec.ofNat 32 (bytesAt a (4 * n) 4))
        k := FMap.ofFn (fun _ => (0 : BitVec 256)) 8 (fun n => BitVec.ofNat 256 (bytesAt a (64 + 32 * n) 32))
        arrays := FMap.ofFn (fun _ => ({} : MArray)) arrays (fun i => xs.getD i {}) })

/-- A queue of q0 to q7, at an offset: a tag to each entry (R114). -/
def queueParse (q : Nat) (bs : List Byte) (o : Nat) : Option (List VReg) :=
  let n := field bs o 8
  if qDepth q < n then none
  else allSome ((List.range n).map (fun j =>
    (tagOfCode (field bs (o + 264 + j) 1)).map (fun tg => (⟨BitVec.ofNat 32 (field bs (o + 8 + 4 * j) 4), tg⟩ : VReg))))

/-- The queues of their section. -/
def Team.parseQueues (t : Team) (bs : List Byte) : Option Team :=
  let mo (q : Nat) : Nat := 8 * 328 + 264 * q
  match allSome ((List.range 8).map (fun q => queueParse q bs (328 * q))) with
  | none => none
  | some qs =>
    if (List.range 4).any (fun q => decide (qDepth (8 + q) < field bs (mo q) 8)) then none
    else
      some { t with
        q := FMap.ofFn (fun _ => ([] : List VReg)) 8 (fun q => qs.getD q [])
        mq := FMap.ofFn (fun _ => ([] : List DWord)) 4 (fun q =>
          (List.range (field bs (mo q) 8)).map (fun j => BitVec.ofNat 64 (field bs (mo q + 8 + 8 * j) 8))) }

/-- The rendezvous points of their section. -/
def Team.parseRdv (t : Team) (bs : List Byte) : Option Team :=
  let f (p k : Nat) : Nat := field bs (8 * p + 2 * k) 2
  if (List.range 24).any (fun p => decide (2 ≤ f p 3 ∨ 4095 < f p 0 ∨ (f p 0 ≠ 0 ∧ f p 0 ≤ f p 1) ∨ (f p 3 = 1 ∧ f p 0 = 0))) then none
  else
    some { t with rdv := FMap.ofFn (fun _ => ({} : Rdv)) 24 (fun p =>
      { e := f p 0, a := f p 1, phase := BitVec.ofNat 16 (f p 2), init := f p 3 == 1 }) }

/-- The Drill sessions of their section (R334). The slots of a session are those of the saved one of the same rows, whose threads may
have exited since (R328), or else its live threads. -/
def Team.parseDrills (t : Team) (bs : List Byte) : Option Team :=
  let n := field bs 0 16
  if 64 < n then none
  else
    (allSome ((List.range n).map (fun j =>
      let o := 16 + j * 16464
      let ds := field bs o 8
      let mask := field bs (o + 8) 8
      let rows := (List.range 32).filter (bitOf mask)
      let live := match t.drills.find? (fun d => d.ds == ds && d.rows == rows) with
        | some d => d.slots
        | none => (t.liveThreads.filter (fun h => rows.contains h.row)).map (fun h => (h.row, h.pos))
      if 2 ≤ ds ∨ 2 ^ 32 ≤ mask then none
      else Drill.parse ds rows (field bs (o + 21) 1) t.width live (cut bs (o + 16) 16448)))).map (fun ds => { t with drills := ds })

/-- The entries of the Graft table, in stacking order (R339): each thread that waits there is at its address again. -/
def Team.parseGrafts (t : Team) (bs : List Byte) : Option Team :=
  let n := field bs 0 16
  let at_ (j : Nat) : Nat := 16 + 16 * j
  let entry (j : Nat) : Nat × Nat × TStat :=
    (field bs (at_ j + 10) 1, field bs (at_ j + 11) 1,
     .grafted (BitVec.ofNat 64 (field bs (at_ j) 8)) (field bs (at_ j + 8) 1) (BitVec.ofNat 32 (field bs (at_ j + 12) 4)))
  let es := (List.range n).map entry
  if t.liveThreads.length < n
    ∨ (List.range n).any (fun j => decide (15 ≤ field bs (at_ j + 8) 1) || field bs (at_ j + 9) 1 != t.hdr.role (entry j).1 || (t.thread? (entry j).1 (entry j).2.1).isNone) then none
  else
    some (es.foldl (fun t e => t.setThread e.1 e.2.1 (fun h => { h with st := e.2.2 })) t)

/-- The threads, fragments and s registers of the THREADS section. -/
def Team.parseThreads (t : Team) (load : List Byte → Except RayStop Query) (bs : List Byte) (o : Nat) : Option Team :=
  let rs := t.threadRecs bs (o + 512 * t.hdr.rows) t.liveThreads
  match allSome (rs.map (fun r => t.threadOf load r.1 r.2)) with
  | none => none
  | some hs =>
    let fids := hs.foldl (fun acc h => if acc.contains h.1.fid then acc else acc ++ [h.1.fid]) []
    let frag (fid : Nat) : Frag :=
      let mine := hs.filter (fun h => h.1.fid == fid)
      let old := (t.frag? fid).getD { fid := fid, cur := (mine.head?.map (·.1.cur)).getD { pc := 0 } }
      let cur := ((mine.find? (fun h => h.1.st == .run)).map (·.1.cur)).getD old.cur
      { old with cur := cur, xmask := (mine.head?.map (·.2)).getD old.xmask }
    some { t with
      threads := t.threads.map (fun h => ((hs.find? (fun g => g.1.row == h.row && g.1.pos == h.pos)).map (·.1)).getD h)
      frags := (t.frags.filter (fun g => fids.contains g.fid)).map (fun g => frag g.fid)
        ++ (fids.filter (fun n => !t.frags.any (fun g => g.fid == n))).map frag
      syscs := rs.flatMap (fun r => t.syscOfBytes r.1.row (r.2.drop 456))
      s := FMap.ofFn (fun _ => (0 : DWord)) (64 * t.hdr.rows) (fun k => BitVec.ofNat 64 (field bs (o + 8 * k) 8)) }

/-- The team of an image (R443); `load` makes a ray query of its saved image. -/
def Team.parse (t : Team) (load : List Byte → Except RayStop Query) (bs : List Byte) : Option Team :=
  let sec (k : Nat) : List Byte := bs.drop (field bs (40 + 8 * k) 8)
  let mo := field bs 64 8
  if bs.take 112 ≠ (t.image 0).take 112 ∨ field bs 120 136 ≠ 0 then none
  else
    (t.parseThreads load bs (field bs 40 8)).bind (fun t1 =>
    (t1.u.parse (sec 1)).bind (fun u =>
    (match t1.m with
     | none => some none
     | some m => (m.parse t.hdr.arrays (sec 2)).map some).bind (fun m =>
    ((({ t1 with u := u, m := m, syscs := t1.syscs ++ t.syscOfBytes 0xFF ((sec 1).drop 32),
                 tmem := FMap.ofFn memDefault t.hdr.tmem (fun k => bs.getD (mo + k) 0),
                 fe := FMap.ofFn (fun _ => true) (t.hdr.tmem / 16) (fun g => bitOf (field bs (mo + t.hdr.tmem + g / 8) 1) (g % 8)),
                 dleft := field bs 112 8 } : Team).parseQueues (sec 4)).bind (fun t2 => t2.parseRdv (sec 5))).bind (fun t3 =>
      (t3.parseDrills (sec 6)).bind (fun t4 => t4.parseGrafts (sec 7))))))

/-! ### Fragment entries (R439) -/

/-- A set of row positions as a mask. -/
def placeMask (hs : List Thread) : Nat := hs.foldl (fun acc h => acc + 2 ^ h.pos) 0

/-- The entry that READF stages. -/
def Team.fragEntry (t : Team) (g : Frag) : List Byte :=
  let mine := t.threads.filter (fun h => h.live && h.fid == g.fid)
  let rows := rowsOf mine
  let parked := mine.any (fun h =>
    match h.st with
    | .parked _ => true
    | _ => false)
  let flags : Nat := (if parked then 1 else 0) + (if mine.any (·.epi) then 2 else 0)
  leBytes 2 g.fid ++ leBytes 1 rows.length ++ leBytes 1 g.trap ++ leBytes 1 g.skid ++ leBytes 1 g.cur.idx ++ leBytes 1 flags
  ++ leBytes 1 0 ++ leBytes 8 g.cur.pc.toNat
  ++ rows.flatMap (fun r =>
    leBytes 8 r ++ leBytes 8 (placeMask (mine.filter (fun h => h.row == r)))
    ++ leBytes 8 (placeMask (t.threads.filter (fun h => h.row == r && h.live && h.fid != g.fid))))

/-- The fragments in ascending id. -/
def Team.fragsUp (t : Team) : List Frag :=
  (List.range 4096).flatMap (fun f => t.frags.filter (fun g => g.fid == f))

end Sys2Proof.Machine
end

