-- ==== Sys2Proof/Machine/Ending.lean ====
section
/-! DEFINITION. How a team's residence ends: retirement (R80, R52), kills and forced resets (R287, R433, R445, R446), and what
becomes of its launch (R81, R391). -/

namespace Sys2Proof.Machine

open Sys2Proof

/-- How a team ends: retired, ended otherwise, or queued again to restart from creation. -/
inductive Ending where
  | retired | failed | again
  deriving DecidableEq, Repr

/-- Is a party or an operation of a team the victim of a fault record? -/
def Victim.ofTeam (v : Victim) (uid : Nat) (ops accs : List Nat) : Bool :=
  match v with
  | .thread u _ _ | .frag u _ | .ustream u | .mstream u => u == uid
  | .engine op => ops.contains op
  | .accept id => accs.contains id
  | _ => false

/-- The engine operations of a team are cancelled: chit STATUS 3 and the DONE of R242. -/
def State.cancelEngines (s : State) (uid : Nat) : State :=
  let s1 := s.barrows.foldl (fun s b => if b.eng.uid = uid then barrowNow b (s.engineCancel b.eng b.shown) else s) s
  s1.gleans.foldl (fun s g => if g.eng.uid = uid then gleanNow g (s.engineCancel g.eng g.done) else s) s1

/-- Who brought a record: is it a party of the team? -/
def Bringer.ofTeam (b : Bringer) (uid : Nat) : Bool :=
  match b with
  | .thread u _ _ | .ustream u => u == uid
  | .pool _ => false

/-- Everything that waits on behalf of a team is dropped (R287): requests, fault records, drains, and the acceptances it brought that
are held, with no launch id and no chit (DESIGN CHOICE, log 84). -/
def State.dropTeam (s : State) (uid : Nat) : State :=
  let ops := (s.barrows.filter (fun b => b.eng.uid == uid)).map (·.eng.id) ++ (s.gleans.filter (fun g => g.eng.uid == uid)).map (·.eng.id)
  let accs := (s.accepts.filter (fun a => a.who.ofTeam uid)).map (·.id)
  let s1 := s.cancelEngines uid
  { s1 with
    grants := s1.grants.filter (fun g => !(ops.contains g.op || (g.op == 0 && g.uid == uid)))
    faults := s1.faults.filter (fun r => !r.victim.ofTeam uid ops accs)
    accepts := s1.accepts.filter (fun a => !a.who.ofTeam uid)
    inflight := s1.inflight.filter (fun i => i.uid != uid)
    drains := s1.drains.filter (fun d => d.uid != uid)
    svc := s1.svc.filter (fun q => q.uid != uid)
    launches := s1.launches.map (fun l => { l with graph := l.graph.map (fun g =>
      { g with waiting := g.waiting.filter (fun w => partyUid w.2 != uid) }) }) }

/-- What is left of a plot member that has ended while others stay: its team memory (R52). -/
def Team.shell (t : Team) : Team :=
  { t with retired := true, threads := [], frags := [], u := { t.u with alive := false, wait := none }, m := none, halt := {},
           drills := [], episodes := [], syscs := [], q := [], mq := [], rdv := [] }

/-- The team's resources are freed: at once, but for the memory of a plot's member, which stays until the last has ended (R52, R80). -/
def State.freeTeam (s : State) (t : Team) : State :=
  let s1 := s.dropTeam t.uid
  let s2 := match t.halt.window with
    | some (d, w) => s1.setWindow d w (fun x => { x with uid := none })
    | none => s1
  let others := s2.teams.any (fun u => u.uid != t.uid && !u.retired && t.plot.contains u.uid)
    || s2.saved.any (fun v => v.team.uid != t.uid && !v.team.retired && t.plot.contains v.team.uid)
  let s3 : State := { s2 with saved := s2.saved.filter (fun v => v.team.uid != t.uid) }
  if others then s3.setTeam t.uid Team.shell
  else
    { s3 with teams := s3.teams.filter (fun u => u.uid != t.uid && !(u.retired && t.plot.contains u.uid)),
              saved := s3.saved.filter (fun v => !(v.team.retired && t.plot.contains v.team.uid)) }

/-- The graph part of a launch after an invocation's end: its slots are free again, or the invocation stands first again (R347). -/
def Graph.gone (g : Graph) (uid : Nat) (again : Bool) : Graph :=
  match g.resident.find? (fun r => r.1 == uid) with
  | none => g
  | some (_, v) =>
    let g1 : Graph := { g with resident := g.resident.filter (fun r => r.1 != uid) }
    if again then { g1 with queued := v :: g1.queued }
    else { g1 with used := g1.used.filter (fun e => !(e.1 == v.node && v.slots.contains e.2)) }

/-- The launch after the end of one of its teams (R81, R391, R415). -/
def State.account (s : State) (t : Team) (e : Ending) : State :=
  let s1 := s.setLaunch t.launch (fun l =>
    let e := if l.cancelled && e == .again then .failed else e
    let l1 : Launch := { l with graph := l.graph.map (fun g => g.gone t.uid (e == .again)) }
    match e with
    | .retired => { l1 with retired := l1.retired + 1 }
    | .failed => { l1 with ended := l1.ended + 1, failed := true }
    | .again => if l1.graph.isSome then l1 else { l1 with relaunch := l1.relaunch ++ [t.team] })
  s1.checkLaunch t.launch

/-- The end of a team. -/
def State.closeTeam (s : State) (t : Team) (e : Ending) : State := (s.freeTeam t).account t e

/-- The error record of a team's end (Table 23.5), with the place of its trap when it took one. -/
def Team.endRec (t : Team) (kind code : Nat) : Rec :=
  let h := t.halt
  let r : Rec := { kind := kind, code := code, pitch := t.pitch, die := t.die, core := t.core, launch := t.launch, team := t.team,
                   va := h.va.toNat }
  if h.cause = 0 ∨ h.cause = Trap.dln.code ∨ 0xF < h.cause then r
  else
    let r1 : Rec := { r with pc := h.cpc.toNat, fid := if h.cfid = 0xFFFF then none else some h.cfid, idx := h.cidx }
    r1.withDrill (h.dsess, h.orow, h.opos, h.iter.toNat, h.owner)

/-- A team is killed (R287, R437, R439, R441): an error record, and its launch will end with STATUS 4. -/
def State.kill (s : State) (t : Team) (kind code : Nat) : State := (s.report t.pitch t.die (t.endRec kind code)).closeTeam t .failed

/-- The code of the halt's cause in a record: a trap code, or 0. -/
def Team.causeCode (t : Team) : Nat := if t.halt.cause ≤ 0xF then t.halt.cause else 0

/-- The forced reset of one team (R445): KIND 3; under `.idem` the team is queued again. -/
def State.resetOne (s : State) (t : Team) : State :=
  (s.report t.pitch t.die (t.endRec 3 0)).closeTeam t (if t.hdr.idem then .again else .failed)

/-- A forced reset takes the team with its whole plot: all its members are resident together, or none (R51, R82). -/
def State.forceReset (s : State) (t : Team) : State :=
  (s.teams.filter (fun u => t.plot.contains u.uid && !u.retired)).foldl State.resetOne s

/-- R80: the team's threads, streams, drains, engine operations and waiting records have all ended, and it retires; its leave goes back (R307). -/
def State.mayRetire (s : State) (t : Team) : Bool :=
  !t.retired && t.halt.phase == .running && t.threads.all (fun h => !h.live) && !t.u.alive && t.m.all (fun m => !m.alive)
  && !s.draining t.uid && !s.inflight.any (fun i => i.uid == t.uid && i.late.isSome) && !s.barrows.any (fun b => b.eng.uid == t.uid) && !s.gleans.any (fun g => g.eng.uid == t.uid)

/-- R80. -/
def execTeamRetire (team : Nat) (s : State) : Host.Outcome State Fault Refusal :=
  match s.team? team with
  | none => .next s
  | some t => if s.mayRetire t then .next ((s.returnLeave t).closeTeam t .retired) else .next s

/-- A team that is still resident when its launch deadline has passed takes DLN (R83, R85); in one that is halted already, STEP and
RESUME are refused from then on (log 22). -/
def Team.expire (t : Team) (now : Nat) : Team :=
  if t.retired ∨ t.halt.late ∨ now < t.born + t.dleft then t
  else
    let t1 := t.haltAll Trap.dln.code false now
    { t1 with halt := { t1.halt with late := true } }

/-- Every deadline that has passed is taken before anything else happens: no party of such a team issues, ends a wait, retires or is
saved first, in the same cycle or later (R83, R85). -/
def State.expireAll (s : State) : State := { s with teams := s.teams.map (fun t => t.expire s.now) }

/-- R83, R85. -/
def execLaunchDeadlineExpiry (team : Nat) (s : State) : Host.Outcome State Fault Refusal :=
  .next (s.setTeam team (fun t => t.expire s.now))

/-- R446: the end of a team by an uncorrectable error. -/
def State.eccKill (s : State) (t : Team) : State :=
  let s1 := s.report t.pitch t.die (t.endRec 4 0)
  let times : Nat := ((s.launch? t.launch).map (fun l => FMap.get (fun _ => 0) l.relaunches t.ord)).getD 2
  if t.hdr.idem ∧ t.plot.length ≤ 1 ∧ times < 2 then
    ((s1.setLaunch t.launch (fun l => { l with relaunches := FMap.modify (fun _ => 0) l.relaunches t.ord (· + 1) })).report
      t.pitch t.die (t.endRec 7 0)).closeTeam t .again
  else s1.closeTeam t .failed

/-- R446, Table 1.9: what an uncorrectable error of a store does. -/
def execUncorrectableError (at_ : EccSite) (s : State) : Host.Outcome State Fault Refusal :=
  match at_ with
  | .regsOrTeamMem uid | .arrayStore uid =>
    match s.team? uid with
    | none => .next s
    | some t => if t.retired then .next s else .next (s.eccKill t)
  | .cacheLine line => .next (s.drop (fun e => e.line == line && e.cached))
  | .l2OrHbm pa => .next { s with poison := FMap.set (fun _ => false) s.poison (pa / 16) true }

end Sys2Proof.Machine
end

