-- ==== Sys2Proof/Machine/Handler.lean ====
section
/-! DEFINITION. Continuations (R429, R430), and handler windows with their commands (R437 to R441). -/

namespace Sys2Proof.Machine

open Sys2Proof

/-! ### Continuations (R429, R430) -/

/-- The fault record on which a thread is parked, 0 for none. -/
def Thread.parkedOn (h : Thread) : Nat :=
  match h.st with
  | .parked q => q
  | _ => 0

/-- The threads that make up a fragment: going, parked, replaying, or at the convergence point. -/
def Team.body (t : Team) (fid : Nat) : List Thread :=
  t.threads.filter (fun h => h.fid == fid && (h.underway || h.st == .atConv))

/-- Does a fragment enter its continuation now (R429)? -/
def Team.mayEnter (t : Team) (g : Frag) : Bool :=
  let hs := t.body g.fid
  t.hdr.contd && !t.hdr.det && t.halt.phase == .running && hs.any (fun h => h.parkedOn != 0)
  && hs.all (fun h => !h.epi && (h.parkedOn != 0 || h.st == .atConv || (h.st == .run && g.wait == some .parked)))

/-- The episode begins: each thread records its resume point and goes on at the continuation, its pending writes made (R144, R429,
R430). -/
def Team.enter (t : Team) (g : Frag) : Team :=
  let hs := t.body g.fid
  let recs := (hs.map Thread.parkedOn).filter (· != 0)
  let token := recs.foldl max 0
  let t1 := hs.foldl (fun t h => t.flushThread h.row h.pos) t
  let t2 := hs.foldl (fun t h => t.setThread h.row h.pos (fun x =>
    { x with st := .run, epi := true, token := token, resume := if h.st = .run then g.cur else h.cur, resumeParked := h.parkedOn,
             resumeRes := h.res, resumeSkip := h.skip, res := [], skip := 0, made := false })) t1
  let t3 := t2.setFrag g.fid (fun g => { g with cur := { pc := t.codeVA + BitVec.ofNat 64 t.hdr.cont }, wait := none })
  { t3 with episodes := t3.episodes ++ [{ token := token, fid := g.fid, threads := keysOf hs, recs := recs }] }

/-- R429. -/
def execContinuationEntry (team fid : Nat) (s : State) : Host.Outcome State Fault Refusal :=
  match s.team? team with
  | none => .next s
  | some t =>
    match t.frag? fid with
    | none => .next s
    | some g => if t.mayEnter g then .next (s.setTeam team (fun t => t.enter g)) else .next s

/-! ### Windows (R437) -/

/-- An `mwb` held on a fault is abandoned: its slots hold the image of a zero tile, and it issues again whole (R292). -/
def State.abandonMwb (s : State) (t : Team) : State :=
  match t.m with
  | none => s
  | some m =>
    match m.wait, m.cur.instr? with
    | some (.fault _), some (.mwb f) =>
      let c : MCtx := { s := s, t := t, m := m }
      let is := match c.sel f with
        | .ok is => is
        | .error _ => []
      let d := f.d.toNat - 24
      let pair := f.ty == .bf16 && !f.mb 1
      (c.set (fun m =>
        { m.act is (fun _ x => let x1 := x.setW d {}; if pair then x1.setW (d + 1) {} else x1) with paid := false, got := [] })).s
    | _, _ => s

/-- Have the array operations and drains of a team that were already issued completed (R292, R442)? Once the launch deadline has passed, a
drain that cannot write is not waited for: the deadline ends a wait for a granule that no party empties (R83, log 76). -/
def State.atRest (s : State) (t : Team) : Bool :=
  !s.drains.any (fun d => d.uid == t.uid && (!t.halt.late || s.drainReady d))
  && t.m.all (fun m => m.arrays.all (fun a => a.2.ops == 0))

/-- Every pending write of the team whose result is complete is made (R145). -/
def Team.flushAll (t : Team) : Team :=
  let t1 := (keysOf t.threads).foldl (fun t k => t.makePend Pend.complete k.1 k.2) t
  { t1 with u := t1.u.makePend Pend.complete }

/-- R437: a stopped team is given the lowest free window of its die, once its state is at rest; a pitch without a handler has the
stop answered by KILL. -/
def execHandlerWindowAssign (team : Nat) (s : State) : Host.Outcome State Fault Refusal :=
  match s.team? team with
  | none => .next s
  | some t =>
    if t.halt.phase ≠ .stopped ∨ t.halt.window.isSome ∨ t.halt.cause = 0 ∨ s.atRest t = false then .next s
    else if (s.pitch t.pitch).handler = 0 then .next (s.kill t 2 t.causeCode)
    else
      match (List.range 64).find? (fun w => (s.window t.die w).uid.isNone) with
      | none => .next s
      | some w =>
        let s1 := (s.abandonMwb t).setTeam team (fun t =>
          { t.flushAll with halt := { t.halt with window := some (t.die, w) } })
        let s2 := s1.setWindow t.die w (fun _ => { uid := some team })
        .next { s2 with outbox := s2.outbox ++ [.handler t.die w] }

/-- The team of a window. -/
def State.windowTeam (s : State) (die w : Nat) : Option Team := (s.window die w).uid.bind s.team?

/-- R437: a window without KILL or RESUME for 2^24 cycles from the stop. -/
def execHandlerWindowTimeout (die w : Nat) (s : State) : Host.Outcome State Fault Refusal :=
  match s.windowTeam die w with
  | none => .next s
  | some t => if s.now < t.halt.since + 2 ^ 24 then .next s else .next (s.kill t 5 t.causeCode)

/-- R441. -/
def execHandlerFailure (die w : Nat) (s : State) : Host.Outcome State Fault Refusal :=
  match s.windowTeam die w with
  | none => .next s
  | some t => .next (s.kill t 5 t.causeCode)

/-! ### Commands (R439, R440) -/

/-- Stopped, and not under STEP. -/
def Team.atStop (t : Team) : Bool := t.halt.phase == .stopped && t.halt.stepping.isNone

/-- May the team go on: every trap code is 0, BRK or TRAPI (Table 23.8)? -/
def Team.mayGoOn (t : Team) : Bool :=
  t.atStop && !t.halt.late && (resumable t.halt.cause || t.halt.cause == 0x10) && t.frags.all (fun g => resumable g.trap)
  && resumable t.halt.utrap && t.m.all (fun m => resumable m.trap)

/-- A stopped team's pending writes are made before its state is recorded or goes on (R145); a STEP may have left some. -/
def State.atRecord (s : State) (t : Team) : State := if t.atStop then s.setTeam t.uid Team.flushAll else s

/-- A command of a window with its arguments: it is busy, acts on the window's team, and is done, or rejected when it is not accepted. -/
def State.command (s : State) (die w cmd : Nat) (args : Window → Window) (f : State → Team → Option State) : State :=
  if !isVDie die || decide (64 ≤ w) then s
  else
    let s1 := s.setWindow die w (fun x => { args x with cmd := cmd, cstat := 1 })
    let s2 := match s1.windowTeam die w with
      | some t => s1.atRecord t
      | none => s1
    match (s2.windowTeam die w).bind (f s2) with
    | none => s1.setWindow die w (fun x => { x with cstat := 3 })
    | some s3 => s3

/-- A command is done. -/
def State.cmdDone (s : State) (die w : Nat) : State := s.setWindow die w (fun x => { x with cstat := 2 })

/-- Results are staged. -/
def State.stage (s : State) (die w : Nat) (bs : List Byte) : State :=
  (s.setWindow die w (fun x => { x with stage := padTo 2048 bs })).cmdDone die w

/-- R439. -/
def execReadf (die w : Nat) (a0 : Word) (s : State) : Host.Outcome State Fault Refusal :=
  .next (s.command die w 1 (fun x => { x with a0 := a0 }) (fun s t =>
    if !t.atStop then none else (t.fragsUp[a0.toNat]?).map (fun g => s.stage die w (t.fragEntry g))))

/-- R439. -/
def execReadt (die w : Nat) (a0 : Word) (a1 : DWord) (s : State) : Host.Outcome State Fault Refusal :=
  .next (s.command die w 2 (fun x => { x with a0 := a0, a1 := a1 }) (fun s t =>
    if !t.atStop then none
    else ((t.thread? a0.toNat a1.toNat).filter Thread.live).map (fun h => s.stage die w (t.threadBytes h))))

/-- R439: v0 up to the role's registers, or p0 to p6. Accepted whenever stopped and the tag is a code; what names no live thread or no
register of its role writes nothing (DEDUCED, log 88). -/
def execWritet (die w : Nat) (a0 : Word) (a1 a2 : DWord) (s : State) : Host.Outcome State Fault Refusal :=
  let row := bits a0.toNat 0 8
  let pos := bits a0.toNat 8 8
  let reg := bits a0.toNat 16 8
  .next (s.command die w 3 (fun x => { x with a0 := a0, a1 := a1, a2 := a2 }) (fun s t =>
    match tagOfCode a2.toNat with
    | none => none
    | some tg =>
      if !t.atStop then none
      else
        let names := (t.thread? row pos).any Thread.live && decide (reg < t.hdr.regs row ∨ (128 ≤ reg ∧ reg < 135))
        some ((if names then s.setTeam t.uid (fun t => t.put row pos ⟨reg, a1, tg⟩) else s).cmdDone die w)))

/-- R439: the section of a stream, empty for a team without it (DEDUCED, log 88). -/
def execReads (die w : Nat) (a0 : Word) (s : State) : Host.Outcome State Fault Refusal :=
  .next (s.command die w 4 (fun x => { x with a0 := a0 }) (fun s t =>
    if !t.atStop then none
    else
      match a0.toNat with
      | 0 => some (s.stage die w t.ustreamBytes)
      | 1 => some (s.stage die w ((t.m.map (·.bytes)).getD []))
      | _ => none))

/-- R440, R447: one clause of one fragment. A fragment that stands blocked waits for the 65,536 cycles; with no thread to issue the
clause, the command is done. -/
def execStep (die w : Nat) (a0 : Word) (s : State) : Host.Outcome State Fault Refusal :=
  let fid := a0.toNat
  .next (s.command die w 5 (fun x => { x with a0 := a0 }) (fun s t =>
    if !t.mayGoOn then none
    else
      (t.frag? fid).map (fun _ =>
        if t.threads.any (fun h => h.fid == fid && h.st == .run) || t.blocked fid then
          (s.setTeam t.uid (fun t =>
            { t.setFrag fid (fun g => { g with stop := false, skid := 0, trap := 0, wait := keepFault g.wait }) with
              halt := { t.halt with stepping := some (fid, 0) } })).stepDone t.uid
        else s.cmdDone die w)))

/-- R439. -/
def execResume (die w : Nat) (s : State) : Host.Outcome State Fault Refusal :=
  .next (s.command die w 6 (fun x => x) (fun s t =>
    if !t.mayGoOn then none
    else some (((s.setTeam t.uid (fun t => t.resumeHalt s.now)).cmdDone die w).setWindow die w (fun x => { x with uid := none }))))

/-- R439. -/
def execKill (die w : Nat) (a0 : Word) (s : State) : Host.Outcome State Fault Refusal :=
  .next (s.command die w 7 (fun x => { x with a0 := a0 }) (fun s t => some ((s.kill t 2 (a0.toNat % 256)).cmdDone die w)))

/-- R439: HALT names a running team by launch and index; it is accepted through any window, and not under `.det`. -/
def execHalt (die w : Nat) (launch : Word) (team : DWord) (s : State) : Host.Outcome State Fault Refusal :=
  if !isVDie die || decide (64 ≤ w) then .next s
  else
    let s1 := s.setWindow die w (fun x => { x with cmd := 8, a0 := launch, a1 := team, cstat := 2 })
    match s.teams.find? (fun t => t.launch == launch.toNat && t.team == team.toNat && !t.retired) with
    | none => .next (s1.setWindow die w (fun x => { x with cstat := 3 }))
    | some t =>
      if t.halt.phase ≠ .running ∨ t.hdr.det then .next (s1.setWindow die w (fun x => { x with cstat := 3 }))
      else .next (s1.setTeam t.uid (fun t => t.haltAll 0x10 false s.now))

/-- R440: STEP's fragment has waited for 65,536 cycles: the instruction is abandoned as not issued. -/
def execStepWaitTimeout (die w : Nat) (s : State) : Host.Outcome State Fault Refusal :=
  match s.windowTeam die w with
  | none => .next s
  | some t =>
    match t.halt.stepping with
    | none => .next s
    | some (fid, since) =>
      if since = 0 ∨ s.now < since + 65536 then .next s
      else
        .next ((s.setTeam t.uid (fun t =>
          { t.setFrag fid (fun g => { g with stop := true, wait := keepFault g.wait }) with
            halt := { t.halt with stepping := none } })).setWindow die w (fun x => { x with cstat := 4 }))

end Sys2Proof.Machine
end

