-- ==== Sys2Proof/Machine/Dispatching.lean ====
section
/-! DEFINITION. Record pools (R392 to R394), readiness (R396), the Rota (R398 to R400), batch time-outs (R413), and placement (R43, R44,
R47, R51, R54). -/

namespace Sys2Proof.Machine

open Sys2Proof

/-! ### Record pools (R392 to R394) -/

/-- The header address of a record pool. -/
def State.poolAt (s : State) (x k : Nat) : DWord := FMap.get (fun _ => (0 : DWord)) (s.pitch x).pool k

/-- A pool is reported as broken, and nothing more is accepted from it (R394). -/
def State.breakPool (s : State) (x k : Nat) : State :=
  (s.setPitch x (fun p => { p with poolBroken := k :: p.poolBroken })).report x (s.schedDie x)
    { kind := 13, pitch := x, va := (s.poolAt x k).toNat }

/-- A pool is held on a recoverable fault (R394). -/
def State.holdPool (s : State) (x k : Nat) (slot : Bool) (pc va : DWord) (page write : Bool) : State :=
  let q := s.raise x (s.schedDie x) (.pool x k) page
    { kind := 1, rflags := if write then 257 else 256, launch := some 0xFFFFFFFF, team := some 0, va := va.toNat, pc := pc.toNat }
  q.2.setPitch x (fun p => { p with poolHold := (k, q.1, slot) :: p.poolHold })

/-- What the scheduler does about a stop on a pool's own reads. -/
def State.poolStop (s : State) (x k : Nat) (slot : Bool) (pc : DWord) (e : SchedStop) : State :=
  match e with
  | .bad | .fatal => s.breakPool x k
  | .recoverable va p w => s.holdPool x k slot pc va p w
  | .busy _ => s

/-- A slot that could not be read counts as read: its launch takes an id, and no chit is written (R389). -/
def State.skipSlot (s : State) (x : Nat) (hd : DWord) (head : Nat) : State :=
  let s1 := (s.takeLid).2
  match s1.schedWrite x (hd + 8) 8 with
  | .ok (ps, ks) => s1.scatterFor x ps ks (leBytes 8 (head + 1))
  | .error _ => s1

/-- The next record of a pool that nothing holds. -/
def State.readPool (s : State) (x k : Nat) : State :=
  let hd := s.poolAt x k
  match s.schedRead x hd 64 with
  | .error e => s.poolStop x k false hd e
  | .ok hb =>
    let h := RingHdr.parse hb
    if h.bad 128 || decide (h.cap < h.used) then s.breakPool x k
    else if h.used = 0 then s
    else
      let at_ : DWord := BitVec.ofNat 64 (h.base + 128 * (h.head % h.cap))
      match s.schedRead x at_ 128 with
      | .error .fatal => (s.skipSlot x hd h.head).breakPool x k
      | .error e => s.poolStop x k true at_ e
      | .ok bs =>
        if !s.queueRoom x (LRec.parse bs).prio then s
        else
          match s.schedWrite x (hd + 8) 8 with
          | .error e => s.poolStop x k false hd e
          | .ok (ps, ks) => ((s.scatterFor x ps ks (leBytes 8 (h.head + 1))).tryAccept x (.pool k) at_ bs).2

/-- A pool's hold after its FAIL signal: the pool is broken, and a slot counts as read (R389, R394). -/
def State.failPool (s : State) (x k : Nat) (slot : Bool) : State :=
  let s1 := if slot then
      match s.schedRead x (s.poolAt x k) 64 with
      | .ok hb => s.skipSlot x (s.poolAt x k) (RingHdr.parse hb).head
      | .error _ => s
    else s
  s1.breakPool x k

/-- R389, R393, R394: the scheduler takes up a held acceptance of the pool, or reads its next record. -/
def execRecordAccept (pitch pool : Nat) (s : State) : Host.Outcome State Fault Refusal :=
  let x := pitch
  if 64 ≤ x ∨ 16 ≤ pool ∨ s.poolAt x pool = 0 ∨ (s.pitch x).poolBroken.contains pool ∨ (s.pitch x).enable = false then .next s
  else
    match s.accepts.find? (fun a => a.pitch == x && a.who == .pool pool) with
    | some a => .next (s.retryAccept a).2
    | none =>
      match (s.pitch x).poolHold.find? (fun h => h.1 == pool) with
      | none => .next (s.readPool x pool)
      | some (_, q, slot) =>
        let s1 := (s.served q).setPitch x (fun p => { p with poolHold := p.poolHold.filter (fun h => h.1 != pool) })
        match s.signalOf q with
        | 0 => .next s
        | 1 => .next (s1.readPool x pool)
        | _ => .next (s1.failPool x pool slot)

/-! ### Readiness (R396) -/

/-- What the DEP chits say. -/
inductive Deps where
  | met | wait | gone
  | fault (va : DWord) (page : Bool)

/-- The status of one DEP chit. -/
def State.dep (s : State) (x : Nat) (a : DWord) : Deps :=
  if a = 0 then .met
  else
    match s.schedRead x (a + 8) 4 with
    | .ok bs =>
      match field bs 0 4 with
      | 1 => .met
      | 3 | 4 => .gone
      | _ => .wait
    | .error (.recoverable va p _) => .fault va p
    | .error (.busy _) => .wait
    | .error _ => .gone

/-- Both together: an end counts before a hold, a hold before a wait. -/
def Deps.and (a b : Deps) : Deps :=
  match a, b with
  | .gone, _ | _, .gone => .gone
  | .fault va p, _ => .fault va p
  | _, .fault va p => .fault va p
  | .wait, _ | _, .wait => .wait
  | .met, .met => .met

/-- The readiness test of a queued launch. -/
def State.testReady (s : State) (l : Launch) : State :=
  match (s.dep l.pitch l.rcd.dep0).and (s.dep l.pitch l.rcd.dep1) with
  | .met => (s.setLaunch l.lid (fun l => { l with st := .ready, depHold := none })).checkLaunch l.lid
  | .wait => s
  | .gone => s.endLaunch l.lid 3
  | .fault va p =>
    let q := s.raise l.pitch (s.schedDie l.pitch) (.dep l.lid) p
      { kind := 1, rflags := 256, launch := some 0xFFFFFFFF, team := some 0, va := va.toNat, pc := l.from_.toNat }
    q.2.setLaunch l.lid (fun l => { l with depHold := some q.1 })

/-- R396; chit writes of the launch that wait are taken up first (R476). -/
def execLaunchReady (lid : Nat) (s : State) : Host.Outcome State Fault Refusal :=
  match s.launch? lid with
  | none => .next s
  | some l =>
    if l.pendChit.isSome then .next (s.launchChitServe lid)
    else if l.st ≠ .queued then .next s
    else
      match l.depHold with
      | none => .next (s.testReady l)
      | some q =>
        match s.signalOf q with
        | 0 => .next s
        | 1 => .next ((s.served q).testReady l)
        | _ => .next ((s.served q).endLaunch lid 3)

/-! ### Bind records (R398, R399) -/

/-- A bind record of a die's Rota. -/
def State.bind (s : State) (die slot : Nat) : BindRec := FMap.get (fun _ => bindZero) (s.die die).rota slot

/-- Writes a bind record. -/
def State.setBind (s : State) (die slot : Nat) (r : BindRec) : State :=
  s.setDie die (fun d => { d with rota := FMap.set (fun _ => bindZero) d.rota slot r })

/-- The plot size of a launch; an invocation of a graph is alone. -/
def Launch.plotSize (l : Launch) : Nat := if l.graph.isSome then 1 else l.rcd.plot

/-- How many teams a launch has, for the bounds of bind records; none for a graph. -/
def Launch.total (l : Launch) : Option Nat := if l.graph.isSome then none else some l.rcd.teams

/-- Does R397 leave the width of a launch to policy firmware? -/
def Launch.freeWidth (l : Launch) : Bool :=
  match l.graph with
  | some g => g.nodes.any (fun n => fixedWidth n.hdr l.rcd == 0)
  | none => fixedWidth l.hdr l.rcd == 0

/-- ERR of a bind record, 0 when it is accepted (R399). -/
def State.bindErr (s : State) (r : BindRec) : Nat :=
  match s.launch? r.lid.toNat with
  | none => 1
  | some l =>
    let part := (s.pitch l.pitch).part
    let die := r.die.toNat
    let w := widthOf (bits r.bflags.toNat 2 2)
    let past := r.team0.toNat + r.nteam.toNat
    if !isVDie die || part == 0xFF || (List.range r.ncore.toNat).any (fun i =>
        decide (100 ≤ r.core0.toNat + i) || partOf s.pkg.mode (sliceOf die (r.core0.toNat + i)) != part) then 1
    else if r.team0.toNat ≠ l.bound then 2
    else if r.team0.toNat % l.plotSize ≠ 0 ∨ (past % l.plotSize ≠ 0 ∧ l.total.all (fun n => decide (past < n))) then 3
    else if (if l.freeWidth then w == 0 || (l.width != 0 && l.width != w) else w != 0) then 4
    else if bits r.bflags.toNat 4 4 ≠ 0 ∨ r.rsv ≠ 0 then 5
    else 0

/-- R399. DONE and ERR belong to the hardware. -/
def execBindRecordWrite (die slot : Nat) (rec : BindRec) (s : State) : Host.Outcome State Fault Refusal :=
  if !isVDie die || decide (256 ≤ slot) then .next s
  else
    let r : BindRec := { rec with bflags := rec.bflags &&& 0xFD#8, err := 0 }
    if bitOf r.bflags.toNat 0 = false then .next (s.setBind die slot r)
    else
      match s.bindErr r with
      | 0 =>
        .next ((s.setBind die slot r).setLaunch r.lid.toNat (fun l =>
          { l with bound := r.team0.toNat + r.nteam.toNat,
                   width := if l.freeWidth then widthOf (bits r.bflags.toNat 2 2) else l.width }))
      | e => .next (s.setBind die slot { r with bflags := r.bflags &&& 0xFE#8, err := BitVec.ofNat 8 e })

/-! ### Placement (R43, R44, R47, R51, R54) -/

/-- How many of some teams' threads a lane of a core holds. -/
def laneLoad (ts : List Team) (die core lane : Nat) : Nat :=
  (ts.map (fun t =>
    if t.die ≠ die ∨ t.retired then 0
    else (t.lanes.zipIdx.filter (fun e =>
      t.coreOf e.2 == core && decide (e.1 ≤ lane) && decide (lane < e.1 + t.width))).length)).sum

/-- The lowest free window of `w` lanes, for each of `n` rows (R44). -/
def pickWindows (w : Nat) : Nat → (Nat → Nat) → Option (List Nat)
  | 0, _ => some []
  | n + 1, load =>
    match ((List.range (64 / w)).map (· * w)).find? (fun b => (List.range w).all (fun i => decide (load (b + i) < 16))) with
    | none => none
    | some b =>
      (pickWindows w n (fun l => if b ≤ l ∧ l < b + w then load l + 1 else load l)).map (fun bs => b :: bs)

/-- The 4 KiB pages that a team holds on each core (R24). -/
def KHdr.pages (k : KHdr) : Nat := if k.twin then ceilDiv k.tmem 8192 else ceilDiv k.tmem 4096

/-- Is a page of a core's team memory in use? -/
def pageUsed (ts : List Team) (die core page : Nat) : Bool :=
  ts.any (fun t =>
    t.die == die && (core == t.core || (t.hdr.twin && core == t.core + 1)) &&
    (let b := t.tbase.getD (core - t.core) 0
     decide (b ≤ page) && decide (page < b + t.hdr.pages)))

/-- The lowest run of free pages. -/
def pickPages (ts : List Team) (die core need : Nat) : Option Nat :=
  if need = 0 then some 0
  else (List.range 64).find? (fun b => decide (b + need ≤ 64) && (List.range need).all (fun i => !pageUsed ts die core (b + i)))

/-- A place for a team: its core, the first lanes of its rows, its pages. -/
structure Spot where
  core  : Nat
  lanes : List Nat
  tbase : List Nat
  deriving DecidableEq, Repr

/-- The rows of two cores in the order of home rows. -/
def interleave : List Nat → List Nat → List Nat
  | a :: as, b :: bs => a :: b :: interleave as bs
  | as, [] => as
  | [], bs => bs

/-- A core, or a twin pair, that can take all the resources of a team (R43, R46, R47, R54). `may` tells the cores it may use. -/
def State.fits (s : State) (ts : List Team) (may : Nat → Bool) (k : KHdr) (w die core : Nat) : Option Spot :=
  let slice := sliceOf die core
  if !may core || (k.twin && (core % 2 != 0 || !may (core + 1))) then none
  else if k.mstream && (!(s.die (mDieOf (bedOf die))).online
      || ts.any (fun t => t.m.isSome && !t.retired && t.die == die && sliceOf die t.core == slice)) then none
  else
    let n := k.pages
    if k.twin then
      match pickWindows w ((k.rows + 1) / 2) (laneLoad ts die core), pickWindows w (k.rows / 2) (laneLoad ts die (core + 1)),
          pickPages ts die core n, pickPages ts die (core + 1) n with
      | some a, some b, some p, some q => some { core := core, lanes := interleave a b, tbase := [p, q] }
      | _, _, _, _ => none
    else
      match pickWindows w k.rows (laneLoad ts die core), pickPages ts die core n with
      | some a, some p => some { core := core, lanes := a, tbase := [p] }
      | _, _ => none

/-- The cores from one on, upwards and wrapping. -/
def coresFrom (c : Nat) : List Nat := (List.range 100).map (fun i => (c + i) % 100)

/-- A team at its spot. -/
def Team.at (t : Team) (die : Nat) (p : Spot) : Team := { t with die := die, core := p.core, lanes := p.lanes, tbase := p.tbase }

/-- Places teams one after another, each on the first core of the list that takes it. -/
def State.placeAll (s : State) (may : Nat → Bool) (die : Nat) (cores : List Nat) : List Team → List Team → Option (List Team)
  | _, [] => some []
  | ts, t :: r =>
    match cores.findSome? (fun c => s.fits ts may t.hdr t.width die c) with
    | none => none
    | some p => (State.placeAll s may die cores (ts ++ [t.at die p]) r).map (fun us => t.at die p :: us)

/-- Places a team, or a plot within two adjacent mesh rows, from the first core of the list on that takes it (R51, R400). -/
def State.placeGroup (s : State) (may : Nat → Bool) (die : Nat) (starts : List Nat) (group : List Team) : Option (List Team) :=
  starts.findSome? (fun c =>
    match group with
    | [] => none
    | t :: _ =>
      match s.fits s.teams may t.hdr t.width die c with
      | none => none
      | some _ =>
        let near (x : Nat) : Bool := x / 10 == c / 10 || x / 10 == c / 10 + 1
        s.placeAll (fun x => may x && near x) die ((coresFrom c).filter near) s.teams group)

/-! ### Dispatch (R400, R414, R418) -/

/-- Is dispatch stopped for a partition, on a die, for a kernel (R454, R464, R468, R470)? -/
def State.stopped (s : State) (part die : Nat) (k : KHdr) : Bool :=
  s.pkg.bootHeld || s.pkg.ckpt.isSome || s.pkg.modeReq.any (fun r => r.parts.contains part)
  || s.pkg.dieReq.any (fun r => r.started && r.op == 0 && (r.die == die || (k.mstream && r.die == mDieOf (bedOf die))))
  || !(s.die die).online

/-- Is a launch that has declared RVS use held while a change of the die's RVS waits (R28)? -/
def State.rvsHeld (s : State) (die : Nat) (r : LRec) : Bool := decide (0 < r.rvslen) && (s.die die).rvsWant.isSome

/-- Is a graph launch held behind an earlier one of the same node table (R346, R418)? -/
def State.graphHeld (s : State) (l : Launch) : Bool :=
  l.graph.any (fun g => s.launches.any (fun m =>
    decide (m.pitch = l.pitch ∧ m.rcd.code = l.rcd.code) && m.st != .done
    && (s.launches.findIdx (fun n => n.lid == m.lid)) < (s.launches.findIdx (fun n => n.lid == l.lid))
    && m.graph.any (fun h => h.excl || g.excl)))

/-- The invocation that is dispatched next: of a node on which an `emit` waits, then by node PRIO, then in order (R414). -/
def Graph.pick (g : Graph) : Option Invoc :=
  match g.queued.find? (fun v => g.waiting.any (fun w => w.1 == v.node)) with
  | some v => some v
  | none =>
    let prio (v : Invoc) : Nat := ((g.nodes[v.node]?).map (·.prio)).getD 0
    g.queued.foldl (fun best v =>
      match best with
      | none => some v
      | some b => if prio b < prio v then some v else some b) none

/-- A team at its creation (R48, Table 3.2), without its place. -/
def Launch.create (l : Launch) (uid ord team part : Nat) (plot : List Nat) (k : KHdr) (code arg : DWord) (w : Nat) : Team :=
  let pc (o : Nat) : Cursor := { pc := code + BitVec.ofNat 64 o }
  { uid := uid, launch := l.lid, team := team, pitch := l.pitch, part := part, die := 0, core := 0, plot := plot, width := w,
    hdr := k, rcd := if l.graph.isSome then { l.rcd with teams := 1, arg := arg } else l.rcd, codeVA := code, argp := arg, ord := ord,
    dleft := deadlineCycles l.rcd.deadline,
    threads := (List.range k.rows).flatMap (fun r => (List.range w).map (fun i =>
      { row := r, pos := i, fid := r, cur := pc k.rowcode, rngKey := l.rcd.rngKey })),
    frags := (List.range k.rows).map (fun r => { fid := r, cur := pc k.rowcode }),
    u := { alive := k.ustream, cur := pc k.uentry, rngKey := l.rcd.rngKey, s := FMap.set (fun _ => (0 : DWord)) [] 0 arg },
    m := if k.mstream then some { alive := true, cur := pc k.mentry } else none,
    s := FMap.ofFn (fun _ => (0 : DWord)) (64 * k.rows) (fun n => if n % 64 = 0 then arg else 0) }

/-- The teams to be dispatched next under a bind record: teams queued again, or the next team, plot or invocation. The uids are
those from `u` on. -/
def Launch.nextGroup (l : Launch) (r : BindRec) (part u : Nat) : List Team × (Launch → Launch) :=
  let covered := bitOf r.bflags.toNat 1 == false && decide (r.team0.toNat ≤ l.next) && decide (l.next < r.team0.toNat + r.nteam.toNat)
  match l.graph with
  | some g =>
    match g.pick with
    | none => ([], id)
    | some v =>
      match g.nodes[v.node]?, v.ord.isSome || covered with
      | some nd, true =>
        let fw := fixedWidth nd.hdr l.rcd
        let ord := v.ord.getD l.next
        let t := l.create u ord 0 part [u] nd.hdr nd.code nd.arg (if fw = 0 then l.width else fw)
        ([{ t with recs := v.slots, node := v.node }],
         fun l => { l with next := if v.ord.isSome then l.next else l.next + 1,
                           graph := l.graph.map (fun g =>
                             { g with queued := g.queued.filter (fun x => x != v),
                                      resident := g.resident ++ [(u, { v with ord := some ord })] }) })
      | _, _ => ([], id)
  | none =>
    let p := l.plotSize
    let mk (ids : List Nat) (u : Nat) : List Team :=
      let first := (ids.headD 0) / p * p
      let plot := (List.range (min p (l.rcd.teams - first))).map (fun i => u + i)
      ids.map (fun i => l.create (u + (i - first)) i i part plot l.hdr l.rcd.code l.rcd.arg l.width)
    match l.relaunch with
    | i :: _ =>
      let ids := (List.range p).filterMap (fun j => if l.relaunch.contains (i / p * p + j) then some (i / p * p + j) else none)
      (mk ids u, fun l => { l with relaunch := l.relaunch.filter (fun j => !ids.contains j) })
    | [] =>
      if !covered || decide (l.rcd.teams ≤ l.next) then ([], id)
      else
        let n := min p (l.rcd.teams - l.next)
        (mk ((List.range n).map (fun i => l.next + i)) u, fun l => { l with next := l.next + n })

/-- Every team of a bind record has been dispatched: DONE (R400). -/
def State.markDone (s : State) (die slot : Nat) : State :=
  let r := s.bind die slot
  match s.launch? r.lid.toNat with
  | none => s
  | some l =>
    let past := r.team0.toNat + r.nteam.toNat
    let most := match l.total with
      | some n => min past n
      | none => past
    if most ≤ l.next then s.setBind die slot { r with bflags := r.bflags ||| 2 } else s

/-- R400: dispatch hardware serves a bind record: the next team, plot or invocation, all or none. -/
def execTeamDispatch (die slot : Nat) (s : State) : Host.Outcome State Fault Refusal :=
  let r := s.bind die slot
  let vd := r.die.toNat
  match s.launch? r.lid.toNat with
  | none => .next s
  | some l =>
    let part := (s.pitch l.pitch).part
    let group := l.nextGroup r part s.nextId
    let k := (group.1.head?.map (·.hdr)).getD {}
    let resident := (s.teams.filter (fun t =>
      t.launch == l.lid && !t.retired && decide (r.team0.toNat ≤ t.ord) && decide (t.ord < r.team0.toNat + r.nteam.toNat))).length
    let may (c : Nat) : Bool :=
      decide (r.core0.toNat ≤ c) && decide (c < r.core0.toNat + r.ncore.toNat) && decide (c < 100)
      && partOf s.pkg.mode (sliceOf vd c) == part
      && !l.noDispatch.any (fun n => n.1 == vd && decide (n.2.1 ≤ c) && decide (c < n.2.1 + n.2.2))
    if bitOf r.bflags.toNat 0 = false ∨ l.st ≠ .ready ∨ l.cancelled ∨ (s.pitch l.pitch).enable = false ∨ part = 0xFF
      ∨ s.stopped part vd k ∨ s.graphHeld l ∨ (r.maxres ≠ 0 ∧ r.maxres.toNat < resident + max 1 group.1.length)
      ∨ (l.relaunch.isEmpty ∧ s.saved.any (fun v => v.team.launch == l.lid))
      ∨ s.rvsHeld vd l.rcd then .next s
    else if group.1.isEmpty then .next (s.markDone die slot)
    else
      match s.placeGroup may vd (coresFrom (((s.die vd).lastCore + 1) % 100)) group.1 with
      | none => .next s
      | some ts =>
        let ts1 := ts.map (fun t => { t with born := s.now })
        let last := (ts1.map (fun t => if t.hdr.twin then t.core + 1 else t.core)).getLastD 0
        let s1 : State := { s with teams := s.teams ++ ts1, nextId := s.nextId + 8 }
        let s2 := (s1.setDie vd (fun d => { d with lastCore := last })).setLaunch l.lid group.2
        .next ((ts1.foldl (fun s t => s.acquire 4 t.hdr.twin vd t.core) s2).markDone die slot)

/-! ### Batches (R413) -/

/-- Has a period boundary fallen at least TMO × 1,024 cycles after a batch's first record? -/
def State.batchDue (s : State) (nd : GNode) (first : Nat) : Bool :=
  nd.tmo != 0 && decide (ceilDiv (first + 1024 * nd.tmo) 1024 * 1024 ≤ s.now)

/-- R413. -/
def execBatchTimeout (lid node : Nat) (s : State) : Host.Outcome State Fault Refusal :=
  .next (s.setLaunch lid (fun l => { l with graph := l.graph.map (fun g =>
    match g.nodes[node]?, g.forming.find? (fun f => f.1 == node) with
    | some nd, some f => if s.batchDue nd f.2.1 then g.close node else g
    | _, _ => g) }))

end Sys2Proof.Machine
end

