-- ==== Sys2Proof/Machine/HostMem.lean ====
section
/-! DEFINITION. Accesses that come from outside the package: a host's through BAR2 (R451), another device's over Ewearvia (R460), and
those of system software on a management core (R247). -/

namespace Sys2Proof

/-- The bytes that an access covers. -/
def ExtOp.size (op : ExtOp) : Nat :=
  match op with
  | .read n => n
  | .write bs => bs.length
  | .fetchAdd n _ | .swap n _ | .cas n _ _ => n

/-- Does the access write? -/
def ExtOp.writes (op : ExtOp) : Bool :=
  match op with
  | .read _ => false
  | _ => true

/-- An atomic is of 32 or 64 bits, aligned to its size (Table 25.3). -/
def ExtOp.fits (op : ExtOp) (a : Nat) : Bool :=
  match op with
  | .fetchAdd n _ | .swap n _ | .cas n _ _ => (n == 4 || n == 8) && a % n == 0
  | _ => true

/-- What an atomic leaves in place of a value. -/
def ExtOp.after (op : ExtOp) (old : Nat) : Nat :=
  match op with
  | .fetchAdd n v => (old + v.toNat) % 2 ^ (8 * n)
  | .swap n v => v.toNat % 2 ^ (8 * n)
  | .cas n o v => if old = o.toNat % 2 ^ (8 * n) then v.toNat % 2 ^ (8 * n) else old
  | _ => old

end Sys2Proof

namespace Sys2Proof.Machine

open Sys2Proof

/-- Performs an access over translated pieces, with its answer: a read and an atomic return bytes, a write returns none. What it writes
comes to the home's L2, for pitch `x` or for none (R26). -/
def State.extPerform (s : State) (x : Nat) (ps : List (DWord × Nat)) (ks : List Nat) (op : ExtOp) : State :=
  let got := s.gather ps ks
  match op with
  | .read _ => { s with outbox := s.outbox ++ [.data got] }
  | .write bs => s.scatterFor x ps ks bs
  | _ =>
    let s1 := s.scatterFor x ps ks (leBytes op.size (op.after (leNat got)))
    { s1 with outbox := s1.outbox ++ [.data got] }

/-- Does an access read bytes that are poisoned (R40)? Its party learns that it failed (log 15). -/
def State.meets (s : State) (op : ExtOp) (ps : List (DWord × Nat)) (ks : List Nat) : Bool :=
  match op with
  | .write _ => false
  | _ => (ps.zip ks).any (fun e => s.poisoned e.2 e.1.2)

/-- An answer to an access that is not performed; a write has none. -/
def State.extAbort (s : State) (op : ExtOp) (a : Answer) : State :=
  match op with
  | .write _ => s
  | _ => { s with outbox := s.outbox ++ [a] }

/-- A host's access fails: a read completes with Completer Abort, a write is discarded, and the pitch's ring takes a KIND 15 record. -/
def State.bar2Fail (s : State) (x d : Nat) (off : DWord) (op : ExtOp) : State :=
  (s.extAbort op .abort).report x d { kind := 15, pitch := x, va := off.toNat, rflags := if op.writes then 1 else 0 }

/-- Does a function appear on a port (Table 25.3): the PF, as pitch 0, on both, a VF on that of its PORT? -/
def State.onPort (s : State) (port x : Nat) : Bool := s.linkUp port && decide (x < 64) && (x == 0 || (s.pitch x).port == port)

/-- A host's access over a port through BAR2 (R451). It waits while its frame is being cleared (R456), and a write also while a checkpoint runs
(R470) or behind an earlier write of its port. -/
def State.bar2 (s : State) (port x : Nat) (off : DWord) (op : ExtOp) : State :=
  let d := portDie port
  let behind := s.held.any (fun h =>
    match h with
    | .bar2 p _ _ o => o.writes && p == port
    | .fabric .. => false)
  let hold : State := { s with held := s.held ++ [.bar2 port x off op] }
  if !op.fits off.toNat then s.extAbort op .abort
  else if op.writes && (s.pkg.ckpt.isSome || behind) then hold
  else if !(s.pitch x).enable then s.bar2Fail x d off op
  else
    let ps := pagesOf (op.size / 65536 + 2) off op.size
    match s.reach x d (if op.writes then .write else .read) false ps with
    | .ok ks _ =>
      if s.meets op ps ks then s.extAbort op .abort else s.extPerform x ps ks op
    | .busy _ => hold
    | _ => s.bar2Fail x d off op

/-- Is a range of device memory present for a party on die `d`, its frames owned or not (R17, R20)? -/
def State.onPackage (s : State) (d pa n : Nat) : Bool :=
  let up (a : Nat) : Bool := (s.die (homeDie a)).online && s.route d (homeDie a)
  decide (pa + n ≤ 0x9000000000) && up pa && up (pa + (n - 1))

/-- A fabric request at a port (R460): performed only when the FTAG of the target frame is the request's, and not 0. It fails at a port
that is down, and when no route leads from the port's bed to the memory's home (R17, R35). -/
def State.fabricIn (s : State) (port src : Nat) (ftag : BitVec 16) (pa : Nat) (op : ExtOp) : State :=
  let last := pa + (op.size - 1)
  let admits (a : Nat) : Bool := (s.frame (a / 2 ^ 29)).ftag == ftag
  if s.fabricUp port = false ∨ ftag = 0 ∨ s.onPackage (port / 3) pa op.size = false ∨ admits pa = false ∨ admits last = false ∨ op.fits pa = false then
    { s with outbox := s.outbox ++ [.fabricFail] }
  else if (s.frame (pa / 2 ^ 29)).scrub || (s.frame (last / 2 ^ 29)).scrub then { s with held := s.held ++ [.fabric port src ftag pa op] }
  else if s.meets op [(BitVec.ofNat 64 pa, op.size)] [pa] then s.extAbort op .abort
  else s.extPerform noPitch [(BitVec.ofNat 64 pa, op.size)] [pa] op

/-- The held accesses are tried again, in their order. -/
def State.releaseHeld (s : State) : State :=
  s.held.foldl (fun s h =>
    match h with
    | .bar2 port x off op => if s.onPort port x then s.bar2 port x off op else s
    | .fabric port src ftag pa op => s.fabricIn port src ftag pa op) { s with held := [] }

end Sys2Proof.Machine
end

