-- ==== Sys2Proof/Machine/Preempt.lean ====
section
/-! DEFINITION. Pre-emption (R444, R445), and the saving and restoring of teams (R286, R442, R443). -/

namespace Sys2Proof.Machine

open Sys2Proof

/-! ### Saving (R442) -/

/-- Has a halted team come to the point at which it is saved: all of it has stopped for no trap, and every issued instruction has
completed but for parked accesses, Drill group operations, and engine operations that touch no team space (log 23)? -/
def State.mayCopy (s : State) (t : Team) : Bool :=
  t.retired ||
  (t.halt.phase == .stopped && t.halt.save && t.halt.cause == 0 && s.atRest t
   && !s.inflight.any (fun i => i.uid == t.uid && i.dep == 0 && i.grp.isNone)
   && !s.barrows.any (fun b => b.eng.uid == t.uid && (b.ssp != 0 || b.dsp != 0)))

/-- The state that is recorded: an abandoned `mwb` (R292), no request for leave, no leave (R307). -/
def State.readyImage (s : State) (t : Team) : State :=
  let s1 := s.abandonMwb t
  let asked := s1.grants.any (fun g => g.op == 0 && g.uid == t.uid)
  let s2 : State := { s1 with grants := s1.grants.filter (fun g => !(g.op == 0 && g.uid == t.uid)) }
  let s3 := if asked then s2.setTeam t.uid (fun t => { t with m := t.m.map (fun m => { m with paid := false }) }) else s2
  s3.returnLeave t

/-- The lowest address of the pitch's save area with room beside the images saved there (log 23). -/
def State.saveAt (s : State) (x n : Nat) : Option DWord :=
  let p := s.pitch x
  let base := p.save.toNat
  let old := (s.saved.filter (fun v => v.team.pitch == x)).map (fun v => (v.addr.toNat, v.size))
  let cands := base :: old.map (fun e => (e.1 + e.2 + 63) / 64 * 64)
  let good (a : Nat) : Bool :=
    decide (base ≤ a) && decide (a + n ≤ base + p.savelen.toNat) && old.all (fun e => decide (a + n ≤ e.1) || decide (e.1 + e.2 ≤ a))
  (cands.foldl (fun best a =>
    if !good a then best
    else
      match best with
      | none => some a
      | some b => some (min a b)) none).map (BitVec.ofNat 64)

/-- One team is written into the save area, and its resources are freed; a reply that is held stands in the image (R473). None while the area has no room or does not translate. -/
def State.copyOut (s : State) (ckpt : Bool) (uid : Nat) : Option State :=
  match s.team? uid with
  | none => none
  | some t0 =>
    let s1 := s.readyImage t0
    match s1.team? uid with
    | none => none
    | some t =>
      let left := t.dleft - (s.now - t.born)
      let bs := t.image left
      match s1.saveAt t.pitch bs.length with
      | none => none
      | some a =>
        match s1.schedWrite t.pitch a bs.length with
        | .error _ => none
        | .ok (ps, ks) =>
          let s2 := s1.scatterFor t.pitch ps ks bs
          let kept : Team := { t with dleft := left, halt := {}, tbase := [], lanes := [], syscs := t.syscs.map (fun q => { q with reply := none }) }
          some { s2 with teams := s2.teams.filter (fun u => u.uid != uid),
                         saved := s2.saved ++ [{ team := kept, addr := a, size := bs.length, ckpt := ckpt }] }

/-- A team, or its whole plot (R51), is saved once all of it may be. -/
def State.copyPlot (s : State) (ckpt : Bool) (t : Team) : State :=
  let ts := s.teams.filter (fun u => t.plot.contains u.uid)
  if !ts.all s.mayCopy then s
  else
    ((ts.map (·.uid)).foldl (fun (acc : Option State) u => acc.bind (fun s => s.copyOut ckpt u)) (some s)).getD s

/-- Every halted team of a launch that may be is saved. -/
def State.copyLaunch (s : State) (lid : Nat) : State :=
  ((s.teams.filter (fun t => t.launch == lid && t.halt.save && !t.retired)).map (·.uid)).foldl (fun s u =>
    match s.team? u with
    | some t => s.copyPlot s.pkg.ckpt.isSome t
    | none => s) s

/-- Is a team on one of a set of cores? -/
def Team.onCores (t : Team) (die core0 n : Nat) : Bool :=
  t.die == die && ((decide (core0 ≤ t.core) && decide (t.core < core0 + n))
    || (t.hdr.twin && decide (core0 ≤ t.core + 1) && decide (t.core + 1 < core0 + n)))

/-- A boundary request: no further team of the launch on those cores, and the deadline runs (R444). -/
def State.boundary (s : State) (lid die core0 n : Nat) : State :=
  let s1 := s.setLaunch lid (fun l => { l with noDispatch := l.noDispatch ++ [(die, core0, n)] })
  { s1 with preempts := s1.preempts ++ [{ lid := lid, die := die, core0 := core0, ncore := n, at_ := s.now }] }

/-- Are a launch's kernels under `.det`? -/
def Launch.det (l : Launch) : Bool :=
  match l.graph with
  | some g => g.nodes.any (fun n => n.hdr.det)
  | none => l.hdr.det

/-- R444. -/
def execPreemptBoundary (lid die core0 ncore : Nat) (s : State) : Host.Outcome State Fault Refusal :=
  .next (if (s.launch? lid).isSome then s.boundary lid die core0 ncore else s)

/-- R444: the teams of the launch on the cores, with their plots, are halted for a save, and those of the launch that have come to rest
are written out. Under `.det` the request is a boundary request. -/
def execPreemptSave (lid die core0 ncore : Nat) (s : State) : Host.Outcome State Fault Refusal :=
  match s.launch? lid with
  | none => .next s
  | some l =>
    if l.det then .next (if ncore = 0 then s else s.boundary lid die core0 ncore)
    else
      let here := s.teams.filter (fun t => t.launch == lid && !t.retired && t.onCores die core0 ncore)
      let s1 : State := { s with teams := s.teams.map (fun t =>
        if here.any (fun h => h.plot.contains t.uid) && !t.retired then t.haltAll 0 true s.now else t) }
      .next (s1.copyLaunch lid)

/-! ### Restoring (R443) -/

/-- What a restore of one saved team's image gives. -/
inductive Restored where
  | ok (t : Team)
  | bad
  | wait

/-- Does the loading of a ray query of an image wait for service or for a frame? -/
def State.queryWaits (load : List Byte → Except RayStop Query) (t : Team) (bs : List Byte) : Bool :=
  (t.threadRecs bs (field bs 40 8 + 512 * t.hdr.rows) t.liveThreads).any (fun r =>
    match queryOf load r.1 (cut r.2 320 128) with
    | .error (.fault ..) | .error (.busy _) => true
    | _ => false)

/-- Reads a saved image for a restore on a die. -/
def State.readImage (s : State) (die : Nat) (v : Saved) : Restored :=
  match s.schedRead v.team.pitch v.addr v.size with
  | .ok bs =>
    let load := loadQuery s { pitch := v.team.pitch, die := die }
    if State.queryWaits load v.team bs then .wait
    else
      match v.team.parse load bs with
      | some t => .ok t
      | none => .bad
  | .error (.recoverable ..) => .wait
  | .error (.busy _) => .wait
  | .error _ => .bad

/-- A member that has retired takes only its memory. -/
def Team.needs (t : Team) : Team :=
  if t.retired then { t with hdr := { t.hdr with rows := 0, lrows := 0, erows := 0, mstream := false } } else t

/-- The `fence.acq.dev` of every party of a team: on its core or twin cores, and on the M-die for the M-stream (R286). -/
def State.acquireAll (s : State) (t : Team) : State :=
  let s1 := (if t.hdr.twin then [t.core, t.core + 1] else [t.core]).foldl (fun s c => s.acquire 3 t.hdr.twin t.die c) s
  if t.m.isSome then s1.acquire 3 false (mDieOf (bedOf t.die)) 0 else s1

/-- One saved team returns at its new place, or ends with a KIND 6 record. -/
def State.copyIn (s : State) (v : Saved) (p : Team) (r : Restored) : State :=
  let s1 : State := { s with saved := s.saved.filter (fun w => w.team.uid != v.team.uid) }
  match r with
  | .ok t =>
    let t1 : Team := { t with die := p.die, core := p.core, lanes := p.lanes, tbase := p.tbase, born := s.now
                              frags := t.frags.map (fun g => { g with stop := false, skid := 0, wait := keepFault g.wait })
                              u := { t.u with stop := false, wait := keepFault t.u.wait }
                              m := t.m.map (fun m => { m with stop := false, wait := keepFault m.wait }) }
    ({ s1 with teams := s1.teams ++ [t1] } : State).acquireAll t1
  | _ =>
    let t : Team := { v.team with die := p.die, core := p.core }
    if t.retired then s1 else (s1.report t.pitch t.die (t.endRec 6 0)).closeTeam t .failed

/-- R443: a saved team, with its plot, is restored from a core on which it fits. -/
def execTeamRestore (team die core : Nat) (s : State) : Host.Outcome State Fault Refusal :=
  match s.saved.find? (fun v => v.team.uid == team) with
  | none => .next s
  | some v0 =>
    let vs := s.saved.filter (fun v => v0.team.plot.contains v.team.uid)
    let part := v0.team.part
    let may (c : Nat) : Bool := decide (c < 100) && partOf s.pkg.mode (sliceOf die c) == part
    let rs := vs.map (fun v => (v, s.readImage die v))
    if !isVDie die || (s.pitch v0.team.pitch).part != part || s.stopped part die v0.team.hdr || s.rvsHeld die v0.team.rcd
        || rs.any (fun r =>
        match r.2 with
        | .wait => true
        | _ => false) then .next s
    else
      match s.placeGroup may die [core] (vs.map (fun v => v.team.needs)) with
      | none => .next s
      | some ps => .next ((rs.zip ps).foldl (fun s e => s.copyIn e.1.1 e.2 e.1.2) s)

/-! ### Deadlines of pre-emption (R444, R445, R468) -/

/-- Cycles of a time in µs at 2.0 GHz (R37). -/
def usCycles (n : Nat) : Nat := 2000 * n

/-- The clock at which the pre-emption deadline of a team passes, by the request that reaches it first. -/
def State.preemptDue (s : State) (t : Team) : Option Nat :=
  ((s.preempts.filter (fun p => p.lid == t.launch && t.onCores p.die p.core0 p.ncore && decide (t.born ≤ p.at_)
      && (!p.mOnly || t.hdr.mstream))).map
    (fun p => p.at_ + usCycles (s.pitch t.pitch).pdead)).foldl (fun best n =>
      match best with
      | none => some n
      | some b => some (min b n)) none

/-- R444: a team still resident when the deadline has passed is force-reset; when the launch deadline falls in the same cycle, it takes
DLN instead (R445). -/
def execPreemptDeadlineExpiry (team : Nat) (s : State) : Host.Outcome State Fault Refusal :=
  match s.team? team with
  | none => .next s
  | some t =>
    match s.preemptDue t with
    | none => .next s
    | some due =>
      if t.retired ∨ s.now < due then .next s
      else if t.born + t.dleft = due then .next (s.setTeam team (fun t => t.expire s.now))
      else .next (s.forceReset t)

end Sys2Proof.Machine
end

