-- ==== Sys2Proof/Machine/Power.lean ====
section
/-! DEFINITION. Token buckets and arbiters (R403 to R406), the Weighbridge (R408 to R410), and the over-current clamp (R411). -/

namespace Sys2Proof.Machine

open Sys2Proof

/-! ### Arbiters (R403, R404) -/

/-- The number of arbiter instances (Table 25.2). -/
def arbCount : Nat := 442

/-- BUDGET of a die. -/
def State.budget (s : State) (d : Nat) : Nat := (s.die d).budget

/-- The capacity of an arbiter instance per period, for a sum of budgets of its bed (Table 21.6). -/
def capOf (i : Nat) (budgets : Nat) : Nat :=
  if i < 400 then 5120 else if i < 406 then 40960 else if i < 422 then 1024 else if i < 440 then 800 else budgets * 1024 / 2000

/-- The budgets of the bed of a Weighbridge instance. -/
def State.bedBudget (s : State) (i : Nat) : Nat := (List.range 3).foldl (fun acc j => acc + s.budget (3 * (i - 440) + j)) 0

/-- The capacity of an arbiter instance. -/
def State.capacity (s : State) (i : Nat) : Nat := capOf i (s.bedBudget i)

/-- What REFILL, DEPTH and the bucket of a pitch hold at reset: the capacity for pitch 0, else 0 (Table 25.2). -/
def rateReset (x i : Nat) : Nat := if x = 0 then capOf i 1800 else 0

/-- REFILL of a pitch at an arbiter. -/
def State.refillOf (s : State) (x i : Nat) : Nat :=
  (FMap.get (fun i => BitVec.ofNat 64 (rateReset x i)) (s.pitch x).refill i).toNat

/-- DEPTH of a pitch at an arbiter. -/
def State.depthOf (s : State) (x i : Nat) : Nat :=
  (FMap.get (fun i => BitVec.ofNat 64 (rateReset x i)) (s.pitch x).depth i).toNat

/-- An arbiter instance. -/
def State.arbiter (s : State) (i : Nat) : Arbiter := FMap.get (fun _ => ({} : Arbiter)) s.arbiters i

/-- Changes an arbiter instance. -/
def State.setArbiter (s : State) (i : Nat) (f : Arbiter → Arbiter) : State :=
  { s with arbiters := FMap.modify (fun _ => ({} : Arbiter)) s.arbiters i f }

/-- The bucket of a pitch. -/
def Arbiter.bucket (a : Arbiter) (i x : Nat) : Int := FMap.get (fun x => (rateReset x i : Int)) a.b x

/-- Sets the bucket of a pitch. -/
def Arbiter.setBucket (a : Arbiter) (i x : Nat) (v : Int) : Arbiter := { a with b := FMap.set (fun x => (rateReset x i : Int)) a.b x v }

/-- The bucket of a pitch takes its depth (R404). -/
def State.fillBucket (s : State) (x i : Nat) : State := s.setArbiter i (fun a => a.setBucket i x (s.depthOf x i))

/-- The sum of the refills of the pitches other than `x` at an arbiter. -/
def State.otherRefills (s : State) (x i : Nat) : Nat :=
  (List.range 64).foldl (fun acc y => if y = x then acc else acc + s.refillOf y i) 0

/-- R403: rates are written unless the refills would exceed the capacity, or the depth lies below the refill. -/
def execRefill (pitch inst : Nat) (refill depth : DWord) (s : State) : Host.Outcome State Fault Refusal :=
  if 64 ≤ pitch ∨ arbCount ≤ inst ∨ depth.toNat < refill.toNat ∨ s.capacity inst < s.otherRefills pitch inst + refill.toNat then .next s
  else
    let dflt (i : Nat) : DWord := BitVec.ofNat 64 (rateReset pitch i)
    .next ((s.setPitch pitch (fun p =>
      { p with refill := FMap.set dflt p.refill inst refill, depth := FMap.set dflt p.depth inst depth })).fillBucket pitch inst)

/-- One arbiter at a period boundary: the buckets are refilled, and what exceeds their depths becomes the sublet pool (R404). -/
def State.periodOf (s : State) (i : Nat) : Arbiter :=
  ((List.range 64).filter (fun x => (s.pitch x).enable)).foldl (fun (a : Arbiter) x =>
    let b := a.bucket i x + s.refillOf x i
    let d : Int := s.depthOf x i
    if d < b then { a.setBucket i x d with pool := a.pool + (b - d).toNat } else a.setBucket i x b) { s.arbiter i with pool := 0 }

/-- R404: the next period boundary that the clock has reached. -/
def execBucketPeriod (s : State) : Host.Outcome State Fault Refusal :=
  if s.now / 1024 ≤ s.pkg.periods then .next s
  else
    .next ({ s with arbiters := FMap.ofFn (fun _ => ({} : Arbiter)) arbCount s.periodOf }.setPkg
      (fun k => { k with periods := k.periods + 1 }))

/-! ### Grants (R404, R405) -/

/-- The request, by its place, that an arbiter serves next: an owner in arrival order, else a borrower in rotation by pitch. Each
is a pitch and a cost. -/
def Arbiter.pick (a : Arbiter) (i : Nat) (reqs : List (Nat × Nat)) : Option Nat :=
  match reqs.findIdx? (fun r => decide (0 < a.bucket i r.1)) with
  | some k => some k
  | none =>
    let turn (x : Nat) : Nat := (x + 64 - (a.last + 1) % 64) % 64
    (reqs.zipIdx.foldl (fun (best : Option (Nat × Nat)) e =>
      if e.1.2 ≤ a.pool then
        match best with
        | none => some (turn e.1.1, e.2)
        | some b => if turn e.1.1 < b.1 then some (turn e.1.1, e.2) else some b
      else best) none).map (·.2)

/-- An owner's bucket is debited, or the sublet pool for a borrower (R404). -/
def Arbiter.debit (a : Arbiter) (i x c : Nat) : Arbiter :=
  if 0 < a.bucket i x then a.setBucket i x (a.bucket i x - c) else { a with pool := a.pool - c, last := x }

/-- The sectors of 32 bytes that a crate takes (R279, R456, R462): 0 for a crate of zeros, as a cleared frame has, otherwise 8 on a page
without the compression attribute, and what the compression leaves on one with it, which no rule gives (log 70). -/
def State.crateSectors (s : State) (pa : Nat) : Nat :=
  let bs := s.bytes (pa / 256 * 256) 256
  if bs.all (· == 0) then 0
  else if !FMap.get (fun _ => false) s.czPages (pa / 65536) then 8 else 1 + Config.crateSectors bs % 8

/-- The cost of a request in tokens: of the transfer of a crate, its 64-byte beats, and one for a crate of no sector (R462). -/
def State.costOf (s : State) (w : ArbWork) : Nat :=
  match w with
  | .tokens n => n
  | .crate pa => max 1 (ceilDiv (32 * s.crateSectors pa) 64)

/-- R405: an arbiter grants one of the waiting requests. -/
def execArbiterGrant (inst : Nat) (reqs : List (Nat × ArbWork)) (s : State) : Host.Outcome State Fault Refusal :=
  let rs := reqs.map (fun r => (r.1, s.costOf r.2))
  match ((s.arbiter inst).pick inst rs).bind (fun k => rs[k]?) with
  | none => .next s
  | some (x, c) => .next (s.setArbiter inst (fun a => a.debit inst x c))

/-! ### The Weighbridge (R408 to R410) -/

/-- The requests that a Weighbridge may grant now: those charged to a die of its bed with credit. -/
def State.weighable (s : State) (bed : Nat) : List Grant :=
  s.grants.filter (fun g => bedOf g.die == bed && decide (0 < (s.die g.die).credit))

/-- R409: the next window start that the clock has reached: no surplus is carried, debt is. -/
def execWeighbridgeWindow (s : State) : Host.Outcome State Fault Refusal :=
  if s.now / 2000 ≤ s.pkg.wWindows then .next s
  else
    .next (((List.range 6).foldl (fun s d => s.setDie d (fun e => { e with credit := min e.credit 0 + e.budget })) s).setPkg
      (fun k => { k with wWindows := k.wWindows + 1 }))

/-- R305, R409, R410: a waiting request is granted whole when its turn has come: the die and the pitch are debited, and an M-stream is
credited 16 sixteenths per grain. -/
def execWeighbridgeGrant (req : Nat) (s : State) : Host.Outcome State Fault Refusal :=
  match s.grants.find? (fun g => g.id == req) with
  | none => .next s
  | some g =>
    let i := 440 + bedOf g.die
    let ws := s.weighable (bedOf g.die)
    match ((s.arbiter i).pick i (ws.map (fun g => (g.pitch, g.grains)))).bind (fun k => ws[k]?) with
    | none => .next s
    | some h =>
      if h.id ≠ req then .next s
      else
        let s1 := (s.setDie g.die (fun e => { e with credit := e.credit - g.grains })).setArbiter i (fun a => a.debit i g.pitch g.grains)
        let s2 : State := { s1 with grants := s1.grants.filter (fun x => x.id != req) }
        .next (if g.op = 0 then
            s2.setTeam g.uid (fun t => { t with m := t.m.map (fun m => { m with leave := m.leave + 16 * g.grains }) })
          else s2)

/-! ### The clamp (R411) -/

/-- R411: issue slots are withheld in some cycles (`Config.clampHolds`). -/
def execOverCurrentClamp (s : State) : Host.Outcome State Fault Refusal := .next (s.setPkg (fun k => { k with clamp := true }))

/-- R411. -/
def execOverCurrentClampRelease (s : State) : Host.Outcome State Fault Refusal := .next (s.setPkg (fun k => { k with clamp := false }))

end Sys2Proof.Machine
end

