-- ==== Sys2Proof/Machine/Sha3.lean ====
section
/-! DEFINITION. SHA3-512 of FIPS 202, which R464 and R465 name. -/

namespace Sys2Proof

/-- The rotation of lane x + 5y. -/
def keccakTurns : List Nat := [0, 1, 62, 28, 27, 36, 44, 6, 55, 20, 3, 10, 43, 25, 39, 41, 45, 15, 21, 8, 18, 2, 61, 56, 14]

/-- The round constants. -/
def keccakConsts : List DWord :=
  [0x0000000000000001, 0x0000000000008082, 0x800000000000808A, 0x8000000080008000, 0x000000000000808B, 0x0000000080000001,
   0x8000000080008081, 0x8000000000008009, 0x000000000000008A, 0x0000000000000088, 0x0000000080008009, 0x000000008000000A]
  ++ [0x000000008000808B, 0x800000000000008B, 0x8000000000008089, 0x8000000000008003, 0x8000000000008002, 0x8000000000000080,
   0x000000000000800A, 0x800000008000000A, 0x8000000080008081, 0x8000000000008080, 0x0000000080000001, 0x8000000080008008]

/-- A round over 25 lanes: θ, ρ and π, χ, ι. -/
def keccakRound (a : List DWord) (rc : DWord) : List DWord :=
  let at_ (l : List DWord) (x y : Nat) : DWord := l.getD (x % 5 + 5 * (y % 5)) 0
  let c := (List.range 5).map (fun x => at_ a x 0 ^^^ at_ a x 1 ^^^ at_ a x 2 ^^^ at_ a x 3 ^^^ at_ a x 4)
  let d := (List.range 5).map (fun x => at_ c (x + 4) 0 ^^^ (at_ c (x + 1) 0).rotateLeft 1)
  let t := (List.range 25).map (fun i => (a.getD i 0 ^^^ d.getD (i % 5) 0).rotateLeft (keccakTurns.getD i 0))
  -- lane (x, y) of the permuted state comes from lane (x + 3y, x)
  let b := (List.range 25).map (fun i => at_ t (i % 5 + 3 * (i / 5)) (i % 5))
  let e := (List.range 25).map (fun i => at_ b i (i / 5) ^^^ (~~~ at_ b (i + 1) (i / 5) &&& at_ b (i + 2) (i / 5)))
  match e with
  | [] => []
  | h :: r => (h ^^^ rc) :: r

/-- The permutation. -/
def keccak (a : List DWord) : List DWord := keccakConsts.foldl keccakRound a

/-- A block of 72 bytes as nine lanes. -/
def sha3Lane (bs : List Byte) (i : Nat) : DWord :=
  BitVec.ofNat 64 (((bs.drop (8 * i)).take 8).foldr (fun b n => b.toNat + 256 * n) 0)

/-- Takes in blocks of 72 bytes, `n` at most. -/
def sha3Absorb : Nat → List DWord → List Byte → List DWord
  | 0, a, _ => a
  | n + 1, a, bs =>
    if bs.isEmpty then a
    else sha3Absorb n (keccak ((List.range 25).map (fun i => if i < 9 then a.getD i 0 ^^^ sha3Lane bs i else a.getD i 0))) (bs.drop 72)

/-- The padding: bits 01, then 1, zeros and 1, to a multiple of 72 bytes. -/
def sha3Pad (n : Nat) : List Byte :=
  let k := 72 - n % 72
  if k = 1 then [0x86] else (0x06 : Byte) :: (List.replicate (k - 2) 0 ++ [0x80])

/-- SHA3-512 of a byte string. -/
def sha3 (bs : List Byte) : List Byte :=
  let a := sha3Absorb (bs.length / 72 + 1) (List.replicate 25 0) (bs ++ sha3Pad bs.length)
  (List.range 64).map (fun i => ((a.getD (i / 8) 0) >>> (8 * (i % 8))).setWidth 8)

end Sys2Proof
end

