-- ==== Sys2Proof/Machine/Package.lean ====
section
/-! DEFINITION. What system software asks of the package: signals (R428), invalidations (R424), crate compression (R463), the Reservoir
Store's size (R28), frames (R455, R456), service replies (R473), partition modes (R453, R454), resets and purges (R458, R459), die
transitions (R467 to R469), checkpoints (R470), and boot (R464, R465). -/

namespace Sys2Proof.Machine

open Sys2Proof

/-! ### Signals (R428) -/

/-- The party whose team takes XLAT at once on a FAIL signal. -/
def Victim.party (v : Victim) : Option Party :=
  match v with
  | .thread uid row pos => some (.lane uid row pos)
  | .frag uid fid => some (.frag uid fid)
  | .ustream uid => some (.ustream uid)
  | .mstream uid => some (.mstream uid)
  | _ => none

/-- Has a party not ended: a signal for one that has has no effect on it? -/
def State.stands (s : State) (p : Party) : Bool :=
  (s.team? (partyUid p)).any (fun t =>
    match p with
    | .lane _ row pos => (t.thread? row pos).any Thread.live
    | .frag _ fid => (t.frag? fid).isSome
    | .ustream _ => t.u.alive
    | .mstream _ => t.m.any (·.alive))

/-- A signal of a fault record by its pitch's register. An unknown record, one of another pitch, or one already signalled is left
alone. -/
def State.signal (s : State) (x : Nat) (q : Nat) (fail : Bool) : State :=
  match s.faults.find? (fun r => r.fseq == q) with
  | none => s
  | some r =>
    if r.pitch ≠ x ∨ r.signal ≠ 0 then s
    else
      let s1 : State := { s with faults := s.faults.map (fun e => if e.fseq = q then { e with signal := if fail then 2 else 1 } else e) }
      match r.victim.party with
      | none => s1
      | some p =>
        if fail && s.stands p && (s.team? (partyUid p)).any (fun t => t.halt.phase == .running) then
          (s1.served q).trap p { code := Trap.xlat.code, va := BitVec.ofNat 64 r.va }
        else s1

/-- R428. -/
def execSigok (pitch : Nat) (fseq : DWord) (s : State) : Host.Outcome State Fault Refusal := .next (s.signal pitch fseq.toNat false)

/-- R428. -/
def execSigfail (pitch : Nat) (fseq : DWord) (s : State) : Host.Outcome State Fault Refusal := .next (s.signal pitch fseq.toNat true)

/-! ### Invalidations (R424). Every access walks the entries at their homes; the TLBs drop the pages named (log 24). -/

/-- The pages that an invalidation names leave every TLB: one page, or, for the value 1, every page of the pitch. -/
def State.dropPages (s : State) (x page : Nat) : State :=
  s.drop (fun e =>
    match e.cache with
    | .tlb .. | .dieTlb _ => e.line / 2 ^ 64 == x && (page == 1 || e.line == tlbLine x (BitVec.ofNat 64 page))
    | _ => false)

/-- An invalidation starts: INVSTAT is 1. -/
def State.invalidate (s : State) (x : Nat) (page : Nat) : State := s.setPitch x (fun p => { p with inval := some page })

/-- R424. -/
def execInvalPage (pitch : Nat) (va : DWord) (s : State) : Host.Outcome State Fault Refusal :=
  .next (if pitch < 64 then s.invalidate pitch (bits va.toNat 16 41 * 65536) else s)

/-- R424: bit 0 stands for the whole pitch. -/
def execInvalPitch (pitch : Nat) (s : State) : Host.Outcome State Fault Refusal :=
  .next (if pitch < 64 then s.invalidate pitch 1 else s)

/-- R424. -/
def execInvalidationDone (pitch : Nat) (s : State) : Host.Outcome State Fault Refusal :=
  .next (match (s.pitch pitch).inval with
    | some page => if pitch < 64 then (s.dropPages pitch page).setPitch pitch (fun p => { p with inval := none }) else s
    | none => s)

/-! ### Crate compression (R280, R463) -/

/-- May a pitch convert the pages of a frame? -/
def State.mayConvert (s : State) (x frame : Nat) : Bool :=
  let o := (s.frame frame).owner
  decide (frame < 1152) && (o == (s.pitch x).part || (x == 0 && o == 0x3F))

/-- The pages that a value of CZCTL names from a first one on, by number. -/
def czPagesOf (first : Nat) (v : DWord) : List Nat := (List.range (bits v.toNat 1 16 + 1)).map (first + ·)

/-- The pages that a write to CZCTL names: those from CZADDR on. -/
def State.czRange (s : State) (x : Nat) (v : DWord) : List Nat := czPagesOf ((s.pitch x).czaddr.toNat / 65536) v

/-- A write to CZCTL. -/
def State.convert (s : State) (x : Nat) (v : DWord) : State :=
  if (s.pitch x).czstat = 1 then s
  else if (s.czRange x v).all (fun p => s.mayConvert x (p / 8192)) then
    s.setPitch x (fun p => { p with czctl := v.toNat % 2 ^ 17, czbase := p.czaddr.toNat / 65536, czstat := 1 })
  else s.setPitch x (fun p => { p with czstat := 3 })

/-- R463. -/
def execCzctl (pitch : Nat) (val : DWord) (s : State) : Host.Outcome State Fault Refusal :=
  .next (if pitch < 64 then s.convert pitch val else s)

/-- R280: the conversion changes no byte; the pages that the command named take the attribute. -/
def execCrateConversionDone (pitch : Nat) (s : State) : Host.Outcome State Fault Refusal :=
  if 64 ≤ pitch ∨ (s.pitch pitch).czstat ≠ 1 then .next s
  else
    let v : DWord := BitVec.ofNat 64 (s.pitch pitch).czctl
    let s1 : State := { s with czPages := FMap.setMany (fun _ => false) s.czPages ((czPagesOf (s.pitch pitch).czbase v).map (fun p => (p, v.getLsbD 0))) }
    .next (s1.setPitch pitch (fun p => { p with czstat := 2 }))

/-! ### The Reservoir Store (R28) -/

/-- A write to RVSWAYS. -/
def State.askWays (s : State) (d : Nat) (v : DWord) : State :=
  let n := bits v.toNat 0 4
  if !isVDie d || decide (8 < n) || (s.die d).rvsWant.isSome then s else s.setDie d (fun e => { e with rvsWant := some n })

/-- R28. -/
def execRvsways (die : Nat) (val : DWord) (s : State) : Host.Outcome State Fault Refusal := .next (s.askWays die val)

/-- R28: the ways that join send their written lines to the stacks, hold no line any more and read as zero; those that leave lose
their contents. -/
def execRvsResize (die : Nat) (s : State) : Host.Outcome State Fault Refusal :=
  match (s.die die).rvsWant with
  | none => .next s
  | some n =>
    if s.teams.any (fun t => t.die == die && !t.retired && decide (0 < t.rcd.rvslen)) then .next s
    else
      let base := rvsBase + 2 ^ 32 * die
      let old := (s.die die).rvsN
      let s1 := s.clearRange (base + min old n * 2 ^ 23) (base + max old n * 2 ^ 23)
      .next ((s1.setDie die (fun e => { e with rvsN := n, rvsWant := none })).drop (fun e => e.cache == .l2 die && decide (16 - n ≤ e.way)))

/-! ### Frames (R455, R456) -/

/-- A write of a frame entry. A new OWNER starts the clearing; SCRUB and the reserved bits are not written. -/
def State.writeFrame (s : State) (f : Nat) (v : DWord) : State :=
  let o := bits v.toNat 0 6
  if 1152 ≤ f ∨ ¬(o = 0x3F ∨ (partStarts s.pkg.mode).contains o = true) then s
  else
    s.setFrame f (fun e => { owner := o, scrub := e.scrub || e.owner != o, ftag := BitVec.ofNat 16 (bits v.toNat 16 16) })

/-- R456. -/
def execFrameEntry (frame : Nat) (val : DWord) (s : State) : Host.Outcome State Fault Refusal := .next (s.writeFrame frame val)

/-- The frame reads as zero. -/
def State.clearFrame (s : State) (f : Nat) : State := s.clearRange (f * 2 ^ 29) ((f + 1) * 2 ^ 29)

/-- R456. -/
def execFrameScrubDone (frame : Nat) (s : State) : Host.Outcome State Fault Refusal :=
  if (s.frame frame).scrub then .next ((s.clearFrame frame).setFrame frame (fun e => { e with scrub := false })).releaseHeld else .next s

/-! ### Service replies (R473) -/

/-- A reply is held for the request of a tag. -/
def Team.answer (t : Team) (tag : Nat) (v : DWord) : Team :=
  { t with syscs := t.syscs.map (fun q => if q.tag = tag ∧ q.reply.isNone then { q with reply := some v } else q) }

/-- A write to SVCREPLY: the reply of the request named by SVCTAG, also of a saved team. An unknown or answered tag has no effect. -/
def State.reply (s : State) (d : Nat) (v : DWord) : State :=
  let tag := (s.die d).svctag.toNat
  match s.svc.find? (fun q => q.tag == tag) with
  | none => s
  | some q =>
    { s with svc := s.svc.filter (fun r => r.tag != tag),
             teams := s.teams.map (fun t => if t.uid = q.uid then t.answer tag v else t),
             saved := s.saved.map (fun w => if w.team.uid = q.uid then { w with team := w.team.answer tag v } else w) }

/-- R473. -/
def execSvcreply (die : Nat) (reply : DWord) (s : State) : Host.Outcome State Fault Refusal := .next (s.reply die reply)

/-! ### Modes (R452 to R454) -/

/-- The partitions of a mode whose slices differ under another. -/
def affected (old new : BitVec 40) : List Nat :=
  (partStarts old).filter (fun p => !((partStarts new).contains p && partEnd new p == partEnd old p))

/-- A write to MODEREQ. A rejected request sets STATE to 3 also while a change is under way, whose next stage sets STATE again (R453;
log 73). -/
def State.askMode (s : State) (v : DWord) : State :=
  let start : BitVec 40 := v.truncate 40
  let drain := bits v.toNat 40 20
  if 1000000 < drain then s
  else if bits v.toNat 60 4 ≠ 0 ∨ modeValid start = false ∨ s.pkg.modeReq.isSome ∨ s.pkg.dieReq.isSome ∨ s.pkg.ckpt.isSome then
    s.setPkg (fun k => { k with modestat := 3 })
  else if start = s.pkg.mode then s.setPkg (fun k => { k with modestat := 0 })
  else
    s.setPkg (fun k => { k with
      modestat := 1
      modeReq := some { start := start, drain := if drain = 0 then 10000 else drain, parts := affected k.mode start, at_ := s.now, phase := 1 } })

/-- R453. -/
def execModereq (val : DWord) (s : State) : Host.Outcome State Fault Refusal := .next (s.askMode val)

/-- The teams that are resident in some partitions. -/
def State.residents (s : State) (parts : List Nat) : List Team := s.teams.filter (fun t => parts.contains t.part && !t.retired)

/-- Teams are force-reset at a deadline that falls in cycle `due`, as far as they are still there; one whose launch deadline falls in the
same cycle takes DLN instead (R445). -/
def State.resetTeams (s : State) (due : Nat) (ts : List Team) : State :=
  ts.foldl (fun s t =>
    match s.team? t.uid with
    | some u =>
      if u.retired then s
      else if u.born + u.dleft = due then s.setTeam u.uid (fun u => u.expire s.now)
      else s.forceReset u
    | none => s) s

/-- R454: DRAIN has passed, or no team is left: teams still resident are force-reset, and the purge begins, once those that take DLN
instead are gone too (log 25). -/
def execModeDrainDeadline (s : State) : Host.Outcome State Fault Refusal :=
  match s.pkg.modeReq with
  | none => .next s
  | some r =>
    let left := s.residents r.parts
    if r.phase ≠ 1 ∨ (s.now < r.at_ + usCycles r.drain ∧ left ≠ []) then .next s
    else
      let s1 := s.resetTeams (r.at_ + usCycles r.drain) left
      .next (if s1.residents r.parts ≠ [] then s1
        else s1.setPkg (fun k => { k with
          modestat := 2, modeReq := some { r with phase := 2 }, purging := k.purging ++ r.parts }))

/-! ### Die transitions (R467 to R469) and what waits for a transition to end -/

/-- DIESTAT. -/
def diestatOf (st die op : Nat) : Nat := st + 16 * die + 128 * op

/-- The entries of an evacuation list. -/
def State.evacuation (s : State) (r : DieReq) : List (Nat × Nat) :=
  (List.range r.count).map (fun i => (s.readN (r.list + 16 * i) 8, s.readN (r.list + 16 * i + 8) 8))

/-- An evacuation entry that breaks the rule of R467: two frames of a partition, one of this die and one of another that is online. -/
def State.entryOff (s : State) (die : Nat) (e : Nat × Nat) : Bool :=
  e.1 % 2 ^ 29 != 0 || e.2 % 2 ^ 29 != 0 || decide (0x9000000000 ≤ e.1) || decide (0x9000000000 ≤ e.2) || homeDie e.1 != die
  || homeDie e.2 == die || !(s.die (homeDie e.2)).online || (s.frame (e.1 / 2 ^ 29)).owner == 0x3F || (s.frame (e.1 / 2 ^ 29)).owner != (s.frame (e.2 / 2 ^ 29)).owner

/-- Is a request of a die transition rejected (R467)? So is one whose list of entries is poisoned (log 15). -/
def State.dieBad (s : State) (r : DieReq) : Bool :=
  r.die == 0 || decide (6 ≤ r.die) || (s.die r.die).online == (r.op == 1) || s.pkg.dieReq.isSome
  || s.poisoned r.list (16 * r.count) || (s.evacuation r).any (s.entryOff r.die)

/-- The three checks of an image (R464). -/
def imageGood (i : FwImage) : Bool :=
  Config.signatureOk i.bytes i.sig i.key && decide (sha3 i.key = Config.fuseDigest) && decide (Config.fuseVersion ≤ i.version)

/-- An accepted image is measured (R465). -/
def State.measure (s : State) (i : FwImage) : State :=
  let dg := sha3 i.bytes
  let zero : Nat → List Byte := fun _ => leBytes 64 0
  s.setPkg (fun k => { k with meas := FMap.modify zero k.meas i.index (fun m => sha3 (m ++ dg)), measLog := k.measLog ++ [(i.index, dg)] })

/-- The images of a die are verified: those accepted are measured; the first that fails, if any. -/
def State.verify (s : State) (imgs : List FwImage) : State × Option Nat :=
  ((imgs.filter imageGood).foldl State.measure s, (imgs.find? (fun i => !imageGood i)).map (·.index))

/-- A die comes online: its frames are unowned and read as zero (R469). Its RVSWAYS is 0 and no change of it waits, as after the die went
offline: what becomes of the register no rule says (DESIGN CHOICE, log 68). -/
def State.raiseDie (s : State) (d : Nat) : State :=
  let s1 := (s.clearRange (d * 0x1800000000) ((d + 1) * 0x1800000000)).clearRange (rvsBase + 2 ^ 32 * d) (rvsBase + 2 ^ 32 * (d + 1))
  let s2 := (List.range 192).foldl (fun s j => s.setFrame (192 * d + j) (fun _ => {})) s1
  s2.setDie d (fun e => { e with online := true, rvsN := 0, rvsWant := none })

/-- A die transition begins: a die on its way offline has its teams pre-empted at team boundaries (R468); one that comes online is
verified (R469). -/
def State.startDie (s : State) (r : DieReq) : State :=
  if r.op = 0 then
    let md := !isVDie r.die
    let touched (t : Team) : Bool := !t.retired && (if md then t.hdr.mstream && mDieOf (bedOf t.die) == r.die else t.die == r.die)
    let lids := ((s.teams.filter touched).map (fun t => (t.launch, t.die))).eraseDups
    let s1 : State := { s with preempts := s.preempts ++ lids.map (fun e =>
      { lid := e.1, die := e.2, core0 := 0, ncore := 100, at_ := s.now, mOnly := md }) }
    s1.setPkg (fun k => { k with dieReq := some { r with started := true, at_ := s.now }, diestat := diestatOf 2 r.die 0 })
  else
    match s.verify (r.imgs.filter (fun i => i.die == r.die)) with
    | (s1, none) =>
      ((s1.raiseDie r.die).report evRing r.die { kind := 9, die := r.die }).setPkg (fun k => { k with diestat := diestatOf 3 r.die 1 })
    | (s1, some n) =>
      (s1.report evRing 0 { kind := 10, code := n, die := r.die }).setPkg (fun k => { k with diestat := diestatOf 4 r.die 1 })

/-- A checkpoint begins: the teams of launches without `.det` are halted for their save (R470). -/
def State.startCkpt (s : State) (v : DWord) : State :=
  let det (t : Team) : Bool := (s.launch? t.launch).any Launch.det
  let s1 : State := { s with teams := s.teams.map (fun t => if t.retired || det t then t else t.haltAll 0 true s.now) }
  s1.setPkg (fun k => { k with ckpt := some { target := v, at_ := s.now }, ckptstat := 0, ckptWait := none })

/-- A die request that waited begins, or is rejected now; while the transition of an earlier one runs, it goes on waiting (log 25). -/
def State.wakeDie (s : State) (r : DieReq) : State :=
  if s.pkg.dieReq.isSome then s.setPkg (fun k => { k with dieWait := k.dieWait ++ [r] })
  else if s.dieBad r then s.setPkg (fun k => { k with diestat := diestatOf 4 r.die r.op })
  else s.startDie r

/-- A transition has ended: the die requests that waited for it begin in turn, and a checkpoint that waited once no transition is under way (R467,
R474; log 25). -/
def State.afterChange (s : State) : State :=
  if s.pkg.modeReq.isSome ∨ s.pkg.ckpt.isSome ∨ s.pkg.dieReq.isSome then s
  else
    let s1 := s.pkg.dieWait.foldl State.wakeDie (s.setPkg (fun k => { k with dieWait := [] }))
    match s1.pkg.dieReq, s1.pkg.ckptWait with
    | none, some v => s1.startCkpt v
    | _, _ => s1

/-- A write to DIECTL. DIESTAT tells of the last request, also of one rejected while another runs, or one that waits behind another (R467). -/
def State.askDie (s : State) (v : DWord) (imgs : List FwImage) : State :=
  let n := v.toNat
  let r : DieReq := { die := bits n 0 3, op := bits n 3 1, list := bits n 4 44 * 16, count := bits n 48 16, started := false,
                      at_ := s.now, imgs := imgs }
  if s.dieBad r then s.setPkg (fun k => { k with diestat := diestatOf 4 r.die r.op })
  else if s.pkg.modeReq.isSome ∨ s.pkg.ckpt.isSome then
    s.setPkg (fun k => { k with dieWait := k.dieWait ++ [r], diestat := diestatOf 1 r.die r.op })
  else s.startDie r

/-- R467, R468. -/
def execDieOffline (val : DWord) (s : State) : Host.Outcome State Fault Refusal :=
  .next (if val.getLsbD 3 then s else s.askDie val [])

/-- R467, R469. -/
def execDieOnline (val : DWord) (imgs : List FwImage) (s : State) : Host.Outcome State Fault Refusal :=
  .next (if val.getLsbD 3 then s.askDie val imgs else s)

/-- The bytes of a range go to another range, which holds nothing else afterwards; what is poisoned among them stays so (R40; log 15). -/
def State.copyRange (s : State) (src dst n : Nat) : State :=
  let cells := (s.mem.filter (fun c => decide (src ≤ c.1) && decide (c.1 < src + n))).map (fun c => (c.1 - src + dst, c.2))
  let bad := (s.poison.filter (fun c => decide (src / 16 ≤ c.1) && decide (c.1 < (src + n) / 16))).map (fun c => (c.1 - src / 16 + dst / 16, c.2))
  let s1 := s.clearRange dst (dst + n)
  { s1 with mem := FMap.setMany memDefault s1.mem cells, poison := FMap.setMany (fun _ => false) s1.poison bad }

/-- A frame's bytes go to another frame. -/
def State.copyFrame (s : State) (e : Nat × Nat) : State := s.copyRange e.1 e.2 (2 ^ 29)

/-- R468: once its teams are gone, the listed frames are copied and the die goes offline. -/
def execDieEvacuationDone (s : State) : Host.Outcome State Fault Refusal :=
  match s.pkg.dieReq with
  | none => .next s
  | some r =>
    let busy := s.teams.any (fun t =>
      !t.retired && (if isVDie r.die then t.die == r.die else t.m.isSome && mDieOf (bedOf t.die) == r.die))
    if busy then .next s
    else
      let s1 := (s.evacuation r).foldl State.copyFrame s
      let s2 := (s1.setDie r.die (fun e => { e with online := false, rvsN := 0, rvsWant := none })).drop (Line.onDie r.die)
      .next (((s2.setPkg (fun k => { k with dieReq := none, diestat := diestatOf 3 r.die 0 })).report evRing r.die
        { kind := 8, die := r.die }).afterChange)

/-! ### Purges and resets (R454, R458, R459) -/

/-- The mode change ends: MODE takes START, the affected pitches lose their partition, and frames their owner (R454). -/
def State.endMode (s : State) (r : ModeReq) : State :=
  let s1 := (List.range 64).foldl (fun s x =>
    if r.parts.contains (s.pitch x).part then s.setPitch x (fun p => { p with part := 0xFF }) else s) s
  let s2 : State := { s1 with frames := s1.frames.filterMap (fun e =>
    let f : Frame := if r.parts.contains e.2.owner then { e.2 with owner := 0x3F } else e.2
    if f = ({} : Frame) then none else some (e.1, f)) }
  ((s2.setPkg (fun k => { k with mode := r.start, modestat := 0, modeReq := none })).report evRing 0
    { kind := 11, va := r.start.toNat }).afterChange

/-- R458: a purge is done: of a partition, or, from 64 on, of a pitch after its function reset. The last purge of a mode change ends it. -/
def execPurgeDone (part : Nat) (s : State) : Host.Outcome State Fault Refusal :=
  if !s.pkg.purging.contains part then .next s
  else
    let s1 := (s.setPkg (fun k => { k with purging := k.purging.erase part })).report evRing 0
      (if part < 64 then { kind := 12, pitch := some 0xFF, va := part } else { kind := 12, pitch := some (part - 64), va := (s.pitch (part - 64)).part })
    match s1.pkg.modeReq with
    | none => .next s1
    | some r =>
      if r.phase = 2 ∧ r.parts.all (fun p => !s1.pkg.purging.contains p) then .next (s1.endMode r) else .next s1

/-- Some teams, resident or saved, end under R287 with KIND 3 records; their launches and those of some pitches end with STATUS 3. -/
def State.cancel (s : State) (pitch : Nat → Bool) (team : Team → Bool) : State :=
  let ts := (s.teams ++ s.saved.map (·.team)).filter (fun t => team t && !t.retired)
  let mine (l : Launch) : Bool := pitch l.pitch || ts.any (fun t => t.launch == l.lid)
  let lids := (s.launches.filter mine).map (·.lid)
  let s1 : State := { s with launches := s.launches.map (fun l => if mine l then { l with cancelled := true } else l) }
  let s2 := ts.foldl (fun s t =>
    match s.owner? t.uid with
    | some u => if u.retired then s else s.kill u 3 0
    | none => s) s1
  lids.foldl State.checkLaunch s2

/-- A write to PARTRESET. -/
def State.partReset (s : State) (p : Nat) : State :=
  if (partStarts s.pkg.mode).contains p then
    (s.cancel (fun x => (s.pitch x).part == p) (fun t => t.part == p || (s.pitch t.pitch).part == p)).setPkg (fun k => { k with purging := k.purging ++ [p] })
  else s

/-- R459. -/
def execPartreset (part : Nat) (s : State) : Host.Outcome State Fault Refusal := .next (s.partReset part)

/-- R459: a function reset of a VF: its launches end, and its service page is as at reset. -/
def execFlr (pitch : Nat) (s : State) : Host.Outcome State Fault Refusal :=
  if pitch = 0 ∨ 64 ≤ pitch then .next s
  else
    let s1 := s.cancel (fun x => x == pitch) (fun t => t.pitch == pitch)
    let s2 := s1.setPitch pitch (fun p => { p with
      pool := [], ring := 0, ovfl := 0, save := 0, savelen := 0, inval := none, czaddr := 0, czctl := 0, czbase := 0, czstat := 0, svcmask := 0,
      poolBroken := [], poolHold := [], ringBroken := false })
    .next ({ s2 with accepts := s2.accepts.filter (fun a => a.pitch != pitch) }.setPkg (fun k => { k with purging := k.purging ++ [64 + pitch] }))

/-! ### Checkpoints (R470) -/

/-- A write to CKPT; one made while a checkpoint runs is ignored, and one made during another transition waits (log 25). -/
def State.askCkpt (s : State) (v : DWord) : State :=
  if s.pkg.ckpt.isSome then s
  else if s.pkg.modeReq.isSome ∨ s.pkg.dieReq.isSome then s.setPkg (fun k => { k with ckptWait := some v })
  else s.startCkpt v

/-- R470. -/
def execCkpt (val : DWord) (s : State) : Host.Outcome State Fault Refusal := .next (s.askCkpt val)

/-- R470: 200 ms after the start, teams under `.det` that are still resident are force-reset. -/
def execCkptQuiesceDeadline (s : State) : Host.Outcome State Fault Refusal :=
  match s.pkg.ckpt with
  | none => .next s
  | some c =>
    if s.now < c.at_ + usCycles 200000 then .next s
    else .next (s.resetTeams (c.at_ + usCycles 200000) (s.teams.filter (fun t => !t.retired && (s.launch? t.launch).any Launch.det)))

/-- Device memory goes to the safe tier: die d's 96 GiB at 96 GiB × d; the slot of a die that is offline is left as it is (R470, R474). -/
def State.stream (s : State) (v : DWord) : State :=
  let dst := fabKey (bits v.toNat 44 12) (bits v.toNat 0 44)
  ((List.range 6).filter (fun d => (s.die d).online)).foldl (fun s d => s.copyRange (d * 0x1800000000) (dst + d * 0x1800000000) 0x1800000000) s

/-- R470: with every team saved or ended, the image has been streamed; dispatch resumes, and the teams may be restored. -/
def execCkptStreamDone (ok : Bool) (s : State) : Host.Outcome State Fault Refusal :=
  match s.pkg.ckpt with
  | none => .next s
  | some c =>
    let dev := bits c.target.toNat 44 12
    if s.teams.any (fun t => !t.retired) then .next s
    else
      let good := ok && s.pkg.domain.contains dev && !s.pkg.unreachable.contains dev
      let s1 := if good then s.stream c.target else s
      let st := if good then 1 else 4
      .next (((s1.setPkg (fun k => { k with ckpt := none, ckptstat := st })).report evRing 0 { kind := 14, code := st }).releaseHeld.afterChange)

/-! ### Package reset (R464, R465) -/

/-- What lies outside the package, or is the model's schedule, survives a package reset. -/
def State.afterReset (s : State) : State :=
  { State.reset with
    mem := s.mem.filter (fun c => decide (2 ^ 60 ≤ c.1)), atsDenied := s.atsDenied, outbox := s.outbox, agenda := s.agenda,
    turn := s.turn, tick := s.tick }

/-- The images of one die other than die 0 at boot: a failure leaves the die offline, with a KIND 10 event. -/
def State.bootDie (s : State) (imgs : List FwImage) (d : Nat) : State :=
  match s.verify (imgs.filter (fun i => i.die == d)) with
  | (s1, none) => s1
  | (s1, some n) => (s1.setDie d (fun e => { e with online := false })).report evRing 0 { kind := 10, code := n, die := d }

/-- R464: `imgs` is what the boot flash holds. -/
def execPackageReset (imgs : List FwImage) (s : State) : Host.Outcome State Fault Refusal :=
  match (s.afterReset.setPkg (fun k => { k with flash := imgs })).verify (imgs.filter (fun i => i.die == 0)) with
  | (s1, some n) => .next { s1.setPkg (fun k => { k with bootHeld := true }) with outbox := s1.outbox ++ [.i3cBootFailure n] }
  | (s1, none) => .next ([1, 2, 3, 4, 5].foldl (fun s d => s.bootDie imgs d) s1)

end Sys2Proof.Machine
end

