-- ==== Sys2Proof/Machine/Registers.lean ====
section
/-! DEFINITION. The register space (R438, R448, R449, R472): where each register lies, what it reads as, and what a write does. -/

namespace Sys2Proof.Machine

open Sys2Proof

/-! ### Blocks (Table 25.1) -/

/-- The register that an 8-byte aligned address of the register space names. -/
inductive RegAt where
  | die (d off : Nat)
  | window (d w off : Nat)
  | control (x off : Nat)
  | service (x off : Nat)
  | pkg (off : Nat)
  | none
  deriving DecidableEq, Repr

/-- The first address of the pitch blocks. -/
def pitchBlocks : Nat := 0xF4000000000

/-- The address of the package block. -/
def pkgBlock : Nat := 0xFC000000000

/-- The block of a device physical address, and the offset in it. -/
def regAt (a : Nat) : RegAt :=
  if a < 0xF0000000000 then .none
  else if a < 0xF0000000000 + 6 * 0x10000000 then
    let d := (a - 0xF0000000000) / 0x10000000
    let o := a % 0x10000000
    if isVDie d && decide (0x1000000 ≤ o) && decide (o < 0x1000000 + 64 * 0x1000) then
      .window d ((o - 0x1000000) / 0x1000) (o % 0x1000)
    else .die d o
  else if a < pitchBlocks then .none
  else if a < pitchBlocks + 64 * 0x100000 then
    let x := (a - pitchBlocks) / 0x100000
    let o := a % 0x100000
    if o < 0x80000 then .control x o else if o < 0x90000 then .service x (o - 0x80000) else .none
  else if pkgBlock ≤ a then .pkg (a - pkgBlock)
  else .none

/-! ### Windows (R438) -/

/-- The masks of a home row in a window: positions that live, are parked, have exited. -/
def Team.rowMasks (t : Team) (h : Nat) : List Byte :=
  let mine := t.threads.filter (fun g => g.row == h)
  leBytes 8 (placeMask (mine.filter Thread.live)) ++ leBytes 8 (placeMask (mine.filter (fun g => g.parkedOn != 0)))
  ++ leBytes 8 (placeMask (mine.filter (fun g => !g.live))) ++ leBytes 8 0

/-- The fields of Table 23.7 that speak of the stopped team, 0x440 bytes. -/
def Team.windowBytes (t : Team) : List Byte :=
  let h := t.halt
  leBytes 4 t.launch ++ leBytes 4 t.team ++ leBytes 1 t.pitch ++ leBytes 1 t.die ++ leBytes 1 t.core ++ leBytes 1 h.cause
  ++ leBytes 2 t.frags.length ++ leBytes 1 ((t.m.map (·.trap)).getD 0) ++ leBytes 1 h.utrap ++ leBytes 2 h.cfid ++ leBytes 1 h.cidx
  ++ leBytes 1 0 ++ leBytes 4 h.imm ++ leBytes 8 h.cpc.toNat ++ leBytes 8 h.va.toNat ++ leBytes 1 h.dsess ++ leBytes 1 h.orow
  ++ leBytes 1 h.opos ++ leBytes 1 0 ++ leBytes 4 h.iter.toNat ++ leBytes 2 h.owner ++ leBytes 14 0
  ++ (List.range 32).flatMap t.rowMasks

/-- The 4 KiB of a window; without a team its first fields are zero (log 6). -/
def State.windowPage (s : State) (d w : Nat) : List Byte :=
  let x := s.window d w
  padTo 0x440 (((s.windowTeam d w).map Team.windowBytes).getD [])
  ++ leBytes 4 x.cmd ++ leBytes 4 x.a0.toNat ++ leBytes 8 x.a1.toNat ++ leBytes 8 x.a2.toNat ++ leBytes 4 x.cstat
  ++ leBytes (0x800 - 0x45C) 0 ++ padTo 2048 x.stage

/-! ### Reads -/

/-- A frame entry as a word (Table 25.5). -/
def Frame.word (f : Frame) : Nat := f.owner + (if f.scrub then 256 else 0) + 65536 * f.ftag.toNat

/-- The registers of a die's control block. -/
def State.readDie (s : State) (d o : Nat) : Option Nat :=
  let e := s.die d
  if isVDie d then
    match o with
    | 0x000 => some (e.rvsN + if e.rvsWant.isSome then 256 else 0)
    | 0x020 => some e.svcring.toNat
    | _ => none
  else if 0x100 ≤ o ∧ o < 0x118 then some (s.budget (d + (o - 0x100) / 8))
  else none

/-- The registers of a pitch's control page (Table 25.2). -/
def State.readControl (s : State) (x o : Nat) : Option Nat :=
  let p := s.pitch x
  match o with
  | 0x000 => some p.part
  | 0x008 => some (if p.enable then 1 else 0)
  | 0x010 => some p.troot.toNat
  | 0x018 => some (if p.fmode then 1 else 0)
  | 0x020 => some p.pdead
  | 0x028 => some p.fab.toNat
  | 0x030 => some p.port
  | 0x038 => some p.handler.toNat
  | _ =>
    if 0x800 ≤ o ∧ o < 0x830 then some (FMap.get (fun _ => 0xFFFF) p.waymask ((o - 0x800) / 8))
    else if 0x1000 ≤ o ∧ o < 0x1000 + 16 * arbCount then
      let i := (o - 0x1000) / 16
      some (if o % 16 = 0 then s.refillOf x i else s.depthOf x i)
    else none

/-- The registers of a pitch's service page. -/
def State.readService (s : State) (x o : Nat) : Option Nat :=
  let p := s.pitch x
  if o < 0x80 then some (FMap.get (fun _ => (0 : DWord)) p.pool (o / 8)).toNat
  else if 0x100 ≤ o ∧ o < 0x120 then some (bits p.svcmask.toNat (8 * (o - 0x100)) 64)
  else
    match o with
    | 0x080 => some p.ring.toNat
    | 0x088 => some p.ovfl.toNat
    | 0x0A0 => some p.save.toNat
    | 0x0A8 => some p.savelen.toNat
    | 0x0B8 => some (if p.inval.isSome then 1 else 0)
    | 0x0C0 => some p.czaddr.toNat
    | 0x0D0 => some p.czstat
    | _ => none

/-- The registers of the package block (Table 25.7). -/
def State.readPkg (s : State) (o : Nat) : Option Nat :=
  let k := s.pkg
  match o with
  | 0x008 => some k.mode.toNat
  | 0x020 => some k.modestat
  | 0x038 => some k.diestat
  | 0x040 => some k.evring.toNat
  | 0x050 => some k.evovfl.toNat
  | 0x058 => some k.ckptstat
  | 0x060 => some k.fabdev.toNat
  | _ => if 0x1000 ≤ o ∧ o < 0x1000 + 8 * 1152 then some (s.frame ((o - 0x1000) / 8)).word else none

/-- The 8-byte register at an address; none for one of access W, or for no register. -/
def State.readReg (s : State) (a : Nat) : Option Nat :=
  match regAt a with
  | .die d o => s.readDie d o
  | .window d w o => some (field (s.windowPage d w) o 8)
  | .control x o => s.readControl x o
  | .service x o => s.readService x o
  | .pkg o => s.readPkg o
  | .none => none

/-- A read of the register space: 4 or 8 aligned bytes; all ones for another size, an open value where no rule gives one (log 26). -/
def State.readSpace (s : State) (a n : Nat) : List Byte :=
  if ¬(n = 4 ∨ n = 8) ∨ a % n ≠ 0 then leBytes n (2 ^ (8 * n) - 1)
  else
    let v := (s.readReg (a / 8 * 8)).getD (Config.openRegister s.tick (a / 8 * 8)).toNat
    leBytes n (v / 2 ^ (8 * (a % 8)))

/-! ### Writes -/

/-- Which halves a write names. -/
structure Halves where
  lo : Bool
  hi : Bool

/-- A register of access RW after a write of some of its halves. -/
def Halves.merge (h : Halves) (old v : Nat) : Nat :=
  (if h.lo then v % 2 ^ 32 else old % 2 ^ 32) + 2 ^ 32 * (if h.hi then bits v 32 32 else bits old 32 32)

/-- A pitch is created: every bucket of it takes its depth (R404). -/
def State.fillAll (s : State) (x : Nat) : State := (List.range arbCount).foldl (fun s i => s.fillBucket x i) s

/-- A write of a register of the control page, on its whole new value. -/
def State.writeControl (s : State) (x o v : Nat) : State :=
  let set (f : Pitch → Pitch) : State := s.setPitch x f
  match o with
  | 0x000 => if v = 0xFF ∨ (partStarts s.pkg.mode).contains v = true then set (fun p => { p with part := v }) else s
  | 0x008 =>
    let s1 := set (fun p => { p with enable := bitOf v 0 })
    if bitOf v 0 && !(s.pitch x).enable then s1.fillAll x else s1
  | 0x010 => if v % 2 ^ 18 = 0 then set (fun p => { p with troot := BitVec.ofNat 64 v }) else s
  | 0x018 => set (fun p => { p with fmode := bitOf v 0 })
  | 0x020 => if 1 ≤ v ∧ v ≤ 1000000 then set (fun p => { p with pdead := v }) else s
  | 0x028 => set (fun p => { p with fab := BitVec.ofNat 64 (v % 2 ^ 18) })
  | 0x030 => set (fun p => { p with port := v % 2 })
  | 0x038 => set (fun p => { p with handler := BitVec.ofNat 64 v })
  | _ =>
    if 0x800 ≤ o ∧ o < 0x830 then
      let d := (o - 0x800) / 8
      let m := v % 65536
      if (m = 0 ∧ (s.pitch x).enable = true) ∨ m / 2 ^ (16 - (s.die d).rvsN) ≠ 0 then s
      else set (fun p => { p with waymask := FMap.set (fun _ => 0xFFFF) p.waymask d m })
    else s

/-- A write of a register of the service page. -/
def State.writeService (s : State) (x o v : Nat) : State :=
  let set (f : Pitch → Pitch) : State := s.setPitch x f
  let w : DWord := BitVec.ofNat 64 v
  if o < 0x80 then
    let k := o / 8
    if v % 64 = 0 then
      set (fun p => { p with pool := FMap.set (fun _ => (0 : DWord)) p.pool k w, poolBroken := p.poolBroken.filter (· != k)
                             poolHold := p.poolHold.filter (fun h => h.1 != k) })
    else s
  else if 0x100 ≤ o ∧ o < 0x120 then
    let sh := 8 * (o - 0x100)
    set (fun p => { p with svcmask := BitVec.ofNat 256 (p.svcmask.toNat - bits p.svcmask.toNat sh 64 * 2 ^ sh + v * 2 ^ sh) })
  else
    match o with
    | 0x080 => if v % 64 = 0 then set (fun p => { p with ring := w, ringBroken := false }) else s
    | 0x0A0 => set (fun p => { p with save := w })
    | 0x0A8 => set (fun p => { p with savelen := w })
    | 0x0C0 => if v % 65536 = 0 then set (fun p => { p with czaddr := w }) else s
    | _ => s

/-- A write of BUDGET: the six budgets stay within 3,600, and the refills within the new capacity (R409). -/
def State.writeBudget (s : State) (d v : Nat) : State :=
  let i := 440 + bedOf d
  let others := (List.range 6).foldl (fun acc e => if e = d then acc else acc + s.budget e) 0
  let s1 := s.setDie d (fun e => { e with budget := v })
  if 3600 < others + v ∨ s1.capacity i < (List.range 64).foldl (fun acc x => acc + s.refillOf x i) 0 then s else s1

/-- A command of a handler window by its code (Table 23.8); a code of no command is not accepted. -/
def runCommand (d w : Nat) (s : State) : Host.Outcome State Fault Refusal :=
  let x := s.window d w
  match x.cmd with
  | 1 => execReadf d w x.a0 s
  | 2 => execReadt d w x.a0 x.a1 s
  | 3 => execWritet d w x.a0 x.a1 x.a2 s
  | 4 => execReads d w x.a0 s
  | 5 => execStep d w x.a0 s
  | 6 => execResume d w s
  | 7 => execKill d w x.a0 s
  | 8 => execHalt d w x.a0 x.a1 s
  | _ => .next (s.setWindow d w (fun x => { x with cstat := 3 }))

/-- A write to a handler window: its command fields only; a write to CMD starts the command (R438, R439). -/
def writeWindow (d w o : Nat) (h : Halves) (v : Nat) (s : State) : Host.Outcome State Fault Refusal :=
  let x := s.window d w
  match o with
  | 0x440 =>
    let s1 := if h.hi then s.setWindow d w (fun x => { x with a0 := BitVec.ofNat 32 (bits v 32 32) }) else s
    if h.lo then runCommand d w (s1.setWindow d w (fun x => { x with cmd := v % 2 ^ 32 })) else .next s1
  | 0x448 => .next (s.setWindow d w (fun e => { e with a1 := BitVec.ofNat 64 (h.merge x.a1.toNat v) }))
  | 0x450 => .next (s.setWindow d w (fun e => { e with a2 := BitVec.ofNat 64 (h.merge x.a2.toNat v) }))
  | _ => .next s

/-- A write to a die's control block. SVCTAG and SVCREPLY are of access W. -/
def writeDie (d o : Nat) (h : Halves) (v : Nat) (s : State) : Host.Outcome State Fault Refusal :=
  let new : Nat := h.merge ((s.readDie d o).getD 0) v
  if isVDie d then
    match o with
    | 0x000 => execRvsways d (BitVec.ofNat 64 new) s
    | 0x020 => .next (if new % 64 = 0 then s.setDie d (fun e => { e with svcring := BitVec.ofNat 64 new }) else s)
    | 0x028 => .next (if h.lo then s.setDie d (fun e => { e with svctag := BitVec.ofNat 64 v }) else s)
    | 0x030 => if h.lo then execSvcreply d (BitVec.ofNat 64 v) s else .next s
    | _ => .next s
  else if 0x100 ≤ o ∧ o < 0x118 then .next (s.writeBudget (d + (o - 0x100) / 8) new)
  else .next s

/-- A write to a pitch's control page. -/
def writeControlPage (x o : Nat) (h : Halves) (v : Nat) (s : State) : Host.Outcome State Fault Refusal :=
  let new : Nat := h.merge ((s.readControl x o).getD 0) v
  if 0x1000 ≤ o ∧ o < 0x1000 + 16 * arbCount then
    let i := (o - 0x1000) / 16
    if o % 16 = 0 then execRefill x i (BitVec.ofNat 64 new) (BitVec.ofNat 64 (s.depthOf x i)) s
    else execRefill x i (BitVec.ofNat 64 (s.refillOf x i)) (BitVec.ofNat 64 new) s
  else .next (s.writeControl x o new)

/-- A write to a pitch's service page. SIGOK, SIGFAIL, INVAL and CZCTL are of access W. -/
def writeServicePage (x o : Nat) (h : Halves) (v : Nat) (s : State) : Host.Outcome State Fault Refusal :=
  let w : DWord := BitVec.ofNat 64 v
  match o with
  | 0x090 => if h.lo then execSigok x w s else .next s
  | 0x098 => if h.lo then execSigfail x w s else .next s
  | 0x0B0 => if !h.lo then .next s else if bitOf v 0 then execInvalPitch x s else execInvalPage x w s
  | 0x0C8 => if h.lo then execCzctl x w s else .next s
  | _ => .next (s.writeService x o (h.merge ((s.readService x o).getD 0) v))

/-- A write to the package block. MODEREQ, PARTRESET, DIECTL and CKPT are of access W. A die that comes online has the images that the
boot flash holds (log 27). -/
def writePkg (o : Nat) (h : Halves) (v : Nat) (s : State) : Host.Outcome State Fault Refusal :=
  let w : DWord := BitVec.ofNat 64 v
  match o with
  | 0x018 => if h.lo then execModereq w s else .next s
  | 0x028 => if h.lo then execPartreset (v % 64) s else .next s
  | 0x030 => if !h.lo then .next s else if bitOf v 3 then execDieOnline w s.pkg.flash s else execDieOffline w s
  | 0x048 => if h.lo then execCkpt w s else .next s
  | 0x040 =>
    let new : Nat := h.merge s.pkg.evring.toNat v
    .next (if new % 64 = 0 then s.setPkg (fun k => { k with evring := BitVec.ofNat 64 new, evBroken := false }) else s)
  | _ =>
    if 0x1000 ≤ o ∧ o < 0x1000 + 8 * 1152 then
      let f := (o - 0x1000) / 8
      execFrameEntry f (BitVec.ofNat 64 (h.merge (s.frame f).word v)) s
    else .next s

/-- A write of the register space: 4 or 8 aligned bytes (R448). A 4-byte write of the lower half of a register of access W acts as an
8-byte write with a zero upper half, one of the upper half is ignored. -/
def writeSpace (a n : Nat) (val : Nat) (s : State) : Host.Outcome State Fault Refusal :=
  if ¬(n = 4 ∨ n = 8) ∨ a % n ≠ 0 then .next s
  else
    let h : Halves := { lo := n == 8 || a % 8 == 0, hi := n == 8 || a % 8 == 4 }
    let v : Nat := if n = 8 then val % 2 ^ 64 else val % 2 ^ 32 * 2 ^ (8 * (a % 8))
    match regAt (a / 8 * 8) with
    | .die d o => writeDie d o h v s
    | .window d w o => writeWindow d w o h v s
    | .control x o => writeControlPage x o h v s
    | .service x o => writeServicePage x o h v s
    | .pkg o => writePkg o h v s
    | .none => .next s

/-- Does BAR0 of a function on a port cover an address of the register space (R450, Table 25.1): of the PF all of it, of a VF its
service page? -/
def State.bar0 (s : State) (port x a : Nat) : Bool :=
  s.onPort port x && (decide (0xF0000000000 ≤ a) && decide (a < 2 ^ 44)) &&
  (x == 0 ||
    match regAt (a / 8 * 8) with
    | .service y _ => y == x
    | _ => false)

/-- R448 to R450, R472: a host's function reads or writes the register space through BAR0. AtomicOps are completed through BAR2 only
(Table 25.3). -/
def execRegisterWrite (by_ : HostFn) (addr : Nat) (op : ExtOp) (s : State) : Host.Outcome State Fault Refusal :=
  if !s.bar0 by_.port by_.function addr then .next s
  else
    match op with
    | .read n => .next { s with outbox := s.outbox ++ [.data (s.readSpace addr n)] }
    | .write bs => writeSpace addr bs.length (leNat bs) s
    | _ => .next { s with outbox := s.outbox ++ [.abort] }

end Sys2Proof.Machine
end

