-- ==== Sys2Proof/Machine/Outside.lean ====
section
/-! DEFINITION. The outside world: host accesses and page requests (R451), attestation (R466), the Ewearvia domain (R460, R461), and
management cores (R247). -/

namespace Sys2Proof.Machine

open Sys2Proof

/-- R450, R451: BAR2 is 1 TiB. Over a link that is down, or for a function that does not appear on the port, nothing arrives. -/
def execHostBar2Access (by_ : HostFn) (off : DWord) (op : ExtOp) (s : State) : Host.Outcome State Fault Refusal :=
  .next (if s.onPort by_.port by_.function = true ∧ off.toNat + op.size ≤ 2 ^ 40 then s.bar2 by_.port by_.function off op else s)

/-- The host pages of a fault record's access lack their permission no more (R451). -/
def State.grantPage (s : State) (r : FaultRec) : State :=
  let t : State := { s with atsDenied := [] }
  let page (d : Nat) : Option Nat :=
    match t.translate r.pitch d (BitVec.ofNat 64 r.va) .read with
    | .ok k _ => some (k / 65536)
    | _ => none
  match [1, 2, 4, 5].findSome? page with
  | some k => { s with atsDenied := FMap.set (fun _ => false) s.atsDenied k false }
  | none => s

/-- R451: a Page Request response signals the record, as OK or as FAIL (R428); after a success the host translates the page. -/
def execPageRequestResponse (pitch : Nat) (fseq : DWord) (ok : Bool) (s : State) : Host.Outcome State Fault Refusal :=
  match s.faults.find? (fun r => r.fseq == fseq.toNat && r.pitch == pitch) with
  | none => .next s
  | some r => .next ((if ok then s.grantPage r else s).signal pitch fseq.toNat (!ok))

/-- R466. The signed text is the nonce, followed for measurements by the log. -/
def execSpdmRequest (req : SpdmReq) (s : State) : Host.Outcome State Fault Refusal :=
  let answer (a : Answer) : Host.Outcome State Fault Refusal := .next { s with outbox := s.outbox ++ [a] }
  match req with
  | .measurements nonce =>
    answer (.measurements s.pkg.measLog
      (Config.sign (leBytes 8 nonce.toNat ++ s.pkg.measLog.flatMap (fun e => leBytes 1 e.1 ++ e.2))))
  | .challenge nonce => answer (.challenge (Config.sign (leBytes 8 nonce.toNat)))
  | .certificate => answer (.certificate Config.certChain)
  | .keyExchange port => answer (.keys port (Config.drawKey s.tick))

/-- R460. -/
def execFabricRequest (src : FabSrc) (ftag : BitVec 16) (pa : Nat) (op : ExtOp) (s : State) : Host.Outcome State Fault Refusal :=
  .next (s.fabricIn src.port src.dev ftag pa op)

/-- R461: requests to a device that has stayed unreachable for 2,000,000 cycles fail from now on, and so do releases of domain scope by
the parties whose writes it has not acknowledged (`State.relOk`; log 72). -/
def execFabricUnreachableTimeout (lost : LostDev) (s : State) : Host.Outcome State Fault Refusal :=
  .next (if s.pkg.unreachable.contains lost.dev then s
    else s.setPkg (fun k => { k with unreachable := lost.dev :: k.unreachable, unacked := k.unacked ++ lost.unacked }))

/-- R460: the domain forms; this device takes its number, every member is reachable, and the frames of the members admit the tags named
(log 72). -/
def execFabricDomainFormation (dev : BitVec 12) (domain : Domain) (s : State) :
    Host.Outcome State Fault Refusal :=
  .next (if dev.toNat ≤ 2303 ∧ domain.members.all (fun m => decide (m ≤ 2303)) = true then
      s.setPkg (fun k => { k with
        fabdev := dev, domain := domain.members, unreachable := [], unacked := []
        fabTags := FMap.setMany (fun _ => 0) [] (domain.tags.map (fun e => (e.1 * 2 ^ 15 + e.2.1 % 2 ^ 15, e.2.2))) })
    else s)

/-- May a management core reach a register block (Table 25.1): those of dies and of the package? -/
def coreReaches (a : Nat) : Bool :=
  match regAt (a / 8 * 8) with
  | .die .. | .window .. | .pkg _ => true
  | _ => false

/-- R247: system software on a management core of a die accesses device memory by its physical address, the RVS, or a register of its
reach. The core of a die that is offline makes no access, and one that reads poisoned bytes fails (R40; log 15). -/
def execManagementCoreAccess (at_ : CoreAddr) (op : ExtOp) (s : State) : Host.Outcome State Fault Refusal :=
  let d := at_.die
  let pa := at_.pa
  let n := op.size
  let rvs (a : Nat) : Bool := decide (rvsBase ≤ a) && s.placeAt d a == .present
  if !(s.die d).online then .next s
  else if (s.onPackage d pa n || (rvs pa && rvs (pa + (n - 1)))) && op.fits pa then
    .next (if s.meets op [(BitVec.ofNat 64 pa, n)] [pa] then s.extAbort op .abort else s.extPerform noPitch [(BitVec.ofNat 64 pa, n)] [pa] op)
  else if coreReaches pa then
    match op with
    | .read n => .next { s with outbox := s.outbox ++ [.data (s.readSpace pa n)] }
    | .write bs => writeSpace pa bs.length (leNat bs) s
    | _ => .next { s with outbox := s.outbox ++ [.abort] }
  else .next (s.extAbort op .abort)

end Sys2Proof.Machine
end

