-- ==== Sys2Proof/Machine/Dispatch.lean ====
section
/-! DEFINITION. The dispatch of every row of the opcode table to its meaning. -/

namespace Sys2Proof.Machine

/-- The meaning of every instruction and event. -/
def exec (i : Instr) (s : State) : Host.Outcome State Fault Refusal :=
  match i with
  | .nop f => Sys2Proof.Machine.execNop f s
  | .skip k => Sys2Proof.Machine.execSkip k s
  | .bra k => Sys2Proof.Machine.execBra k s
  | .brx f => Sys2Proof.Machine.execBrx f s
  | .call k => Sys2Proof.Machine.execCall k s
  | .ret f => Sys2Proof.Machine.execRet f s
  | .join f => Sys2Proof.Machine.execJoin f s
  | .exit f => Sys2Proof.Machine.execExit f s
  | .yield f => Sys2Proof.Machine.execYield f s
  | .wait k => Sys2Proof.Machine.execWait k s
  | .brk k => Sys2Proof.Machine.execBrk k s
  | .trap k => Sys2Proof.Machine.execTrap k s
  | .sr k => Sys2Proof.Machine.execSr k s
  | .srw k => Sys2Proof.Machine.execSrw k s
  | .fresume f => Sys2Proof.Machine.execFresume f s
  | .sysc k => Sys2Proof.Machine.execSysc k s
  | .smov f => Sys2Proof.Machine.execSmov f s
  | .sli k => Sys2Proof.Machine.execSli k s
  | .slk k => Sys2Proof.Machine.execSlk k s
  | .sldc f => Sys2Proof.Machine.execSldc f s
  | .sadd f => Sys2Proof.Machine.execSadd f s
  | .ssub f => Sys2Proof.Machine.execSsub f s
  | .smul f => Sys2Proof.Machine.execSmul f s
  | .smulh f => Sys2Proof.Machine.execSmulh f s
  | .sand f => Sys2Proof.Machine.execSand f s
  | .sor f => Sys2Proof.Machine.execSor f s
  | .sxor f => Sys2Proof.Machine.execSxor f s
  | .snot f => Sys2Proof.Machine.execSnot f s
  | .sshl f => Sys2Proof.Machine.execSshl f s
  | .sshr f => Sys2Proof.Machine.execSshr f s
  | .ssar f => Sys2Proof.Machine.execSsar f s
  | .smin f => Sys2Proof.Machine.execSmin f s
  | .smax f => Sys2Proof.Machine.execSmax f s
  | .scmp f => Sys2Proof.Machine.execScmp f s
  | .ssel f => Sys2Proof.Machine.execSsel f s
  | .sbfe f => Sys2Proof.Machine.execSbfe f s
  | .sbfi f => Sys2Proof.Machine.execSbfi f s
  | .sclz f => Sys2Proof.Machine.execSclz f s
  | .spopc f => Sys2Proof.Machine.execSpopc f s
  | .sld f => Sys2Proof.Machine.execSld f s
  | .sst f => Sys2Proof.Machine.execSst f s
  | .sldt f => Sys2Proof.Machine.execSldt f s
  | .sstt f => Sys2Proof.Machine.execSstt f s
  | .vmov f => Sys2Proof.Machine.execVmov f s
  | .vli k => Sys2Proof.Machine.execVli k s
  | .vlk k => Sys2Proof.Machine.execVlk k s
  | .vbcs f => Sys2Proof.Machine.execVbcs f s
  | .vadd f => Sys2Proof.Machine.execVadd f s
  | .vsub f => Sys2Proof.Machine.execVsub f s
  | .vmul f => Sys2Proof.Machine.execVmul f s
  | .vmulh f => Sys2Proof.Machine.execVmulh f s
  | .vmad f => Sys2Proof.Machine.execVmad f s
  | .vabs f => Sys2Proof.Machine.execVabs f s
  | .vneg f => Sys2Proof.Machine.execVneg f s
  | .vmin f => Sys2Proof.Machine.execVmin f s
  | .vmax f => Sys2Proof.Machine.execVmax f s
  | .vand f => Sys2Proof.Machine.execVand f s
  | .vor f => Sys2Proof.Machine.execVor f s
  | .vxor f => Sys2Proof.Machine.execVxor f s
  | .vnot f => Sys2Proof.Machine.execVnot f s
  | .vandn f => Sys2Proof.Machine.execVandn f s
  | .vshl f => Sys2Proof.Machine.execVshl f s
  | .vshr f => Sys2Proof.Machine.execVshr f s
  | .vsar f => Sys2Proof.Machine.execVsar f s
  | .vrol f => Sys2Proof.Machine.execVrol f s
  | .vclz f => Sys2Proof.Machine.execVclz f s
  | .vctz f => Sys2Proof.Machine.execVctz f s
  | .vpopc f => Sys2Proof.Machine.execVpopc f s
  | .vbrev f => Sys2Proof.Machine.execVbrev f s
  | .vbfe f => Sys2Proof.Machine.execVbfe f s
  | .vbfi f => Sys2Proof.Machine.execVbfi f s
  | .vcmp f => Sys2Proof.Machine.execVcmp f s
  | .vsel f => Sys2Proof.Machine.execVsel f s
  | .vdot4 f => Sys2Proof.Machine.execVdot4 f s
  | .vtag f => Sys2Proof.Machine.execVtag f s
  | .pand f => Sys2Proof.Machine.execPand f s
  | .por f => Sys2Proof.Machine.execPor f s
  | .pxor f => Sys2Proof.Machine.execPxor f s
  | .pnot f => Sys2Proof.Machine.execPnot f s
  | .pset f => Sys2Proof.Machine.execPset f s
  | .pget f => Sys2Proof.Machine.execPget f s
  | .vfadd f => Sys2Proof.Machine.execVfadd f s
  | .vfsub f => Sys2Proof.Machine.execVfsub f s
  | .vfmul f => Sys2Proof.Machine.execVfmul f s
  | .vffma f => Sys2Proof.Machine.execVffma f s
  | .vfmin f => Sys2Proof.Machine.execVfmin f s
  | .vfmax f => Sys2Proof.Machine.execVfmax f s
  | .vfabs f => Sys2Proof.Machine.execVfabs f s
  | .vfneg f => Sys2Proof.Machine.execVfneg f s
  | .vfcmp f => Sys2Proof.Machine.execVfcmp f s
  | .vfclass f => Sys2Proof.Machine.execVfclass f s
  | .vfrnd f => Sys2Proof.Machine.execVfrnd f s
  | .vrcp f => Sys2Proof.Machine.execVrcp f s
  | .vrsq f => Sys2Proof.Machine.execVrsq f s
  | .vsqrt f => Sys2Proof.Machine.execVsqrt f s
  | .vdiv f => Sys2Proof.Machine.execVdiv f s
  | .vexp2 f => Sys2Proof.Machine.execVexp2 f s
  | .vlog2 f => Sys2Proof.Machine.execVlog2 f s
  | .vsinpi f => Sys2Proof.Machine.execVsinpi f s
  | .vcospi f => Sys2Proof.Machine.execVcospi f s
  | .vcvt f => Sys2Proof.Machine.execVcvt f s
  | .vpack f => Sys2Proof.Machine.execVpack f s
  | .vunpk f => Sys2Proof.Machine.execVunpk f s
  | .vscl f => Sys2Proof.Machine.execVscl f s
  | .vfdot2 f => Sys2Proof.Machine.execVfdot2 f s
  | .vpfma f => Sys2Proof.Machine.execVpfma f s
  | .vpfadd f => Sys2Proof.Machine.execVpfadd f s
  | .vpfmul f => Sys2Proof.Machine.execVpfmul f s
  | .vshfl f => Sys2Proof.Machine.execVshfl f s
  | .vbcast f => Sys2Proof.Machine.execVbcast f s
  | .vred f => Sys2Proof.Machine.execVred f s
  | .vscan f => Sys2Proof.Machine.execVscan f s
  | .vmatch f => Sys2Proof.Machine.execVmatch f s
  | .vcompact f => Sys2Proof.Machine.execVcompact f s
  | .vballot f => Sys2Proof.Machine.execVballot f s
  | .vvote f => Sys2Proof.Machine.execVvote f s
  | .vrank f => Sys2Proof.Machine.execVrank f s
  | .vfirst f => Sys2Proof.Machine.execVfirst f s
  | .ld f => Sys2Proof.Machine.execLd f s
  | .st f => Sys2Proof.Machine.execSt f s
  | .ldt f => Sys2Proof.Machine.execLdt f s
  | .stt f => Sys2Proof.Machine.execStt f s
  | .ldp f => Sys2Proof.Machine.execLdp f s
  | .stp f => Sys2Proof.Machine.execStp f s
  | .fe f => Sys2Proof.Machine.execFe f s
  | .atom f => Sys2Proof.Machine.execAtom f s
  | .atomt f => Sys2Proof.Machine.execAtomt f s
  | .atomp f => Sys2Proof.Machine.execAtomp f s
  | .cas f => Sys2Proof.Machine.execCas f s
  | .cast f => Sys2Proof.Machine.execCast f s
  | .fence f => Sys2Proof.Machine.execFence f s
  | .pref f => Sys2Proof.Machine.execPref f s
  | .cinv f => Sys2Proof.Machine.execCinv f s
  | .fetch f => Sys2Proof.Machine.execFetch f s
  | .rdvinit f => Sys2Proof.Machine.execRdvinit f s
  | .rdvarr f => Sys2Proof.Machine.execRdvarr f s
  | .rdvwait f => Sys2Proof.Machine.execRdvwait f s
  | .rdvtest f => Sys2Proof.Machine.execRdvtest f s
  | .qpush f => Sys2Proof.Machine.execQpush f s
  | .qpop f => Sys2Proof.Machine.execQpop f s
  | .qtry f => Sys2Proof.Machine.execQtry f s
  | .qcnt f => Sys2Proof.Machine.execQcnt f s
  | .bcp f => Sys2Proof.Machine.execBcp f s
  | .btile f => Sys2Proof.Machine.execBtile f s
  | .bgat f => Sys2Proof.Machine.execBgat f s
  | .bsct f => Sys2Proof.Machine.execBsct f s
  | .bred f => Sys2Proof.Machine.execBred f s
  | .bfill f => Sys2Proof.Machine.execBfill f s
  | .bwait f => Sys2Proof.Machine.execBwait f s
  | .bpoll f => Sys2Proof.Machine.execBpoll f s
  | .rqbegin f => Sys2Proof.Machine.execRqbegin f s
  | .rqstep f => Sys2Proof.Machine.execRqstep f s
  | .rqcommit f => Sys2Proof.Machine.execRqcommit f s
  | .rqskip f => Sys2Proof.Machine.execRqskip f s
  | .rqresume f => Sys2Proof.Machine.execRqresume f s
  | .rqsave f => Sys2Proof.Machine.execRqsave f s
  | .rqload f => Sys2Proof.Machine.execRqload f s
  | .rqget f => Sys2Proof.Machine.execRqget f s
  | .rtvis f => Sys2Proof.Machine.execRtvis f s
  | .rsvld f => Sys2Proof.Machine.execRsvld f s
  | .rsvst f => Sys2Proof.Machine.execRsvst f s
  | .rsvupd f => Sys2Proof.Machine.execRsvupd f s
  | .rsvmrg f => Sys2Proof.Machine.execRsvmrg f s
  | .rsvnorm f => Sys2Proof.Machine.execRsvnorm f s
  | .rng f => Sys2Proof.Machine.execRng f s
  | .ltw f => Sys2Proof.Machine.execLtw f s
  | .drlld f => Sys2Proof.Machine.execDrlld f s
  | .drlnext f => Sys2Proof.Machine.execDrlnext f s
  | .drlred f => Sys2Proof.Machine.execDrlred f s
  | .drlend f => Sys2Proof.Machine.execDrlend f s
  | .drlsave f => Sys2Proof.Machine.execDrlsave f s
  | .drlrst f => Sys2Proof.Machine.execDrlrst f s
  | .graft f => Sys2Proof.Machine.execGraft f s
  | .gftflush f => Sys2Proof.Machine.execGftflush f s
  | .mrg f => Sys2Proof.Machine.execMrg f s
  | .glean f => Sys2Proof.Machine.execGlean f s
  | .emit f => Sys2Proof.Machine.execEmit f s
  | .launch f => Sys2Proof.Machine.execLaunch f s
  | .recget f => Sys2Proof.Machine.execRecget f s
  | .mnop f => Sys2Proof.Machine.execMnop f s
  | .mli k => Sys2Proof.Machine.execMli k s
  | .madd f => Sys2Proof.Machine.execMadd f s
  | .mbra k => Sys2Proof.Machine.execMbra k s
  | .mloop k => Sys2Proof.Machine.execMloop k s
  | .mend f => Sys2Proof.Machine.execMend f s
  | .mqpop f => Sys2Proof.Machine.execMqpop f s
  | .marr f => Sys2Proof.Machine.execMarr f s
  | .mwait f => Sys2Proof.Machine.execMwait f s
  | .mleave f => Sys2Proof.Machine.execMleave f s
  | .mwb f => Sys2Proof.Machine.execMwb f s
  | .mast f => Sys2Proof.Machine.execMast f s
  | .mzero f => Sys2Proof.Machine.execMzero f s
  | .mscl f => Sys2Proof.Machine.execMscl f s
  | .mma f => Sys2Proof.Machine.execMma f s
  | .mmasp f => Sys2Proof.Machine.execMmasp f s
  | .mmak f => Sys2Proof.Machine.execMmak f s
  | .mscout f => Sys2Proof.Machine.execMscout f s
  | .msieve f => Sys2Proof.Machine.execMsieve f s
  | .mmaskld f => Sys2Proof.Machine.execMmaskld f s
  | .mdrain f => Sys2Proof.Machine.execMdrain f s
  | .mcvt f => Sys2Proof.Machine.execMcvt f s
  | .msr f => Sys2Proof.Machine.execMsr f s
  | .mfence f => Sys2Proof.Machine.execMfence f s
  | .longLatencyComplete op => Sys2Proof.Machine.execLongLatencyComplete op s
  | .waitEnd p => Sys2Proof.Machine.execWaitEnd p s
  | .arrayOpComplete team array => Sys2Proof.Machine.execArrayOpComplete team array s
  | .mdrainGranuleWrite op => Sys2Proof.Machine.execMdrainGranuleWrite op s
  | .barrowBlock op => Sys2Proof.Machine.execBarrowBlock op s
  | .sequencedReducingCopy op => Sys2Proof.Machine.execSequencedReducingCopy op s
  | .gleanerPass op => Sys2Proof.Machine.execGleanerPass op s
  | .reportRecordWrite n => Sys2Proof.Machine.execReportRecordWrite n s
  | .continuationEntry team fid => Sys2Proof.Machine.execContinuationEntry team fid s
  | .handlerWindowAssign team => Sys2Proof.Machine.execHandlerWindowAssign team s
  | .handlerWindowTimeout die w => Sys2Proof.Machine.execHandlerWindowTimeout die w s
  | .launchDeadlineExpiry team => Sys2Proof.Machine.execLaunchDeadlineExpiry team s
  | .recordAccept pitch pool => Sys2Proof.Machine.execRecordAccept pitch pool s
  | .launchReady lid => Sys2Proof.Machine.execLaunchReady lid s
  | .teamDispatch die slot => Sys2Proof.Machine.execTeamDispatch die slot s
  | .teamRetire team => Sys2Proof.Machine.execTeamRetire team s
  | .batchTimeout lid node => Sys2Proof.Machine.execBatchTimeout lid node s
  | .preemptSave lid die core0 ncore => Sys2Proof.Machine.execPreemptSave lid die core0 ncore s
  | .teamRestore team die core => Sys2Proof.Machine.execTeamRestore team die core s
  | .preemptDeadlineExpiry team => Sys2Proof.Machine.execPreemptDeadlineExpiry team s
  | .weighbridgeGrant req => Sys2Proof.Machine.execWeighbridgeGrant req s
  | .invalidationDone pitch => Sys2Proof.Machine.execInvalidationDone pitch s
  | .crateConversionDone pitch => Sys2Proof.Machine.execCrateConversionDone pitch s
  | .rvsResize die => Sys2Proof.Machine.execRvsResize die s
  | .frameScrubDone frame => Sys2Proof.Machine.execFrameScrubDone frame s
  | .purgeDone part => Sys2Proof.Machine.execPurgeDone part s
  | .ckptStreamDone ok => Sys2Proof.Machine.execCkptStreamDone ok s
  | .stepWaitTimeout die w => Sys2Proof.Machine.execStepWaitTimeout die w s
  | .handlerFailure die w => Sys2Proof.Machine.execHandlerFailure die w s
  | .bindRecordWrite die slot rec => Sys2Proof.Machine.execBindRecordWrite die slot rec s
  | .preemptBoundary lid die core0 ncore => Sys2Proof.Machine.execPreemptBoundary lid die core0 ncore s
  | .registerWrite by_ addr op => Sys2Proof.Machine.execRegisterWrite by_ addr op s
  | .hostBar2Access by_ off op => Sys2Proof.Machine.execHostBar2Access by_ off op s
  | .pageRequestResponse pitch fseq ok => Sys2Proof.Machine.execPageRequestResponse pitch fseq ok s
  | .managementCoreAccess at_ op => Sys2Proof.Machine.execManagementCoreAccess at_ op s
  | .readf die w a0 => Sys2Proof.Machine.execReadf die w a0 s
  | .readt die w a0 a1 => Sys2Proof.Machine.execReadt die w a0 a1 s
  | .writet die w a0 a1 a2 => Sys2Proof.Machine.execWritet die w a0 a1 a2 s
  | .reads die w a0 => Sys2Proof.Machine.execReads die w a0 s
  | .step die w a0 => Sys2Proof.Machine.execStep die w a0 s
  | .resume die w => Sys2Proof.Machine.execResume die w s
  | .kill die w a0 => Sys2Proof.Machine.execKill die w a0 s
  | .halt die w launch team => Sys2Proof.Machine.execHalt die w launch team s
  | .uncorrectableError at_ => Sys2Proof.Machine.execUncorrectableError at_ s
  | .arbiterGrant inst reqs => Sys2Proof.Machine.execArbiterGrant inst reqs s
  | .sigok pitch fseq => Sys2Proof.Machine.execSigok pitch fseq s
  | .sigfail pitch fseq => Sys2Proof.Machine.execSigfail pitch fseq s
  | .invalPage pitch va => Sys2Proof.Machine.execInvalPage pitch va s
  | .invalPitch pitch => Sys2Proof.Machine.execInvalPitch pitch s
  | .czctl pitch val => Sys2Proof.Machine.execCzctl pitch val s
  | .rvsways die val => Sys2Proof.Machine.execRvsways die val s
  | .frameEntry frame val => Sys2Proof.Machine.execFrameEntry frame val s
  | .refill pitch inst refill depth => Sys2Proof.Machine.execRefill pitch inst refill depth s
  | .svcreply die reply => Sys2Proof.Machine.execSvcreply die reply s
  | .modereq val => Sys2Proof.Machine.execModereq val s
  | .partreset part => Sys2Proof.Machine.execPartreset part s
  | .flr pitch => Sys2Proof.Machine.execFlr pitch s
  | .dieOffline val => Sys2Proof.Machine.execDieOffline val s
  | .dieOnline val imgs => Sys2Proof.Machine.execDieOnline val imgs s
  | .ckpt val => Sys2Proof.Machine.execCkpt val s
  | .packageReset imgs => Sys2Proof.Machine.execPackageReset imgs s
  | .spdmRequest req => Sys2Proof.Machine.execSpdmRequest req s
  | .fabricRequest src ftag pa op => Sys2Proof.Machine.execFabricRequest src ftag pa op s
  | .fabricUnreachableTimeout lost => Sys2Proof.Machine.execFabricUnreachableTimeout lost s
  | .fabricDomainFormation dev domain => Sys2Proof.Machine.execFabricDomainFormation dev domain s
  | .bucketPeriod => Sys2Proof.Machine.execBucketPeriod s
  | .weighbridgeWindow => Sys2Proof.Machine.execWeighbridgeWindow s
  | .modeDrainDeadline => Sys2Proof.Machine.execModeDrainDeadline s
  | .dieEvacuationDone => Sys2Proof.Machine.execDieEvacuationDone s
  | .ckptQuiesceDeadline => Sys2Proof.Machine.execCkptQuiesceDeadline s
  | .overCurrentClamp => Sys2Proof.Machine.execOverCurrentClamp s
  | .overCurrentClampRelease => Sys2Proof.Machine.execOverCurrentClampRelease s

end Sys2Proof.Machine
end

