-- ==== Sys2Proof/Machine/Turn.lean ====
section
/-! DEFINITION. The schedule when no outside party asks for anything: the turns that may be taken, in a fixed rotation (log 1). -/

namespace Sys2Proof.Machine

open Sys2Proof

/-- A turn that is open on a condition. -/
def openIf (b : Bool) (i : Instr) : List Turn := if b then [.event i] else []

/-- The parties of a team that may issue. -/
def teamParties (t : Team) : List Party :=
  let fs : List Party := t.frags.map (fun g => .frag t.uid g.fid)
  let ls : List Party := (t.threads.filter (fun h => h.st == .replay)).map (fun h => .lane t.uid h.row h.pos)
  (fs ++ ls ++ [Party.ustream t.uid, Party.mstream t.uid]).filter (mayIssue t)

/-- Does a thread that runs alone, or waits at `fresume`, go on now (R426, R428, R432)? -/
def State.laneReady (s : State) (t : Team) (h : Thread) : Bool :=
  (s.failedOn h).isSome ||
  (match h.st with
   | .parked q | .held q => s.signalOf q != 0
   | .fresumeWait => (t.episodeOf h.row h.pos).any (s.episodeReady t)
   | _ => false)

/-- The parties of a team whose wait is over (R82). -/
def State.waitsOver (s : State) (t : Team) : List Turn :=
  let fs := (t.frags.filter (fun g => g.wait.any (s.waitReady t (t.members g.fid) g.cur.instr?))).map (fun g => Party.frag t.uid g.fid)
  let ls := (t.threads.filter (fun h => s.laneReady t h)).map (fun h => Party.lane t.uid h.row h.pos)
  let us := if t.u.wait.any (s.waitReady t [] t.u.cur.instr?) then [Party.ustream t.uid] else []
  let ms := if (t.m.bind (·.wait)).any (s.waitReady t [] none) then [Party.mstream t.uid] else []
  ((fs ++ ls ++ us ++ ms).filter t.goesOn).map (fun p => .event (.waitEnd p))

/-- What may happen to a team: its parties issue or go on, its array operations complete, it is given a window, it retires, its
deadlines pass. -/
def State.teamTurns (s : State) (t : Team) : List Turn :=
  if t.retired then []
  else
    (teamParties t).map Turn.party ++ s.waitsOver t
    ++ (t.frags.filter t.mayEnter).map (fun g => Turn.event (.continuationEntry t.uid g.fid))
    ++ (match t.m with
        | none => []
        | some m => (m.arrays.filter (fun a => a.2.ops != 0)).map (fun a => Turn.event (.arrayOpComplete t.uid a.1)))
    ++ openIf (t.halt.phase == .stopped && t.halt.window.isNone && t.halt.cause != 0 && s.atRest t) (.handlerWindowAssign t.uid)
    ++ openIf (s.mayRetire t) (.teamRetire t.uid)
    ++ openIf ((s.preemptDue t).any (fun n => decide (n ≤ s.now))) (.preemptDeadlineExpiry t.uid)
    ++ (match t.halt.window with
        | none => []
        | some (d, w) =>
          openIf (decide (t.halt.since + 2 ^ 24 ≤ s.now)) (.handlerWindowTimeout d w)
          ++ openIf (t.halt.stepping.any (fun e => e.2 != 0 && decide (e.2 + 65536 ≤ s.now))) (.stepWaitTimeout d w))

/-- What may happen in the engines: instructions complete, blocks move, granules are written, grants are made. -/
def State.engineTurns (s : State) : List Turn :=
  (s.inflight.filter (fun i => (i.dep == 0 || !s.engineLive i.dep) && i.late.all (s.lateReady i))).map (fun i => Turn.event (.longLatencyComplete i.id))
  ++ (s.barrows.filter (fun b => b.eng.ready s)).map (fun b =>
    Turn.event (if b.sq && b.op == .bred && b.eng.st == .running && decide (b.eng.done < b.total) then .sequencedReducingCopy b.eng.id
      else .barrowBlock b.eng.id))
  ++ (s.gleans.filter (fun g => g.eng.ready s)).map (fun g => Turn.event (.gleanerPass g.eng.id))
  ++ (s.drains.filter s.drainReady).map (fun d => Turn.event (.mdrainGranuleWrite d.id))
  ++ s.grants.map (fun g => Turn.event (.weighbridgeGrant g.id))
  ++ s.recs.map (fun r => Turn.event (.reportRecordWrite r.n))

/-- What may happen to launches: records are accepted, launches become ready, batches time out, saves are completed. -/
def State.launchTurns (s : State) : List Turn :=
  s.pitches.flatMap (fun e => (e.2.pool.filter (fun k => !e.2.poolBroken.contains k.1)).map (fun k => Turn.event (.recordAccept e.1 k.1)))
  ++ s.launches.flatMap (fun l =>
    openIf (l.pendChit.isSome || l.st == .queued) (.launchReady l.lid)
    ++ (match l.graph with
        | none => []
        | some g => (g.forming.filter (fun f => (g.nodes[f.1]?).any (fun nd => s.batchDue nd f.2.1))).map (fun f =>
            Turn.event (.batchTimeout l.lid f.1)))
    ++ openIf (s.teams.any (fun t => t.launch == l.lid && t.halt.save && t.halt.phase == .stopped && !t.retired)) (.preemptSave l.lid 0 0 0))
  ++ s.dies.flatMap (fun e => (e.2.rota.filter (fun r => r.2.bflags.getLsbD 0)).map (fun r => Turn.event (.teamDispatch e.1 r.1)))

/-- Saved teams return to the first die and core that take them (R443). -/
def State.restoreTurns (s : State) : List Turn :=
  s.saved.flatMap (fun v =>
    if v.team.plot.headD v.team.uid ≠ v.team.uid then []
    else
      let vs := s.saved.filter (fun w => v.team.plot.contains w.team.uid)
      let fit (d c : Nat) : Bool := (s.placeGroup
        (fun c => decide (c < 100) && partOf s.pkg.mode (sliceOf d c) == v.team.part) d [c] (vs.map (fun w => w.team.needs))).isSome
      match [1, 2, 4, 5].findSome? (fun d =>
        if s.stopped v.team.part d v.team.hdr || s.rvsHeld d v.team.rcd then none else ((List.range 100).find? (fit d)).map (fun c => (d, c))) with
      | none => []
      | some (d, c) => [.event (.teamRestore v.team.uid d c)])

/-- What may happen in the package: periods end, clearings, conversions, invalidations and transitions are done. -/
def State.packageTurns (s : State) : List Turn :=
  openIf (decide (s.pkg.periods < s.now / 1024)) .bucketPeriod
  ++ openIf (decide (s.pkg.wWindows < s.now / 2000)) .weighbridgeWindow
  ++ (s.frames.filter (fun f => f.2.scrub)).map (fun f => Turn.event (.frameScrubDone f.1))
  ++ s.pitches.flatMap (fun e => openIf (e.2.czstat == 1) (.crateConversionDone e.1) ++ openIf e.2.inval.isSome (.invalidationDone e.1))
  ++ s.dies.flatMap (fun e => openIf e.2.rvsWant.isSome (.rvsResize e.1))
  ++ openIf (s.pkg.modeReq.any (fun r => r.phase == 1)) .modeDrainDeadline
  ++ s.pkg.purging.map (fun p => Turn.event (.purgeDone p))
  ++ openIf s.pkg.dieReq.isSome .dieEvacuationDone
  ++ openIf (s.pkg.ckpt.any (fun c => decide (c.at_ + usCycles 200000 ≤ s.now))) .ckptQuiesceDeadline
  ++ openIf (s.pkg.ckpt.isSome && s.teams.all (·.retired)) (.ckptStreamDone true)

/-- The turns open to the machine by itself; a package held in reset has none (R464). -/
def openTurns (s : State) : List Turn :=
  if s.pkg.bootHeld then []
  else s.teams.flatMap s.teamTurns ++ s.engineTurns ++ s.launchTurns ++ s.restoreTurns ++ s.packageTurns

/-- The next turn of the rotation. -/
def pickTurn (s : State) : Option Turn :=
  let ts := openTurns s
  if ts.length = 0 then none else ts[s.turn % ts.length]?

/-- Is a turn withheld: an issue slot of a quad, a sequencer, a Barrow or a Gleaner by the clamp (R411), or anything but a package
reset while the package is held in reset (R464)? -/
def withheld (s : State) (t : Turn) : Bool :=
  let clamped := s.pkg.clamp && Config.clampHolds s.tick
  match t with
  | .party _ | .event (.barrowBlock _) | .event (.sequencedReducingCopy _) | .event (.gleanerPass _) => s.pkg.bootHeld || clamped
  | .event (.packageReset _) => false
  | .event _ => s.pkg.bootHeld

/-! ### Core-issue tokens (R401, R402) -/

/-- The cycles for which an instruction holds each quad that it takes (Tables 9.12, 11.24, 19.13); `vlk` of a 64-bit type holds it for 2
and every `vcvt` for 1, where two rows of Table 9.12 would fit (DESIGN CHOICE, log 79). -/
def quadCycles (o : Opc) (t : Ty) : Nat :=
  match o with
  | .vrcp | .vrsq | .vexp2 | .vlog2 | .vsinpi | .vcospi => 4
  | .vsqrt | .vdiv => 8
  | .rsvupd | .rsvmrg | .rsvnorm => 2
  | _ => if o.code / 16 = 9 ∨ (3 ≤ o.code / 16 ∧ o.code / 16 ≤ 5 ∧ (t = .s64 ∨ t = .n64)) then 2 else 1

/-- The 128-byte lines that threads touch in a global access of field form with index field `n`. -/
def Team.linesOf (t : Team) (f : FForm) (n : BitVec 7) (idx : Nat) (hs : List Thread) : List Nat :=
  ((hs.filter (Thread.on (Form.f f).guard)).map (fun h =>
    let e : AEnv := { s := t.sreg h.row, v := h.src idx }
    (gBase t.rcd.window f e + indexOf f n (memSize f.ty) e).toNat / 128)).eraseDups

/-- The cycles for which an instruction holds one quad, whose threads are `hs`: one for each line that `ld` or `st` touches in it
(Table 11.24). -/
def Team.quadCost (t : Team) (o : Opc) (fm : Form) (idx : Nat) (hs : List Thread) : Nat :=
  match o, fm with
  | .ld, .f f => max 1 (t.linesOf f f.b idx hs).length
  | .st, .f f => max 1 (t.linesOf f f.c idx hs).length
  | _, .f f => quadCycles o f.ty
  | _, .i x => quadCycles o x.ty

/-- The threads that issue with a party of row code. -/
def Team.issuers (t : Team) (p : Party) : List Thread :=
  match p with
  | .frag _ fid => t.members fid
  | .lane _ row pos => (t.thread? row pos).toList
  | _ => []

/-- The tokens that the issue of an instruction costs, by core: a uniform instruction one for each home row, any other one for each quad
cycle (R401). The M-stream issues on no core. -/
def Team.issueCost (t : Team) (p : Party) (o : Opc) (fm : Form) (idx : Nat) : List (Nat × Nat) :=
  match p with
  | .mstream _ => []
  | .ustream _ => [(t.core, 1)]
  | _ =>
    let hs := t.issuers p
    if o.clazz = 6 then ((hs.map (·.row)).eraseDups).map (fun r => (t.coreOf r, 1))
    else
      let quad (h : Thread) : Nat × Nat := (t.coreOf h.row, ((t.lanes[h.row]?).getD 0 + h.pos) / 16)
      let qs := (hs.map quad).eraseDups
      ((qs.map (·.1)).eraseDups).map (fun c => (c, ((qs.filter (fun e => e.1 == c)).map (fun e =>
        t.quadCost o fm idx (hs.filter (fun h => quad h == e)))).sum))

/-- May a pitch pay a cost at an arbiter, as an owner or from the sublet pool (R404)? -/
def State.pays (s : State) (i x c : Nat) : Bool := decide (0 < (s.arbiter i).bucket i x) || decide (c ≤ (s.arbiter i).pool)

/-- A party's instruction issues: its pitch pays the tokens of the cores it issues on, once for an instruction that has waited; none where
it can not, and the candidate is not issued (R401). The order of the candidates of a cycle is the schedule's (log 74). -/
def State.issue (s : State) (p : Party) (i : Instr) : Option State :=
  match partyPlace s p, i.parts with
  | some (t, _, _, _, cur), some (o, fm) =>
    let cs := (t.issueCost p o fm cur.idx).map (fun e => (100 * vIndex t.die + e.1, e.2))
    if s.waited.contains p then some { s with waited := s.waited.filter (· != p) }
    else if cs.all (fun e => s.pays e.1 t.pitch e.2) then some (cs.foldl (fun s e => s.setArbiter e.1 (fun a => a.debit e.1 t.pitch e.2)) s)
    else none
  | _, _ => some s

/-- The clock goes on after a turn. -/
def clockOn (r : Host.Outcome State Fault Refusal) : Host.Outcome State Fault Refusal :=
  match r with
  | .next s => .next s.turnClock
  | r => r

end Sys2Proof.Machine
end

