-- ==== Sys2Proof/Machine/Place.lean ====
section
/-! DEFINITION. A program placed where the next step fetches it: the load of log 5. The instruction stands in a clause of its
own, behind a one-page address space of pitch 0, in a resident team whose turn is next. -/

namespace Sys2Proof.Machine

open Sys2Proof

/-- The device address of the level 0 table of the placed address space. -/
def placeRoot : Nat := 0x40000
/-- The device address of its level 1 table. -/
def placeTable : Nat := 0x80000
/-- The virtual and device address of the placed code image: within the first 512 MiB page, which maps to itself. -/
def placeCode : Nat := 0x100000

/-- The number of instructions of the placed clause: eight for `skip`, which must reach no further than its clause. -/
def placeCount (o : Option Opc) : Nat :=
  match o with
  | some .skip => 8
  | _ => 1

/-- The header of the placed team: one row of width 16, with the registers, memory and arrays a role may have. -/
def placeHdr : KHdr :=
  { ustream := true, mstream := true, width := 16, rows := 1, cregs := 120, arrays := 1, tmem := 0x1000, rowcode := 64,
    uentry := 64, mentry := 64, data := 0x1000, datalen := 0x100, codelen := 0x1000 }

/-- The placed team. -/
def placeTeam : Team :=
  let pc : DWord := BitVec.ofNat 64 (placeCode + 64)
  { uid := 0, launch := 0, team := 0, pitch := 0, part := 0, die := 1, core := 0, plot := [0], width := 16, hdr := placeHdr,
    rcd := {}, codeVA := BitVec.ofNat 64 placeCode, argp := 0, dleft := deadlineCycles 0,
    threads := (List.range 16).map (fun i => { row := 0, pos := i, fid := 0, cur := { pc := pc } }),
    frags := [{ fid := 0, cur := { pc := pc } }],
    u := { alive := true, cur := { pc := pc } },
    m := some { alive := true, cur := { pc := pc } } }

/-- The placed state: translation tables, the clause, the team, and its party's turn. -/
def placeWord (s : State) (nbits w : Nat) : State :=
  let x := w % 2 ^ nbits
  let w0 := BitVec.ofNat 32 x
  let mst := tableWordIsM w0
  let o := if mst then mOpc (wbits w0 21 8).toNat else rowOpc (wbits w0 21 8).toNat
  let n := placeCount o
  let nop : Nat := if wbits w0 30 2 = 1 then 0x40000000 else 0
  let pad := (List.range (n - 1)).flatMap (fun _ => leBytes 4 nop)
  let hdr := leBytes 4 n
  let body := leBytes 4 x ++ (if bitOf x 29 then leBytes 4 (x / 2 ^ 32) else [])
  let s1 := (s.writeN placeRoot 8 (placeTable + 1)).writeN placeTable 8 (2 ^ 3 + 2 ^ 2 + 2 + 1)
  let s2 := s1.writeBytes (placeCode + 64) (hdr ++ body ++ pad)
  let s3 := s2.setPitch 0 (fun p => { p with troot := BitVec.ofNat 64 placeRoot })
  let rcd : Launch := { lid := 0, pitch := 0, rcd := {}, hdr := placeHdr, chit := { addr := 0 }, st := .ready, width := 16, next := 1 }
  { s3 with launches := s3.launches ++ [rcd],
            teams := s3.teams ++ [placeTeam],
            agenda := [.party (if mst then .mstream 0 else .frag 0 0)] }

end Sys2Proof.Machine
end

