-- ==== Sys2Proof/Machine/Step.lean ====
section
/-! DEFINITION. One step: the next turn of the agenda, or of the rotation when the agenda is empty (log 1). -/

namespace Sys2Proof.Machine

open Sys2Proof

/-- One turn: an event happens, or, after the group operations of its team that can act (R327), a party is brought to its next
instruction and issues it, where its pitch pays for that (R401). -/
def runTurn (t : Turn) (s : State) : Host.Outcome State Fault Refusal :=
  if withheld s t then .next s
  else
  match t with
  | .event i => if i.parts.isSome then .next s else exec i { s with cur := none }
  | .party p =>
    match prepare (s.actDue (partyUid p)) p with
    | .run i s' =>
      match s'.issue p i with
      | some s'' => exec i { s'' with cur := some p }
      | none => .next s'
    | .stay s' => .next s'

/-- One step of the machine: the deadlines that the clock has passed are taken (R83), one turn is run, and the clock goes on. -/
def step (s : State) : Host.Outcome State Fault Refusal :=
  match s.agenda with
  | t :: rest => clockOn (runTurn t { s.expireAll with agenda := rest })
  | [] =>
    match pickTurn s with
    | some t => clockOn (runTurn t { s.expireAll with turn := s.turn + 1 })
    | none => clockOn (.next { s.expireAll with turn := s.turn + 1 })

/-- A state whose very next step fetches and runs the instruction whose bits are `w` (log 5). -/
def State.withFetchWord (s : State) (nbits w : Nat) : State := placeWord s nbits w

end Sys2Proof.Machine
end

