-- ==== Sys2Proof/Machine/MemModel.lean ====
section
/-! DEFINITION. The memory model of R247 to R287: executions of any number of parties, as events with their orders, and which of
them R260 allows. The machine of Step.lean makes one event after another and reads what was written last (log 2); this file says
what the spec allows beyond that. -/

namespace Sys2Proof.Machine

open Sys2Proof

/-! ### Parties and events (R247 to R250) -/

/-- A location (R249): a byte of global memory by its key (Machine/Ops.lean), or of a team's memory. Two virtual addresses of one
physical byte are one location. -/
structure Loc where
  team : Option Nat
  key  : Nat
  deriving DecidableEq, Repr

/-- A granule of a team's memory. -/
structure Gran where
  team : Nat
  g    : Nat
  deriving DecidableEq, Repr

/-- The kinds of party (R247). The reads of the ray unit and of the light-tree walkers belong to the thread. -/
inductive MKind where
  | thread | ustream | mstream | engine | system | host
  deriving DecidableEq, Repr

/-- A party. Of an engine operation: `issuer` is the number of the party that issued it, and its places are that party's. `fork` is the
event that forked the party: the issue of an engine operation, the `launch` of a child's team (R268, R274). `isFetch` and `isDrain` name
the engine operations that have no chit (R271, R273). A launch's scheduling is a party of its own, of kind `system`, with `isSched`
(R284, R396). -/
structure MParty where
  kind    : MKind
  issuer  : Nat := 0
  row     : Nat := 0
  team    : Option Nat := none
  plot    : Option Nat := none
  twin    : Bool := false
  launch  : Option Nat := none
  device  : Nat := 0
  die     : Nat := 1
  meshRow : Nat := 0
  isFetch : Bool := false
  isDrain : Bool := false
  isSched : Bool := false
  fork    : Option Nat := none
  deriving DecidableEq, Repr

/-- What kind of access an event makes, as far as Table 13.1 and the rules of its instruction tell the units of it apart: any other one; a
read or write of an `mrg` (R343); a query's saved image (R366); a `bred` element update; the read of a Barrow descriptor (R233). -/
inductive MAccess where
  | plain | merge | image | element | descriptor
  deriving DecidableEq, Repr

/-- The dispatch of a team: its place (R273, R284). -/
structure MDispatch where
  team    : Nat
  die     : Nat
  meshRow : Nat
  deriving DecidableEq, Repr

/-- What one event hands to another: the n-th entry of a queue of a team, mq0 to mq3 as 8 to 11 (R232); system software's reply to a
service request (R473); an emitted record, by its number (R347, R348). -/
inductive MHand where
  | entry (team q n : Nat)
  | reply (tag : Nat)
  | record (n : Nat)
  deriving DecidableEq, Repr

/-- A synchronisation event of R248 but for the changes of full/empty bits. Phases of a rendezvous point are numbered from 0 over the
team's life: an arrival by the phase in which it counts, a wait or test by how many phases it observes as complete (R70 to R72). -/
inductive MSync where
  | arrive (team point phase : Nat)
  | observe (team point phases : Nat)
  | give (h : MHand)
  | take (h : MHand)
  deriving DecidableEq, Repr

/-- An event (R248). `by_` are its parties: one, or the members of a home row for a uniform access, or none for an initial write (R249).
An event that reads and writes is a read-modify-write; `fence` marks a fence and `sync` what a synchronisation event does. `access` is the
kind of its access, and `issue` numbers the issue of the instruction that makes it, where several events of one are told together (R210,
R343; log 82). `rel` and `acq` are the scopes at which it releases and acquires (R255), `sc` that of a fence of kind `.sc` (R259). `upto` is
the end of an engine's write in its operation's order, `viaPlot` marks one through the plot space (R238), `chit` the DONE and STATUS of a
chit write and `doneAt` the bytes of its DONE (R241, R244), `sets` marks the update of a sequence word (R239), `final` the
launch whose last chit write this is and `chsys` its CHSYS (R275, R391). `fills` and `empties` are the bits it changes, `clr` when it is an
`fe.clr`; `full` and `void` the bits it observes, `idle` those that an `fe.tst` finds empty (R276, R277). `done` lists the operations
without a chit whose end comes before it: a `fetch` whose destination is written (R273), a drain that an `mfence` has waited for (R302).
`cached` tells by which cache policy its page is mapped, where both are in use (R281); `cinv` stands for R273, `dispatch` is the team that
is dispatched (R273, R284). -/
structure MEvent where
  by_      : List Nat
  reads    : List Loc := []
  writes   : List Loc := []
  access   : MAccess := .plain
  issue    : Option Nat := none
  fence    : Bool := false
  sync     : List MSync := []
  rel      : Option Nat := none
  acq      : Option Nat := none
  sc       : Option Nat := none
  upto     : Nat := 0
  viaPlot  : Bool := false
  chit     : Option (Nat × Nat) := none
  doneAt   : List Loc := []
  sets     : Bool := false
  final    : Option Nat := none
  chsys    : Bool := false
  fills    : List Gran := []
  empties  : List Gran := []
  clr      : Bool := false
  full     : List Gran := []
  void     : List Gran := []
  idle     : List Gran := []
  done     : List Nat := []
  cached   : Option Bool := none
  cinv     : Bool := false
  dispatch : Option MDispatch := none
  deriving DecidableEq, Repr

/-- An execution: parties and events by number, in an order in which each party issues its own; reads-from and coherence order
(R252); the order S of the `.sc` fences (R259); the order of the changes of each full/empty bit, and the change that an
observation sees (R276); the order in which writes to team memory become visible (R261). -/
structure MemExec where
  parties : List MParty
  events  : List MEvent
  rf      : Nat → Loc → Nat
  co      : Loc → List Nat
  sc      : List Nat
  fo      : Gran → List Nat
  sees    : Nat → Gran → Nat
  visible : List Nat

/-- A party by number. -/
def MemExec.party (x : MemExec) (p : Nat) : MParty := x.parties.getD p { kind := .system }
/-- An event by number. -/
def MemExec.ev (x : MemExec) (e : Nat) : MEvent := x.events.getD e { by_ := [] }
/-- The party that an event is told by. -/
def MemExec.agent (x : MemExec) (e : Nat) : Nat := (x.ev e).by_.headD 0

/-- Does an event look at a bit? -/
def MEvent.looks (e : MEvent) (g : Gran) : Prop := g ∈ e.full ∨ g ∈ e.void ∨ g ∈ e.idle
/-- A read-modify-write of a location. -/
def MEvent.isRmw (e : MEvent) (l : Loc) : Bool := e.reads.contains l && e.writes.contains l

/-- One stands before the other in a list. -/
def before (o : List Nat) (a b : Nat) : Prop := ∃ i j : Nat, i < j ∧ o[i]? = some a ∧ o[j]? = some b

/-! ### Program order and scopes (R251, R253, R254) -/

/-- Two accesses of one `mrg`, which are unordered (R343). -/
def MEvent.merged (e f : MEvent) : Bool := e.access == .merge && f.access == .merge && e.issue == f.issue

/-- Program order: issue order of a thread or stream; of an engine operation only the chit writes are placed, each after the writes below
its DONE; of a host, posted writes, and reads that observe a release, before what follows them (R284, R285). -/
def MemExec.po (x : MemExec) (e f : Nat) : Prop :=
  ∃ p, p ∈ (x.ev e).by_ ∧ p ∈ (x.ev f).by_ ∧
    match (x.party p).kind with
    | .engine => (x.ev e).chit = none ∧ (x.ev e).writes ≠ [] ∧ ∃ d, (x.ev f).chit = some d ∧ (x.ev e).upto ≤ d.1
    | .host => e < f ∧ f < x.events.length ∧ (((x.ev e).reads = [] ∧ (x.ev e).writes ≠ []) ∨ (x.ev e).acq.isSome = true)
    | _ => e < f ∧ f < x.events.length ∧ (x.ev e).merged (x.ev f) = false

/-- Does the Row instance of party `a` hold `b` (Table 13.2)? -/
def MemExec.inRow (x : MemExec) (a b : Nat) : Bool :=
  let o := if (x.party a).kind = .engine then (x.party a).issuer else a
  if (x.party o).kind = .thread then
    (x.party b).kind == .thread && (x.party b).team == (x.party o).team && (x.party b).row == (x.party o).row
  else b == o

/-- The narrowest scope whose instance of `a` holds `b`, by the codes of Table 11.5 (R254). -/
def MemExec.common (x : MemExec) (a b : Nat) : Nat :=
  let p := x.party a
  let q := x.party b
  if p.kind = .host ∨ q.kind = .host then 5
  else if x.inRow a b then 0
  else if p.team.isSome && p.team == q.team then 1
  else if p.plot.isSome && p.plot == q.plot then 2
  else if p.device = q.device then 3 else 4

/-- A release of scope `r` at event `e` and an acquire of scope `q` at event `f` are scope-matched (R254). -/
def MemExec.matched (x : MemExec) (e r f q : Nat) : Prop :=
  x.common (x.agent e) (x.agent f) ≤ r ∧ x.common (x.agent e) (x.agent f) ≤ q

/-! ### Synchronisation and happens-before (R256 to R259, R268 to R277) -/

/-- The release sequence of a write at a location (R256). -/
inductive MemExec.RelSeq (x : MemExec) (l : Loc) (w : Nat) : Nat → Prop
  | head : MemExec.RelSeq x l w w
  | rmw (u : Nat) : (x.ev u).isRmw l = true → MemExec.RelSeq x l w (x.rf u l) → MemExec.RelSeq x l w u

/-- The write that carries a release: the event itself, or one after a release fence. -/
def MemExec.carries (x : MemExec) (e w : Nat) : Prop := w = e ∨ ((x.ev e).fence = true ∧ x.po e w)
/-- The read that brings an acquire: the event itself, or one before an acquire fence. -/
def MemExec.brings (x : MemExec) (r f : Nat) : Prop := r = f ∨ ((x.ev f).fence = true ∧ x.po r f)

/-- Synchronises-with, by a read from a release sequence (R257). -/
def MemExec.sw (x : MemExec) (e f : Nat) : Prop :=
  ∃ a b w r l, (x.ev e).rel = some a ∧ (x.ev f).acq = some b ∧ x.matched e a f b ∧ x.carries e w ∧ x.brings r f
    ∧ l ∈ (x.ev w).writes ∧ l ∈ (x.ev r).reads ∧ x.RelSeq l w (x.rf r l)

/-- What an arrival or a handing over gives to another synchronisation event: every arrival of a phase to what observes its completion
(R72), what is handed over to what takes it (R232, R347, R473). -/
def MSync.meets (a b : MSync) : Bool :=
  match a, b with
  | .arrive t p k, .observe t' p' n => t == t' && p == p' && decide (k < n)
  | .give h, .take h' => h == h'
  | _, _ => false

/-- Synchronises-with of rendezvous, queues, replies and emitted records (R257). -/
def MemExec.meets (x : MemExec) (e f : Nat) : Prop := ∃ a ∈ (x.ev e).sync, ∃ b ∈ (x.ev f).sync, a.meets b = true

/-- The join of a whole engine operation: an acquire that reads its chit write of STATUS 1 (R269). What lies below the DONE of another
chit write, also one of STATUS 2, is joined through program order and the chit write's release (R270). -/
def MemExec.joins (x : MemExec) (e f : Nat) : Prop :=
  ∃ j a b r l d p, (x.ev j).chit = some (d, 1) ∧ (x.ev j).rel = some a ∧ (x.ev f).acq = some b ∧ x.matched j a f b ∧ x.brings r f
    ∧ l ∈ (x.ev j).writes ∧ l ∈ (x.ev r).reads ∧ x.RelSeq l j (x.rf r l)
    ∧ p ∈ (x.ev e).by_ ∧ p ∈ (x.ev j).by_ ∧ (x.party p).kind = .engine

/-- The join of an operation without a chit, once it has ended: a `fetch` when its destination is written, a drain when it has written its
granules and an `mfence` has waited for it (R271, R273, R302). -/
def MemExec.ends (x : MemExec) (e f : Nat) : Prop := ∃ p ∈ (x.ev f).done, p ∈ (x.ev e).by_

/-- The dispatch of a team, with all that its scheduling has acquired, comes before every event of the team (R284, R347, R396). -/
def MemExec.starts (x : MemExec) (e f : Nat) : Prop :=
  ∃ d, (x.ev e).dispatch = some d ∧ ∃ p ∈ (x.ev f).by_, (x.party p).team = some d.team

/-- The fork of an engine operation and of a child launch (R268, R274). -/
def MemExec.forks (x : MemExec) (e f : Nat) : Prop := ∃ p, p ∈ (x.ev f).by_ ∧ (x.party p).fork = some e

/-- Every event of a launch comes before the final write of its chit (R275). -/
def MemExec.closes (x : MemExec) (e f : Nat) : Prop := ∃ k p, (x.ev f).final = some k ∧ p ∈ (x.ev e).by_ ∧ (x.party p).launch = some k

/-- The edges of full/empty bits (R277): a fill and what observes it, and the `.fc` and the filler that its emptying lets go on. -/
def MemExec.bits (x : MemExec) (e f : Nat) : Prop :=
  ∃ g, x.sees f g = e ∧
    ((g ∈ (x.ev f).full ∧ g ∈ (x.ev e).fills ∧ ∃ a b, (x.ev e).rel = some a ∧ (x.ev f).acq = some b ∧ x.matched e a f b)
     ∨ (g ∈ (x.ev f).void ∧ g ∈ (x.ev e).empties ∧ (x.ev e).clr = false))

/-- The SC edges (R259). -/
def MemExec.scEdge (x : MemExec) (e f : Nat) : Prop :=
  ∃ a b, before x.sc e f ∧ (x.ev e).sc = some a ∧ (x.ev f).sc = some b ∧ x.matched e a f b

/-- The edges of which happens-before is the transitive closure (R258). -/
def MemExec.edge (x : MemExec) (e f : Nat) : Prop :=
  x.po e f ∨ x.sw e f ∨ x.joins e f ∨ x.forks e f ∨ x.closes e f ∨ x.bits e f ∨ x.scEdge e f ∨ x.meets e f ∨ x.ends e f ∨ x.starts e f

/-- Happens-before (R258). -/
def MemExec.hb (x : MemExec) : Nat → Nat → Prop := Relation.TransGen x.edge

/-! ### What is allowed (R250, R252, R259 to R261, R273, R276, R281) -/

/-- Does an engine operation reach another device's memory (R241)? -/
def MemExec.fabric (x : MemExec) (p : Nat) : Prop :=
  ∃ e l, p ∈ (x.ev e).by_ ∧ (l ∈ (x.ev e).reads ∨ l ∈ (x.ev e).writes) ∧ l.team = none ∧ 2 ^ 61 ≤ l.key

/-- The events release and acquire as Table 13.3 and the rules of each give. -/
def MemExec.marked (x : MemExec) : Prop :=
  -- R241, R270: every chit write of an engine operation, whatever its STATUS
  (∀ e p, (x.ev e).chit.isSome = true → p ∈ (x.ev e).by_ → (x.party p).kind = .engine →
    (x.fabric p → (x.ev e).rel = some 4) ∧ (¬ x.fabric p → (x.ev e).rel = some 3))
  -- R275, R391
  ∧ (∀ e, (x.ev e).final.isSome = true → (x.ev e).rel = some (if (x.ev e).chsys then 5 else 3))
  -- R239
  ∧ (∀ e, (x.ev e).sets = true → (x.ev e).rel = some 3)
  -- R238, R271: the granules that Barrows and drains fill
  ∧ (∀ e p, ∀ g ∈ (x.ev e).fills, p ∈ (x.ev e).by_ → (x.party p).kind = .engine →
      (x.ev e).rel = some (if (x.ev e).viaPlot then 2 else 1) ∧ ((x.party p).team ≠ some g.team → (x.ev e).viaPlot = true))
  -- R213, R216, R278: other fills, and what observes a bit full
  ∧ (∀ e, (x.ev e).fills ≠ [] → (x.ev e).by_ ≠ [] → ∃ n, (x.ev e).rel = some n ∧ 1 ≤ n)
  ∧ (∀ e, (x.ev e).full ≠ [] → ∃ n, (x.ev e).acq = some n ∧ 1 ≤ n)
  -- R284: a host's atomic releases at system scope; R285: a host's read that observes such a release
  ∧ (∀ e p l, p ∈ (x.ev e).by_ → (x.party p).kind = .host → (x.ev e).isRmw l = true → (x.ev e).rel = some 5)
  ∧ (∀ e p l w a, p ∈ (x.ev e).by_ → (x.party p).kind = .host → l ∈ (x.ev e).reads → x.RelSeq l w (x.rf e l) → x.carries a w →
      (x.ev a).rel = some 5 → (x.ev e).acq = some 5)
  -- R284: scheduling's read of what a host's atomic has published
  ∧ (∀ e p l w a q, p ∈ (x.ev e).by_ → (x.party p).isSched = true → l ∈ (x.ev e).reads → x.RelSeq l w (x.rf e l) → x.carries a w →
      q ∈ (x.ev a).by_ → (x.party q).kind = .host → (x.ev a).rel = some 5 → (x.ev e).acq = some 5)
  -- R302: an `mfence` comes after the drains issued before it
  ∧ (∀ f p g, (x.ev f).fence = true → (x.party p).isDrain = true → (x.party p).fork = some g → x.po g f → p ∈ (x.ev f).done)

/-- What is handed over is handed over once, and taken only then (R74, R232). -/
def MemExec.handed (x : MemExec) : Prop :=
  (∀ f h, .take h ∈ (x.ev f).sync → ∃ e, .give h ∈ (x.ev e).sync)
  ∧ ∀ e f h, .give h ∈ (x.ev e).sync → .give h ∈ (x.ev f).sync → e = f

/-- Threads of one load read one location as one event (R210): each reads the same write (DEDUCED, log 82). -/
def MemExec.asOne (x : MemExec) : Prop :=
  ∀ q r l, (x.ev q).issue.isSome = true → (x.ev q).issue = (x.ev r).issue → (x.ev q).access = .plain → (x.ev q).writes = [] →
    (x.ev q).full = [] → (x.ev r).full = [] → (x.ev r).access = .plain → (x.ev r).writes = [] →
    l ∈ (x.ev q).reads → l ∈ (x.ev r).reads → x.rf q l = x.rf r l

/-- The orders are orders of what they order, with the initial write first (R249, R252), and the events are marked as their rules give. -/
def MemExec.formed (x : MemExec) : Prop :=
  (∀ l, (x.co l).Nodup ∧ (∀ w, w ∈ x.co l ↔ w < x.events.length ∧ l ∈ (x.ev w).writes) ∧ ∀ w ∈ (x.co l).head?, (x.ev w).by_ = [])
  ∧ (∀ r l, l ∈ (x.ev r).reads → x.rf r l ∈ x.co l)
  ∧ x.sc.Nodup ∧ (∀ f, f ∈ x.sc ↔ f < x.events.length ∧ (x.ev f).sc.isSome = true)
  ∧ x.visible.Nodup ∧ (∀ w, w ∈ x.visible ↔ w < x.events.length ∧ ∃ l ∈ (x.ev w).writes, l.team.isSome = true)
  ∧ (∀ g, (x.fo g).Nodup ∧ ∀ e, e ∈ x.fo g ↔ e < x.events.length ∧ (g ∈ (x.ev e).fills ∨ g ∈ (x.ev e).empties))
  ∧ (∀ f g, (x.ev f).looks g → x.sees f g ∈ x.fo g)
  ∧ x.marked ∧ x.handed ∧ x.asOne

/-- Is the event a `fetch`'s (R273)? -/
def MemExec.isFetch (x : MemExec) (r : Nat) : Bool := (x.party (x.agent r)).isFetch

/-- The scope from which on an acquire removes a line that the reader may hold (Table 13.4, R281, R282). -/
def MemExec.lineScope (x : MemExec) (r : Nat) (l : Loc) : Nat :=
  let p := x.party (x.agent r)
  if 2 ^ 61 ≤ l.key ∨ homeDie l.key ≠ p.die then 3 else if p.twin then 1 else 2

/-- May a cache hold a line of the location: one of device memory or of another device's, not of the RVS or of a host (R27, R282, R283,
R379)? -/
def Loc.held (l : Loc) : Bool := l.team == none && (decide (l.key < 0x9000000000) || decide (2 ^ 61 ≤ l.key))

/-- A read through the cached mapping is not bound by a write through the other until the reading party acquires after that write, or
after a read that has seen it (R281). -/
def MemExec.stale (x : MemExec) (r : Nat) (l : Loc) (w : Nat) : Prop :=
  (x.ev r).cached = some true ∧ (x.ev w).cached = some false ∧ l.held = true
  ∧ ¬ ∃ a b, (x.ev a).acq = some b ∧ x.lineScope r l ≤ b ∧ x.po a r ∧
      (x.hb w a ∨ ∃ q, l ∈ (x.ev q).reads ∧ (x.rf q l = w ∨ before (x.co l) w (x.rf q l)) ∧ x.hb q a)

/-- An event that drops the lines of the reader's fetch unit: an acquire or a `cinv` by a party of its mesh row, or the dispatch of a team
on it (R273). -/
def MemExec.refreshes (x : MemExec) (a r : Nat) : Prop :=
  let p := x.party (x.agent r)
  (((∃ b, (x.ev a).acq = some b ∧ 3 ≤ b) ∨ (x.ev a).cinv = true)
    ∧ (x.party (x.agent a)).die = p.die ∧ (x.party (x.agent a)).meshRow = p.meshRow)
  ∨ ∃ d, (x.ev a).dispatch = some d ∧ d.die = p.die ∧ d.meshRow = p.meshRow

/-- Is the single-copy atomic unit of an event each aligned 4-byte word, not the whole access (Table 13.1, R343, R366)? -/
def MemExec.words (x : MemExec) (e : Nat) : Bool :=
  match (x.ev e).by_ with
  | [] => false
  | p :: _ =>
    match (x.party p).kind with
    | .thread | .ustream | .mstream => (x.ev e).access == .merge || (x.ev e).access == .image
    | .engine => (x.ev e).chit.isNone && (x.ev e).access != .element && (x.ev e).access != .descriptor
    | .host => true
    | .system => false

/-- Two bytes of an event lie in one single-copy atomic unit (R250, Table 13.1). -/
def MemExec.sameUnit (x : MemExec) (e : Nat) (l m : Loc) : Bool := !x.words e || (l.team == m.team && l.key / 4 == m.key / 4)

/-- A read sees a write at a location: it reads from it or from a later one. -/
def MemExec.reached (x : MemExec) (r : Nat) (l : Loc) (w : Nat) : Prop := x.rf r l = w ∨ before (x.co l) w (x.rf r l)

/-- A write to team memory is visible to what comes after it, to what reads it, and to what comes after that, and so on: every party sees
it from one instant on (R261). -/
def MemExec.shown (x : MemExec) : Nat → Nat → Prop :=
  Relation.TransGen (fun e f => x.edge e f ∨ ∃ l, l.team.isSome = true ∧ l ∈ (x.ev f).reads ∧ x.rf f l = e)

/-- The execution is allowed (R260), with its orders given. Items 4 and 6 of R260 say one thing of the write read and the later one. -/
def MemExec.allowed (x : MemExec) : Prop :=
  x.formed
  -- item 1
  ∧ (∀ e, ¬ x.hb e e)
  -- item 2
  ∧ (∀ l v w, v ∈ x.co l → w ∈ x.co l → x.hb v w → before (x.co l) v w)
  -- item 3
  ∧ (∀ r l, l ∈ (x.ev r).reads → ¬ x.hb r (x.rf r l))
  -- items 4 and 6
  ∧ (∀ r l w, l ∈ (x.ev r).reads → before (x.co l) (x.rf r l) w → x.hb w r → x.isFetch r = true ∨ x.stale r l w)
  -- item 5
  ∧ (∀ q r l, l ∈ (x.ev q).reads → l ∈ (x.ev r).reads → x.hb q r → before (x.co l) (x.rf r l) (x.rf q l) →
      x.isFetch r = true ∨ x.stale r l (x.rf q l))
  -- item 7
  ∧ (∀ e, ¬ Relation.TransGen (fun e f => x.edge e f ∨ ∃ l, l ∈ (x.ev f).reads ∧ x.rf f l = e) e e)
  -- item 8
  ∧ (∀ u l, (x.ev u).isRmw l = true → before (x.co l) (x.rf u l) u ∧ ∀ w, ¬ (before (x.co l) (x.rf u l) w ∧ before (x.co l) w u))
  -- item 9, of reads and of writes
  ∧ (∀ r w l m, l ∈ (x.ev r).reads → m ∈ (x.ev r).reads → l ∈ (x.ev w).writes → m ∈ (x.ev w).writes →
      x.sameUnit r l m = true → x.sameUnit w l m = true → (x.reached r l w ↔ x.reached r m w))
  ∧ (∀ v w l m, l ∈ (x.ev v).writes → m ∈ (x.ev v).writes → l ∈ (x.ev w).writes → m ∈ (x.ev w).writes →
      x.sameUnit v l m = true → x.sameUnit w l m = true → before (x.co l) v w → before (x.co m) v w)
  -- R259: S is consistent with happens-before
  ∧ (∀ e f, before x.sc e f → ¬ x.hb f e)
  -- R261: the writes to team memory become visible in one order
  ∧ (∀ l v w, l.team.isSome = true → before (x.co l) v w → before x.visible v w)
  ∧ (∀ v w, v ∈ x.visible → w ∈ x.visible → x.shown v w → before x.visible v w)
  ∧ (∀ r l v w, l.team.isSome = true → l ∈ (x.ev r).reads → v ∈ x.co l → (v = w ∨ before x.visible v w) → x.shown w r →
      x.isFetch r = true ∨ ¬ before (x.co l) (x.rf r l) v)
  -- R273: what a `fetch` does not read
  ∧ (∀ r l w a, x.isFetch r = true → l ∈ (x.ev r).reads → before (x.co l) (x.rf r l) w → x.hb w a → x.hb a r → ¬ x.refreshes a r)
  -- R214, R276: the changes of a bit are consistent with happens-before; an observation sees the state that the change it sees left, and
  -- one that changes the bit itself follows that change at once
  ∧ (∀ g e f, e ∈ x.fo g → f ∈ x.fo g → x.hb e f → before (x.fo g) e f)
  ∧ (∀ f g, (g ∈ (x.ev f).full → g ∈ (x.ev (x.sees f g)).fills)
      ∧ (g ∈ (x.ev f).void ∨ g ∈ (x.ev f).idle → g ∈ (x.ev (x.sees f g)).empties))
  ∧ (∀ f g, (x.ev f).looks g → f ∈ x.fo g →
      before (x.fo g) (x.sees f g) f ∧ ∀ e, ¬ (before (x.fo g) (x.sees f g) e ∧ before (x.fo g) e f))
  -- R276, R277: nor does an observation miss a change that happens before it, or see one that happens after it
  ∧ (∀ f g, (x.ev f).looks g → ¬ x.hb f (x.sees f g) ∧ ∀ e, before (x.fo g) (x.sees f g) e → ¬ x.hb e f)
  -- R277: what observes a bit full and reads what the fill wrote reads that or later data
  ∧ (∀ f g l, g ∈ (x.ev f).full → l ∈ (x.ev (x.sees f g)).writes → l ∈ (x.ev f).reads → x.reached f l (x.sees f g))
  -- R244: a reader that has read DONE in a chit sees the bytes below it, whether or not it acquires
  ∧ ∀ q r w j p d k l m, (x.ev j).chit = some (d, k) → l ∈ (x.ev j).doneAt → l ∈ (x.ev q).reads → x.rf q l = j → x.po q r →
      p ∈ (x.ev j).by_ → p ∈ (x.ev w).by_ → (x.party p).kind = .engine → (x.ev w).chit = none → (x.ev w).upto ≤ d →
      m ∈ (x.ev w).writes → m ∈ (x.ev r).reads → x.reached r m w

/-! ### One event after another -/

/-- Every edge that the program itself gives goes forward: program order, forks, ends, dispatches, and the meetings of R72, R232, R347 and
R473; a chit write of STATUS 1 comes after every event of its operation. -/
def MemExec.inOrder (x : MemExec) : Prop :=
  (∀ e f, x.po e f ∨ x.forks e f ∨ x.closes e f ∨ x.meets e f ∨ x.ends e f ∨ x.starts e f → e < f)
  ∧ ∀ e j p d, (x.ev j).chit = some (d, 1) → p ∈ (x.ev e).by_ → p ∈ (x.ev j).by_ → (x.party p).kind = .engine → e ≤ j

/-- The events happen one after another: every order is the order of their numbers, every read takes what was written last, every
observation sees the last change (log 2). -/
def MemExec.sequential (x : MemExec) : Prop :=
  x.formed ∧ x.inOrder
  ∧ (∀ l, (x.co l).Pairwise (· < ·)) ∧ x.sc.Pairwise (· < ·) ∧ x.visible.Pairwise (· < ·) ∧ (∀ g, (x.fo g).Pairwise (· < ·))
  ∧ (∀ r l, l ∈ (x.ev r).reads → x.rf r l < r ∧ ∀ w ∈ x.co l, w < r → w ≤ x.rf r l)
  ∧ (∀ f g, (x.ev f).looks g → x.sees f g < f ∧ ∀ e ∈ x.fo g, e < f → e ≤ x.sees f g)
  ∧ ∀ f g, (g ∈ (x.ev f).full → g ∈ (x.ev (x.sees f g)).fills)
      ∧ (g ∈ (x.ev f).void ∨ g ∈ (x.ev f).idle → g ∈ (x.ev (x.sees f g)).empties)

/-! ### The orderings of the instructions (R209, R213, R216, R232, R72, Table 13.3) -/

/-- The scopes at which an instruction releases and acquires, and that of its `.sc` fence. -/
structure Orders where
  rel : Option Nat := none
  acq : Option Nat := none
  sc  : Option Nat := none
  deriving DecidableEq, Repr

/-- The orderings of an instruction of field form; `j` is the scope of the chit write that `bwait` or `bpoll` reads, `r` the value that the
instruction reads or writes where its acquire hangs on that: the bit of `fe.tst`, the predicate of `qtry` and `rdvtest`, the STATUS of
`bpoll`. -/
def ordersOf (o : Opc) (f : FForm) (j r : Nat) : Orders :=
  match o with
  | .ld => { acq := scopeIf (f.m 4 2 != 0) (f.m 1 3), sc := scopeIf (f.m 4 2 == 2) (f.m 1 3) }
  | .st => { rel := scopeIf (f.m 4 2 != 0) (f.m 1 3), sc := scopeIf (f.m 4 2 == 2) (f.m 1 3) }
  | .ldt | .ldp => { acq := feScope f, sc := scopeIf (f.m 4 2 == 2) (f.m 0 2) }
  | .stt | .stp => { rel := feScope f, sc := scopeIf (f.m 4 2 == 2) (f.m 0 2) }
  | .atom | .cas | .atomt | .cast | .atomp =>
    { rel := scopeIf (decide (2 ≤ f.m 3 2)) (f.m 0 3), acq := scopeIf (f.m 3 2 == 1 || f.m 3 2 == 3) (f.m 0 3) }
  | .fence | .mfence =>
    { rel := scopeIf (f.m 3 2 != 0) (f.m 0 3), acq := scopeIf (f.m 3 2 != 1) (f.m 0 3), sc := scopeIf (f.m 3 2 == 3) (f.m 0 3) }
  | .fe =>
    let s := if f.mb 2 then 2 else 1
    { rel := scopeIf (f.m 3 3 == 1) s, acq := scopeIf ((f.m 3 3 == 2 && r == 1) || f.m 3 3 == 3) s }
  | .qpush | .rdvarr | .marr => { rel := some 1 }
  | .qpop | .mqpop | .rdvwait | .mwait => { acq := some 1 }
  | .qtry | .rdvtest => { acq := scopeIf (r == 1) 1 }
  | .bwait => { acq := some j }
  | .bpoll => { acq := scopeIf (r == 1 || r == 3 || r == 4) j }
  -- R278: as a `.fw` or `.fc` load, where team memory is read
  | .mast | .mmaskld | .mmasp => { acq := some 1 }
  | .mwb => { acq := scopeIf (f.mb 3) 1 }
  | .mscl => { acq := scopeIf (f.m 2 2 != 3) 1 }
  -- R348
  | .emit => { rel := some 3 }
  | _ => {}

/-- The events of an access with its orderings: an `ld.sc` is a `fence.sc` and then the load, an `st.sc` the store and then a
`fence.sc` (R259). -/
def Orders.events (o : Orders) (e : MEvent) : List MEvent :=
  let access : MEvent := { e with rel := o.rel, acq := o.acq }
  match o.sc with
  | none => [access]
  | some s =>
    let fence : MEvent := { by_ := e.by_, fence := true, rel := some s, acq := some s, sc := some s }
    if e.fence then [{ access with sc := some s }] else if e.reads.isEmpty then [access, fence] else [fence, access]

/-- The orderings of an instruction of either form; those of an immediate form, `slk` and `vlk` among them, order nothing. -/
def ordersIn (o : Opc) (fm : Form) (j r : Nat) : Orders :=
  match fm with
  | .f f => ordersOf o f j r
  | .i _ => {}

/-- The kind of the accesses of an instruction. -/
def accessOf (o : Opc) : MAccess :=
  match o with
  | .mrg => .merge
  | .rqsave | .rqload => .image
  | _ => .plain

/-- Are the events of an instruction told together: the reads of one load (R210), the accesses of one `mrg` (R343)? -/
def together (o : Opc) : Bool :=
  match o with
  | .ld | .ldt | .ldp | .mrg => true
  | _ => false

/-- What one thread or stream does in an instruction: its party, its home row, whether its guard is true, its accesses (one; several for
an `mrg` or the reads of a traversal), and the value of `ordersOf`. -/
structure MDid where
  party : Nat
  row : Nat := 0
  guard : Bool := true
  accesses : List MEvent
  val : Nat := 0

/-- The events of the `n`-th issue of an instruction (R248): one for each thread whose guard is true, or, for a uniform access in row code,
one for each home row that executes it, in the program order of every member that takes part; none for a thread whose guard is false.
Threads of one load that read one location, by R210 one event, are an event each that reads the same write (DEDUCED, log 82). -/
def instrEvents (n : Nat) (o : Opc) (fm : Form) (j : Nat) (ds : List MDid) : List MEvent :=
  let on := ds.filter (·.guard)
  let fence := o == .fence || o == .mfence
  let of (d : MDid) (ps : List Nat) : List MEvent := d.accesses.flatMap (fun a => (ordersIn o fm j d.val).events
    { a with by_ := ps, fence := fence, access := accessOf o, issue := if together o then some n else none })
  if o.clazz = 6 then
    ((on.map (·.row)).eraseDups).flatMap (fun r =>
      match on.filter (fun d => d.row == r) with
      | [] => []
      | d :: ms => of d ((d :: ms).map (·.party)))
  else on.flatMap (fun d => of d [d.party])

/-- A sent `sysc` of a U-stream, or of the members `ps` of a home row that take part, whose single request it is (R166, R177): the writing
of its record, a release, and the delivery of its reply, an acquire, both at device scope (R473). -/
def syscEvents (ps : List Nat) (tag : Nat) (record : List Loc) : List MEvent :=
  [{ by_ := ps, writes := record, rel := some 3 }, { by_ := ps, acq := some 3, sync := [.take (.reply tag)] }]

/-- A chit write of an engine operation that reaches, or does not reach, another device: 16 bytes, whose first eight are DONE (R241). -/
def chitEvent (p : Nat) (fabric : Bool) (chit : List Loc) (done status : Nat) : MEvent :=
  { by_ := [p], writes := chit, rel := some (if fabric then 4 else 3), chit := some (done, status), doneAt := chit.take 8 }

/-- A granule that a Barrow command or a drain writes through the team space, or through the plot space (R238, R271). -/
def granuleEvent (p : Nat) (plot : Bool) (data : List Loc) (g : Gran) (upto : Nat) (keep wait : Bool) : MEvent :=
  { by_ := [p], writes := data, upto := upto, viaPlot := plot, fills := if keep then [] else [g], void := if wait then [g] else [],
    rel := scopeIf (!keep) (if plot then 2 else 1) }

/-- The update of a sequence word (R239). -/
def sequenceEvent (p : Nat) (word : List Loc) (upto : Nat) : MEvent :=
  { by_ := [p], writes := word, rel := some 3, sets := true, upto := upto }

/-- The last write of a launch's completion chit, by the launch's scheduling (R275, R391). -/
def finalEvent (p : Nat) (l : Launch) (chit : List Loc) : MEvent :=
  { by_ := [p], writes := chit, rel := some l.rcd.chitScope, final := some l.lid, chsys := bitOf l.rcd.lflags.toNat 11 }

/-- What a mid-team save and a restore are to each party of the team (R286). -/
def saveEvent (p : Nat) : MEvent := { by_ := [p], fence := true, rel := some 3 }
/-- The restore's half. -/
def restoreEvent (p : Nat) : MEvent := { by_ := [p], fence := true, acq := some 3 }

/-! ### Stamps (R266). Programs cannot see them, no context image holds them, and they change no outcome of R260. -/

/-- The stamps while events happen: each die's counter, each party's vector by die, and the vector that each release carries. -/
structure Stamps where
  count   : FMap Nat := []
  vec     : FMap (FMap Nat) := []
  carried : FMap (FMap Nat) := []
  deriving DecidableEq, Repr

/-- A counter, or an entry of a vector. -/
def stampOf (v : FMap Nat) (d : Nat) : Nat := FMap.get (fun _ => 0) v d

/-- The larger entry for each die. -/
def stampMax (a b : FMap Nat) : FMap Nat := FMap.ofFn (fun _ => 0) 6 (fun d => max (stampOf a d) (stampOf b d))

/-- Does an acquire synchronise with a release (R257, R269, R277)? -/
def MemExec.synced (x : MemExec) (e f : Nat) : Prop := x.sw e f ∨ x.meets e f ∨ (x.bits e f ∧ ∃ g ∈ (x.ev f).full, x.sees f g = e)

/-- The stamps after an event; `froms` gives the releases with which an acquire synchronises. -/
def Stamps.after (x : MemExec) (froms : Nat → List Nat) (st : Stamps) (e : Nat) : Stamps :=
  let p := x.agent e
  let d := (x.party p).die
  let v0 := FMap.get (fun _ => []) st.vec p
  let v1 := if (x.ev e).acq.isSome then (froms e).foldl (fun v a => stampMax v (FMap.get (fun _ => []) st.carried a)) v0 else v0
  match (x.ev e).rel with
  | none => { st with vec := FMap.set (fun _ => []) st.vec p v1 }
  | some n =>
    let c := stampOf st.count d + if 3 ≤ n then 1 else 0
    let v2 := if 3 ≤ n then FMap.set (fun _ => 0) v1 d c else v1
    { count := FMap.set (fun _ => 0) st.count d c, vec := FMap.set (fun _ => []) st.vec p v2,
      carried := FMap.set (fun _ => []) st.carried e v2 }

/-- The stamps before event `n`. -/
def MemExec.stamps (x : MemExec) (froms : Nat → List Nat) (n : Nat) : Stamps := (List.range n).foldl (Stamps.after x froms) {}

/-- A home applies a write only after the writes of its own that the write's vector names: those before a release of its die whose stamp
the vector has reached. The vector of a release is the one it carries; `froms` are the releases that each acquire synchronises with, and
`applied` is the order in which the homes apply writes. -/
def MemExec.stamped (x : MemExec) (froms : Nat → List Nat) (applied : Nat → Nat → Prop) : Prop :=
  (∀ e a, a ∈ froms e ↔ x.synced a e)
  ∧ ∀ v w a l m, l ∈ (x.ev v).writes → m ∈ (x.ev w).writes → l.team = none → m.team = none → keyDie l.key = keyDie m.key →
    v = a ∨ x.po v a → (x.ev a).rel.any (fun n => decide (3 ≤ n)) = true →
    let d := (x.party (x.agent a)).die
    stampOf (x.stamps froms (a + 1)).count d ≤ stampOf (FMap.get (fun _ => []) (x.stamps froms (w + 1)).vec (x.agent w)) d →
    v = w ∨ applied v w

end Sys2Proof.Machine
end

