-- ==== Sys2Proof/Safety.lean ====
section
/-! DEFINITION. What the statements speak in: the invariant that every step keeps, and what it is for an instruction to
complete, with the writes that its rule gives, from a state in which its party comes to issue it. -/

namespace Sys2Proof.Machine

open Sys2Proof

/-- The invariant that every step keeps: memory is in its canonical form. -/
def State.Inv (s : State) : Prop := Memory.wf s.mem = true

/-- A party may release at a scope: it is below the domain, or every other device has acknowledged the party's writes (R461). -/
def State.acked (s : State) (p : Party) (rel : Option Nat) : Bool := !(rel.any (fun n => decide (4 ≤ n)) && s.pkg.unacked.contains p)

/-- The state after each thread whose guard is true has made the writes that `g` gives it. -/
def Ctx.writeAll (c : Ctx) (g : Thread → List RegW) : State :=
  c.s.setTeam c.t.uid (fun t => c.act.foldl (fun t h => t.commit c.md h.row h.pos (g h)) t)

/-- Row code has issued the instruction with these writes. -/
def Ctx.wrote (o : Opc) (fm : Form) (c : Ctx) (g : Thread → List RegW) : Host.Outcome State Fault Refusal :=
  .next (finishFrag o fm c (c.writeAll g) true)

/-- The state after each home row with such a thread has made the writes to its s registers, and each such thread those to its
predicates, that `g` gives the row and its lowest such thread. -/
def Ctx.writeRows (c : Ctx) (g : Nat → Thread → List RegW × List RegW) : State :=
  c.s.setTeam c.t.uid (fun t => (rowsOf c.act).foldl (fun t r =>
    match c.act.find? (fun h => h.row == r) with
    | none => t
    | some h => (c.act.filter (fun x => x.row == r)).foldl (fun t x => t.commit c.md x.row x.pos (g r h).2)
        (c.commitRow t r h (g r h).1)) t)

/-- The U-stream has issued the instruction with these writes. -/
def UCtx.wrote (o : Opc) (fm : Form) (c : UCtx) (ws : List RegW) : Host.Outcome State Fault Refusal :=
  .next (finishU o fm c.t.uid (c.s.setTeam c.t.uid (fun t => { t with u := t.u.commit c.md ws })) true true)

/-- The instruction completes in row code: when the fragment comes to issue it and no active thread fails a check, each active
thread makes the writes of `g`, and the fragment goes on. -/
def LaneSays (o : Opc) (fm : Form) (i : Instr) (ok : Ctx → Thread → Bool) (g : Ctx → Thread → List RegW) : Prop :=
  ∀ (s : State) (c : Ctx), rowStart o fm s = .go c → (∀ h ∈ c.act, ok c h = true) → exec i s = c.wrote o fm (g c)

/-- The instruction completes in row code with the state that `g` gives, when the active threads satisfy `ok`. -/
def RowSays (o : Opc) (fm : Form) (i : Instr) (ok : Ctx → Prop) (g : Ctx → State) : Prop :=
  ∀ (s : State) (c : Ctx), rowStart o fm s = .go c → ok c → exec i s = .next (finishFrag o fm c (g c) true)

/-- The same for an instruction that has placed its threads itself. -/
def RowMoves (o : Opc) (fm : Form) (i : Instr) (ok : Ctx → Prop) (g : Ctx → State) : Prop :=
  ∀ (s : State) (c : Ctx), rowStart o fm s = .go c → ok c → exec i s = .next (finishFrag o fm c (g c) false)

/-- The instruction completes in the U-stream with the state that `g` gives. -/
def UniSays (o : Opc) (fm : Form) (i : Instr) (ok : UCtx → Prop) (g : UCtx → State) : Prop :=
  ∀ (s : State) (c : UCtx), uStart o fm s = .go c → ok c → exec i s = .next (finishU o fm c.t.uid (g c) true true)

/-- The same for an instruction that has placed the U-stream itself. -/
def UniMoves (o : Opc) (fm : Form) (i : Instr) (ok : UCtx → Prop) (g : UCtx → State) : Prop :=
  ∀ (s : State) (c : UCtx), uStart o fm s = .go c → ok c → exec i s = .next (finishU o fm c.t.uid (g c) true false)

/-- A uniform instruction completes in row code, when no row of a `.det` team is split (R166) and it writes s registers
(`sdst`), and in the U-stream, with the writes that `g` gives from the s registers and predicates it reads. -/
def BothSay (o : Opc) (fm : Form) (i : Instr) (sdst : Bool) (g : (Nat → DWord) → (Nat → Bool) → List RegW × List RegW) : Prop :=
  RowSays o fm i (fun c => (sdst && rowDet c) = false) (fun c => c.writeRows (fun r h => g (c.t.sreg r) h.pred))
  ∧ ∀ (s : State) (c : UCtx), uStart o fm s = .go c →
      exec i s = c.wrote o fm ((g c.u.sreg (predOf c.u.p)).1 ++ (g c.u.sreg (predOf c.u.p)).2)

/-- The M-stream completes the instruction with the state that `g` gives, when `ok` holds. -/
def MSays (i : Instr) (ok : MCtx → Prop) (g : MCtx → State) : Prop :=
  ∀ (s : State) (c : MCtx), mStart s = .go c → ok c → exec i s = .next (finishM c.t.uid (g c) true)

/-- The sources of a vector instruction of `n` sources carry tags that type T admits (Table 5.13). -/
def fits (f : FForm) (n : Nat) (t : Ty) (c : Ctx) (h : Thread) : Bool :=
  tagOk t (f.mb 4) (c.vA f h) && (decide (n < 2) || tagOk t (f.mb 4) (c.vB f h)) && (decide (n < 3) || tagOk t (f.mb 4) (c.vC f h))

/-- The writes of typed integer arithmetic of two sources: each element's exact result, wrapped, or clamped under SAT (R185). -/
def arith2 (f : FForm) (sat : Bool) (g : Nat → Int → Int → Int) (c : Ctx) (h : Thread) : List RegW :=
  wT f.ty f.d.toNat (intLane f.ty sat (fun w a b _ => g w a b) (c.vA f h) (c.vB f h) (c.vA f h))

/-- The same of one source. -/
def arith1 (f : FForm) (sat : Bool) (g : Int → Int) (c : Ctx) (h : Thread) : List RegW :=
  wT f.ty f.d.toNat (intLane f.ty sat (fun _ a _ _ => g a) (c.vA f h) (c.vA f h) (c.vA f h))

/-- The write of a 32-bit pattern computed from the sources. -/
def bitsRes (f : FForm) (t : Tag) (g : Nat → Nat → Nat → Nat) (c : Ctx) (h : Thread) : List RegW :=
  [wV f.d.toNat (BitVec.ofNat 32 (g (c.vA f h).w.toNat (c.vB f h).w.toNat (c.vC f h).w.toNat)) t]

/-- The write of an f32 computed from the sources in the rounding mode of the instruction and the thread. -/
def floatRes (f : FForm) (g : Nat → FVal → FVal → FVal → Word) (c : Ctx) (h : Thread) : List RegW :=
  [wV f.d.toNat (g (modeOf f h) (ofF32 (c.vA f h).w) (ofF32 (c.vB f h).w) (ofF32 (c.vC f h).w)) .f32]

/-- The write of two packed elements computed from those of the sources. -/
def packedRes (f : FForm) (g : Nat → FVal → FVal → FVal → FVal) (c : Ctx) (h : Thread) : List RegW :=
  [wV f.d.toNat (BitVec.ofNat 32 (packElems f.ty ((List.range 2).map (fun i =>
    (elemFmt f.ty).round (modeOf f h) (f.mb 3)
      (g (modeOf f h) (elemReal f.ty (c.vA f h).w i) (elemReal f.ty (c.vB f h).w i) (elemReal f.ty (c.vC f h).w i)))))) (tagOf f.ty)]

/-- The s write of a uniform instruction of two sources. -/
def uniRes (f : FForm) (g : DWord → DWord → DWord) (r : Nat → DWord) (_ : Nat → Bool) : List RegW × List RegW :=
  ([wS f.d.toNat (g (r f.a.toNat) (r f.b.toNat))], [])

/-- Every check of every thread passes. -/
def noCheck (_ : Ctx) (_ : Thread) : Bool := true

/-- A cross-lane instruction completes: the writes of `g`, and SR_XMASK (R66). -/
def CrossSays (o : Opc) (f : FForm) (i : Instr) (ok : Ctx → Thread → Bool) (g : Lanes → Ctx → Thread → List RegW) : Prop :=
  RowSays o (.f f) i (fun c => ∀ h ∈ c.act, ok c h = true) (fun c =>
    (c.writeAll (g (c.lanesOf f) c)).setTeam c.t.uid (fun t =>
      t.setFrag c.fid (fun fr => { fr with xmask := (c.lanesOf f).xm })))

/-- A read of a page that is present, and of bytes that are not poisoned. -/
def State.reads (s : State) (t : Team) (va : DWord) (n : Nat) : Prop := ∃ bs k b, s.readVA t.pitch t.die va n = .ok bs k b

/-- The caches after a read by a core. -/
def State.readBy (s : State) (t : Team) (core : Nat) (va : DWord) (n : Nat) (s' : State) : State :=
  match s.readVA t.pitch t.die va n with
  | .ok _ k b => s'.fillFor t.pitch t.die core .l1 va k b false
  | _ => s'

/-- The bytes of a read. -/
def State.bytesAt (s : State) (t : Team) (va : DWord) (n : Nat) : List Byte :=
  match s.readVA t.pitch t.die va n with
  | .ok bs _ _ => bs
  | _ => []

/-- The state after each home row has read `n` bytes at its address and written its s register from them (log 13). -/
def Ctx.loadRows (c : Ctx) (va : Nat → DWord) (n d : Nat) (val : List Byte → DWord) : State :=
  ((rowsOf c.act).foldl (fun s r => c.s.readBy c.t (c.t.coreOf r) (va r) n s) c.s).setTeam c.t.uid (fun t =>
    (rowsOf c.act).foldl (fun t r =>
      match c.act.find? (fun h => h.row == r) with
      | some h => c.commitRow t r h [wS d (val (c.s.bytesAt c.t (va r) n))]
      | none => t) t)

/-- The state after the U-stream has read `n` bytes and written its s register from them. -/
def UCtx.load (c : UCtx) (va : DWord) (n d : Nat) (val : List Byte → DWord) : State :=
  (c.s.readBy c.t c.t.core va n c.s).setTeam c.t.uid (fun t =>
    { t with u := t.u.commit c.md [wS d (val (c.s.bytesAt c.t va n))] })

/-- Does an access of one piece reach its place, on key `k`? -/
def State.reaches (s : State) (t : Team) (acc : Access) (reads : Bool) (va : DWord) (n k : Nat) : Prop :=
  ∃ b, s.reach t.pitch t.die acc reads [(va, n)] = .ok [k] b

/-- A uniform store of `n` bytes by a core: the bytes, and the line that the caches then hold. -/
def State.uniStore (s : State) (t : Team) (core : Nat) (va : DWord) (n : Nat) (v : DWord) (s' : State) : State :=
  match s.reach t.pitch t.die .write false [(va, n)] with
  | .ok (k :: _) b => (s'.writeN k n v.toNat).fillFor t.pitch t.die core .l1 va k b true
  | _ => s'

/-- Request `n` of a team goes to the service ring of its die: its pitch may make it, the ring is there, its header `h` answers, it has room,
and the slot answers (R177, R473). -/
def State.ringTakes (s : State) (t : Team) (n : Nat) (h : RingHdr) : Prop :=
  n ≤ 255 ∧ (s.pitch t.pitch).svcmask.getLsbD n = true ∧ (s.die t.die).svcring ≠ 0
  ∧ s.ringMeets t.die (s.die t.die).svcring.toNat 64 true = none ∧ h = RingHdr.parse (s.bytes (s.die t.die).svcring.toNat 64)
  ∧ h.tail - h.head < h.cap ∧ s.ringMeets t.die (h.base + 32 * (h.tail % h.cap)) 32 false = none

/-- The state after the request: its record of Table 25.8 stands in its slot, TAIL has advanced, the service core of the die has been told,
and the team has the request open (R473). -/
def State.syscSent (s : State) (t : Team) (row fid d n : Nat) (arg : DWord) (h : RingHdr) : State :=
  let tag := s.pkg.nextTag
  let s1 := ((s.setPkg (fun k => { k with nextTag := tag + 1 })).put t.pitch (h.base + 32 * (h.tail % h.cap))
    (leBytes 8 tag ++ leBytes 8 arg.toNat ++ leBytes 4 t.launch ++ leBytes 4 t.team ++ leBytes 2 n ++ leBytes 1 t.pitch
      ++ leBytes 1 row ++ leBytes 1 (t.coreFor row) ++ leBytes 3 0)).put t.pitch (s.die t.die).svcring.toNat (leBytes 8 (h.tail + 1))
  ({ s1 with svc := s1.svc ++ [{ tag := tag, uid := t.uid }], outbox := s1.outbox ++ [.service t.die tag] } : State).setTeam t.uid
    (fun t => { t with syscs := t.syscs ++ [{ tag := tag, row := row, d := d, fid := fid, reply := none }] })

/-- A global access of one aligned piece completes in every active thread that passes its checks, in ascending row position. -/
def GlobalSays (o : Opc) (f : FForm) (i : Instr) (via : Via) (acc : Access) (reads : Bool) (det : Ctx → Bool) (n : Nat)
    (ok : Ctx → Thread → Bool) (va : Ctx → Thread → DWord)
    (go : Ctx → Thread → List (DWord × Nat) → List Nat → State → State × List RegW) : Prop :=
  RowSays o (.f f) i
    (fun c => det c = false ∧ ∀ h ∈ c.act, ok c h = true ∧ (va c h).toNat % n = 0 ∧ ∃ k, c.s.reaches c.t acc reads (va c h) n k)
    (fun c => c.act.foldl (fun s h =>
      match c.s.reach c.t.pitch c.t.die acc reads [(va c h, n)] with
      | .ok ks b => c.perform via (acc == .write) go h [(va c h, n)] ks b s
      | _ => s) c.s)

/-- One thread's access of team or plot memory: `go`, the change of the full/empty bit, the register writes (R212 to R215). -/
def Ctx.performLocal (c : Ctx) (w : FeWait) (go : Ctx → Thread → Nat → Nat → State → State × List RegW) (h : Thread) (uid o : Nat)
    (s : State) : State :=
  ((go c h uid o s).1.feChange w uid (o / 16) (partyNo c.t.uid (1 + h.row))).setTeam c.t.uid (fun t =>
    (t.commit c.md h.row h.pos (go c h uid o s).2).setThread h.row h.pos (fun h => { h with made := true }))

/-- An access of team or plot memory completes in every active thread, in ascending row position: at once for the forms that do not wait,
and, for the others, when every granule is as the form wants it, those that a form changes being distinct (R214). -/
def LocalSays (o : Opc) (f : FForm) (i : Instr) (w : FeWait) (det : Ctx → Bool) (ok : Ctx → Thread → Bool)
    (place : Ctx → Thread → Except Trap (Nat × Nat)) (go : Ctx → Thread → Nat → Nat → State → State × List RegW) : Prop :=
  ∀ (s : State) (c : Ctx) (at_ : Thread → Nat × Nat), rowStart o (.f f) s = .go c → (keysOf c.t.threads).Nodup → det c = false →
    (∀ h ∈ c.act, h.made = false ∧ ok c h = true ∧ place c h = .ok (at_ h)
      ∧ feDet c w (at_ h).1 ((at_ h).2 / 16) h.row = .ok () ∧ ∀ b, w.wants = some b → c.s.isFull (at_ h).1 ((at_ h).2 / 16) = b) →
    (w = .consume ∨ w = .fill → (c.act.map (fun h => ((at_ h).1, (at_ h).2 / 16))).Nodup) →
    exec i s = .next (finishFrag o (.f f) c (c.act.foldl (fun s h => c.performLocal w go h (at_ h).1 (at_ h).2 s) c.s) true)

/-- An instruction whose threads act one after another completes when each active thread is ready: `go` gives the state after a
thread's part and its register writes. -/
def SoloSays (o : Opc) (f : FForm) (i : Instr) (ok : Ctx → Thread → Prop)
    (go : Ctx → Thread → State → State × List RegW) : Prop :=
  RowSays o (.f f) i (fun c => ∀ h ∈ c.act, ok c h) (fun c => c.act.foldl (fun s h =>
    (go c h s).1.setTeam c.t.uid (fun t => t.commit c.md h.row h.pos (go c h s).2)) c.s)

/-- The engine operation's descriptor is read, and its chit may be written. -/
def State.descReady (s : State) (t : Team) (n align chitAt : Nat) (o : DWord) : Prop :=
  engineDesc s t n align chitAt o = .ok (t.bytes o.toNat n, none)

/-- A Barrow command completes its issue in every active thread, in ascending row position, and in the U-stream. -/
def BarrowSays (o : Opc) (op : BarrowOp) (f : FForm) (i : Instr) : Prop :=
  let ok (s : State) (t : Team) (a : DWord) : Prop :=
    s.descReady t 64 64 16 a ∧ (t.hdr.det = true → barrowDet op (t.bytes a.toNat 64) = false)
  RowSays o (.f f) i (fun c => ∀ h ∈ c.act, ok c.s c.t (tBase f (c.env h)))
    (fun c => c.act.foldl (fun s h =>
      s.barrowStart op f.wc.toNat c.t [(h.row, h.pos)] (c.t.coreOf h.row) (c.t.bytes (tBase f (c.env h)).toNat 64)) c.s)
  ∧ UniSays o (.f f) i (fun c => ok c.s c.t (tBase f c.env))
    (fun c => c.s.barrowStart op f.wc.toNat c.t [] c.t.core (c.t.bytes (tBase f c.env).toNat 64))

/-- The next `n` bytes that a command of no `bred` takes, from byte DONE of its order on, and the command that has taken them: `under` is the
element under way (Table 11.21, R234, R236, R242). -/
def State.takes (s : State) (t : Team) (b : Barrow) (n : Nat) (under : Option (Nat × Nat)) (bs : List Byte) (b1 : Barrow) : Prop :=
  let o := b.eng.done
  match b.op with
  | .bfill => bs = (List.range n).map (fun j => b.p2.extractLsb' (8 * ((o + j) % 8)) 8) ∧ b1 = { b with idx := none }
  | .bcp =>
    (n ≤ b.ahead.length ∧ bs = b.ahead.take n ∧ b1 = { b with idx := none })
    ∨ (b.ahead.length < n ∧ ∃ r, s.engineRead t b.ssp (b.src + BitVec.ofNat 64 (o + b.ahead.length))
          (min (64 - (o + b.ahead.length) % 64) (b.total - (o + b.ahead.length))) = (r, none)
        ∧ bs = (b.ahead ++ r).take n ∧ b1 = { b with blk := (o, b.ahead ++ r), idx := none })
  | .bgat => ∃ i, s.gatBytes t b n o n = (bs, none, i) ∧ b1 = { b with idx := i }
  | .bsct => ∃ r, s.engineRead t b.ssp (b.src + BitVec.ofNat 64 o) n = (r, none)
      ∧ bs = s.pickWords t b b.ssp .read (o / 4) (b.src + BitVec.ofNat 64 o) r ∧ b1 = { b with idx := under }
  | .btile => ∃ w mw xs, b.et.bind (fun t => tileBits t b.dn) = some (w, mw)
      ∧ xs.length = ceilDiv (8 * (o + n)) mw - 8 * o / mw
      ∧ (∀ j x, xs[j]? = some x → s.tileElem t b w mw (8 * o / mw + j) = .ok x)
      ∧ bs = leBytes n (packBits mw xs / 2 ^ (8 * o - mw * (8 * o / mw))) ∧ b1 = { b with idx := none }
  | .bred => False

/-- Bytes reach their place in the destination space: in memory, or in team memory, where the granule is empty under WE before its first
byte, and is full after its last unless KF (R238). -/
def State.lands (s : State) (t : Team) (b : Barrow) (head last : Bool) (a : DWord) (bs : List Byte) (s1 : State) : Prop :=
  (b.dsp = 0 ∧ ∃ k c, s.translate t.pitch t.die a .write = .ok k c ∧ s1 = s.put t.pitch k bs)
  ∨ (b.dsp ≠ 0 ∧ ∃ uid x, s.spacePlace t b.dsp a = .ok (uid, x)
      ∧ (b.we = true → head = true → s.isFull uid (x / 16) = false)
      ∧ s1 = s.setTeam uid (fun q =>
          if b.kf = true ∨ last = false then q.writeBytes x bs else (q.writeBytes x bs).setFull (x / 16) true))

/-- A command goes on as `b` after a quantum that left `s`: its last byte ends it with STATUS 1; at a block boundary the chit may say how
far it is (Table 11.23). -/
def State.movesOn (s : State) (b : Barrow) (r : Host.Outcome State Fault Refusal) : Prop :=
  let s1 := s.putBarrow b.eng.id (some b)
  if b.total ≤ b.eng.done ∧ b.sq = false then r = .next (barrowNow b (s1.engineChit b.eng [(b.shown, 1, 0)] 0))
  else r = .next s1 ∨ (b.eng.done % 64 = 0 ∧ r = .next (barrowNow b (s1.engineChit b.eng [(b.shown, 0, 0)] 0)))

/-- `n` elements of a `bred` are applied one after another, each once its source is read and its destination answers (R235, R239). -/
def State.applies (t : Team) : Nat → State → Barrow → State → Barrow → Prop
  | 0, s, b, s1, b1 => s1 = s ∧ b1 = b
  | n + 1, s, b, s1, b1 => b.eng.done < b.total ∧ ∃ r k c,
      s.engineRead t b.ssp (b.src + BitVec.ofNat 64 b.eng.done) b.elem = (r, none)
      ∧ s.translate t.pitch t.die (b.dst + BitVec.ofNat 64 b.eng.done) .write = .ok k c ∧ s.poisoned k b.elem = false
      ∧ State.applies t n ((s.put t.pitch k (leBytes b.elem (atomNew b.rop (b.et.getD .b32) (s.readN k b.elem) (leNat r)))).putBarrow b.eng.id
          (some { b with eng := { b.eng with done := b.eng.done + b.elem } }))
          { b with eng := { b.eng with done := b.eng.done + b.elem } } s1 b1

/-- A traversal ends, or stops at a candidate, as `q`. -/
def Walk.ends (w : Walk) (q : Query) : Prop := w = .go q ∨ w = .halt q

/-- A team with threads that act one after another, each on what the ones before it left (R351). -/
def Ctx.serve (c : Ctx) (go : Ctx → Thread → State → State × List RegW) (hs : List Thread) : State :=
  hs.foldl (fun s h => (go c h s).1.setTeam c.t.uid (fun t => t.commit c.md h.row h.pos (go c h s).2)) c.s

/-- The instruction completes when its threads are served one after another: `pre` holds of each at issue, `ok` when it is served. -/
def SeqSays (o : Opc) (f : FForm) (i : Instr) (pre : Ctx → Thread → Prop) (ok : Ctx → State → Thread → Prop)
    (go : Ctx → Thread → State → State × List RegW) : Prop :=
  RowSays o (.f f) i
    (fun c => (∀ h ∈ c.act, pre c h) ∧ ∀ l h r, c.act = l ++ h :: r → ok c (c.serve go l) h)
    (fun c => c.serve go c.act)

/-- A group operation completes its issue: each thread of the fragment that takes part (`comes`) arrives, with the arrival `a`, when it
stands in no operation of the session (at a `drlld` or `drlrst`, none but a `drlrst` that restored nothing, which it leaves), no thread of
its group stands in another one where its guard is true, and, under VER 00, what it will write finds room among the eight pending
writes (R135, R327, R442; log 21). -/
def GroupSays (o : Opc) (f : FForm) (i : Instr) (opens : Bool) (ds : Nat) (rows : Ctx → Thread → List Nat) (ok : Ctx → Thread → Prop)
    (comes : Ctx → Thread → Bool) (a : Ctx → Thread → Arrival) : Prop :=
  let left (c : Ctx) : Ctx := c.leaveRestore ds (keysOf (c.mem.filter (fun h => (h.arrival ds).isSome)))
  RowSays o (.f f) i
    (fun c => (∀ h ∈ c.mem, h.arrival ds = none ∨ opens = true ∧ c.t.idleRestore ds h = true)
      ∧ ∀ h ∈ (left c).mem, ok (left c) h ∧ (c.isOn h = true → comes (left c) h = true)
      ∧ (comes (left c) h = true →
          (c.isOn h = true → ∀ g ∈ (left c).t.threads, g.row ∈ rows (left c) h → ∀ b, g.arrival ds = some b → b.op = (a (left c) h).op)
          ∧ (c.md.delay ≠ none → h.pend.length + (a (left c) h).regs.length ≤ 8)))
    (fun c => ((left c).mem.filter (comes (left c))).foldl (fun s h => s.arrive c.t.uid f.wc.toNat c.md.delay h (a (left c) h)) (left c).s)

/-- Every live thread of a group has arrived at the same operation of a session, and none waits for a record; `h` is the first (R327). -/
def Team.arrived (t : Team) (ds : Nat) (rows : List Nat) (op : GroupOp) (h : Thread) : Prop :=
  t.thread? h.row h.pos = some h ∧ (t.groupLive rows).head? = some h
  ∧ ∀ x ∈ t.groupLive rows, ∃ b, x.arrival ds = some b ∧ b.op = op ∧ b.fault = 0

/-- A thread after its group operation: its arrival is gone, with the places of what it wrote, and its wait counter has fallen (R122, R327). -/
def Thread.past (h : Thread) (ds : Nat) : Thread :=
  match h.arrival ds with
  | none => h
  | some a =>
    { h with arr := h.arr.filter (fun b => b.ds != ds), pend := h.pend.filter (fun e => e.due != some ds)
             w := if a.wc = 7 then h.w else FMap.modify (fun _ => 0) h.w a.wc (· - 1) }

/-- A group operation has acted on team `uid`, whose threads `ks` go on: its sessions are `drills`, `wr` gives the writes made in its
registers, and nothing else has changed from `s` to `s1` (R327). -/
def State.groupDid (s s1 : State) (uid ds : Nat) (ks : List (Nat × Nat)) (drills : List Drill → List Drill) (wr : Team → Team) : Prop :=
  { s1 with teams := s.teams, inflight := s.inflight } = s
  ∧ s1.inflight = s.inflight.filter (fun i => !(i.uid == uid && i.grp == some ds && i.threads.all (fun k => ks.contains k)))
  ∧ (∀ u, u ≠ uid → s1.team? u = s.team? u)
  ∧ ∀ t, s.team? uid = some t → s1.team? uid = some { wr t with
      drills := drills t.drills
      threads := (wr t).threads.map (fun h => if (h.row, h.pos) ∈ ks then h.past ds else h) }

/-- The records of some threads go to their slots, given with the keys of their bytes; each thread is told its slot's number, and what the
wait counter counts has been done (R348). -/
def Ctx.emitted (c : Ctx) (f : FForm) (n : Nat) (nd : GNode) (ws : List (Thread × Nat × List Nat)) : State :=
  (ws.foldl (fun s w => (s.fillSlot c.t n nd (tBase f (c.env w.1)) w.2.1 w.2.2).setTeam c.t.uid (fun t =>
    t.commit c.md w.1.row w.1.pos [wV f.d.toNat (BitVec.ofNat 32 w.2.1) .n32])) c.s).count c.t.uid (keysOf (ws.map (·.1))) f.wc.toNat 0

/-- The records of the active threads wait for room (R348, R350): `op` gives what each has to place. -/
def Ctx.allWait (c : Ctx) (f : FForm) (op : Thread → LateOp) : State :=
  c.act.foldl (fun s h => s.addLate c.t.uid h.row h.pos c.md f.d.toNat f.wc.toNat c.s.nextId (op h)) c.s

/-- The launch records of some threads are accepted or rejected at once, one after another; none where one has to wait (R350). -/
def Ctx.launches (c : Ctx) (f : FForm) (va : Thread → DWord) (bs : Thread → List Byte) : List Thread → State → Option State
  | [], s => some s
  | h :: r, s =>
    match s.launchOne c.t.pitch (.thread c.t.uid h.row h.pos) (va h) (bs h) with
    | (s1, .done lid) =>
      if s.lateBy c.t.uid h.row h.pos (.launch (va h) (bs h)) then none
      else
        Ctx.launches c f va bs r ((s1.setTeam c.t.uid (fun t =>
          t.commit c.md h.row h.pos [wV f.d.toNat (BitVec.ofNat 32 lid) .n32])).count c.t.uid [(h.row, h.pos)] f.wc.toNat 0)
    | _ => none

/-- The M-stream completes the instruction, which has placed the stream itself. -/
def MMoves (i : Instr) (ok : MCtx → Prop) (g : MCtx → State) : Prop :=
  ∀ (s : State) (c : MCtx), mStart s = .go c → ok c → exec i s = .next (finishM c.t.uid (g c) false)

/-- The state with the M-stream changed. -/
def MCtx.upd (c : MCtx) (f : MStream → MStream) : State := (c.set f).s

/-- The leave of a heavy instruction is there (R305). -/
def MCtx.canPay (c : MCtx) (cost : Nat) : Prop := c.m.paid = true ∨ cost ≤ c.m.leave

/-- The context after the leave is debited. -/
def MCtx.afterPay (c : MCtx) (cost : Nat) : MCtx :=
  if c.m.paid then c else c.set (fun m => { m with leave := m.leave - cost, paid := true })

/-- Every granule of `n` bytes from byte `o` on has been read, which leaves `c1` (R296). -/
def MCtx.readOut (c : MCtx) (consume : Bool) (o n : Nat) (c1 : MCtx) : Prop := c.granules consume o n (n / 16 + 1) = .ok (c1, none)

/-- No granule that an instruction consumes of `n` bytes from byte `o` on has, under `.det`, been consumed by another party (R215, R296). -/
def MCtx.mine (c : MCtx) (consume : Bool) (o n : Nat) : Prop :=
  consume = true → ∀ k < ceilDiv n 16, c.notMine (o / 16 + k) = false

/-- No selected array holds an operation that waits (R290). -/
def MCtx.idle (c : MCtx) (is : List Nat) : Prop := ∀ i ∈ is, (c.m.array i).ops < 2

/-- A team range is aligned and within the allocation (R205, R295). -/
def MCtx.inTeam (c : MCtx) (o n align : Nat) : Prop := o % 16 = 0 ∧ o % align = 0 ∧ o + n ≤ c.t.hdr.tmem

/-- The pieces of a weight image, each as long as what came before it asks for, are read from global memory (R310), which leaves
`c1`: only the caches differ. -/
def MCtx.pieces (f : FForm) (cap : Nat) (va : DWord) (c1 : MCtx) : List (List Byte) → MCtx → List Byte → Prop
  | [], c, bs => c1 = c ∧ mwbNeed f bs ≤ bs.length ∧ mwbNeed f bs ≤ cap
  | p :: r, c, bs => bs.length < mwbNeed f bs ∧ mwbNeed f bs ≤ cap
      ∧ ∃ k b, c.s.readVA c.t.pitch c.mdie (va + BitVec.ofNat 64 bs.length) (mwbNeed f bs - bs.length) = .ok p k b
        ∧ MCtx.pieces f cap va c1 r { c with s := c.s.fillDie c.t.pitch c.mdie (va + BitVec.ofNat 64 bs.length) k b false } (bs ++ p)

/-- The same from team memory; the last of the contexts holds the image. -/
def MCtx.gathers (f : FForm) (cap o : Nat) : List MCtx → MCtx → Prop
  | [], c => mwbNeed f c.m.got ≤ c.m.got.length ∧ mwbNeed f c.m.got ≤ cap ∧ o + mwbNeed f c.m.got ≤ c.t.hdr.tmem
  | c1 :: r, c => c.m.got.length < mwbNeed f c.m.got ∧ mwbNeed f c.m.got ≤ cap ∧ o + mwbNeed f c.m.got ≤ c.t.hdr.tmem
      ∧ c.readOut false o (mwbNeed f c.m.got) c1 ∧ MCtx.gathers f cap o r c1

/-- The arrays after an operation on the selected ones. -/
def MCtx.onArrays (c : MCtx) (is : List Nat) (g : Nat → MArray → MArray) : State := c.upd (fun m => m.act is g)

/-- A multiplying instruction completes on the arrays that act: their leave is debited, and each takes `go` (R289, R290, R305,
R312 to R314). -/
def MulSays (f : FForm) (half scout : Bool) (i : Instr) (acts : MCtx → Nat → Bool) (cost : MArray → Nat)
    (go : MArray → Nat → Nat → Nat → MArray) : Prop :=
  let d := f.d.toNat - 44
  let gi := f.a.toNat - 40
  let wi := f.b.toNat - 24
  ∀ (s : State) (c : MCtx) (is : List Nat), mStart s = .go c → c.sel f = .ok is →
    (∀ j ∈ is, mulBad (c.m.array j) d gi wi half scout = false) → c.idle (is.filter (acts c)) →
    c.canPay ((is.filter (acts c)).map (fun j => cost (c.m.array j))).sum →
    exec i s = .next (finishM c.t.uid ((c.afterPay ((is.filter (acts c)).map (fun j => cost (c.m.array j))).sum).onArrays
      (is.filter (acts c)) (fun _ a => go a d gi wi)) true)

/-! ### What an instruction leaves as it was -/

/-- Nothing but team `uid`, the wait counters' entries, the note of who has paid for an issue (R401; log 74) and the handler windows of the
dies differs. -/
def State.sameWorld (uid : Nat) (s t : State) : Prop :=
  { t with teams := s.teams, inflight := s.inflight, nextId := s.nextId, dies := s.dies, waited := s.waited } = s
  ∧ (∀ d, { t.die d with windows := [] } = { s.die d with windows := [] })
  ∧ ∀ v, v ≠ uid → t.team? v = s.team? v

/-- The registers that a field of a kind has an instruction write, in the numbering of pending writes. -/
def destsOf (kind : Fld) (n : Nat) : List Nat :=
  match kind with
  | .vd => [n]
  | .v2d | .p2 => [n, n + 1]
  | .g8 => (List.range 8).map (n + ·)
  | .s => [192 + n]
  | .p => [128 + n]
  | _ => []

/-- The destination registers of an instruction of row code, or of the U-stream when `u`. -/
def formDests (u : Bool) (o : Opc) : Form → List Nat
  | .f f => destsOf (shape u o f).d f.d.toNat
  | .i x => destsOf (immFld u o x) x.d.toNat

/-- A thread keeps every register but those of `regs`, every wait counter but `wc`, its return stack (unless `calls`), its rounding
mode, key, token and ray query. -/
def Thread.keeps (regs : List Nat) (wc : Nat) (calls : Bool) (h g : Thread) : Prop :=
  (∀ n, n < 120 → n ∉ regs → g.reg n = h.reg n) ∧ (∀ n, n < 7 → 128 + n ∉ regs → g.pred n = h.pred n)
  ∧ (∀ n, n ≠ wc → g.wcnt n = h.wcnt n) ∧ (calls = false → g.rets = h.rets)
  ∧ g.rmode = h.rmode ∧ g.rngKey = h.rngKey ∧ g.token = h.token ∧ g.query = h.query

/-- The registers of row code after an instruction: each thread keeps all but the destinations and what its pending writes name
(R143), each home row keeps such s registers; the streams' own state is as it was, but for coming to rest under a halt. -/
def Team.rowKeeps (dests : List Nat) (wc : Nat) (calls : Bool) (t u : Team) : Prop :=
  (∀ row pos h, t.thread? row pos = some h →
    ∃ g, u.thread? row pos = some g ∧ h.keeps (dests ++ h.pend.map (·.reg)) wc calls g)
  ∧ (∀ row n, n < 64 → 192 + n ∉ dests → (∀ h ∈ t.threads, h.row = row → 192 + n ∉ h.pend.map (·.reg)) →
    u.sreg row n = t.sreg row n)
  ∧ { u.u with stop := t.u.stop } = t.u
  ∧ u.m.map (fun m => { m with stop := false }) = t.m.map (fun m => { m with stop := false })

/-- Team memory, full/empty bits, queues, rendezvous points, Drill sessions, episodes and service requests are as they were. -/
def Team.sameStore (t u : Team) : Prop :=
  { u with threads := t.threads, frags := t.frags, u := t.u, m := t.m, s := t.s, halt := t.halt } = t

/-- The same of the U-stream: it keeps every register but the destinations and what its pending writes name. -/
def Team.uniKeeps (dests : List Nat) (wc : Nat) (calls : Bool) (t u : Team) : Prop :=
  (∀ n, n < 64 → 192 + n ∉ dests → 192 + n ∉ t.u.pend.map (·.reg) → u.u.sreg n = t.u.sreg n)
  ∧ (∀ n, n < 7 → 128 + n ∉ dests → 128 + n ∉ t.u.pend.map (·.reg) → predOf u.u.p n = predOf t.u.p n)
  ∧ (∀ n, n ≠ wc → u.u.wcnt n = t.u.wcnt n) ∧ (calls = false → u.u.rets = t.u.rets)
  ∧ u.u.rmode = t.u.rmode ∧ u.u.rngKey = t.u.rngKey
  ∧ u.threads = t.threads ∧ u.s = t.s
  ∧ u.m.map (fun m => { m with stop := false }) = t.m.map (fun m => { m with stop := false })

/-- An instruction of row code leaves what `f` says of the states and of its team before and after, whatever becomes of it. -/
def RowFrame (i : Instr) (f : Nat → State → State → Team → Team → Prop) : Prop :=
  ∀ (s s' : State) (p : Party) (t : Team), s.cur = some p → (∀ u, p ≠ .ustream u) → s.team? (partyUid p) = some t →
    exec i s = .next s' → ∃ u, s'.team? (partyUid p) = some u ∧ f (partyUid p) s s' t u

/-- The same in the U-stream. -/
def UniFrame (i : Instr) (f : Nat → State → State → Team → Team → Prop) : Prop :=
  ∀ (s s' : State) (uid : Nat) (t : Team), s.cur = some (.ustream uid) → s.team? uid = some t →
    exec i s = .next s' → ∃ u, s'.team? uid = some u ∧ f uid s s' t u

/-- The same in the M-stream. -/
def MFrame (i : Instr) (f : Nat → State → State → Team → Team → Prop) : Prop :=
  ∀ (s s' : State) (uid : Nat) (t : Team), s.cur = some (.mstream uid) → s.team? uid = some t →
    exec i s = .next s' → ∃ u, s'.team? uid = some u ∧ f uid s s' t u

/-- The vector arithmetic, move, predicate, conversion and cross-lane instructions. -/
def vectorOps : List Opc :=
  [.vmov, .vli, .vbcs, .vadd, .vsub, .vmul, .vmulh, .vmad, .vabs, .vneg, .vmin, .vmax, .vand, .vor, .vxor, .vnot, .vandn, .vshl, .vshr,
   .vsar, .vrol, .vclz, .vctz, .vpopc, .vbrev, .vbfi, .vbfe, .vcmp, .vsel, .vdot4, .vtag, .pand, .por, .pxor, .pnot, .pset, .pget]
  ++ [.vfadd, .vfsub, .vfmul, .vffma, .vfmin, .vfmax, .vfabs, .vfneg, .vfcmp, .vfclass, .vfrnd, .vrcp, .vrsq, .vsqrt, .vdiv, .vexp2,
   .vlog2, .vsinpi, .vcospi, .vpfma, .vpfadd, .vpfmul, .vfdot2, .vcvt, .vscl, .vunpk, .vpack]
  ++ [.vshfl, .vbcast, .vred, .vscan, .vmatch, .vcompact, .vballot, .vvote, .vrank, .vfirst, .sr]

/-- The uniform arithmetic instructions. -/
def uniformOps : List Opc :=
  [.smov, .sli, .sadd, .ssub, .smul, .smulh, .smin, .smax, .sand, .sor, .sxor, .snot, .sshl, .sshr, .ssar, .sclz, .spopc, .sbfe, .sbfi,
   .scmp, .ssel]

/-- The control instructions that write no register. -/
def controlOps : List Opc := [.nop, .skip, .bra, .brx, .call, .ret, .join, .exit, .yield, .wait, .brk, .trap]

/-- The instructions of code that may write global memory, or device memory beside it: stores, atomics, image and record writes, the
output lists of `mrg`, requests to a ring, and the chit of an engine operation. -/
def memoryWriters : List Opc :=
  [.st, .sst, .atom, .cas, .rsvst, .rqsave, .mrg, .emit, .launch, .sysc, .bcp, .btile, .bgat, .bsct, .bred, .bfill, .glean]

/-- The m and k registers that an M-stream instruction writes, by their field codes. -/
def mDests (o : Opc) : Form → List Nat
  | .f f => match (shape false o f).d with
    | .m | .mz | .k => [f.d.toNat]
    | .mEven => [f.d.toNat, f.d.toNat + 1]
    | _ => []
  | .i x => match immFld false o x with
    | .m | .mz => [x.d.toNat]
    | _ => []

/-- After an M-stream instruction: the team is as it was but for the M-stream itself and what comes to rest under a halt; m0 to m15
and k0 to k7, but for the destinations, hold what they held. -/
def Team.mKeeps (dests : List Nat) (t u : Team) : Prop :=
  { u with frags := t.frags, u := t.u, m := t.m, halt := t.halt } = t ∧ { u.u with stop := t.u.stop } = t.u
  ∧ ∀ m, t.m = some m → ∃ m', u.m = some m' ∧ (∀ n, n < 16 → n ∉ dests → m'.mreg n = m.mreg n)
    ∧ (∀ n, 16 ≤ n → n < 24 → n ∉ dests → m'.kreg n = m.kreg n)

/-- After any M-stream instruction: m0 to m15 and k0 to k7, but for the destinations, hold what they held, and so do the threads, the s
registers, team memory and the queues of row code; what comes to rest under a halt may differ, and the full/empty bits and the logs of
their parties, the M-queues and the rendezvous points. -/
def Team.mLeaves (dests : List Nat) (t u : Team) : Prop :=
  { u with frags := t.frags, u := t.u, m := t.m, halt := t.halt, fe := t.fe, mq := t.mq, rdv := t.rdv, popped := t.popped,
           drained := t.drained, filled := t.filled } = t
  ∧ { u.u with stop := t.u.stop } = t.u
  ∧ ∀ m, t.m = some m → ∃ m', u.m = some m' ∧ (∀ n, n < 16 → n ∉ dests → m'.mreg n = m.mreg n)
    ∧ (∀ n, 16 ≤ n → n < 24 → n ∉ dests → m'.kreg n = m.kreg n)

/-- The arrays and the leave of the M-stream are as they were. -/
def Team.sameArrays (t u : Team) : Prop := u.m.map (fun m => (m.arrays, m.leave)) = t.m.map (fun m => (m.arrays, m.leave))

/-- The keys that an access of `n` bytes from key `k` on touches. -/
def within (k n a : Nat) : Prop := k ≤ a ∧ a < k + n

/-- The registers, mode bits and tables through which system software rules the package and its pitches: the partition mode, frame
owners, each pitch's part, translation root, handler, way masks and rates, the dies that are online. -/
def State.sameRule (s t : State) : Prop :=
  t.pkg.mode = s.pkg.mode ∧ t.pkg.domain = s.pkg.domain ∧ t.frames = s.frames
  ∧ (∀ x, (t.pitch x).part = (s.pitch x).part ∧ (t.pitch x).enable = (s.pitch x).enable ∧ (t.pitch x).troot = (s.pitch x).troot
    ∧ (t.pitch x).fmode = (s.pitch x).fmode ∧ (t.pitch x).handler = (s.pitch x).handler
    ∧ (t.pitch x).refill = (s.pitch x).refill ∧ (t.pitch x).depth = (s.pitch x).depth)
  ∧ (∀ d, (t.die d).online = (s.die d).online ∧ (t.die d).rvsN = (s.die d).rvsN ∧ (t.die d).budget = (s.die d).budget)

/-- An active thread whose sources fail the check makes the whole instruction take FMT (R112), and the lowest such thread is the one
whose trap it is (R333). -/
def LaneTraps (o : Opc) (f : FForm) (i : Instr) (ok : Ctx → Thread → Bool) : Prop :=
  ∀ (s : State) (c : Ctx), rowStart o (.f f) s = .go c → (∃ h ∈ c.act, ok c h = false) → 
    exec i s = .next (c.s.trap c.p { code := 2, who := (c.act.find? (fun h => !ok c h)).map (fun h => (h.row, h.pos)) })

/-- The team or plot offset of a thread's access: base and index (R203, R205). -/
def Ctx.teamOff (c : Ctx) (f : FForm) (field : BitVec 7) (n : Nat) (h : Thread) : DWord := tBase f (c.env h) + indexOf f field n (c.env h)

/-- The global address of a thread's access: base and index, modulo 2^64 (R203, R204). -/
def Ctx.globalVA (c : Ctx) (f : FForm) (field : BitVec 7) (n : Nat) (h : Thread) : DWord :=
  gBase c.t.rcd.window f (c.env h) + indexOf f field n (c.env h)

/-- Does a write access of `n` bytes at a virtual address touch key `a`? -/
def State.touches (s : State) (t : Team) (reads : Bool) (va : DWord) (n a : Nat) : Prop :=
  ∃ k b, s.reach t.pitch t.die .write reads [(va, n)] = .ok [k] b ∧ within k n a

/-- A row-code instruction that stores to global memory leaves every byte that no active thread's access touches. -/
def StoresOnly (o : Opc) (f : FForm) (i : Instr) (reads : Bool) (n : Nat) (va : Ctx → Thread → DWord) : Prop :=
  ∀ (s s' : State), (∀ u, s.cur ≠ some (.ustream u)) → exec i s = .next s' →
    ((∀ c, rowStart o (.f f) s ≠ .go c) → s'.mem = s.mem)
    ∧ ∀ c, rowStart o (.f f) s = .go c → ∀ a, (∀ h ∈ c.act, ¬ c.s.touches c.t reads (va c h) n a) → s'.byte a = s.byte a

/-- The memory of every team is as it was, byte for byte. -/
def State.sameTeams (s t : State) : Prop :=
  ∀ uid q, s.team? uid = some q → ∃ r, t.team? uid = some r ∧ ∀ a, r.byte a = q.byte a

/-- A row-code instruction that stores to team or plot memory leaves every byte outside the places of its active threads. -/
def StoresTeam (o : Opc) (f : FForm) (i : Instr) (n : Nat) (place : Ctx → Thread → Except Trap (Nat × Nat)) : Prop :=
  ∀ (s s' : State), (∀ u, s.cur ≠ some (.ustream u)) → exec i s = .next s' →
    ((∀ c, rowStart o (.f f) s ≠ .go c) → s.sameTeams s')
    ∧ ∀ c, rowStart o (.f f) s = .go c → ∀ uid q, s.team? uid = some q → ∃ r, s'.team? uid = some r
      ∧ ∀ a, (∀ h ∈ c.act, ∀ k, place c h = .ok (uid, k) → ¬ within k n a) → r.byte a = q.byte a

end Sys2Proof.Machine
end

