-- ==== Sys2Proof/Certificates/Slice0/Obligations.lean ====
section
/-! DEFINITION. The statements for the provers. Each docstring names the rules of spec/ it follows, and the log entries it rests
on where it rests on a choice of the model. -/

open Sys2Proof Sys2Proof.Machine

/-! ### Every instruction completes: its own effect, from the state in which its party comes to issue it -/

/-- R185, R190, R112: `vadd`, `vsub`, `vmul`, `vmulh`, `vmad`, `vabs`, `vneg`, `vmin`, `vmax`, `vdot4` complete when every source
tag fits: D takes each element's exact result, wrapped to its width or, under SAT, clamped. -/
def Obligations.IntegerCompletes : Prop := ∀ f : FForm,
  LaneSays .vadd (.f f) (.vadd f) (fits f 2 f.ty) (arith2 f (f.mb 3) (fun _ a b => a + b))
  ∧ LaneSays .vsub (.f f) (.vsub f) (fits f 2 f.ty) (arith2 f (f.mb 3) (fun _ a b => a - b))
  ∧ LaneSays .vmul (.f f) (.vmul f) (fits f 2 f.ty) (arith2 f (f.mb 3) (fun _ a b => a * b))
  ∧ LaneSays .vmulh (.f f) (.vmulh f) (fits f 2 f.ty) (arith2 f false (fun w a b => a * b / (2 ^ w : Nat)))
  ∧ LaneSays .vmin (.f f) (.vmin f) (fits f 2 f.ty) (arith2 f false (fun _ a b => min a b))
  ∧ LaneSays .vmax (.f f) (.vmax f) (fits f 2 f.ty) (arith2 f false (fun _ a b => max a b))
  ∧ LaneSays .vabs (.f f) (.vabs f) (fits f 1 f.ty) (arith1 f (f.mb 3) (fun a => if a < 0 then -a else a))
  ∧ LaneSays .vneg (.f f) (.vneg f) (fits f 1 f.ty) (arith1 f (f.mb 3) (fun a => -a))
  ∧ LaneSays .vmad (.f f) (.vmad f) (fits f 3 f.ty) (fun c h =>
      wT f.ty f.d.toNat (intLane f.ty (f.mb 3) (fun _ a b x => a * b + x) (c.vA f h) (c.vB f h) (c.vC f h)))
  ∧ LaneSays .vdot4 (.f f) (.vdot4 f)
      (fun c h => tagOk .s8x4 (f.mb 4) (c.vA f h) && tagOk .s8x4 (f.mb 4) (c.vB f h) && tagOk .s32 (f.mb 4) (c.vC f h))
      (fun c h => [wV f.d.toNat (BitVec.ofNat 32 (intRes 32 true (f.mb 3) (signed 32 (c.vC f h).w.toNat
        + ((List.range 4).map (fun i => signed 8 (getElem .s8x4 (c.vA f h).w.toNat i) * signed 8 (getElem .s8x4 (c.vB f h).w.toNat i))).sum))) .s32])

/-- R179, R180, R186: the bitwise, shift, count and bit-field instructions complete whatever the tags of their sources. -/
def Obligations.BitwiseCompletes : Prop := ∀ f : FForm,
  LaneSays .vand (.f f) (.vand f) noCheck (bitsRes f .b32 (fun a b _ => a &&& b))
  ∧ LaneSays .vor (.f f) (.vor f) noCheck (bitsRes f .b32 (fun a b _ => a ||| b))
  ∧ LaneSays .vxor (.f f) (.vxor f) noCheck (bitsRes f .b32 (fun a b _ => a ^^^ b))
  ∧ LaneSays .vnot (.f f) (.vnot f) noCheck (bitsRes f .b32 (fun a _ _ => 2 ^ 32 - 1 - a))
  ∧ LaneSays .vandn (.f f) (.vandn f) noCheck (bitsRes f .b32 (fun a b _ => a &&& (2 ^ 32 - 1 - b)))
  ∧ LaneSays .vshl (.f f) (.vshl f) noCheck (bitsRes f .b32 (fun a b _ => if b < 32 then a * 2 ^ b % 2 ^ 32 else 0))
  ∧ LaneSays .vshr (.f f) (.vshr f) noCheck (bitsRes f .b32 (fun a b _ => if b < 32 then a / 2 ^ b else 0))
  ∧ LaneSays .vsar (.f f) (.vsar f) noCheck (bitsRes f .b32 (fun a b _ => wrapN 32 (signed 32 a / (2 ^ b : Nat))))
  ∧ LaneSays .vrol (.f f) (.vrol f) noCheck (bitsRes f .b32 (fun a b _ => rolN a b))
  ∧ LaneSays .vclz (.f f) (.vclz f) noCheck (bitsRes f .n32 (fun a _ _ => clzN 32 a))
  ∧ LaneSays .vctz (.f f) (.vctz f) noCheck (bitsRes f .n32 (fun a _ _ => ctzN 32 a))
  ∧ LaneSays .vpopc (.f f) (.vpopc f) noCheck (bitsRes f .n32 (fun a _ _ => popN 32 a))
  ∧ LaneSays .vbrev (.f f) (.vbrev f) noCheck (bitsRes f .b32 (fun a _ _ => revN 32 a))
  ∧ LaneSays .vbfi (.f f) (.vbfi f) noCheck (bitsRes f .b32 (fun a b x => bfiN 32 a b x))
  ∧ LaneSays .vbfe (.f f) (.vbfe f) noCheck (bitsRes f (tagOf f.ty) (fun a b _ => bfeN 32 (intTy f.ty).2 a b))

/-- R187, R188, R189, R191, R192: the moves, the selection, the comparison and the predicate moves complete; `vmov` and `vsel`
take any tag, `vcmp` checks its sources. -/
def Obligations.MoveCompletes : Prop := ∀ (f : FForm) (i : IForm),
  LaneSays .vmov (.f f) (.vmov f) noCheck (fun c h => asStands f.ty f.d.toNat (c.vA f h))
  ∧ LaneSays .vli (.i i) (.vli i) noCheck (fun _ _ =>
      wT i.ty i.d.toNat (if i.ty = .s64 then (i.imm.signExtend 64).toNat else i.imm.toNat))
  ∧ LaneSays .vbcs (.f f) (.vbcs f) noCheck (fun c h => wT f.ty f.d.toNat (c.t.sreg h.row f.a.toNat).toNat)
  ∧ LaneSays .vsel (.f f) (.vsel f) noCheck (fun c h =>
      if h.pred f.c.toNat = true then asStands f.ty f.d.toNat (c.vA f h)
      else if f.mb 8 = true then
        (if f.ty.wide = true then wPair f.d.toNat (c.t.sreg h.row f.b.toNat) (tagOf f.ty)
         else [wV f.d.toNat ((c.t.sreg h.row f.b.toNat).truncate 32) .b32])
      else asStands f.ty f.d.toNat (c.vB f h))
  ∧ LaneSays .vtag (.f f) (.vtag f) noCheck (fun c h => wT f.ty f.d.toNat ((c.vA f h).bitsT f.ty))
  ∧ LaneSays .vcmp (.f f) (.vcmp f) (fits f 2 f.ty) (fun c h => [wP f.d.toNat (icmp f.opx
      (intVal (intTy f.ty).1 (intTy f.ty).2 ((c.vA f h).bitsT f.ty)) (intVal (intTy f.ty).1 (intTy f.ty).2 ((c.vB f h).bitsT f.ty)))])
  ∧ LaneSays .pset (.f f) (.pset f) noCheck (fun c h => [wP f.d.toNat ((c.vA f h).w != 0)])
  ∧ LaneSays .pget (.f f) (.pget f) noCheck (fun _ h => [wV f.d.toNat (if h.pred f.a.toNat then 1 else 0) .n32])

/-- R192, R161: the predicate instructions complete, in row code and in the U-stream; the negate bits invert the operands. -/
def Obligations.PredicateCompletes : Prop := ∀ f : FForm,
  let tells (o : Opc) (i : Instr) (g : Bool → Bool → Bool) : Prop :=
    LaneSays o (.f f) i noCheck (fun _ h => [wP f.d.toNat (g (h.pred f.a.toNat ^^ f.mb 0) (h.pred f.b.toNat ^^ f.mb 1))])
    ∧ ∀ (s : State) (c : UCtx), uStart o (.f f) s = .go c →
        exec i s = c.wrote o (.f f) [wP f.d.toNat (g (predOf c.u.p f.a.toNat ^^ f.mb 0) (predOf c.u.p f.b.toNat ^^ f.mb 1))]
  tells .pand (.pand f) (· && ·) ∧ tells .por (.por f) (· || ·) ∧ tells .pxor (.pxor f) Bool.xor ∧ tells .pnot (.pnot f) (fun a _ => !a)

/-- R193 to R197, R201, Tables 9.9 and 9.10: the f32 instructions complete when every source tag
fits; each result is the exact one rounded once. For `vexp2`, `vlog2`, `vsinpi` and `vcospi` that is the model's reading (log 16). -/
def Obligations.FloatCompletes : Prop := ∀ f : FForm,
  LaneSays .vfadd (.f f) (.vfadd f) (fits f 2 .f32) (floatRes f (fun m a b _ => fres f m (fsum (m == 3) [a, b])))
  ∧ LaneSays .vfsub (.f f) (.vfsub f) (fits f 2 .f32) (floatRes f (fun m a b _ => fres f m (fsum (m == 3) [a, b.negate])))
  ∧ LaneSays .vfmul (.f f) (.vfmul f) (fits f 2 .f32) (floatRes f (fun m a b _ => fres f m (a.mul b)))
  ∧ LaneSays .vffma (.f f) (.vffma f) (fits f 3 .f32) (floatRes f (fun m a b x => fres f m (fsum (m == 3) [a.mul b, x])))
  ∧ LaneSays .vfmin (.f f) (.vfmin f) (fits f 2 .f32) (fun c h => [wV f.d.toNat (fminmax false (c.vA f h).w (c.vB f h).w) .f32])
  ∧ LaneSays .vfmax (.f f) (.vfmax f) (fits f 2 .f32) (fun c h => [wV f.d.toNat (fminmax true (c.vA f h).w (c.vB f h).w) .f32])
  ∧ LaneSays .vfabs (.f f) (.vfabs f) (fits f 1 .f32) (fun c h => [wV f.d.toNat (nanOr (c.vA f h).w ((c.vA f h).w &&& 0x7FFFFFFF)) .f32])
  ∧ LaneSays .vfneg (.f f) (.vfneg f) (fits f 1 .f32) (fun c h => [wV f.d.toNat (nanOr (c.vA f h).w ((c.vA f h).w ^^^ 0x80000000)) .f32])
  ∧ LaneSays .vfcmp (.f f) (.vfcmp f) (fits f 2 .f32) (fun c h => [wP f.d.toNat (fcmp f.opx (ofF32 (c.vA f h).w) (ofF32 (c.vB f h).w))])
  ∧ LaneSays .vfclass (.f f) (.vfclass f) (fits f 1 .f32) (fun c h => [wV f.d.toNat (BitVec.ofNat 32 (fclass (c.vA f h).w)) .n32])
  ∧ LaneSays .vfrnd (.f f) (.vfrnd f) (fits f 1 .f32) (floatRes f (fun m a _ _ => frnd m a))
  ∧ LaneSays .vrcp (.f f) (.vrcp f) (fits f 1 .f32) (floatRes f (fun m a _ _ => fdiv m (f.mb 3) (.fin false 1 0) a))
  ∧ LaneSays .vrsq (.f f) (.vrsq f) (fits f 1 .f32) (floatRes f (fun m a _ _ => frsq m a))
  ∧ LaneSays .vsqrt (.f f) (.vsqrt f) (fits f 1 .f32) (floatRes f (fun m a _ _ => fsqrt m a))
  ∧ LaneSays .vdiv (.f f) (.vdiv f) (fits f 2 .f32) (floatRes f (fun m a b _ => fdiv m (f.mb 3) a b))
  ∧ LaneSays .vexp2 (.f f) (.vexp2 f) (fits f 1 .f32) (floatRes f (fun _ a _ _ => fexp2 (f.mb 3) a))
  ∧ LaneSays .vlog2 (.f f) (.vlog2 f) (fits f 1 .f32) (floatRes f (fun _ a _ _ => flog2 a))
  ∧ LaneSays .vsinpi (.f f) (.vsinpi f) (fits f 1 .f32) (floatRes f (fun _ a _ _ => fsinpi a))
  ∧ LaneSays .vcospi (.f f) (.vcospi f) (fits f 1 .f32) (floatRes f (fun _ a _ _ => fcospi a))

/-- R193, R197 to R201, Tables 5.7, 5.10 and 9.9: the packed, conversion, pack, unpack and scale instructions complete when every
source tag fits. The sign of a zero sum of `vfdot2` under `.rm` is the model's reading (log 30). -/
def Obligations.ConvertCompletes : Prop := ∀ f : FForm,
  let raw := f.mb 4
  LaneSays .vpfma (.f f) (.vpfma f) (fits f 3 f.ty) (packedRes f (fun m a b x => fsum (m == 3) [a.mul b, x]))
  ∧ LaneSays .vpfadd (.f f) (.vpfadd f) (fits f 2 f.ty) (packedRes f (fun m a b _ => fsum (m == 3) [a, b]))
  ∧ LaneSays .vpfmul (.f f) (.vpfmul f) (fits f 2 f.ty) (packedRes f (fun _ a b _ => a.mul b))
  ∧ LaneSays .vfdot2 (.f f) (.vfdot2 f)
      (fun c h => tagOk f.ty raw (c.vA f h) && tagOk f.ty raw (c.vB f h) && tagOk .f32 raw (c.vC f h))
      (fun c h => [wV f.d.toNat (fres f (modeOf f h) (fsum (modeOf f h == 3)
        [(elemReal f.ty (c.vA f h).w 0).mul (elemReal f.ty (c.vB f h).w 0), (elemReal f.ty (c.vA f h).w 1).mul (elemReal f.ty (c.vB f h).w 1),
         ofF32 (c.vC f h).w])) .f32])
  ∧ LaneSays .vcvt (.f f) (.vcvt f) (fun c h => tagOk ((tyOf (f.m 4 5)).getD .f32) false (c.vA f h))
      (fun c h => wT f.ty f.d.toNat (convert (modeOf f h) (f.mb 3) ((tyOf (f.m 4 5)).getD .f32) f.ty (c.vA f h)))
  ∧ LaneSays .vscl (.f f) (.vscl f) (fun c h => tagOk .f32 raw (c.vA f h) && tagOk .sc10 raw (c.vB f h))
      (fun c h => [wV f.d.toNat (scaleBy (modeOf f h) (f.mb 3) (f.mb 7) (ofF32 (c.vA f h).w)
        (sc10Real (getElem .sc10 (c.vB f h).w.toNat (f.m 5 2)))) .f32])
  ∧ LaneSays .vunpk (.f f) (.vunpk f) (fun c h => tagOk f.ty raw (c.vA f h))
      (fun c h =>
        if f.ty = .s8x4 then [wV f.d.toNat (BitVec.ofInt 32 (signed 8 (getElem f.ty (c.vA f h).w.toNat f.opx))) .s32]
        else if f.ty = .sc10 then [wV f.d.toNat (toF32 (sc10Real (getElem f.ty (c.vA f h).w.toNat f.opx))) .f32]
        else [wV f.d.toNat (toF32 (elemReal f.ty (c.vA f h).w f.opx)) .f32])
  ∧ LaneSays .vpack (.f f) (.vpack f)
      (fun c h =>
        let src : Ty := if f.ty = .s8x4 then .s32 else .f32
        tagOk src raw (c.vA f h) && ((f.ty == .sc10 && f.m 5 2 == 1) || tagOk src raw (c.vB f h)) && tagOk f.ty raw (c.vC f h))
      (fun c h => [wV f.d.toNat (BitVec.ofNat 32 (packElems f.ty ((elems f.ty (c.vC f h).w.toNat).zipIdx.map (fun e =>
        if e.2 = 2 * f.m 5 2 then packOne f.ty (modeOf f h) (f.mb 3) (c.vA f h).w
        else if e.2 = 2 * f.m 5 2 + 1 then
          packOne f.ty (modeOf f h) (f.mb 3) (if f.ty = .sc10 ∧ f.m 5 2 = 1 then (c.vA f h).w else (c.vB f h).w)
        else e.1)))) (tagOf f.ty)])

/-- R65 to R67, R110, R228, R229, Table 11.16: the cross-lane instructions complete with the values of the member threads, and
write SR_XMASK. That `vmatch` checks the tags of a 64-bit operand is the model's reading (log 64). -/
def Obligations.CrossLaneCompletes : Prop := ∀ f : FForm,
  let own (c : Ctx) (h : Thread) : List RegW := asStands f.ty f.d.toNat (c.vA f h)
  let take (l : Lanes) (c : Ctx) (h : Thread) (j : Nat) : List RegW := asStands f.ty f.d.toNat (c.vA f ((l.at h.pos j).getD h))
  CrossSays .vshfl f (.vshfl f) noCheck (fun l c h =>
      if l.has h = true then take l c h (shuffleIndex (f.m 0 2) l.seg (h.pos % l.seg) (h.src c.cur.idx f.b.toNat).w.toNat) else own c h)
  ∧ CrossSays .vbcast f (.vbcast f) noCheck (fun l c h =>
      match l.has h, l.near h.pos with
      | true, g :: _ => take l c h ((g.src c.cur.idx f.b.toNat).w.toNat % l.seg)
      | _, _ => own c h)
  ∧ CrossSays .vred f (.vred f) (fun c h => tagOk f.ty (f.mb 4) (c.vA f h)) (fun l c h =>
      if l.has h = true then wT f.ty f.d.toNat (reduceAll (f.m 0 3) f.ty (f.mb 3) (contributions f l c h.pos))
      else wT f.ty f.d.toNat ((c.vA f h).bitsT f.ty))
  ∧ CrossSays .vscan f (.vscan f) (fun c h => tagOk f.ty (f.mb 4) (c.vA f h)) (fun l c h =>
      let n := h.pos % l.seg + (if f.mb 5 = true then 0 else 1)
      if l.has h = true then
        wT f.ty f.d.toNat (if n = 0 then identity (f.m 0 3) f.ty
          else scanTo (f.m 0 3) f.ty (f.mb 3) ((contributions f l c h.pos).take n))
      else wT f.ty f.d.toNat ((c.vA f h).bitsT f.ty))
  ∧ CrossSays .vmatch f (.vmatch f) (fun c h => f.ty == .none || tagOk f.ty false (c.vA f h)) (fun l c h =>
      wPair f.d.toNat (if l.has h = true then
        BitVec.ofNat 64 (posMask ((l.near h.pos).filter (fun g => (c.vA f g).bitsT f.ty == (c.vA f h).bitsT f.ty)))
        else (c.vA f h).w.zeroExtend 64) .n64)
  ∧ CrossSays .vcompact f (.vcompact f) noCheck (fun l c h =>
      if l.has h = true then
        match ((l.near h.pos).filter (fun g => g.pred f.b.toNat))[((l.near h.pos).filter (fun g => decide (g.pos < h.pos))).length]? with
        | some g => asStands f.ty f.d.toNat (c.vA f g)
        | none => own c h
      else own c h)
  ∧ CrossSays .vballot f (.vballot f) noCheck (fun l _ h =>
      wPair f.d.toNat (BitVec.ofNat 64 (if l.has h = true then posMask (trueNear f l h) else ownP f h)) .n64)
  ∧ CrossSays .vvote f (.vvote f) noCheck (fun l _ h =>
      let n := (l.near h.pos).length
      let k := (trueNear f l h).length
      let r : Bool := if f.m 0 2 = 0 then k == n else if f.m 0 2 = 1 then k != 0 else (k == 0 || k == n)
      [wP f.d.toNat (if l.has h = true then r else h.pred f.a.toNat)])
  ∧ CrossSays .vrank f (.vrank f) noCheck (fun l _ h =>
      [wV f.d.toNat (BitVec.ofNat 32 (if l.has h = true then ((trueNear f l h).filter (fun g => decide (g.pos < h.pos))).length
        else ownP f h)) .n32])
  ∧ CrossSays .vfirst f (.vfirst f) noCheck (fun l _ h =>
      [wV f.d.toNat (BitVec.ofNat 32 (if l.has h = true then ((trueNear f l h).head?.map (·.pos)).getD 0xFFFFFFFF else ownP f h)) .n32])

/-- R166, R178 to R181: the uniform arithmetic instructions complete once for each home row, or for the U-stream. (Log 13.) -/
def Obligations.UniformCompletes : Prop := ∀ (f : FForm) (i : IForm),
  let w := (intTy f.ty).1
  let sg := (intTy f.ty).2
  BothSay .smov (.f f) (.smov f) true (uniRes f (fun a _ => a))
  ∧ BothSay .sli (.i i) (.sli i) true (fun _ _ =>
      ([wS i.d.toNat (if i.ty = .s64 ∨ i.ty = .s32 then i.imm.signExtend 64 else i.imm.zeroExtend 64)], []))
  ∧ BothSay .sadd (.f f) (.sadd f) true (uniRes f (uniArith f.ty (f.mb 3) (fun _ a b => a + b)))
  ∧ BothSay .ssub (.f f) (.ssub f) true (uniRes f (uniArith f.ty (f.mb 3) (fun _ a b => a - b)))
  ∧ BothSay .smul (.f f) (.smul f) true (uniRes f (uniArith f.ty (f.mb 3) (fun _ a b => a * b)))
  ∧ BothSay .smulh (.f f) (.smulh f) true (uniRes f (uniArith f.ty false (fun w a b => a * b / (2 ^ w : Nat))))
  ∧ BothSay .smin (.f f) (.smin f) true (uniRes f (uniArith f.ty false (fun _ a b => min a b)))
  ∧ BothSay .smax (.f f) (.smax f) true (uniRes f (uniArith f.ty false (fun _ a b => max a b)))
  ∧ BothSay .sand (.f f) (.sand f) true (uniRes f (fun a b => a &&& b))
  ∧ BothSay .sor (.f f) (.sor f) true (uniRes f (fun a b => a ||| b))
  ∧ BothSay .sxor (.f f) (.sxor f) true (uniRes f (fun a b => a ^^^ b))
  ∧ BothSay .snot (.f f) (.snot f) true (uniRes f (fun a _ => ~~~a))
  ∧ BothSay .sshl (.f f) (.sshl f) true (uniRes f (uniBits f.ty (fun w a b => if b < w then a * 2 ^ b % 2 ^ w else 0)))
  ∧ BothSay .sshr (.f f) (.sshr f) true (uniRes f (uniBits f.ty (fun w a b => if b < w then a / 2 ^ b else 0)))
  ∧ BothSay .ssar (.f f) (.ssar f) true (uniRes f (uniBits f.ty sarN))
  ∧ BothSay .sclz (.f f) (.sclz f) true (uniRes f (uniBits f.ty (fun w a _ => clzN w a)))
  ∧ BothSay .spopc (.f f) (.spopc f) true (uniRes f (uniBits f.ty (fun w a _ => popN w a)))
  ∧ BothSay .sbfe (.f f) (.sbfe f) true (uniRes f (uniBits f.ty (fun w a b => bfeN w (intTy f.ty).2 a b)))
  ∧ BothSay .sbfi (.f f) (.sbfi f) true (fun r _ =>
      ([wS f.d.toNat (widen w sg (bfiN w (r f.a.toNat).toNat (r f.b.toNat).toNat (r f.c.toNat).toNat))], []))
  ∧ BothSay .scmp (.f f) (.scmp f) false (fun r _ =>
      ([], [wP f.d.toNat (icmp f.opx (intVal w sg (r f.a.toNat).toNat) (intVal w sg (r f.b.toNat).toNat))]))
  ∧ BothSay .ssel (.f f) (.ssel f) true (fun r p =>
      ([wS f.d.toNat (if p f.c.toNat = true then r f.a.toNat else r f.b.toNat)], []))

/-- R60, R61, R62, R125, R127, R167 to R172: `nop`, `skip`, the transfers, `join`, `exit`, `yield` and `wait` complete. A transfer
sends the threads with a true guard to its target and the others to the next clause header. -/
def Obligations.ControlCompletes : Prop := ∀ (f : FForm) (i : IForm),
  RowSays .nop (.f f) (.nop f) (fun _ => True) (fun c => c.s) ∧ UniSays .nop (.f f) (.nop f) (fun _ => True) (fun c => c.s)
  ∧ RowSays .yield (.f f) (.yield f) (fun _ => True) (fun c => c.s) ∧ UniSays .yield (.f f) (.yield f) (fun _ => True) (fun c => c.s)
  ∧ RowSays .wait (.i i) (.wait i) (fun c => ∀ h ∈ c.act, countersBusy h.wcnt i.imm.toNat = false) (fun c => c.s)
  ∧ UniSays .wait (.i i) (.wait i) (fun c => countersBusy c.u.wcnt i.imm.toNat = false) (fun c => c.s)
  ∧ RowSays .skip (.i i) (.skip i) (fun _ => True) (fun c => c.s.setTeam c.t.uid (fun t =>
      (keysOf c.act).foldl (fun t k => t.setThread k.1 k.2 (fun h => { h with skip := i.imm.toNat + 1 })) t))
  ∧ UniSays .skip (.i i) (.skip i) (fun _ => True) (fun c =>
      c.s.setTeam c.t.uid (fun t => { t with u := { t.u with skip := i.imm.toNat + 1 } }))
  ∧ RowMoves .bra (.i i) (.bra i) (fun _ => True) (fun c => c.goTo c.s (fun _ => c.cur.pc + 4 * i.imm.signExtend 64))
  ∧ UniMoves .bra (.i i) (.bra i) (fun _ => True) (fun c =>
      c.s.setTeam c.t.uid (fun t => { t with u := { t.u with cur := { pc := c.u.cur.pc + 4 * i.imm.signExtend 64 } } }))
  ∧ RowMoves .call (.i i) (.call i) (fun c => ∀ h ∈ c.act, h.rets.length < 16) (fun c =>
      c.goTo (c.s.setTeam c.t.uid (fun t => (keysOf c.act).foldl (fun t k =>
        t.setThread k.1 k.2 (fun h => { h with rets := c.cur.nextHeader :: h.rets })) t))
        (fun _ => c.cur.pc + 4 * i.imm.signExtend 64))
  ∧ UniMoves .call (.i i) (.call i) (fun c => c.u.rets.length < 16) (fun c =>
      (c.s.setTeam c.t.uid (fun t => { t with u := { t.u with rets := c.u.cur.nextHeader :: t.u.rets } })).setTeam c.t.uid
        (fun t => { t with u := { t.u with cur := { pc := c.u.cur.pc + 4 * i.imm.signExtend 64 } } }))
  ∧ RowMoves .ret (.f f) (.ret f) (fun c => ∀ h ∈ c.act, ∃ a r, h.rets = a :: r ∧ a.toNat % 4 = 0) (fun c =>
      c.goTo (c.s.setTeam c.t.uid (fun t => (keysOf c.act).foldl (fun t k =>
        t.setThread k.1 k.2 (fun h => { h with rets := h.rets.tail })) t)) (fun h => h.rets.headD 0))
  ∧ UniMoves .ret (.f f) (.ret f) (fun c => ∃ a r, c.u.rets = a :: r ∧ a.toNat % 4 = 0) (fun c =>
      (c.s.setTeam c.t.uid (fun t => { t with u := { t.u with rets := t.u.rets.tail } })).setTeam c.t.uid
        (fun t => { t with u := { t.u with cur := { pc := c.u.rets.headD 0 } } }))
  ∧ RowMoves .brx (.f f) (.brx f) (fun c => ∀ h ∈ c.act, tagOk .n32 (f.mb 4) (c.vA f h) = true ∧ (c.vA f h).w.toNat % 4 = 0
        ∧ (c.vA f h).w.toNat < c.t.hdr.codelen)
      (fun c => c.goTo c.s (fun h =>
        match c.act.find? (fun g => g.row == h.row && g.pos == h.pos) with
        | some g => c.t.codeVA + (c.vA f g).w.zeroExtend 64
        | none => c.cur.nextHeader))
  ∧ UniMoves .brx (.f f) (.brx f) (fun c => ((c.u.sreg f.a.toNat).truncate 32 : Word).toNat % 4 = 0
        ∧ ((c.u.sreg f.a.toNat).truncate 32 : Word).toNat < c.t.hdr.codelen)
      (fun c => c.s.setTeam c.t.uid (fun t =>
        { t with u := { t.u with cur := { pc := c.t.codeVA + ((c.u.sreg f.a.toNat).truncate 32 : Word).zeroExtend 64 } } }))
  ∧ RowMoves .join (.f f) (.join f) (fun _ => True) (fun c => c.s.setTeam c.t.uid (fun t =>
      (((keysOf c.act).foldl (fun t k => t.setThread k.1 k.2 (fun h => { h with st := .joinWait, cur := c.cur })) t).goOn c).joinRows
        (rowsOf c.act)))
  ∧ RowMoves .exit (.f f) (.exit f) (fun c => c.act.length = c.mem.length) (fun c =>
      c.s.setTeam c.t.uid (fun t => t.exitThreads c.fid (keysOf c.act)))
  ∧ RowMoves .exit (.f f) (.exit f) (fun c => c.act.length ≠ c.mem.length) (fun c =>
      c.s.setTeam c.t.uid (fun t => (t.goOn c).exitThreads c.fid (keysOf c.act)))
  ∧ UniMoves .exit (.f f) (.exit f) (fun _ => True) (fun c =>
      c.s.setTeam c.t.uid (fun t => { t with u := { t.u with alive := false, pend := [] } }))

/-- R173 to R175, R177, R432, R434, R473: `brk` and `trap` take their trap and count as issued; `sr` reads a status register, which
under `.det` must not be one of R50; `srw` writes SR_RMODE or SR_RNGKEY; `fresume` waits for its episode; `sysc` writes its request to the
service ring and waits, is answered with all ones at once where none may be made, and takes the replies once every row has its own. (Log 77.) -/
def Obligations.SystemCompletes : Prop := ∀ (f : FForm) (i : IForm),
  let n := i.imm.toNat
  let d := i.d.toNat
  let unheard (s : State) (t : Team) : Prop := 255 < n ∨ (s.pitch t.pitch).svcmask.getLsbD n = false ∨ (s.die t.die).svcring = 0
  RowSays .brk (.i i) (.brk i) (fun c => c.act ≠ []) 
      (fun c => c.s.trap c.p { code := 6, imm := n % 2 ^ 14, who := c.act.head?.map (fun h => (h.row, h.pos)) })
  ∧ UniSays .brk (.i i) (.brk i) (fun _ => True) (fun c => c.s.trap (.ustream c.t.uid) { code := 6, imm := n % 2 ^ 14 })
  ∧ RowSays .trap (.i i) (.trap i) (fun c => c.act ≠ []) 
      (fun c => c.s.trap c.p { code := 7, imm := n % 2 ^ 14, who := c.act.head?.map (fun h => (h.row, h.pos)) })
  ∧ UniSays .trap (.i i) (.trap i) (fun _ => True) (fun c => c.s.trap (.ustream c.t.uid) { code := 7, imm := n % 2 ^ 14 })
  ∧ LaneSays .sr (.i i) (.sr i) (fun c _ => !(c.t.hdr.det && detStatus n)) (fun c h =>
      if n = 13 ∨ n = 14 ∨ n = 15 ∨ n = 19 then wPair d (threadStatus c h n) .n64 else [wV d ((threadStatus c h n).truncate 32) .n32])
  ∧ (∀ (s : State) (c : UCtx), uStart .sr (.i i) s = .go c → (c.t.hdr.det && detStatus n) = false →
      exec (.sr i) s = c.wrote .sr (.i i) [wS d (uStatus c n)])
  ∧ RowSays .srw (.i i) (.srw i) (fun _ => n = 18) (fun c => c.s.setTeam c.t.uid (fun t => c.act.foldl (fun t h =>
      t.setThread h.row h.pos (fun g => { g with rmode := (h.src c.cur.idx d).w.truncate 2 })) t))
  ∧ RowSays .srw (.i i) (.srw i) (fun _ => n = 19) (fun c => c.s.setTeam c.t.uid (fun t => c.act.foldl (fun t h =>
      t.setThread h.row h.pos (fun g => { g with rngKey := (h.src c.cur.idx d).dw })) t))
  ∧ UniSays .srw (.i i) (.srw i) (fun _ => n = 18) (fun c => c.s.setTeam c.t.uid (fun t =>
      { t with u := { t.u with rmode := (c.u.sreg d).truncate 2 } }))
  ∧ UniSays .srw (.i i) (.srw i) (fun _ => n = 19) (fun c => c.s.setTeam c.t.uid (fun t =>
      { t with u := { t.u with rngKey := c.u.sreg d } }))
  ∧ RowMoves .fresume (.f f) (.fresume f) (fun c => ∀ h ∈ c.act, h.epi = true) (fun c =>
      let s1 := c.s.setTeam c.t.uid (fun t => ((keysOf c.act).foldl (fun t k =>
        t.setThread k.1 k.2 (fun h => { h with st := .fresumeWait, cur := c.cur })) t).goOn c)
      match s1.team? c.t.uid with
      | none => s1
      | some t => s1.setTeam c.t.uid (fun u =>
          (t.episodes.filter (fun e => e.threads.any (fun k => (keysOf c.act).contains k) && s1.episodeReady t e)).foldl
            Team.endEpisode u))
  ∧ RowSays .sysc (.i i) (.sysc i)
      (fun c => c.act ≠ [] ∧ c.t.hdr.det = false ∧ ∀ r ∈ rowsOf c.act, ∃ q, c.t.sysc? r c.fid = some q ∧ q.reply.isSome = true)
      (fun c => c.s.takeReplies c.t.uid (rowsOf c.act) c.fid d)
  ∧ UniSays .sysc (.i i) (.sysc i)
      (fun c => c.t.hdr.det = false ∧ ∃ q, c.t.sysc? 0xFF 0xFFFF = some q ∧ q.reply.isSome = true)
      (fun c => c.s.takeReplies c.t.uid [0xFF] 0xFFFF d)
  ∧ (∀ (s : State) (c : Ctx) (r : Nat), rowStart .sysc (.i i) s = .go c → c.s.team? c.t.uid = some c.t → c.t.hdr.det = false →
      rowsOf c.act = [r] → r < 64 → c.t.sysc? r c.fid = none →
      (∀ h, c.s.ringTakes c.t n h →
        exec (.sysc i) s = .next (stayFrag c (c.s.syscSent c.t r c.fid d n (c.t.sreg r d) h) (.service c.s.pkg.nextTag)))
      ∧ (unheard c.s c.t → ∃ s', exec (.sysc i) s = .next (finishFrag .sysc (.i i) c s' true) ∧ { s' with teams := c.s.teams } = c.s
          ∧ s'.team? c.t.uid = some (c.t.setSreg r d (-1))))
  ∧ (∀ (s : State) (c : UCtx), uStart .sysc (.i i) s = .go c → c.s.team? c.t.uid = some c.t → c.t.hdr.det = false →
      c.t.sysc? 0xFF 0xFFFF = none →
      (∀ h, c.s.ringTakes c.t n h →
        exec (.sysc i) s = .next (stayU c.t.uid (c.s.syscSent c.t 0xFF 0xFFFF d n (c.u.sreg d) h) (.service c.s.pkg.nextTag)))
      ∧ (unheard c.s c.t → ∃ s', exec (.sysc i) s = .next (finishU .sysc (.i i) c.t.uid s' true true) ∧ { s' with teams := c.s.teams } = c.s
          ∧ s'.team? c.t.uid = some { c.t with u := c.t.u.setSreg d (-1) }))

/-- R158, R182 to R184, R188: the data-area reads and the uniform loads and stores complete when the offset lies within the data
area, or the address is aligned and its page is present, in every home row, or in the U-stream. That a read of the data area needs no more
than read permission is the model's reading (log 31), and so is where a row's delayed s write waits (log 13). -/
def Obligations.UniformMemoryCompletes : Prop := ∀ (f : FForm) (i : IForm),
  let n := memSize f.ty
  let va (r : Nat → DWord) : DWord := r f.a.toNat + r f.b.toNat
  let vc (r : Nat → DWord) : DWord := r f.a.toNat + r f.c.toNat
  let data (t : Team) (off : Int) : DWord := t.codeVA + BitVec.ofNat 64 t.hdr.data + BitVec.ofInt 64 off
  let inData (t : Team) (off : Int) (n : Nat) : Prop := 0 ≤ off ∧ off + n ≤ t.hdr.datalen
  RowSays .slk (.i i) (.slk i)
      (fun c => rowDet c = false ∧ inData c.t (4 * i.imm.toInt) (memSize i.ty) ∧ c.s.reads c.t (data c.t (4 * i.imm.toInt)) (memSize i.ty))
      (fun c => c.loadRows (fun _ => data c.t (4 * i.imm.toInt)) (memSize i.ty) i.d.toNat (extendT i.ty))
  ∧ UniSays .slk (.i i) (.slk i)
      (fun c => inData c.t (4 * i.imm.toInt) (memSize i.ty) ∧ c.s.reads c.t (data c.t (4 * i.imm.toInt)) (memSize i.ty))
      (fun c => c.load (data c.t (4 * i.imm.toInt)) (memSize i.ty) i.d.toNat (extendT i.ty))
  ∧ RowSays .sldc (.f f) (.sldc f)
      (fun c => rowDet c = false ∧ ∀ r ∈ rowsOf c.act, (va (c.t.sreg r)).toNat % n = 0 ∧ inData c.t (va (c.t.sreg r)).toNat n
        ∧ c.s.reads c.t (data c.t (va (c.t.sreg r)).toNat) n)
      (fun c => c.loadRows (fun r => data c.t (va (c.t.sreg r)).toNat) n f.d.toNat (extendT f.ty))
  ∧ UniSays .sldc (.f f) (.sldc f)
      (fun c => (va c.u.sreg).toNat % n = 0 ∧ inData c.t (va c.u.sreg).toNat n ∧ c.s.reads c.t (data c.t (va c.u.sreg).toNat) n)
      (fun c => c.load (data c.t (va c.u.sreg).toNat) n f.d.toNat (extendT f.ty))
  ∧ RowSays .sld (.f f) (.sld f)
      (fun c => rowDet c = false ∧ ∀ r ∈ rowsOf c.act, (va (c.t.sreg r)).toNat % n = 0 ∧ c.s.reads c.t (va (c.t.sreg r)) n)
      (fun c => c.loadRows (fun r => va (c.t.sreg r)) n f.d.toNat (extendT f.ty))
  ∧ UniSays .sld (.f f) (.sld f) (fun c => (va c.u.sreg).toNat % n = 0 ∧ c.s.reads c.t (va c.u.sreg) n)
      (fun c => c.load (va c.u.sreg) n f.d.toNat (extendT f.ty))
  ∧ RowSays .sst (.f f) (.sst f)
      (fun c => ∀ r ∈ rowsOf c.act, (vc (c.t.sreg r)).toNat % n = 0 ∧ ∃ k, c.s.reaches c.t .write false (vc (c.t.sreg r)) n k)
      (fun c => (rowsOf c.act).foldl (fun s r =>
        c.s.uniStore c.t (c.t.coreFor r) (vc (c.t.sreg r)) n (c.t.sreg r f.b.toNat) s) c.s)
  ∧ UniSays .sst (.f f) (.sst f)
      (fun c => (vc c.u.sreg).toNat % n = 0 ∧ ∃ k, c.s.reaches c.t .write false (vc c.u.sreg) n k)
      (fun c => c.s.uniStore c.t c.t.core (vc c.u.sreg) n (c.u.sreg f.b.toNat) c.s)
  ∧ RowSays .sldt (.f f) (.sldt f)
      (fun c => rowDet c = false ∧ ∀ r ∈ rowsOf c.act, (uniTeamRead c.s c.t f.ty (va (c.t.sreg r))).isOk = true)
      (fun c => c.writeRows (fun r _ =>
        ([wS f.d.toNat (extendT f.ty (c.t.bytes (va (c.t.sreg r)).toNat n))], [])))
  ∧ UniSays .sldt (.f f) (.sldt f) (fun c => (uniTeamRead c.s c.t f.ty (va c.u.sreg)).isOk = true)
      (fun c => c.s.setTeam c.t.uid (fun t =>
        { t with u := t.u.commit c.md [wS f.d.toNat (extendT f.ty (c.t.bytes (va c.u.sreg).toNat n))] }))
  ∧ RowSays .sstt (.f f) (.sstt f)
      (fun c => ∀ r ∈ rowsOf c.act, (vc (c.t.sreg r)).toNat % n = 0 ∧ (c.t.teamPlace (vc (c.t.sreg r))).isOk = true)
      (fun c => c.s.setTeam c.t.uid (fun t => (rowsOf c.act).foldl (fun t r =>
        t.writeBytes (vc (c.t.sreg r)).toNat (leBytes n (c.t.sreg r f.b.toNat).toNat)) t))
  ∧ UniSays .sstt (.f f) (.sstt f) (fun c => (vc c.u.sreg).toNat % n = 0 ∧ (c.t.teamPlace (vc c.u.sreg)).isOk = true)
      (fun c => c.s.setTeam c.t.uid (fun t => t.writeBytes (vc c.u.sreg).toNat (leBytes n (c.u.sreg f.b.toNat).toNat)))
  ∧ RowSays .vlk (.i i) (.vlk i)
      (fun c => c.act ≠ [] ∧ inData c.t (4 * i.imm.toInt) (memSize i.ty) ∧ c.s.reads c.t (data c.t (4 * i.imm.toInt)) (memSize i.ty))
      (fun c => (c.s.readBy c.t (c.t.coreOf ((c.act.head?.map (·.row)).getD 0)) (data c.t (4 * i.imm.toInt)) (memSize i.ty) c.s).setTeam
        c.t.uid (fun t => c.act.foldl (fun t h => t.commit c.md h.row h.pos
          (wT i.ty i.d.toNat (leNat (c.s.bytesAt c.t (data c.t (4 * i.imm.toInt)) (memSize i.ty))))) t))

/-- R203, R204, R206 to R211, R217, R219, R220, R225: the global accesses complete in every active thread when the address is
aligned, its page is present, the tags fit and a release of domain scope can be acknowledged (R461): a load takes the bytes at the
place its address translates to, a store leaves its bytes there, an atomic leaves the new value there and takes the old one. (Log 2, 15.) -/
def Obligations.GlobalCompletes : Prop := ∀ f : FForm,
  let n := memSize f.ty
  let at_ (field : BitVec 7) (c : Ctx) (h : Thread) : DWord := gBase c.t.rcd.window f (c.env h) + indexOf f field n (c.env h)
  let solo (c : Ctx) (h : Thread) : DWord := gBase c.t.rcd.window f (c.env h) + 0
  let atC (c : Ctx) (h : Thread) : DWord := gBase c.t.rcd.window f (c.env h) + ((c.env h).v f.c.toNat).w.zeroExtend 64
  let rmw (g : Ctx → Thread → Nat → Nat) (c : Ctx) (h : Thread) (_ : List (DWord × Nat)) (ks : List Nat) (s : State) : State × List RegW :=
    ((atomAcquire c f h s).writeN (ks.headD 0) n (g c h ((atomAcquire c f h s).readN (ks.headD 0) n)),
     loadWrites f.ty f.d.toNat (leBytes n ((atomAcquire c f h s).readN (ks.headD 0) n)))
  GlobalSays .ld f (.ld f) .l1 .read true (fun _ => false) n (fun c h => c.s.acked (c.me h) (scopeIf (f.m 4 2 == 2) (f.m 1 3)))
    (at_ f.b) (fun c h _ ks s =>
      let s1 := if f.m 4 2 = 0 then s else c.acquires h (f.m 1 3) s
      (s1, loadWrites f.ty f.d.toNat (s1.bytes (ks.headD 0) n)))
  ∧ GlobalSays .st f (.st f) .l1 .write false (fun _ => false) n
    (fun c h => dataOk f.ty (c.regB f h) && c.s.acked (c.me h) (scopeIf (f.m 4 2 != 0) (f.m 1 3))) (at_ f.c) (fun c h _ ks s =>
      (let s1 := s.writeBytes (ks.headD 0) (dataBytes f.ty (c.regB f h))
       if f.m 4 2 = 2 then c.acquires h (f.m 1 3) s1 else s1, []))
  ∧ GlobalSays .atom f (.atom f) .home .write true (fun c => atomDet c f false) n
      (fun c h => dataOk f.ty (c.regB f h) && c.s.acked (c.me h) (atomRelease f)) atC
      (rmw (fun c h old => atomNew (f.m 5 3) f.ty old (opB f c h)))
  ∧ GlobalSays .cas f (.cas f) .home .write true (fun c => atomDet c f true) n
      (fun c h => dataOk f.ty (c.regB f h) && dataOk f.ty (c.vC f h) && c.s.acked (c.me h) (atomRelease f)) solo
      (rmw (fun c h old => if old = opB f c h then opC f c h else old))

/-- R205, R206, R212 to R216, R218 to R220: the accesses of team and plot memory complete, those of the waiting forms when the
granule is as the form wants it; a load takes the bytes there, a store leaves its bytes there, an atomic does both, and the
forms with a qualifier change the full/empty bit. -/
def Obligations.LocalCompletes : Prop := ∀ f : FForm,
  let n := memSize f.ty
  let bytesOf (s : State) (uid k : Nat) : List Byte := ((s.team? uid).map (fun t => t.bytes k n)).getD []
  let loads (c : Ctx) (h : Thread) (uid k : Nat) (s : State) : State × List RegW :=
    let s1 := match feScope f with
      | some sc => c.acquires h sc s
      | none => s
    (s1, loadWrites f.ty f.d.toNat (bytesOf s1 uid k))
  let stores (c : Ctx) (h : Thread) (uid k : Nat) (s : State) : State × List RegW :=
    let s1 := s.setTeam uid (fun t =>
      let t1 := t.writeBytes k (dataBytes f.ty (c.regB f h))
      if f.m 2 2 = 1 then t1.setFull (k / 16) true else t1)
    (if f.m 4 2 = 2 then c.acquires h ((feScope f).getD 0) s1 else s1, [])
  let rmw (g : Ctx → Thread → Nat → Nat) (c : Ctx) (h : Thread) (uid k : Nat) (s : State) : State × List RegW :=
    let s1 := atomAcquire c f h s
    let old := leNat (bytesOf s1 uid k)
    (s1.setTeam uid (fun t => t.writeBytes k (leBytes n (g c h old))), loadWrites f.ty f.d.toNat (leBytes n old))
  let wl : FeWait := if f.m 2 2 = 1 then .full else if f.m 2 2 = 2 then .consume else .none
  let ws : FeWait := if f.m 2 2 = 2 then .fill else .none
  let st (c : Ctx) (h : Thread) : Bool := dataOk f.ty (c.regB f h)
  let b (c : Ctx) (h : Thread) : Bool := dataOk f.ty (c.regB f h) && c.s.acked (c.me h) (atomRelease f)
  let bc (c : Ctx) (h : Thread) : Bool := b c h && dataOk f.ty (c.vC f h)
  let at_ (plot solo : Bool) (c : Ctx) (h : Thread) : Except Trap (Nat × Nat) :=
    c.s.localPlace c.t plot n (tBase f (c.env h) + (if solo then 0 else ((c.env h).v f.c.toNat).w.zeroExtend 64))
  let isCas : Bool := f.m 5 3 == 7
  LocalSays .ldt f (.ldt f) wl (fun _ => false) noCheck (fun c h => localAt c f false f.b n h) loads
  ∧ LocalSays .ldp f (.ldp f) wl (fun _ => false) noCheck (fun c h => localAt c f true f.b n h) loads
  ∧ LocalSays .stt f (.stt f) ws (fun _ => false) st (fun c h => localAt c f false f.c n h) stores
  ∧ LocalSays .stp f (.stp f) ws (fun _ => false) st (fun c h => localAt c f true f.c n h) stores
  ∧ LocalSays .atomt f (.atomt f) .none (fun c => atomDet c f false) b (at_ false false)
      (rmw (fun c h old => atomNew (f.m 5 3) f.ty old (opB f c h)))
  ∧ LocalSays .cast f (.cast f) .none (fun c => atomDet c f true) bc (at_ false true)
      (rmw (fun c h old => if old = opB f c h then opC f c h else old))
  ∧ LocalSays .atomp f (.atomp f) .none (fun c => atomDet c f isCas) (fun c h => b c h && (!isCas || dataOk f.ty (c.vC f h))) (at_ true isCas)
      (rmw (fun c h old =>
        if isCas = true then (if old = opC f c h then opB f c h else old) else atomNew (f.m 5 3) f.ty old (opB f c h)))
  ∧ LocalSays .fe f (.fe f) (if f.m 3 3 = 3 then .full else if f.m 3 3 = 4 then .empty else .none)
      (fun c => c.t.hdr.det && f.m 3 3 == 2) noCheck
      (fun c h => c.s.localPlace c.t (f.mb 2) 1 (tBase f (c.env h) + indexOf f f.b 16 (c.env h)))
      (fun c h uid k s =>
        let sc := if f.mb 2 = true then 2 else 1
        if f.m 3 3 = 0 then (s.setTeam uid (fun t => t.setFull (k / 16) false), [])
        else if f.m 3 3 = 1 then (s.setTeam uid (fun t => t.setFull (k / 16) true), [])
        else if f.m 3 3 = 2 then
          (if s.isFull uid (k / 16) = true then (c.acquires h sc s, [wV f.d.toNat 1 .n32]) else (s, [wV f.d.toNat 0 .n32]))
        else if f.m 3 3 = 3 then (c.acquires h sc s, [])
        else (s, []))

/-- R222 to R226: `fence`, `pref`, `cinv` and `fetch` complete; the first three change only what the caches hold, and `fetch`
takes its element, scaled under MX, from the array. That a `cinv` of more than 64 pages drops every line, and what lines `pref` and `fetch`
leave, are the model's (logs 18, 56). -/
def Obligations.CacheCompletes : Prop := ∀ f : FForm,
  let acq : Bool := f.m 3 2 != 1
  let src := (tyOf (f.m 4 5)).getD .f32
  let tag : Tag := if (fmtOf src).isSome = true then .f32 else tagOf f.ty
  let plan (c : Ctx) (h : Thread) : Plan := fetchPlan f (c.t.sreg h.row f.a.toNat) (c.regB f h).w.toNat (c.t.sreg h.row f.c.toNat)
  let ui (c : UCtx) : Nat := (c.u.sreg f.b.toNat).toNat % 2 ^ 32
  RowSays .fence (.f f) (.fence f) (fun c => ∀ h ∈ c.act, c.s.acked (c.me h) (scopeIf (f.m 3 2 != 0) (f.m 0 3)) = true) (fun c =>
      if acq = true then c.act.foldl (fun s h => c.acquires h (f.m 0 3) s) c.s else c.s)
  ∧ UniSays .fence (.f f) (.fence f) (fun c => c.s.acked (.ustream c.t.uid) (scopeIf (f.m 3 2 != 0) (f.m 0 3)) = true) (fun c =>
      if acq = true then c.s.acquire (f.m 0 3) c.t.hdr.twin c.t.die c.t.core else c.s)
  ∧ RowSays .pref (.f f) (.pref f) (fun _ => True) (fun c => c.act.foldl (fun s h =>
      s.prefetch c.t.pitch c.t.die (c.t.coreOf h.row) (f.m 4 2) (gBase c.t.rcd.window f (c.env h) + indexOf f f.b 128 (c.env h))) c.s)
  ∧ UniSays .pref (.f f) (.pref f) (fun _ => True) (fun c =>
      c.s.prefetch c.t.pitch c.t.die c.t.core (f.m 4 2) (gBase c.t.rcd.window f c.env + indexOf f f.b 128 c.env))
  ∧ RowSays .cinv (.f f) (.cinv f) (fun c => ∀ h ∈ c.act, canonical (gBase c.t.rcd.window f (c.env h)) = true) (fun c =>
      c.act.foldl (fun s h => s.cinv c.t.pitch c.t.die (cinvCaches (f.m 4 2) c.t.die (c.t.coreOf h.row))
        (gBase c.t.rcd.window f (c.env h)) (indexOf f f.b 1 (c.env h)).toNat) c.s)
  ∧ UniSays .cinv (.f f) (.cinv f) (fun c => canonical (gBase c.t.rcd.window f c.env) = true) (fun c =>
      c.s.cinv c.t.pitch c.t.die (cinvCaches (f.m 4 2) c.t.die c.t.core) (gBase c.t.rcd.window f c.env) (indexOf f f.b 1 c.env).toNat)
  ∧ (∀ (s : State) (c : Ctx) (ps : Thread → List (DWord × Nat)) (ks : Thread → List Nat) (b : Thread → Bool),
      rowStart .fetch (.f f) s = .go c →
      (∀ h ∈ c.act, plan c h = .ok (ps h) ∧ c.s.reach c.t.pitch c.t.die .read true (ps h) = .ok (ks h) (b h)) →
      exec (.fetch f) s = .next (finishFrag .fetch (.f f) c (c.act.foldl (fun s h =>
        c.perform .fu false (fun c h ps ks s =>
          (s, [wV f.d.toNat (fetchValue f (c.regB f h).w.toNat (s.gather ps ks)) tag])) h (ps h) (ks h) (b h) s) c.s) true))
  ∧ (∀ (s : State) (c : UCtx) (ps : List (DWord × Nat)) (ks : List Nat) (b : Bool), uStart .fetch (.f f) s = .go c →
      fetchPlan f (c.u.sreg f.a.toNat) (ui c) (c.u.sreg f.c.toNat) = .ok ps →
      c.s.reach c.t.pitch c.t.die .read true ps = .ok ks b →
      exec (.fetch f) s = .next (finishU .fetch (.f f) c.t.uid ((c.s.fillPieces c.t.pitch c.t.die c.t.core .fu ps ks b false).setTeam
        c.t.uid (fun t => { t with u := t.u.commit c.md [wS f.d.toNat ((fetchValue f (ui c) (c.s.gather ps ks)).zeroExtend 64)] }))
        true true))

/-- R68 to R71, R72, R230: the rendezvous instructions complete when the point is set up and, for `rdvinit`, nothing has arrived:
an arrival that makes the count the expected one begins the next phase. (Log 51.) -/
def Obligations.RendezvousCompletes : Prop := ∀ f : FForm,
  let p := f.m 0 5
  let inits (n : Nat) (t : Team) : Prop := p ≤ 23 ∧ 1 ≤ n ∧ n ≤ 4095 ∧ (t.point p).a = 0
  let good (t : Team) : Prop := p ≤ 23 ∧ (t.point p).init = true
  let one (r : Rdv) : Rdv := if r.e ≤ r.a + 1 then { r with a := 0, phase := r.phase + 1 } else { r with a := r.a + 1 }
  let ph (c : Ctx) (h : Thread) : BitVec 16 := (h.src c.cur.idx f.b.toNat).w.truncate 16
  let phU (c : UCtx) : BitVec 16 := (c.u.sreg f.b.toNat).truncate 16
  (∀ n, RowSays .rdvinit (.f f) (.rdvinit f)
      (fun c => (∃ h r, c.act = h :: r ∧ (h.src c.cur.idx f.b.toNat).w.toNat = n) ∧ inits n c.t)
      (fun c => c.s.setTeam c.t.uid (fun t => t.setPoint p { c.t.point p with init := true, e := n, a := 0 })))
  ∧ UniSays .rdvinit (.f f) (.rdvinit f) (fun c => inits (c.u.sreg f.b.toNat).toNat c.t)
      (fun c => c.s.setTeam c.t.uid (fun t =>
        t.setPoint p { c.t.point p with init := true, e := (c.u.sreg f.b.toNat).toNat, a := 0 }))
  ∧ RowSays .rdvarr (.f f) (.rdvarr f) (fun c => good c.t ∧ (c.t.hdr.det = true → f.d = 120))
      (fun c => c.s.setTeam c.t.uid (fun t => c.act.foldl (fun t h =>
        (t.setPoint p (one (t.point p))).commit c.md h.row h.pos [wV f.d.toNat ((t.point p).phase.zeroExtend 32) .n32]) t))
  ∧ UniSays .rdvarr (.f f) (.rdvarr f) (fun c => good c.t ∧ (c.t.hdr.det = true → f.d = 64))
      (fun c => c.s.setTeam c.t.uid (fun t =>
        { t.setPoint p (one (t.point p)) with u := t.u.commit c.md [wS f.d.toNat ((t.point p).phase.zeroExtend 64)] }))
  ∧ RowSays .rdvwait (.f f) (.rdvwait f) (fun c => good c.t ∧ ∀ h ∈ c.act, ph c h ≠ (c.t.point p).phase)
      (fun c => c.act.foldl (fun s h => c.acquires h 1 s) c.s)
  ∧ UniSays .rdvwait (.f f) (.rdvwait f) (fun c => good c.t ∧ phU c ≠ (c.t.point p).phase)
      (fun c => c.s.acquire 1 c.t.hdr.twin c.t.die c.t.core)
  ∧ RowSays .rdvtest (.f f) (.rdvtest f) (fun c => good c.t ∧ c.t.hdr.det = false)
      (fun c => (c.act.foldl (fun s h => if ph c h ≠ (c.t.point p).phase then c.acquires h 1 s else s) c.s).setTeam c.t.uid (fun t =>
        c.act.foldl (fun t h => t.commit c.md h.row h.pos [wP f.d.toNat (decide (ph c h ≠ (c.t.point p).phase))]) t))
  ∧ UniSays .rdvtest (.f f) (.rdvtest f) (fun c => good c.t ∧ c.t.hdr.det = false)
      (fun c => (if phU c ≠ (c.t.point p).phase then c.s.acquire 1 c.t.hdr.twin c.t.die c.t.core else c.s).setTeam c.t.uid (fun t =>
        { t with u := t.u.commit c.md [wP f.d.toNat (decide (phU c ≠ (c.t.point p).phase))] }))

/-- R74 to R79, R231, R232: the queue instructions complete: a push with room appends the values in ascending row position, a
pop takes the oldest entries and acquires, `qtry` answers whether it did, `qcnt` counts. -/
def Obligations.QueueCompletes : Prop := ∀ f : FForm,
  let q := qOf f
  let checked (c : Ctx) (allowed : List Nat) (log : Nat) : Prop := qCheck c.t.hdr.det (allowed.contains q) c.holds log c.parties = none
  let checkedU (c : UCtx) (allowed : List Nat) (log : Nat) : Prop :=
    qCheck c.t.hdr.det (allowed.contains q) true log [partyNo c.t.uid 100] = none
  let pushed (c : Team) : Nat := FMap.get (fun _ => 0) c.pushed q
  let popped (c : Team) : Nat := FMap.get (fun _ => 0) c.popped q
  RowSays .qpush (.f f) (.qpush f)
      (fun c => c.act ≠ [] ∧ checked c (mayPush c.role) (pushed c.t) ∧ c.t.qCount q + c.act.length ≤ 64)
      (fun c => c.s.setTeam c.t.uid (fun t =>
        (t.setQueue q (t.queue q ++ c.act.map (fun h => (h.src c.cur.idx f.a.toNat).lo))).notePush q (c.parties.headD 0)))
  ∧ UniSays .qpush (.f f) (.qpush f) (fun c => checkedU c (mayPush 3) (pushed c.t) ∧ c.t.qCount q < qDepth q)
      (fun c => c.s.setTeam c.t.uid (fun t =>
        (if q < 8 then t.setQueue q (t.queue q ++ [⟨(c.u.sreg f.a.toNat).truncate 32, .b32⟩])
         else t.setMqueue (q - 8) (t.mqueue (q - 8) ++ [c.u.sreg f.a.toNat])).notePush q (partyNo c.t.uid 100)))
  ∧ RowSays .qpop (.f f) (.qpop f)
      (fun c => c.act ≠ [] ∧ checked c (mayPop c.role) (popped c.t) ∧ c.act.length ≤ c.t.qCount q) (fun c => popRow c f q [])
  ∧ UniSays .qpop (.f f) (.qpop f) (fun c => checkedU c (mayPop 3) (popped c.t) ∧ 1 ≤ c.t.qCount q) (fun c => popU c f q [])
  ∧ RowSays .qtry (.f f) (.qtry f) (fun c => c.act ≠ [] ∧ (mayPop c.role).contains q = true ∧ c.t.hdr.det = false)
      (fun c => if c.act.length ≤ c.t.qCount q then popRow c f q [wP f.c.toNat true]
        else c.writeAll (fun _ => [wP f.c.toNat false]))
  ∧ UniSays .qtry (.f f) (.qtry f) (fun c => (mayPop 3).contains q = true ∧ c.t.hdr.det = false)
      (fun c => if 1 ≤ c.t.qCount q then popU c f q [wP f.c.toNat true]
        else c.s.setTeam c.t.uid (fun t => { t with u := t.u.commit c.md [wP f.c.toNat false] }))
  ∧ LaneSays .qcnt (.f f) (.qcnt f) (fun c _ => decide (q < 8) && !c.t.hdr.det)
      (fun c _ => [wV f.d.toNat (BitVec.ofNat 32 (c.t.qCount q)) .n32])
  ∧ (∀ (s : State) (c : UCtx), uStart .qcnt (.f f) s = .go c → q < 8 → c.t.hdr.det = false →
      exec (.qcnt f) s = c.wrote .qcnt (.f f) [wS f.d.toNat (BitVec.ofNat 64 (c.t.qCount q))])

/-- R233, R236, R240, R245: the Barrow commands complete their issue when the descriptor is aligned and within the allocation
and the chit may be written: the wait counter rises and the engine holds the command. `bwait` completes when every STATUS read
is final and then acquires; `bpoll` answers the STATUS. The scope of that acquire, the lines a chit read leaves, the checks of the chit
and the acceptance it shows are the model's readings (logs 38, 39, 56, 60). (Log 10.) -/
def Obligations.BarrowCompletes : Prop := ∀ f : FForm,
  let chit (c : Ctx) (h : Thread) : DWord := gBase c.t.rcd.window f (c.env h) + indexOf f f.b 16 (c.env h)
  let chitU (c : UCtx) : DWord := gBase c.t.rcd.window f c.env + indexOf f f.b 16 c.env
  let takes (c : Ctx) : State := c.act.foldl (fun s h =>
    match c.s.reach c.t.pitch c.t.die .read true [(chit c h + 8, 4)] with
    | .ok ks b => c.perform .l1 false (fun c h _ ks s =>
        (if finalStatus (s.readN (ks.headD 0) 4) = true then c.acquires h 3 s else s,
         [wV f.d.toNat (BitVec.ofNat 32 (s.readN (ks.headD 0) 4)) .n32])) h [(chit c h + 8, 4)] ks b s
    | _ => s) c.s
  let takesU (c : UCtx) : State :=
    let st := leNat (c.s.bytesAt c.t (chitU c + 8) 4)
    (if finalStatus st = true then c.s.acquire 3 c.t.hdr.twin c.t.die c.t.core else c.s).setTeam c.t.uid (fun t =>
      { t with u := t.u.commit c.md [wS f.d.toNat (BitVec.ofNat 64 st)] })
  BarrowSays .bcp .bcp f (.bcp f) ∧ BarrowSays .btile .btile f (.btile f) ∧ BarrowSays .bgat .bgat f (.bgat f)
  ∧ BarrowSays .bsct .bsct f (.bsct f) ∧ BarrowSays .bred .bred f (.bred f) ∧ BarrowSays .bfill .bfill f (.bfill f)
  ∧ RowSays .bwait (.f f) (.bwait f) (fun c => ∀ h ∈ c.act, (chit c h).toNat % 16 = 0
      ∧ ∃ k, c.s.reaches c.t .read true (chit c h + 8) 4 k ∧ finalStatus (c.s.readN k 4) = true) takes
  ∧ UniSays .bwait (.f f) (.bwait f) (fun c => (chitU c).toNat % 16 = 0 ∧ c.s.reads c.t (chitU c + 8) 4
      ∧ finalStatus (leNat (c.s.bytesAt c.t (chitU c + 8) 4)) = true) takesU
  ∧ RowSays .bpoll (.f f) (.bpoll f) (fun c => c.t.hdr.det = false ∧ ∀ h ∈ c.act, (chit c h).toNat % 16 = 0
      ∧ ∃ k, c.s.reaches c.t .read true (chit c h + 8) 4 k) takes
  ∧ UniSays .bpoll (.f f) (.bpoll f) (fun c => c.t.hdr.det = false ∧ (chitU c).toNat % 16 = 0 ∧ c.s.reads c.t (chitU c + 8) 4) takesU

/-- R363 to R367: the ray-query instructions complete in every active thread whose query is in a state that admits them and whose
traversal meets no fault: the thread holds the query, and D takes its status or the field asked for. (Log 19.) -/
def Obligations.RaysComplete : Prop := ∀ (f : FForm) (q : Ctx → Thread → Query),
  let d := f.d.toNat
  let keep (c : Ctx) (h : Thread) (s : State) : State × List RegW :=
    (setQuery c h (q c h) s, [wV d (BitVec.ofNat 32 (q c h).state) .n32])
  let walks (c : Ctx) (h : Thread) (x : Query) : Prop := (x.advance c.s c.rayEnv).ends (q c h)
  let commits (c : Ctx) (h : Thread) (x : Query) : Prop :=
    if f.mb 0 = true ∨ x.flag 10 = true then q c h = x.finish else walks c h x
  SoloSays .rqbegin f (.rqbegin f) (fun c h => rayOperands f c h = .ok (q c h))
      (fun c h s => (setQuery c h (q c h) s, [wV d 0 .n32]))
  ∧ SoloSays .rqstep f (.rqstep f)
      (fun c h => h.query.state = 0 ∧ walks c h h.query ∨ h.query.state = 3 ∨ h.query.state = 4)
      (fun c h s => if h.query.state = 0 then keep c h s else (s, [wV d (BitVec.ofNat 32 h.query.state) .n32]))
  ∧ SoloSays .rqcommit f (.rqcommit f)
      (fun c h => h.query.state = 1 ∧ commits c h (h.query.commit 1 h.query.ct h.query.cu h.query.cv)) keep
  ∧ SoloSays .rqskip f (.rqskip f)
      (fun c h => (h.query.state = 1 ∨ h.query.state = 2)
        ∧ walks c h (if f.mb 0 = true then h.query.leaveInstance else h.query)) keep
  ∧ SoloSays .rqresume f (.rqresume f)
      (fun c h => tagOk .f32 (f.mb 4) (c.vA f h) = true ∧ h.query.state = 2 ∧
        (if f32Le h.query.ct (c.vA f h).w = true ∧ f32Le (c.vA f h).w h.query.ctexit = true
            ∧ (h.query.hit = false ∨ f32Le h.query.tmax (c.vA f h).w = false)
         then commits c h (h.query.commit 2 (c.vA f h).w (h.src c.cur.idx f.b.toNat).w 0) else walks c h h.query)) keep
  ∧ LaneSays .rqget (.f f) (.rqget f) (fun _ h => h.query.state != 5)
      (fun _ h => [wV d (h.query.get (f.m 0 5)).1 (h.query.get (f.m 0 5)).2])
  ∧ SoloSays .rqsave f (.rqsave f)
      (fun c h => h.query.state ≠ 5 ∧
        ((∃ u o, imagePlace f c h = .ok (.inr (u, o))) ∨
         ∃ a ks b, imagePlace f c h = .ok (.inl a) ∧ c.s.reach c.t.pitch c.t.die .write false (pieces16 a 128) = .ok ks b))
      (fun c h s =>
        match imagePlace f c h with
        | .ok (.inr (u, o)) => (s.setTeam u (fun t => t.writeBytes o h.query.image), [])
        | .ok (.inl a) =>
          (match c.s.reach c.t.pitch c.t.die .write false (pieces16 a 128) with
           | .ok ks b => (s.scatter (pieces16 a 128) ks h.query.image).fillPieces c.t.pitch c.t.die (c.t.coreOf h.row) .l1
               (pieces16 a 128) ks b true
           | _ => s, [])
        | .error _ => (s, []))
  ∧ SoloSays .rqload f (.rqload f)
      (fun c h =>
        (∃ u o t, imagePlace f c h = .ok (.inr (u, o)) ∧ c.s.team? u = some t ∧ loadQuery c.s c.rayEnv (t.bytes o 128) = .ok (q c h)) ∨
        ∃ a bs, imagePlace f c h = .ok (.inl a) ∧ c.s.rayRead c.rayEnv a 128 = .ok bs ∧ loadQuery c.s c.rayEnv bs = .ok (q c h))
      (fun c h s =>
        match imagePlace f c h with
        | .ok (.inl a) => (setQuery c h { q c h with reads := (q c h).reads ++ [(a, 128)] } s, [])
        | _ => (setQuery c h (q c h) s, []))
  ∧ SoloSays .rtvis f (.rtvis f)
      (fun c h => ∃ x, rayOperands f c h = .ok x ∧ (Query.advance c.s { c.rayEnv with vis := true }
        { x with rflags := (x.rflags ||| 0x500) &&& ~~~0x200 }).ends (q c h))
      (fun c h s => (c.rayFill h (q c h) s, [wV d (if (q c h).hit = true then 0 else 1) .n32]))

/-- R370 to R378: the reservoir, random-number and light-tree instructions complete when the tags fit and the record or tree can
be read. (Log 20.) -/
def Obligations.ReservoirCompletes : Prop := ∀ f : FForm,
  let d := f.d.toNat
  let raw := f.mb 4
  let rsv (h : Thread) (n : Nat) : Rsv := Rsv.ofWords ((h.group n 8).map (·.val))
  let fit (raw : Bool) (h : Thread) (n : Nat) : Bool := groupOk raw rsvTags (h.group n 8)
  let b (c : Ctx) (h : Thread) : Opd := h.src c.cur.idx f.b.toNat
  let x (c : Ctx) (h : Thread) : Opd := h.src c.cur.idx f.c.toNat
  let cand (h : Thread) (i : Nat) : Word := ((h.group f.a.toNat 5).getD i {}).val
  let gives (r : Rsv) : List RegW := groupWrites d rsvTags r.words
  let loaded (bs : List Byte) : List RegW := groupWrites d rsvTags (wordsAt bs 0 8)
  let bytesOf (h : Thread) : List Byte := (rsv h f.b.toNat).words.flatMap (fun w => leBytes 4 w.toNat)
  LaneSays .rsvupd (.f f) (.rsvupd f)
      (fun c h => fit raw h d && groupOk raw [.n32, .f32, .f32, .f32, .f32] (h.group f.a.toNat 5) && tagOk .n32 raw (b c h))
      (fun c h => gives ((rsv h d).stream (cand h 0) (saneWeight (cand h 1)).1 (cand h 2) (cand h 3) (cand h 4)
        (saneWeight (cand h 1)).2 0 1 (b c h).w))
  ∧ LaneSays .rsvmrg (.f f) (.rsvmrg f)
      (fun c h => fit raw h d && fit raw h f.a.toNat && tagOk .f32 raw (b c h) && tagOk .n32 raw (x c h))
      (fun c h => gives ((rsv h d).merge (rsv h f.a.toNat) (b c h).w (x c h).w))
  ∧ LaneSays .rsvnorm (.f f) (.rsvnorm f) (fun _ h => fit false h d) (fun _ h => gives (rsv h d).norm)
  ∧ LaneSays .rng (.f f) (.rng f)
      (fun c h => tagOk .n64 raw (c.vA f h) && tagOk .n32 raw (b c h)
        && (!c.t.replay || decide (c.t.rcd.rngTab + 4 * ((c.vA f h).dw.toNat % 16) + 4 ≤ c.t.hdr.tmem)))
      (fun c h => [wV d (if c.t.replay = true then
          BitVec.ofNat 32 (leNat (c.t.bytes (c.t.rcd.rngTab + 4 * ((c.vA f h).dw.toNat % 16)) 4))
        else philox (c.vA f h).dw (b c h).w h.rngKey) .n32])
  ∧ SoloSays .rsvld f (.rsvld f)
      (fun c h => (∃ u o, rsvAt f f.b c h = .ok (.mem u o)) ∨ (∃ k, rsvAt f f.b c h = .ok (.rvs k) ∧ c.s.poisoned k 32 = false)
        ∨ ∃ a, rsvAt f f.b c h = .ok (.va a) ∧ c.s.reads c.t a 32)
      (fun c h s =>
        match rsvAt f f.b c h with
        | .ok (.mem u o) => (s, loaded (((c.s.team? u).map (fun t => t.bytes o 32)).getD []))
        | .ok (.rvs k) => (s, loaded (c.s.bytes k 32))
        | .ok (.va a) => (c.s.readBy c.t (c.t.coreOf h.row) a 32 s, loaded (c.s.bytesAt c.t a 32))
        | .error _ => (s, []))
  ∧ SoloSays .rsvst f (.rsvst f)
      (fun c h => fit (f.mb 3) h f.b.toNat = true ∧ ((∃ u o, rsvAt f f.c c h = .ok (.mem u o)) ∨ (∃ k, rsvAt f f.c c h = .ok (.rvs k))
        ∨ ∃ a k cached, rsvAt f f.c c h = .ok (.va a) ∧ c.s.translate c.t.pitch c.t.die a .write = .ok k cached))
      (fun c h s =>
        match rsvAt f f.c c h with
        | .ok (.mem u o) => (s.setTeam u (fun t => t.writeBytes o (bytesOf h)), [])
        | .ok (.rvs k) => (s.writeBytes k (bytesOf h), [])
        | .ok (.va a) =>
          (match c.s.translate c.t.pitch c.t.die a .write with
           | .ok k cached => (s.writeBytes k (bytesOf h)).fillFor c.t.pitch c.t.die (c.t.coreOf h.row) .l1 a k cached true
           | _ => s, [])
        | .error _ => (s, []))
  ∧ ∀ p : Ctx → Thread → Word × Word, SoloSays .ltw f (.ltw f)
      (fun c h => groupOk raw [.f32, .f32, .f32] (h.group f.a.toNat 3) = true ∧ tagOk .n64 raw (b c h) = true
        ∧ (c.t.sreg h.row f.c.toNat).toNat % 32 = 0
        ∧ lightWalk c.s c.rayEnv (c.t.sreg h.row f.c.toNat) ((h.group f.a.toNat 3).map (·.val))
            (fun l => rngDraw c.t c.t.replay c.t.rcd.rngTab h.rngKey ((b c h).dw + BitVec.ofNat 64 l) 0) 48 0 0 (1, 1) = .ok (p c h))
      (fun c h s => (s, [wV d (p c h).1 .n32, wV (d + 1) (p c h).2 .f32]))

/-- R327 to R333, R336 to R343, Table 17.4: the irregular-work instructions complete: a group operation is arrived at by every
thread of the fragment (one with a false guard passes a `drlend` or `drlsave` of no session), `drlnext` hands out the next item, `drlred` adds
to its owner's accumulator, `graft` puts the threads with a true guard into the table, `gftflush` empties it, `mrg` leaves the union of its
two lists. And once the whole group has arrived, the operation acts: `drlld` makes the session of what its threads with a true guard
contribute; `drlend` writes each of those its accumulator's result and whether every iteration of its own was dealt, and the session ends;
`drlsave` writes the session's image and ends it; `drlrst` makes the image's session. (Logs 21, 87.) -/
def Obligations.IrregularCompletes : Prop := ∀ (f : FForm) (ai av bi bv : Ctx → Thread → List Byte),
  let ds := f.m 0 1
  let sp := f.m 6 2
  let at_ (c : Ctx) (h : Thread) : DWord := if sp = 0 then gBase c.t.rcd.window f (c.env h) else tBase f (c.env h)
  let placed (c : Ctx) (h : Thread) : Prop := c.isOn h = true →
    if sp = 0 then canonical (at_ c h) = true ∧ (at_ c h).toNat % 4 = 0 else (at_ c h).toNat % 64 = 0
  let addr (c : Ctx) (h : Thread) : DWord := if c.isOn h then at_ c h else 0
  GroupSays .drlld f (.drlld f) true ds (fun c h => c.t.groupRows h.row (f.m 4 2 + 1))
      (fun c h => c.isOn h = true → tagOk .n32 (f.mb 3) (h.src c.cur.idx f.a.toNat) = true
        ∧ tagOk .n32 (f.mb 3) (h.src c.cur.idx f.b.toNat) = true
        ∧ ∀ r ∈ c.t.groupRows h.row (f.m 4 2 + 1), c.t.session ds r = none ∧ c.t.hdr.role r = c.t.hdr.role h.row)
      (fun _ _ => true)
      (fun c h => { bareArrival ds (.ld (f.m 4 2 + 1) (f.m 6 3) f.ty) (c.isOn h) with
        a := (h.src c.cur.idx f.a.toNat).w, b := (h.src c.cur.idx f.b.toNat).w })
  ∧ GroupSays .drlend f (.drlend f) false ds (fun c h => ((c.t.session ds h.row).map (·.rows)).getD [])
      (fun c h => ∀ d, c.t.session ds h.row = some d → d.rop = 6 ∨ oddPair c.t h d f.d.toNat = false)
      (fun c h => (c.t.session ds h.row).isSome)
      (fun c h => { bareArrival ds .fin (c.isOn h) with
        d := f.d.toNat, c := f.c.toNat, wide := (c.t.session ds h.row).any (fun d => d.ty.wide && d.rop != 6) })
  ∧ GroupSays .drlsave f (.drlsave f) false ds (fun c h => ((c.t.session ds h.row).map (·.rows)).getD [])
      placed (fun c h => (c.t.session ds h.row).isSome)
      (fun c h => { bareArrival ds .save (c.isOn h) with addr := addr c h, space := sp })
  ∧ GroupSays .drlrst f (.drlrst f) true ds (fun c h => c.restoreRows ds h sp (addr c h))
      (fun c h => (c.isOn h = true → c.t.session ds h.row = none) ∧ placed c h) (fun _ _ => true)
      (fun c h => { bareArrival ds .rst (c.isOn h) with addr := addr c h, space := sp })
  ∧ (∀ (s : State) (t : Team) (ds : Nat) (h : Thread), s.team? t.uid = some t →
      let s1 := s.groupAct t.uid ds h.row h.pos
      let ends (d : Drill) (es : List Drill) : List Drill := es.filter (fun e => !(e.ds == d.ds && e.rows == d.rows))
      (∀ g rop ty,
        let rows := t.groupRows h.row g
        let live := t.groupLive rows
        let got (c : Nat) : Option Arrival :=
          ((live.find? (fun x => t.contributor rows x.row x.pos == c)).bind (fun x => x.arrival ds)).filter (·.guard)
        let len (c : Nat) : Nat := ((got c).map (·.b.toNat)).getD 0
        let total := ((List.range (g * t.width)).map len).sum
        t.arrived ds rows (.ld g rop ty) h → t.noGroup ds rows = false → total ≤ 0xFFFFFFFF →
          ∃ d : Drill, s.groupDid s1 t.uid ds (keysOf live) (· ++ [d]) id ∧ d.ds = ds ∧ d.rows = rows ∧ d.g = g ∧ d.rop = rop ∧ d.ty = ty
            ∧ d.total = total ∧ d.e = live.length ∧ d.slots = keysOf live ∧ d.nexts = [] ∧ d.curs = [] ∧ d.accs = []
            ∧ (∀ c, c < g * t.width → d.len c = len c ∧ FMap.get (fun _ => (0 : Word)) d.starts c = ((got c).map (·.a)).getD 0)
            ∧ ∀ c, g * t.width ≤ c → d.len c = 0)
      ∧ (∀ d, t.session ds h.row = some d → t.arrived ds d.rows .fin h →
          (d.rop = 6 → ∀ x ∈ t.groupLive d.rows, ∀ b, x.arrival ds = some b → b.guard = true → b.d = 120) →
          s.groupDid s1 t.uid ds (keysOf (t.groupLive d.rows)) (ends d) (fun t0 => (t.groupLive d.rows).foldl (fun t0 x =>
            match (x.arrival ds).filter (·.guard) with
            | none => t0
            | some b =>
              let c := t.contributor d.rows x.row x.pos
              let ws := (if b.d < 120 ∧ d.rop ≠ 6 then wT d.ty b.d ((d.acc c).result d.rop d.ty) else []) ++ [wP b.c (d.allDealt c)]
              if b.lock = true then t0.putAll x.row x.pos ws else t0.arriveWrite x b ws) t0))
      ∧ (∀ d, t.session ds h.row = some d → t.arrived ds d.rows .save h →
          let ks := keysOf (t.groupLive d.rows)
          (imageThread ds (t.groupLive d.rows) = none → s.groupDid s1 t.uid ds ks (ends d) id)
          ∧ ∀ x b, imageThread ds (t.groupLive d.rows) = some (x, b) → (d.image t.width).length = 16448 ∧
            (∀ qs u, b.space = 0 → s.reach t.pitch t.die .write false (spanPages b.addr 16448) = .ok qs u →
              (s.scatterFor t.pitch (spanPages b.addr 16448) qs (d.image t.width)).groupDid s1 t.uid ds ks (ends d) id)
            ∧ ∀ u o q, b.space ≠ 0 → s.spacePlace t b.space b.addr = .ok (u, o) → s.team? u = some q → o + 16448 ≤ q.hdr.tmem →
              (s.setTeam u (fun q => q.writeBytes o (d.image t.width))).groupDid s1 t.uid ds ks (ends d) id)
      ∧ (∀ a bs, h.arrival ds = some a → a.op = .rst → a.fault = 0 → a.guard = true → s.spanRead t a.space a.addr 16448 = .ok bs →
          (∀ y ∈ t.groupLive [h.row], (y.arrival ds).any (fun b => b.op == .rst) = true) → t.thread? h.row h.pos = some h →
          let rows := t.groupRows h.row (field bs 5 1)
          let live := t.groupLive rows
          1 ≤ field bs 5 1 → field bs 5 1 ≤ 4 → (∀ y ∈ live, (y.arrival ds).any (fun b => b.op == .rst) = true) →
          ∀ x b im d, imageThread ds live = some (x, b) → s.spanRead t b.space b.addr 16448 = .ok im →
            Drill.parse ds rows (field bs 5 1) t.width (keysOf live) im = some d →
            s.groupDid s1 t.uid ds (keysOf live) (· ++ [d]) id)
      ∧ (∀ a, h.arrival ds = some a → a.op = .rst → a.fault = 0 → a.guard = false → t.thread? h.row h.pos = some h →
          (∀ y ∈ t.groupLive [h.row] ++ t.groupLive (t.groupRows h.row 12),
            (y.arrival ds).any (fun b => b.op == .rst && !b.guard) = true) →
          s.groupDid s1 t.uid ds (keysOf (t.groupLive (t.groupRows h.row 12))) id id)
      ∧ ∀ (d : Drill) c, 0 < d.e → (d.allDealt c = true ↔ ∀ i, d.pre c ≤ i → i < d.pre c + d.len c → i < d.next (i % d.e)))
  ∧ RowSays .drlnext (.f f) (.drlnext f)
      (fun c => ∀ h ∈ c.act, h.arrival ds = none ∧ ∃ d e, c.t.session ds h.row = some d ∧ d.slotOf h = some e)
      (fun c => c.s.setTeam c.t.uid (fun t => c.act.foldl (fun t h =>
        match t.session ds h.row with
        | none => t
        | some d =>
          let e := (d.slotOf h).getD 0
          let i := d.next e
          if i < d.total then
            (t.setSession { d with nexts := FMap.set id d.nexts e (i + d.e), curs := FMap.set (fun _ => none) d.curs e (some i) }).commit
              c.md h.row h.pos
              ((if f.d.toNat < 120 then
                  [wV f.d.toNat (FMap.get (fun _ => (0 : Word)) d.starts (d.owner t.width i) + BitVec.ofNat 32 (i - d.pre (d.owner t.width i))) .n32,
                   wV (f.d.toNat + 1) (BitVec.ofNat 32 (d.owner t.width i)) .n32] else []) ++ [wP f.c.toNat true])
          else
            (t.setSession { d with curs := FMap.set (fun _ => none) d.curs e none }).commit c.md h.row h.pos [wP f.c.toNat false]) t))
  ∧ RowSays .drlred (.f f) (.drlred f)
      (fun c => ∀ h ∈ c.act, h.arrival ds = none ∧ ∃ d e, c.t.session ds h.row = some d ∧ d.slotOf h = some e ∧ d.rop ≠ 6
        ∧ oddPair c.t h d f.a.toNat = false ∧ tagOk d.ty (f.mb 3) (h.src c.cur.idx f.a.toNat) = true)
      (fun c => c.s.setTeam c.t.uid (fun t => c.act.foldl (fun t h =>
        match t.session ds h.row, c.t.session ds h.row with
        | some d, some d0 =>
          match (d.slotOf h).bind d.current with
          | none => t
          | some i =>
            t.setSession { d with
              accs := FMap.set (fun _ => accInit d.rop d.ty) d.accs (d.owner t.width i)
                ((d.acc (d.owner t.width i)).add d.rop d.ty ((h.src c.cur.idx f.a.toNat).bitsT d0.ty)) }
        | _, _ => t) t))
  ∧ RowMoves .graft (.f f) (.graft f)
      (fun c => c.act ≠ [] ∧ ∀ h ∈ c.act, tagOk .n32 (f.mb 4) (h.src c.cur.idx f.a.toNat) = true)
      (fun c => c.s.setTeam c.t.uid (fun t =>
        ((c.act.foldl (fun t h => t.setThread h.row h.pos (fun g =>
            { g with st := .grafted c.cur.pc c.cur.idx (h.src c.cur.idx f.a.toNat).w, cur := c.cur })) t).setFrag
          c.fid (fun g => { g with cur := g.cur.advance, wait := none })).graftCheckAll))
  ∧ RowSays .gftflush (.f f) (.gftflush f) (fun c => c.act ≠ [] ∧ c.t.hdr.det = false)
      (fun c => c.s.setTeam c.t.uid (fun t =>
        ((c.act.map (fun h => (c.t.hdr.role h.row, c.t.coreOf h.row))).foldl (fun acc p =>
          if acc.contains p then acc else acc ++ [p]) []).foldl (fun t p =>
            let ps := (t.graftPlaces.filter (fun q => q.1 == p.1 && q.2.1 == p.2)).map (fun q => (q.2.2.1, q.2.2.2))
            t.graftFlush p.1 p.2 ps.length ps) t))
  ∧ (let desc (c : Ctx) (h : Thread) (o n : Nat) : Nat := field (c.t.bytes (tBase f (c.env h)).toNat 64) o n
     let ptr (c : Ctx) (h : Thread) (j : Nat) : DWord := BitVec.ofNat 64 (desc c h (8 * j) 8)
     let fl (c : Ctx) (h : Thread) : Nat := desc c h 60 4
     let union (c : Ctx) (h : Thread) (a v b w : List Byte) : List (Word × Word) :=
       mrgUnion (bits (fl c h) 4 4) (bitOf (fl c h) 8) (desc c h 48 4 + desc c h 52 4)
         ((wordsAt a 0 (desc c h 48 4)).zip (wordsAt v 0 (desc c h 48 4)))
         (((wordsAt b 0 (desc c h 52 4)).zip (wordsAt w 0 (desc c h 52 4))).map (fun e =>
           (e.1, if bitOf (fl c h) 9 then mrgNeg (bits (fl c h) 4 4) e.2 else e.2)))
     let out (c : Ctx) (h : Thread) (a v b w : List Byte) : List (Word × Word) := (union c h a v b w).take (desc c h 56 4)
     let good (c : Ctx) (s : State) (h : Thread) (a v b w : List Byte) : Prop :=
        (tBase f (c.env h)).toNat % 64 = 0 ∧ (tBase f (c.env h)).toNat + 64 ≤ c.t.hdr.tmem
        ∧ fl c h < 1024 ∧ bits (fl c h) 0 2 ≠ 3 ∧ bits (fl c h) 2 2 ≠ 3 ∧ 1 ≤ bits (fl c h) 4 4 ∧ bits (fl c h) 4 4 ≤ 3
        ∧ (∀ j < 6, desc c h (8 * j) 4 % 4 = 0)
        ∧ (∀ j < 4, bits (fl c h) 0 2 ≠ 0 → s.spanIn c.t (bits (fl c h) 0 2) (ptr c h j) (4 * desc c h (if j < 2 then 48 else 52) 4) = true)
        ∧ (∀ j, 4 ≤ j → j < 6 → bits (fl c h) 2 2 ≠ 0 → s.spanIn c.t (bits (fl c h) 2 2) (ptr c h j) (4 * desc c h 56 4) = true)
        ∧ (∀ j < 4, ∀ i, 4 ≤ i → i < 6 → s.spansMeet c.t (bits (fl c h) 2 2) (ptr c h i, 4 * desc c h 56 4) (bits (fl c h) 0 2)
            (ptr c h j, 4 * desc c h (if j < 2 then 48 else 52) 4) = false)
        ∧ s.spanRead c.t (bits (fl c h) 0 2) (ptr c h 0) (4 * desc c h 48 4) = .ok a
        ∧ s.spanRead c.t (bits (fl c h) 0 2) (ptr c h 1) (4 * desc c h 48 4) = .ok v
        ∧ s.spanRead c.t (bits (fl c h) 0 2) (ptr c h 2) (4 * desc c h 52 4) = .ok b
        ∧ s.spanRead c.t (bits (fl c h) 0 2) (ptr c h 3) (4 * desc c h 52 4) = .ok w
        ∧ ascending (((wordsAt a 0 (desc c h 48 4)).zip (wordsAt v 0 (desc c h 48 4))).map (·.1)) = true
        ∧ ascending (((wordsAt b 0 (desc c h 52 4)).zip (wordsAt w 0 (desc c h 52 4))).map (·.1)) = true
        ∧ (∃ x, s.spanCheck c.t (bits (fl c h) 2 2) (ptr c h 4) (4 * (out c h a v b w).length) = .ok x)
        ∧ (∃ x, s.spanCheck c.t (bits (fl c h) 2 2) (ptr c h 5) (4 * (out c h a v b w).length) = .ok x)
     SeqSays .mrg f (.mrg f) (fun c h => ∃ a v b w, good c c.s h a v b w)
      (fun c s h => good c s h (ai c h) (av c h) (bi c h) (bv c h))
      (fun c h s =>
        ((s.spanWrite c.t (bits (fl c h) 2 2) (ptr c h 4)
            ((out c h (ai c h) (av c h) (bi c h) (bv c h)).flatMap (fun e => leBytes 4 e.1.toNat))).spanWrite
            c.t (bits (fl c h) 2 2) (ptr c h 5) ((out c h (ai c h) (av c h) (bi c h) (bv c h)).flatMap (fun e => leBytes 4 e.2.toNat)),
         [wV f.d.toNat (BitVec.ofNat 32 (union c h (ai c h) (av c h) (bi c h) (bv c h)).length) .n32])))

/-- R344, R348 to R350: `glean` completes its issue; `emit` when each thread finds a free slot and its payload can be written, and when the
pool has none, its records then waiting; `recget` when the invocation has the record; `launch` when each thread's record can be read and
its queue has room, and when the queue is full, the copied records then waiting. (Logs 38, 41, 83.) -/
def Obligations.GraphCompletes : Prop := ∀ f : FForm,
  let va (c : Ctx) (h : Thread) : DWord := gBase c.t.rcd.window f (c.env h) + indexOf f f.b 64 (c.env h)
  let vaU (c : UCtx) : DWord := gBase c.t.rcd.window f c.env + indexOf f f.b 64 c.env
  let n (c : Ctx) (h : Thread) : Nat := (h.src c.cur.idx f.a.toNat).w.toNat
  RowSays .glean (.f f) (.glean f) (fun c => ∀ h ∈ c.act, c.s.descReady c.t 128 64 0 (tBase f (c.env h)))
      (fun c => c.act.foldl (fun s h => s.gleanStart f.wc.toNat c.t [(h.row, h.pos)] (c.t.coreOf h.row) h.rngKey
        (c.t.bytes (tBase f (c.env h)).toNat 128)) c.s)
  ∧ UniSays .glean (.f f) (.glean f) (fun c => c.s.descReady c.t 128 64 0 (tBase f c.env))
      (fun c => c.s.gleanStart f.wc.toNat c.t [] c.t.core c.u.rngKey (c.t.bytes (tBase f c.env).toNat 128))
  ∧ (∀ (s : State) (c : Ctx) (k : Nat) (nd : GNode) (l : Launch) (g : Graph), rowStart .emit (.f f) s = .go c →
      emitTarget c.s c.t (f.m 0 3) = some (k, nd) → c.t.hdr.det = false → c.s.launch? c.t.launch = some l → l.graph = some g →
      (∀ h ∈ c.act, h.row < 64 ∧ (tBase f (c.env h)).toNat % 16 = 0 ∧ (tBase f (c.env h)).toNat + nd.rsize ≤ c.t.hdr.tmem) →
      (∀ (slots : List Nat) (ks : List (List Nat)), (∀ h ∈ c.act, c.s.lateBy c.t.uid h.row h.pos (.emit k 0) = false) →
        slots.length = c.act.length → ks.length = c.act.length →
        (∀ j, j < slots.length → slots[j]? = ({ g with used := ((slots.take j).map (fun x => (k, x))).reverse ++ g.used } : Graph).freeSlot k) →
        (∀ e ∈ slots.zip ks, ∃ b, c.s.slotReach c.t nd e.1 = .ok e.2 b) →
        exec (.emit f) s = .next (finishFrag .emit (.f f) c (c.emitted f k nd (c.act.zip (slots.zip ks))) true))
      ∧ (g.freeSlot k = none →
          exec (.emit f) s = .next (finishFrag .emit (.f f) c (c.allWait f (fun h => .emit k (tBase f (c.env h)))) true)))
  ∧ (∀ (s : State) (c : UCtx) (k : Nat) (nd : GNode) (l : Launch) (g : Graph), uStart .emit (.f f) s = .go c →
      emitTarget c.s c.t (f.m 0 3) = some (k, nd) → c.t.hdr.det = false → c.s.launch? c.t.launch = some l → l.graph = some g →
      (tBase f c.env).toNat % 16 = 0 → (tBase f c.env).toNat + nd.rsize ≤ c.t.hdr.tmem →
      (∀ slot ks b, c.s.lateBy c.t.uid 0xFF 0 (.emit k 0) = false → g.freeSlot k = some slot → c.s.slotReach c.t nd slot = .ok ks b →
        exec (.emit f) s = .next (finishU .emit (.f f) c.t.uid
          (((c.s.fillSlot c.t k nd (tBase f c.env) slot ks).setTeam c.t.uid (fun t =>
            { t with u := t.u.commit c.md [wS f.d.toNat (BitVec.ofNat 64 slot)] })).countU c.t.uid f.wc.toNat 0) true true))
      ∧ (g.freeSlot k = none → exec (.emit f) s = .next (finishU .emit (.f f) c.t.uid
          (c.s.addLate c.t.uid 0xFF 0 c.md f.d.toNat f.wc.toNat c.s.nextId (.emit k (tBase f c.env))) true true)))
  ∧ LaneSays .recget (.f f) (.recget f) (fun c h => tagOk .n32 false (h.src c.cur.idx f.a.toNat) && (recAddr c.s c.t (n c h)).isOk)
      (fun c h =>
        match recAddr c.s c.t (n c h) with
        | .ok a => wPair f.d.toNat a .n64
        | .error _ => [])
  ∧ (∀ (s : State) (c : UCtx) (a : DWord), uStart .recget (.f f) s = .go c →
      recAddr c.s c.t ((c.u.sreg f.a.toNat).toNat % 2 ^ 32) = .ok a →
      exec (.recget f) s = c.wrote .recget (.f f) [wS f.d.toNat a])
  ∧ (∀ (s : State) (c : Ctx) (ks : Thread → List Nat) (b : Thread → Bool), rowStart .launch (.f f) s = .go c →
      (c.t.hdr.det = true → f.d = 120) →
      (∀ h ∈ c.act, h.row < 64 ∧ (va c h).toNat % 64 = 0 ∧ (∀ a ∈ c.s.accepts, a.who ≠ .thread c.t.uid h.row h.pos)
        ∧ c.s.reach c.t.pitch c.t.die .read true (pieces (va c h) 128) = .ok (ks h) (b h)) →
      let bs (h : Thread) : List Byte := c.s.gather (pieces (va c h) 128) (ks h)
      (∀ t, c.launches f (va c) bs c.act c.s = some t → exec (.launch f) s = .next (finishFrag .launch (.f f) c t true))
      ∧ ((∀ h, c.act.head? = some h → c.s.queueRoom c.t.pitch (LRec.parse (bs h)).prio = false) →
          exec (.launch f) s = .next (finishFrag .launch (.f f) c (c.allWait f (fun h => .launch (va c h) (bs h))) true)))
  ∧ (∀ (s : State) (c : UCtx), uStart .launch (.f f) s = .go c → (vaU c).toNat % 64 = 0 →
      (c.t.hdr.det = true → f.d = 64) → (∀ a ∈ c.s.accepts, a.who ≠ .ustream c.t.uid) → c.s.reads c.t (vaU c) 128 →
      let bs := c.s.bytesAt c.t (vaU c) 128
      (∀ t lid, c.s.lateBy c.t.uid 0xFF 0 (.launch (vaU c) bs) = false → c.s.queueRoom c.t.pitch (LRec.parse bs).prio = true →
        c.s.tryAccept c.t.pitch (.ustream c.t.uid) (vaU c) bs = (.settled lid, t) →
        exec (.launch f) s = .next (finishU .launch (.f f) c.t.uid ((t.setTeam c.t.uid (fun t =>
          { t with u := t.u.commit c.md [wS f.d.toNat (BitVec.ofNat 64 lid)] })).countU c.t.uid f.wc.toNat 0) true true))
      ∧ (c.s.queueRoom c.t.pitch (LRec.parse bs).prio = false → exec (.launch f) s = .next (finishU .launch (.f f) c.t.uid
          (c.s.addLate c.t.uid 0xFF 0 c.md f.d.toNat f.wc.toNat c.s.nextId (.launch (vaU c) bs)) true true)))
/-- R297 to R304, R306, R461: the M-stream's control, counter, status, queue, rendezvous, fence and leave instructions complete. -/
def Obligations.MatrixControlCompletes : Prop := ∀ (f : FForm) (i : IForm),
  let n := f.m 0 5
  let q := f.m 0 2
  let p := f.m 0 5
  let point (t : Team) : Prop := p ≤ 23 ∧ (t.point p).init = true
  let branch (c : MCtx) (m : MStream) (taken : Prop) [Decidable taken] : MStream :=
    { m with cur := { pc := if taken then c.m.cur.pc + 4 * i.imm.signExtend 64 else c.m.cur.nextHeader } }
  let outstanding (c : MCtx) : Prop := ∀ g ∈ c.s.grants, g.op = 0 → g.uid ≠ c.t.uid
  let asked (c : MCtx) : Nat := min (c.m.mreg f.a.toNat).toNat 4096
  MSays (.mnop f) (fun _ => True) (fun c => c.s)
  ∧ MSays (.mli i) (fun _ => True) (fun c => c.s.setTeam c.t.uid (fun t => { t with m := some (c.m.setM i.d.toNat i.imm) }))
  ∧ MSays (.madd f) (fun _ => True) (fun c => c.s.setTeam c.t.uid (fun t => { t with m := some (maddOp f c.m) }))
  ∧ MMoves (.mbra i) (fun _ => True) (fun c => c.upd (fun m => branch c m (i.d = 48 ∨ c.m.mreg i.d.toNat ≠ 0)))
  ∧ MMoves (.mloop i) (fun _ => True) (fun c =>
      (c.set (fun m => m.setM i.d.toNat (c.m.mreg i.d.toNat - 1))).upd (fun m => branch c m (c.m.mreg i.d.toNat - 1 ≠ 0)))
  ∧ MMoves (.mend f) (fun c => (∀ e ∈ c.m.arrays, e.2.ops = 0) ∧ c.s.draining c.t.uid = false)
      (fun c => (c.s.returnLeave c.t).setTeam c.t.uid (fun t => { t with m := t.m.map (fun m => { m with alive := false }) }))
  ∧ MSays (.msr f) (fun c => c.t.hdr.det = true → n ∉ [7, 8, 9, 10, 11, 12, 13, 23, 24])
      (fun c => c.s.setTeam c.t.uid (fun t => { t with m := some (c.m.setM f.d.toNat
        (if f.mb 5 = true then (mStatus c n >>> 32).truncate 32 else (mStatus c n).truncate 32)) }))
  ∧ MSays (.mfence f) (fun c => c.s.draining c.t.uid = false ∧ c.s.acked (.mstream c.t.uid) (scopeIf (f.m 3 2 != 0) (f.m 0 3)) = true)
      (fun c => if f.m 3 2 = 1 then c.s else c.s.acquire (f.m 0 3) false c.mdie 0)
  ∧ (∀ (x : DWord) (r : List DWord), MSays (.mqpop f) (fun c => c.t.mqueue q = x :: r)
      (fun c => (c.upd (fun m =>
        if f.mb 2 = true then (m.setM f.d.toNat (x.truncate 32)).setM (f.d.toNat + 1) ((x >>> 32).truncate 32)
        else m.setM f.d.toNat (x.truncate 32))).setTeam c.t.uid (fun t => t.setMqueue q r)))
  ∧ MSays (.marr f) (fun c => point c.t ∧ (c.t.hdr.det = true → f.d = 48))
      (fun c => (c.upd (fun m => m.setM f.d.toNat ((c.t.point p).phase.zeroExtend 32))).setTeam c.t.uid (fun t =>
        t.setPoint p (if (c.t.point p).e ≤ (c.t.point p).a + 1 then { c.t.point p with a := 0, phase := (c.t.point p).phase + 1 }
          else { c.t.point p with a := (c.t.point p).a + 1 })))
  ∧ MSays (.mwait f) (fun c => point c.t ∧ (c.t.point p).phase ≠ (c.m.mreg f.b.toNat).truncate 16)
      (fun c => c.s.acquire 1 false c.mdie 0)
  ∧ MSays (.mleave f) (fun c => outstanding c ∧ (asked c = 0 ∨ c.m.paid = true)) (fun c => c.s)
  ∧ (∀ (s : State) (c : MCtx), mStart s = .go c → outstanding c → asked c ≠ 0 → c.m.paid = false →
      exec (.mleave f) s = .next (stayM c.t.uid ((c.upd (fun m => { m with paid := true })).askLeave c.mdie c.t.pitch (asked c) 0 c.t.uid).2
        (.grant ((c.upd (fun m => { m with paid := true })).askLeave c.mdie c.t.pitch (asked c) 0 c.t.uid).1)))

/-- R290, R295, R296, R305, R308 to R312, R317: the instructions that load the arrays and masks complete once the arrays are free,
the leave is there and what they read is full: each selected array takes the image, the weights or the scales, and `mmaskld`
its mask. (Log 43.) -/
def Obligations.MatrixLoadsComplete : Prop := ∀ (f : FForm) (is : List Nat),
  let o (c : MCtx) : Nat := c.off f
  let chosen (c : MCtx) : Prop := c.sel f = .ok is
  let pair : Bool := f.ty == .bf16 && !f.mb 1
  let weights (bs : List Byte) (x : MArray) : MArray :=
    let slot (o : Nat) (second : Bool) : Slot :=
      { bytes := slotBytes bs.toArray o, zero := false, unc := f.mb 2, fmt := f.ty, dense := f.mb 0, half := f.mb 1, second := second }
    let x1 := x.setW (f.d.toNat - 24) (slot 0 false)
    if pair = true then x1.setW (f.d.toNat - 24 + 1) (slot 16384 true) else x1
  let cap := if f.ty = .bf16 ∧ f.mb 1 = false then 32768 else 16384
  let good (bs : List Byte) : Prop := f.mb 2 = true ∨ weightBad bs.toArray f.ty (f.mb 0) (f.mb 1) = false
  (∀ (s : State) (c c1 : MCtx), mStart s = .go c → chosen c →
    c.inTeam (o c) (tileBytes f.ty (f.mb 3)) (tileBytes f.ty (f.mb 3)) → c.mine (f.mb 2) (o c) (tileBytes f.ty (f.mb 3)) → c.idle is →
    c.canPay is.length → (c.afterPay is.length).readOut (f.mb 2) (o c) (tileBytes f.ty (f.mb 3)) c1 →
    exec (.mast f) s = .next (finishM c.t.uid (c1.onArrays is (fun _ x =>
      let a := (c1.m.got.take (tileBytes f.ty (f.mb 3))).toArray
      let slot (o : Nat) (second : Bool) : Slot :=
        { bytes := slotBytes a o, zero := false, fmt := f.ty, dense := f.mb 3, second := second }
      let x1 := x.setG (f.d.toNat - 40) (slot 0 false)
      if f.ty = .bf16 then x1.setG (f.d.toNat - 40 + 1) (slot 16384 true) else x1)) true))
  ∧ (∀ (s : State) (c c1 : MCtx) (cs : List MCtx), mStart s = .go c → chosen c → f.mb 3 = true → o c % 16 = 0 →
    o c + mwbNeed f [] ≤ c.t.hdr.tmem → c.idle is → c.canPay is.length → cs.length < 600 → MCtx.gathers f cap (o c) cs (c.afterPay is.length) →
    c1 = cs.getLastD (c.afterPay is.length) → good (c1.m.got.take (mwbNeed f c1.m.got)) →
    exec (.mwb f) s = .next (finishM c.t.uid (c1.onArrays is (fun _ => weights (c1.m.got.take (mwbNeed f c1.m.got)))) true))
  ∧ (∀ (s : State) (c c1 : MCtx) (ps : List (List Byte)), mStart s = .go c → chosen c → f.mb 3 = false → (c.global f).toNat % 16 = 0 →
    canonical (c.global f) = true → c.idle is → c.canPay is.length → ps.length < 600 →
    MCtx.pieces f cap (c.global f) c1 ps (c.afterPay is.length) [] → good (ps.flatten.take (mwbNeed f ps.flatten)) →
    exec (.mwb f) s = .next (finishM c.t.uid (c1.onArrays is
      (fun _ => weights (ps.flatten.take (mwbNeed f ps.flatten)))) true))
  ∧ (let g := decide (40 ≤ f.d.toNat)
     let d := f.d.toNat - (if g then 40 else 24)
     let m := msclBytes (f.m 2 2) g
     let first (c : MCtx) : Prop := ∀ j ∈ is, (if g = true then ((c.m.array j).gSlot d).second else ((c.m.array j).wSlot d).second) = false
     let put (bs : List Byte) (x : MArray) : MArray :=
       if g = true then x.setG d { x.gSlot d with scales := msclStore (f.m 2 2) bs.toArray m (x.gSlot d).scales }
       else x.setW d { x.wSlot d with scales := msclStore (f.m 2 2) bs.toArray m (x.wSlot d).scales }
     (∀ (s : State) (c : MCtx), mStart s = .go c → chosen c → f.m 2 2 = 3 → first c → c.idle is →
        exec (.mscl f) s = .next (finishM c.t.uid (c.onArrays is (fun _ => put [])) true))
     ∧ ∀ (s : State) (c c1 : MCtx), mStart s = .go c → chosen c → f.m 2 2 ≠ 3 → first c → c.inTeam (o c) m 16 →
        c.mine (f.mb 0) (o c) m → c.idle is → c.readOut (f.mb 0) (o c) m c1 →
        exec (.mscl f) s = .next (finishM c.t.uid (c1.onArrays is (fun _ => put (c1.m.got.take m))) true))
  ∧ ∀ (s : State) (c c1 c2 : MCtx) (n : Nat) (k : BitVec 256), mStart s = .go c → c.inTeam (o c) 16 16 →
    c.mine (!f.mb 0) (o c) 16 → c.readOut (!f.mb 0) (o c) 16 c1 → maskBytes (c1.m.got.take 16) = some n → o c + n ≤ c1.t.hdr.tmem →
    c1.mine (!f.mb 0) (o c) n → c1.readOut (!f.mb 0) (o c) n c2 → maskOf (c2.m.got.take n) = .ok k →
    exec (.mmaskld f) s = .next (finishM c.t.uid (c2.upd (fun m => m.setK f.d.toNat k)) true)

/-- R289, R290, R305, R312 to R316, R318 to R321: the multiplying, sieving, zeroing, converting and draining instructions complete
once the arrays are free and the leave is there. (Log 43.) -/
def Obligations.MatrixWorkCompletes : Prop := ∀ (f : FForm) (is : List Nat),
  let d := f.d.toNat - 44
  let a := f.a.toNat - 44
  let gi := f.a.toNat - 40
  let wi := f.b.toNat - 24
  let base (c : MCtx) : Nat := (c.m.mreg f.c.toNat).toNat + 2048 * is.headD 0
  let md (c : MCtx) (j : Nat) : Array Byte := (((c.m.got.take (2048 * is.length)).drop (2048 * (j - is.headD 0))).take 2048).toArray
  let odd (c : MCtx) (t : Nat) : Prop := ∀ j ∈ is, (c.m.array j).tileBad t = false
  MulSays f false false (.mma f) (fun _ _ => true) (fun x => mulCost x gi wi false) (fun x d gi wi => x.accumulate d gi wi none)
  ∧ MulSays f false false (.mmak f) (fun c j => (c.m.kreg f.c.toNat).getLsbD (16 * f.m 0 4 + j)) (fun x => mulCost x gi wi false)
      (fun x d gi wi => x.accumulate d gi wi none)
  ∧ MulSays f false true (.mscout f) (fun _ _ => true) (fun _ => 2) (fun x d gi wi => x.scout d gi wi (f.m 0 4))
  ∧ (∀ (s : State) (c c1 : MCtx), mStart s = .go c → c.sel f = .ok is → (∀ j ∈ is, mulBad (c.m.array j) d gi wi true false = false) →
      c.inTeam (base c) (2048 * is.length) 16 → c.idle is →
      c.mine (!f.mb 0) (base c) (2048 * is.length) →
      c.canPay (is.map (fun j => mulCost (c.m.array j) gi wi true)).sum →
      (c.afterPay (is.map (fun j => mulCost (c.m.array j) gi wi true)).sum).readOut (!f.mb 0) (base c) (2048 * is.length) c1 →
      (∀ j ∈ is, metaBad (md c1 j) = false) →
      exec (.mmasp f) s = .next (finishM c.t.uid (c1.onArrays is (fun j x => x.accumulate d gi wi (some (md c1 j)))) true))
  ∧ (∀ (s : State) (c : MCtx), mStart s = .go c → c.sel f = .ok is → odd c a → c.idle is → c.canPay is.length →
      exec (.msieve f) s = .next (finishM c.t.uid (
        let rms := is.map (fun j => (j, rowMaxima ((c.m.array j).values a)))
        let g := (List.range 128).map (fun r => maxNumber (rms.filterMap (fun e => e.2.getD r none)))
        let k := rms.foldl (fun (k : BitVec 256) e =>
          if sieveKeep e.2 g (ofF32 (c.m.mreg f.b.toNat)) (if f.c = 48 then none else some (ofF32 (c.m.mreg f.c.toNat))) = true then
            k ||| ((1 : BitVec 256) <<< (16 * f.m 0 4 + e.1))
          else k &&& ~~~((1 : BitVec 256) <<< (16 * f.m 0 4 + e.1))) (c.m.kreg f.d.toNat)
        ((c.afterPay is.length).set (fun m => m.setK f.d.toNat k)).onArrays is (fun _ x => x)) true))
  ∧ (∀ (s : State) (c : MCtx), mStart s = .go c → c.sel f = .ok is → c.idle is →
      exec (.mzero f) s = .next (finishM c.t.uid (c.onArrays is (fun _ x =>
        if f.mb 0 = true then (x.setT d {}).setT (d + 1) { tag := .pairHigh }
        else if d % 2 = 0 ∧ x.pairAt d then (x.setT d {}).setT (d + 1) {}
        else x.putPlain d (fun _ => 0))) true))
  ∧ (∀ (s : State) (c : MCtx), mStart s = .go c → c.sel f = .ok is → odd c a → c.idle is →
      exec (.mcvt f) s = .next (finishM c.t.uid (c.onArrays is (fun _ x =>
        match f.m 0 2 with
        | 0 => x.putPlain d (fun j => toF32 ((x.values a).getD j .nan))
        | 1 => x.putPair d (fun j => (x.values a).getD j .nan)
        | _ => x.putPlain d (fun j => toF32 (((x.values a).getD j .nan).mul (ofF32 (c.m.mreg f.b.toNat)))))) true))
  ∧ (∀ (s : State) (c : MCtx), mStart s = .go c → f.ty = .none → c.inTeam (c.off f) 48 16 → c.canPay 1 →
      exec (.mdrain f) s = .next (finishM c.t.uid ((c.afterPay 1).drainNow f (granulesOf (c.off f)
        (maskImage (c.m.kreg f.d.toNat)))) true))
  ∧ (∀ (s : State) (c : MCtx), mStart s = .go c → f.ty ≠ .none → c.sel f = .ok is → odd c d →
      c.inTeam (c.off f) (tileBytes f.ty (f.mb 2) * is.length) (tileBytes f.ty (f.mb 2)) → c.idle is → c.canPay is.length →
      exec (.mdrain f) s = .next (finishM c.t.uid (MCtx.onArrays { c.afterPay is.length with
        s := (c.afterPay is.length).drainNow f (is.zipIdx.flatMap (fun e =>
          granulesOf (c.off f + tileBytes f.ty (f.mb 2) * e.2) ((c.m.array e.1).drain d f.ty (f.mb 3) (f.mb 2)))) } is (fun _ x => x)) true))
/-! ### Every event completes: its own effect, from a state in which what it waits for is the case -/

/-- R82, R122, R143, R238, R271, R290, R327, R348, R350, R426: an instruction in flight completes when its engine operation has ended, and its
wait counter falls; a record of an `emit` or `launch` that waits is placed when there is room, and only then its destination is written and
its wait counter falls; a wait ends when its condition is the case; an array finishes an operation; a drain writes its next granule.
(Logs 10, 39, 83.) -/
def Obligations.CodeEventsComplete : Prop := ∀ s : State,
  (∀ op i, s.inflight.find? (fun j => j.id == op) = some i → i.grp = none → i.late = none → (i.dep = 0 ∨ s.engineLive i.dep = false) →
    (s.team? i.uid).isSome = true →
    exec (.longLatencyComplete op) s = .next { s.setTeam i.uid (fun t => t.lower i.threads i.wc) with
      inflight := s.inflight.filter (fun j => j.id != op) })
  ∧ (∀ op i l t, s.inflight.find? (fun j => j.id == op) = some i → i.grp = none → i.late = some l → s.team? i.uid = some t →
      s.lateBehind i l = false → l.fault = 0 →
      (∀ n o g nd x ks b, l.op = .emit n o → (s.launch? t.launch).bind (·.graph) = some g → g.nodes[n]? = some nd → g.freeSlot n = some x →
        let left := s.setGraph t.launch (fun g => { g with waiting := g.waiting.erase (n, lateParty t.uid l.row l.pos) })
        left.slotReach t nd x = .ok ks b →
        exec (.longLatencyComplete op) s = .next ((left.fillSlot t n nd o x ks).lateDone i l x))
      ∧ ∀ a bs lid s1, l.op = .launch a bs → (∀ e ∈ s.accepts, e.who ≠ bringer t.uid l.row l.pos) →
        s.queueRoom t.pitch (LRec.parse bs).prio = true →
        s.tryAccept t.pitch (bringer t.uid l.row l.pos) a bs = (.settled lid, s1) →
        exec (.longLatencyComplete op) s = .next (s1.lateDone i l lid))
  ∧ (∀ (i : Inflight) (l : Late) x t h, s.team? i.uid = some t → l.row < 64 → t.thread? l.row l.pos = some h → h.pend = [] →
      (∃ e ∈ h.late, e.1 = i.id) →
      (∀ j ∈ (s.lateDone i l x).inflight, j.id ≠ i.id)
      ∧ ∃ u g, (s.lateDone i l x).team? i.uid = some u ∧ u.thread? l.row l.pos = some g ∧ (∀ e ∈ g.late, e.1 ≠ i.id)
        ∧ (l.d < 120 → g.reg l.d = ⟨BitVec.ofNat 32 x, .n32⟩) ∧ (i.wc ≤ 5 → g.wcnt i.wc = h.wcnt i.wc - 1))
  ∧ (∀ op i ds, s.inflight.find? (fun j => j.id == op) = some i → i.grp = some ds →
      exec (.longLatencyComplete op) s = .next (i.threads.foldl (fun s k => s.groupAct i.uid ds k.1 k.2) s))
  ∧ (∀ uid fid t g w, s.team? uid = some t → t.goesOn (.frag uid fid) = true → t.frag? fid = some g → g.wait = some w →
      s.waitReady t (t.members fid) g.cur.instr? w = true → (∀ q, w ≠ .fault q) →
      exec (.waitEnd (.frag uid fid)) s = .next (s.setTeam t.uid (fun t => t.setFrag fid (fun g => { g with wait := none }))))
  ∧ (∀ uid t w, s.team? uid = some t → t.goesOn (.ustream uid) = true → t.u.wait = some w →
      s.waitReady t [] t.u.cur.instr? w = true → (∀ q, w ≠ .fault q) →
      exec (.waitEnd (.ustream uid)) s = .next (s.setTeam t.uid (fun t => { t with u := { t.u with wait := none } })))
  ∧ (∀ uid t w, s.team? uid = some t → t.goesOn (.mstream uid) = true → t.m.bind (·.wait) = some w → s.waitReady t [] none w = true →
      (∀ q, w ≠ .fault q) →
      exec (.waitEnd (.mstream uid)) s = .next (s.setTeam t.uid (fun t => { t with m := t.m.map (fun m => { m with wait := none }) })))
  ∧ (∀ uid row pos t h q, s.team? uid = some t → t.goesOn (.lane uid row pos) = true → t.thread? row pos = some h →
      h.st = .parked q → s.failedOn h = none → s.signalOf q = 1 →
      exec (.waitEnd (.lane uid row pos)) s =
        .next ((s.served q).setTeam t.uid (fun t => t.setThread row pos (fun h => { h with st := .replay }))))
  ∧ (∀ team array, exec (.arrayOpComplete team array) s = .next (s.setTeam team (fun t => { t with m := t.m.map (fun m =>
      { m with arrays := FMap.modify (fun _ => ({} : MArray)) m.arrays array (fun a => { a with ops := a.ops - 1 }) }) })))
  ∧ ∀ op d g bs rest, s.drains.find? (fun e => e.id == op) = some d → d.granules = (g, bs) :: rest → s.drainReady d = true →
      exec (.mdrainGranuleWrite op) s = .next { s.setTeam d.uid (fun t =>
          if d.kf = true then t.writeBytes (16 * g) bs else (t.writeBytes (16 * g) bs).setFull g true) with
        drains := s.drains.filterMap (fun e =>
          if e.id = op then (if rest.isEmpty = true then none else some { e with granules := rest }) else some e) }

/-- R235 to R242, R382, Tables 11.21 to 11.23: a Barrow that runs, has its leave, reaches its source and, in team memory under WE, finds its
granule empty moves its next quantum: the bytes land and DONE rises; a `bred` applies its next element; a paused command goes on after
service, or ends with STATUS 4 when it has failed; a sequenced command whose turn has come applies every element and advances the word; a
Gleaner pass writes its next pixel. The last byte, element or pixel ends the operation with STATUS 1. How many bytes a quantum has, and
whether a progress chit is written, are the model's choices (log 10), and so are the order of a pass's pixels, one an event (log 41), and how a
command meets WE and KF, an element across two pages and a fault on its word (log 80). -/
def Obligations.EngineEventsComplete : Prop := ∀ s : State,
  let runs (b : Barrow) (t : Team) : Prop := b.eng.st = .running ∧ s.owner? b.eng.uid = some t ∧ s.noLeave b.eng.id = false
  (∀ op b t a n under bs b1 s1, s.barrow? op = some b → runs b t → b.op ≠ .bred → b.eng.done < b.total →
      s.barrowDest t b = .ok (a, n, under) → s.takes t b n under bs b1 →
      (let o := b.eng.done
       let head := (if b.op = .bsct then o % b.elem == 0 else o == 0) || a.toNat % 16 == 0
       let last := (if b.op = .bsct then (o + bs.length) % b.elem == 0 else o + bs.length == b.total) || (a.toNat + bs.length) % 16 == 0
       s.lands t b head last a bs s1 →
       s1.movesOn { b1 with eng := { b.eng with done := o + bs.length },
                            past := if b.op = .bgat ∨ b.op = .bsct then s.noteOver t b a bs.length else [] } (exec (.barrowBlock op) s)))
  ∧ (∀ op b t r k c, s.barrow? op = some b → runs b t → b.op = .bred → b.sq = false → b.eng.done < b.total →
      s.engineRead t b.ssp (b.src + BitVec.ofNat 64 b.eng.done) b.elem = (r, none) →
      s.translate t.pitch t.die (b.dst + BitVec.ofNat 64 b.eng.done) .write = .ok k c → s.poisoned k b.elem = false →
      (s.put t.pitch k (leBytes b.elem (atomNew b.rop (b.et.getD .b32) (s.readN k b.elem) (leNat r)))).movesOn
        { b with eng := { b.eng with done := b.eng.done + b.elem } } (exec (.barrowBlock op) s))
  ∧ (∀ op b q, s.barrow? op = some b → b.eng.st = .paused q →
      (s.signalOf q = 1 → exec (.barrowBlock op) s = .next (barrowNow b ((s.served q).engineChit b.eng [(b.shown, 0, 0)] 0)))
      ∧ (s.signalOf q = 2 → exec (.barrowBlock op) s = .next (barrowNow b ((s.served q).engineChit b.eng [(b.shown, 4, 0)] 0))))
  ∧ (∀ op b t h k c n s1 b1, s.barrow? op = some b → runs b t → b.op = .bred → b.sq = true →
      s.translate t.pitch t.die b.p2 .write = .ok k c →
      s.homesOf t.pitch t.die ((b.p2, 8) :: pagesOf (b.total / 65536 + 2) b.dst b.total) = .ok h →
      (∀ x ∈ h, x.isSome = true ∧ x = h.headD none) → s.poisoned k 8 = false → s.readN k 8 = b.seq.toNat → n ≤ b.len + 1 →
      State.applies t n (s.putBarrow op (some { b with arrived := true })) { b with arrived := true } s1 b1 → b1.total ≤ b1.eng.done →
      exec (.sequencedReducingCopy op) s =
        .next (barrowNow b1 ((s1.put t.pitch k (leBytes 8 (b.seq.toNat + 1))).engineChit b1.eng [(b1.shown, 1, 0)] 0)))
  ∧ ∀ op g t, s.gleans.find? (fun x => x.eng.id == op) = some g → g.eng.st = .running → s.owner? g.eng.uid = some t →
      s.noLeave op = false → g.pixel < 256 →
      let x := 16 * g.tx + g.pixel % 16
      let y := 16 * g.ty + g.pixel / 16
      let g1 := { g with pixel := g.pixel + 1 }
      let goes (s1 : State) : Prop :=
        (g.pixel = 255 → exec (.gleanerPass op) s = .next (gleanNow g1 (s1.engineChit g.eng [(8192, 1, 0)] 0)))
        ∧ (g.pixel ≠ 255 → exec (.gleanerPass op) s = .next (gleanNow g1 (s1, some g.eng))
          ∨ g.pixel % 2 = 1 ∧ exec (.gleanerPass op) s = .next (gleanNow g1 (s1.engineChit g.eng [(32 * (g.pixel + 1), 0, 0)] 0)))
      (g.width ≤ x ∨ g.height ≤ y → goes s)
      ∧ ∀ r0 r1 r2, x < g.width → y < g.height → s.rvsRead t (g.n 12 4 + 32 * g.pixel) = .ok r0 →
          (g.flag 0 = true → s.temporal t g g.pixel x y r0 = .ok r1) → (g.flag 0 = false → r1 = r0) →
          s.spatial t g g.pixel x y (List.range (g.n 54 1)) r1 = .ok r2 →
          goes (s.put t.pitch (rvsBase + 2 ^ 32 * t.die + t.rcd.rvsoff + g.n 20 4 + 32 * g.pixel)
            (r2.norm.words.flatMap (fun w => leBytes 4 w.toNat)))

/-- R427 to R430, R437, R440, R441, R444 to R446, R83, R475: a record is written to its ring when there is room, a fragment enters
its continuation, a stopped team is given a window, and the time-outs, failures and deadlines end their teams. (Log 22.) -/
def Obligations.FaultEventsComplete : Prop := ∀ s : State,
  (∀ n r ks b hk c, s.recs.find? (fun q => q.n == n) = some r → s.recs.find? (fun q => q.ring == r.ring && q.die == r.die) = some r →
    s.ringOpen r.ring = true → s.ringKeys r.ring r.die .read (s.ringAt r.ring) 64 = .ok ks b →
    s.ringKeys r.ring r.die .write (s.ringAt r.ring) 8 = .ok hk c →
    (let h := RingHdr.parse (s.gather (ringPieces r.ring (s.ringAt r.ring) 64) ks)
     let slot : DWord := BitVec.ofNat 64 (h.base + 64 * (h.tail % h.cap))
     h.bad 64 = false → h.used < h.cap → ∀ sk b2, s.ringKeys r.ring r.die .write slot 64 = .ok sk b2 →
       exec (.reportRecordWrite n) s = .next (let s1 := ((s.scatterFor r.ring (ringPieces r.ring slot 64) sk r.bytes).scatterFor r.ring
           (ringPieces r.ring (s.ringAt r.ring) 8) hk (leBytes 8 (h.tail + 1))).dropPend r.n
         { s1 with outbox := s1.outbox ++ [ringVector r.ring] })))
  ∧ (∀ uid fid t g, s.team? uid = some t → t.frag? fid = some g → t.mayEnter g = true →
      exec (.continuationEntry uid fid) s = .next (s.setTeam uid (fun t => t.enter g)))
  ∧ (∀ uid t, s.team? uid = some t → t.halt.phase = .stopped → t.halt.window = none → t.halt.cause ≠ 0 → s.atRest t = true →
      ((s.pitch t.pitch).handler = 0 → exec (.handlerWindowAssign uid) s = .next (s.kill t 2 t.causeCode))
      ∧ ∀ w, (s.pitch t.pitch).handler ≠ 0 → (List.range 64).find? (fun w => (s.window t.die w).uid.isNone) = some w →
        exec (.handlerWindowAssign uid) s = .next
          (let s1 := ((s.abandonMwb t).setTeam uid (fun u => { u.flushAll with halt := { u.halt with window := some (u.die, w) } })).setWindow
            t.die w (fun _ => { uid := some uid })
           { s1 with outbox := s1.outbox ++ [.handler t.die w] }))
  ∧ (∀ d w t, s.windowTeam d w = some t → t.halt.since + 2 ^ 24 ≤ s.now →
      exec (.handlerWindowTimeout d w) s = .next (s.kill t 5 t.causeCode))
  ∧ (∀ d w t, s.windowTeam d w = some t → exec (.handlerFailure d w) s = .next (s.kill t 5 t.causeCode))
  ∧ (∀ d w t fid since, s.windowTeam d w = some t → t.halt.stepping = some (fid, since) → since ≠ 0 → since + 65536 ≤ s.now →
      exec (.stepWaitTimeout d w) s = .next ((s.setTeam t.uid (fun t =>
        { t.setFrag fid (fun g => { g with stop := true, wait := keepFault g.wait }) with
          halt := { t.halt with stepping := none } })).setWindow d w (fun x => { x with cstat := 4 })))
  ∧ (∀ uid t, s.team? uid = some t → t.retired = false → t.born + t.dleft ≤ s.now →
      exec (.launchDeadlineExpiry uid) s = .next (s.setTeam uid (fun t => t.expire s.now))
      ∧ (t.halt.late = false → t.expire s.now =
          { t.haltAll Trap.dln.code false s.now with halt := { (t.haltAll Trap.dln.code false s.now).halt with late := true } }))
  ∧ (∀ uid t due, s.team? uid = some t → t.retired = false → s.preemptDue t = some due → due ≤ s.now →
      (t.born + t.dleft ≠ due → exec (.preemptDeadlineExpiry uid) s = .next
        ((s.teams.filter (fun u => t.plot.contains u.uid && !u.retired)).foldl (fun s u =>
          (s.report u.pitch u.die (u.endRec 3 0)).closeTeam u (if u.hdr.idem = true then .again else .failed)) s))
      ∧ (t.born + t.dleft = due → exec (.preemptDeadlineExpiry uid) s = .next (s.setTeam uid (fun t => t.expire s.now))))
  ∧ (∀ uid t, s.team? uid = some t → t.retired = false →
      exec (.uncorrectableError (.regsOrTeamMem uid)) s = .next (s.eccKill t) ∧ exec (.uncorrectableError (.arrayStore uid)) s = .next (s.eccKill t))
  ∧ (∀ l, exec (.uncorrectableError (.cacheLine l)) s = .next (s.drop (fun e => e.line == l && e.cached)))
  ∧ ∀ pa, exec (.uncorrectableError (.l2OrHbm pa)) s =
      .next { s with poison := FMap.set (fun _ => false) s.poison (pa / 16) true }

/-- R145, R438 to R440, Table 23.8: the commands of a handler window complete when they are accepted, the pending writes of the stopped
team made first: CSTAT is 2 when one is done, and for STEP 1 until its clause has issued; a fragment that stands blocked or held begins
its 65,536 cycles. WRITET of what names no register, and READS of an M-stream that is not there, are done too (log 88). (Log 22.) -/
def Obligations.CommandsComplete : Prop := ∀ (s : State) (d w : Nat) (t : Team), isVDie d = true → w < 64 → s.windowTeam d w = some t →
  let began (cmd : Nat) (args : Window → Window) : State := s.setWindow d w (fun x => { args x with cmd := cmd, cstat := 1 })
  let made (cmd : Nat) (args : Window → Window) : State := (began cmd args).setTeam t.uid Team.flushAll
  let q := t.flushAll
  (∀ (a0 : Word) g, t.atStop = true → q.fragsUp[a0.toNat]? = some g →
    exec (.readf d w a0) s = .next ((made 1 (fun x => { x with a0 := a0 })).stage d w (q.fragEntry g)))
  ∧ (∀ (a0 : Word) (a1 : DWord) h, t.atStop = true → q.thread? a0.toNat a1.toNat = some h → h.live = true →
      exec (.readt d w a0 a1) s = .next ((made 2 (fun x => { x with a0 := a0, a1 := a1 })).stage d w (q.threadBytes h)))
  ∧ (∀ (a0 : Word) (a1 a2 : DWord) tg, t.atStop = true → tagOfCode a2.toNat = some tg →
      let names : Prop := (∃ h, q.thread? (bits a0.toNat 0 8) (bits a0.toNat 8 8) = some h ∧ h.live = true)
        ∧ (bits a0.toNat 16 8 < t.hdr.regs (bits a0.toNat 0 8) ∨ 128 ≤ bits a0.toNat 16 8 ∧ bits a0.toNat 16 8 < 135)
      let s1 := made 3 (fun x => { x with a0 := a0, a1 := a1, a2 := a2 })
      (names → exec (.writet d w a0 a1 a2) s = .next ((s1.setTeam t.uid (fun t =>
        t.put (bits a0.toNat 0 8) (bits a0.toNat 8 8) ⟨bits a0.toNat 16 8, a1, tg⟩)).cmdDone d w))
      ∧ (¬ names → exec (.writet d w a0 a1 a2) s = .next (s1.cmdDone d w)))
  ∧ (t.atStop = true → exec (.reads d w 0) s = .next ((made 4 (fun x => { x with a0 := 0 })).stage d w q.ustreamBytes))
  ∧ (∀ m, t.atStop = true → t.m = some m → exec (.reads d w 1) s = .next ((made 4 (fun x => { x with a0 := 1 })).stage d w m.bytes))
  ∧ (t.atStop = true → t.m = none → exec (.reads d w 1) s = .next ((made 4 (fun x => { x with a0 := 1 })).stage d w []))
  ∧ (∀ (a0 : Word) g, t.mayGoOn = true → q.frag? a0.toNat = some g →
      let fid := a0.toNat
      let stepped (at_ : Nat) : State := (made 5 (fun x => { x with a0 := a0 })).setTeam t.uid (fun t =>
        { t.setFrag fid (fun g => { g with stop := false, skid := 0, trap := 0, wait := keepFault g.wait }) with
          halt := { t.halt with stepping := some (fid, at_) } })
      ((∃ h ∈ q.threads, h.fid = fid ∧ h.st = .run) → (∀ x, g.wait ≠ some (.fault x)) → exec (.step d w a0) s = .next (stepped 0))
      ∧ (q.blocked fid = true ∨ (∃ h ∈ q.threads, h.fid = fid ∧ h.st = .run) ∧ (∃ x, g.wait = some (.fault x)) →
          t.halt.window.isSome = true → exec (.step d w a0) s = .next (stepped s.now))
      ∧ ((∀ h ∈ q.threads, h.fid = fid → h.st ≠ .run) → q.blocked fid = false →
          exec (.step d w a0) s = .next ((made 5 (fun x => { x with a0 := a0 })).cmdDone d w)))
  ∧ (t.mayGoOn = true → exec (.resume d w) s = .next
      ((((made 6 (fun x => x)).setTeam t.uid (fun t => t.resumeHalt s.now)).cmdDone d w).setWindow d w (fun x => { x with uid := none })))
  ∧ (∀ a0 : Word,
      (t.atStop = true → exec (.kill d w a0) s = .next (((made 7 (fun x => { x with a0 := a0 })).kill q 2 (a0.toNat % 256)).cmdDone d w))
      ∧ (t.atStop = false →
          exec (.kill d w a0) s = .next (((began 7 (fun x => { x with a0 := a0 })).kill t 2 (a0.toNat % 256)).cmdDone d w)))
  ∧ ∀ (launch : Word) (team : DWord) u,
      s.teams.find? (fun v => v.launch == launch.toNat && v.team == team.toNat && !v.retired) = some u →
      u.halt.phase = .running → u.hdr.det = false →
      exec (.halt d w launch team) s = .next ((s.setWindow d w (fun x =>
        { x with cmd := 8, a0 := launch, a1 := team, cstat := 2 })).setTeam u.uid (fun t => t.haltAll 0x10 false s.now))

/-- R80, R389 to R400, R413, R442 to R444: the scheduler's events complete. A sound record in an enabled, unheld pool with room in its
queue is read, HEAD advances, and it becomes a launch with the next id and a chit of STATUS 0; a record outside its limits ends with
STATUS 4. A launch whose DEP chits are absent or 1 becomes ready; one of 3 or 4 ends it with STATUS 3. A bind record is taken or refused;
teams are placed all or none; a team retires; a due batch closes; boundary and save requests stand, and teams at rest are written out and
restored. The image's layout and place are the model's (logs 11, 23). (Logs 42, 45, 53.) -/
def Obligations.LaunchEventsComplete : Prop := ∀ s : State,
  (∀ x k hb bs ps ks, x < 64 → k < 16 → s.poolAt x k ≠ 0 → k ∉ (s.pitch x).poolBroken → (s.pitch x).enable = true →
    (∀ a ∈ s.accepts, ¬(a.pitch = x ∧ a.who = .pool k)) → (∀ h ∈ (s.pitch x).poolHold, h.1 ≠ k) →
    s.schedRead x (s.poolAt x k) 64 = .ok hb →
    let h := RingHdr.parse hb
    let at_ : DWord := BitVec.ofNat 64 (h.base + 128 * (h.head % h.cap))
    let r := LRec.parse bs
    let lid := s.pkg.nextLid
    let s1 := s.scatterFor x ps ks (leBytes 8 (h.head + 1))
    let takes (s : State) (l : Launch) : State :=
      { s with launches := s.launches ++ [l], pkg := { s.pkg with nextLid := (lid + 1) % 2 ^ 32 } }
    let new (hd : KHdr) (g : Option Graph) : Launch :=
      { lid := lid, pitch := x, rcd := r, hdr := hd, from_ := at_, chit := { addr := r.chit }, width := fixedWidth hd r, graph := g,
        st := if r.dep0 = 0 ∧ r.dep1 = 0 then .ready else .queued }
    let refused : Launch := { lid := lid, pitch := x, rcd := { r with teams := 0 }, hdr := {}, st := .done, final := some 4,
                              chit := { addr := if r.chit.toNat % 16 = 0 then r.chit else 0 } }
    h.bad 128 = false → h.used ≤ h.cap → h.used ≠ 0 → s.schedRead x at_ 128 = .ok bs → s.queueRoom x r.prio = true →
    s.schedWrite x (s.poolAt x k + 8) 8 = .ok (ps, ks) → (∀ m ∈ s.launches, m.lid ≠ lid) →
    (∀ ib, s1.recBad x bs = false → r.isGraph = false → s1.schedRead x r.code 64 = .ok ib → hdrBad ib r = false →
      ((KHdr.parse ib).mstream = true → s1.mDieOnline x = true) →
      let s2 := takes s1 (new (KHdr.parse ib) none)
      (r.chit = 0 → exec (.recordAccept x k) s = .next s2)
      ∧ ∀ ck c, r.chit ≠ 0 → s2.translate x (s2.schedDie x) r.chit .write = .ok ck c →
        exec (.recordAccept x k) s = .next ((s2.put x ck (chitBytes 0 0 0 1)).setLaunch lid (fun l =>
          { l with chit := { addr := r.chit, count := 1 } })))
    ∧ (∀ a g, s1.recBad x bs = false → r.isGraph = true → s1.readGraph x r = .ok a → a.graph = some g →
      exec (.recordAccept x k) s = .next (((takes (s1.scatterFor x a.put.1 a.put.2.1 a.put.2.2) (new a.hdr (some g))).launchChit lid
        [(0, 0, 0)]).checkLaunch lid))
    ∧ (s1.recBad x bs = true → exec (.recordAccept x k) s = .next ((takes s1 refused).launchChit lid [(0, 4, 0)])))
  ∧ (∀ lid l, s.launch? lid = some l → l.pendChit = none → l.st = .queued →
      let tells (a : DWord) (ok : Nat → Prop) : Prop := ∃ bs, s.schedRead l.pitch (a + 8) 4 = .ok bs ∧ ok (field bs 0 4)
      (l.depHold = none → (∀ a ∈ [l.rcd.dep0, l.rcd.dep1], a = 0 ∨ tells a (· = 1)) → l.cancelled = false →
        (l.graph = none → l.retired + l.ended < l.rcd.teams) →
        (∀ g, l.graph = some g → ¬(g.settle.quiet = true ∧ g.settle.forming = [])) →
        exec (.launchReady lid) s = .next (s.setLaunch lid (fun l =>
          { l with st := .ready, depHold := none, graph := l.graph.map Graph.settle })))
      ∧ (l.depHold = none → l.final = none → (∃ a ∈ [l.rcd.dep0, l.rcd.dep1], a ≠ 0 ∧ tells a (fun n => n = 3 ∨ n = 4)) →
        exec (.launchReady lid) s = .next ((s.setLaunch lid (fun l =>
          { l with st := .done, final := some 3, depHold := none })).launchChit lid [(l.retired, 3, 0)]))
      ∧ (∀ q, l.depHold = some q → s.signalOf q = 2 → exec (.launchReady lid) s = .next ((s.served q).endLaunch lid 3)))
  ∧ (∀ die slot (r : BindRec), isVDie die = true → slot < 256 →
      let r1 : BindRec := { r with bflags := r.bflags &&& 0xFD#8, err := 0 }
      (bitOf r1.bflags.toNat 0 = false → exec (.bindRecordWrite die slot r) s = .next (s.setBind die slot r1))
      ∧ (bitOf r1.bflags.toNat 0 = true → s.bindErr r1 = 0 →
        exec (.bindRecordWrite die slot r) s = .next ((s.setBind die slot r1).setLaunch r1.lid.toNat (fun l =>
          { l with bound := r1.team0.toNat + r1.nteam.toNat,
                   width := if l.freeWidth = true then widthOf (bits r1.bflags.toNat 2 2) else l.width })))
      ∧ (bitOf r1.bflags.toNat 0 = true → s.bindErr r1 ≠ 0 →
        exec (.bindRecordWrite die slot r) s = .next (s.setBind die slot
          { r1 with bflags := r1.bflags &&& 0xFE#8, err := BitVec.ofNat 8 (s.bindErr r1) })))
  ∧ (∀ die slot l ts, let r := s.bind die slot
      let vd := r.die.toNat
      let part := (s.pitch l.pitch).part
      let group := l.nextGroup r part s.nextId
      let resident := s.teams.filter (fun t =>
        t.launch == l.lid && !t.retired && decide (r.team0.toNat ≤ t.ord) && decide (t.ord < r.team0.toNat + r.nteam.toNat))
      let may (c : Nat) : Bool :=
        decide (r.core0.toNat ≤ c) && decide (c < r.core0.toNat + r.ncore.toNat) && decide (c < 100)
        && partOf s.pkg.mode (sliceOf vd c) == part
        && !l.noDispatch.any (fun n => n.1 == vd && decide (n.2.1 ≤ c) && decide (c < n.2.1 + n.2.2))
      s.launch? r.lid.toNat = some l → bitOf r.bflags.toNat 0 = true → l.st = .ready → l.cancelled = false →
      (s.pitch l.pitch).enable = true → part ≠ 0xFF → s.stopped part vd ((group.1.head?.map (·.hdr)).getD {}) = false →
      s.graphHeld l = false → (r.maxres = 0 ∨ resident.length + group.1.length ≤ r.maxres.toNat) →
      (l.relaunch ≠ [] ∨ ∀ v ∈ s.saved, v.team.launch ≠ l.lid) → (l.rcd.rvslen = 0 ∨ (s.die vd).rvsWant = none) → group.1 ≠ [] →
      s.placeGroup may vd (coresFrom (((s.die vd).lastCore + 1) % 100)) group.1 = some ts →
      ∃ s', exec (.teamDispatch die slot) s = .next s' ∧ s'.nextId = s.nextId + 8 ∧ s'.mem = s.mem
        ∧ s'.teams = s.teams ++ ts.map (fun t => { t with born := s.now }) ∧ s'.launch? l.lid = some (group.2 l)
        ∧ (s'.die vd).lastCore = (ts.map (fun t => if t.hdr.twin = true then t.core + 1 else t.core)).getLastD 0)
  ∧ (∀ uid t, s.team? uid = some t → s.mayRetire t = true →
      exec (.teamRetire uid) s = .next ((s.returnLeave t).closeTeam t .retired)
      ∧ ((∀ u ∈ s.teams, u.uid ≠ uid → u.uid ∈ t.plot → u.retired = true) →
          (∀ v ∈ s.saved, v.team.uid ≠ uid → v.team.uid ∈ t.plot → v.team.retired = true) →
          ((s.returnLeave t).closeTeam t .retired).team? uid = none))
  ∧ (∀ lid node, exec (.batchTimeout lid node) s = .next (s.setLaunch lid (fun l => { l with graph := l.graph.map (fun g =>
        match g.nodes[node]?, g.forming.find? (fun f => f.1 == node) with
        | some nd, some f => if s.batchDue nd f.2.1 = true then g.close node else g
        | _, _ => g) }))
      ∧ ∀ l g nd f, s.launch? lid = some l → l.graph = some g → g.nodes[node]? = some nd →
        g.forming.find? (fun f => f.1 == node) = some f → nd.tmo ≠ 0 → ceilDiv (f.2.1 + 1024 * nd.tmo) 1024 * 1024 ≤ s.now →
        ∃ s', exec (.batchTimeout lid node) s = .next s' ∧ s'.launch? lid = some { l with graph := some (g.close node) })
  ∧ (∀ lid die core0 n l, s.launch? lid = some l →
      let s1 : State := { s with teams := s.teams.map (fun t =>
        if (s.teams.filter (fun h => h.launch == lid && !h.retired && h.onCores die core0 n)).any (fun h => h.plot.contains t.uid)
            && !t.retired then t.haltAll 0 true s.now else t) }
      exec (.preemptBoundary lid die core0 n) s = .next
        { s.setLaunch lid (fun l => { l with noDispatch := l.noDispatch ++ [(die, core0, n)] }) with
          preempts := s.preempts ++ [{ lid := lid, die := die, core0 := core0, ncore := n, at_ := s.now }] }
      ∧ (l.det = true → n ≠ 0 → exec (.preemptSave lid die core0 n) s = exec (.preemptBoundary lid die core0 n) s)
      ∧ (l.det = false → (s.teams.map (·.uid)).Nodup →
          (∀ t ∈ s1.teams, t.launch = lid → t.halt.save = true → t.retired = false → ∃ u ∈ s1.teams, u.uid ∈ t.plot ∧ s1.mayCopy u = false) →
          exec (.preemptSave lid die core0 n) s = .next s1)
      ∧ ∀ t t1 a ps ks, l.det = false → (s.teams.map (·.uid)).Nodup →
          s.teams.filter (fun u => u.launch == lid && u.halt.save && !u.retired) = [t] → t.plot = [t.uid] → s.mayCopy t = true →
          let r := s.readyImage t
          let left := t1.dleft - (s.now - t1.born)
          let bs := t1.image left
          r.team? t.uid = some t1 → r.saveAt t1.pitch bs.length = some a → r.schedWrite t1.pitch a bs.length = .ok (ps, ks) →
          exec (.preemptSave lid die core0 0) s = .next { r.scatterFor t1.pitch ps ks bs with
            teams := r.teams.filter (fun u => u.uid != t.uid)
            saved := r.saved ++ [{ team := { t1 with dleft := left, halt := {}, tbase := [], lanes := [],
                                                     syscs := t1.syscs.map (fun q => { q with reply := none }) },
                                   addr := a, size := bs.length, ckpt := s.pkg.ckpt.isSome }] })
  ∧ (∀ uid die core v ps, let vs := s.saved.filter (fun w => v.team.plot.contains w.team.uid)
      s.saved.find? (fun w => w.team.uid == uid) = some v → isVDie die = true → (s.pitch v.team.pitch).part = v.team.part →
      s.stopped v.team.part die v.team.hdr = false → (v.team.rcd.rvslen = 0 ∨ (s.die die).rvsWant = none) → (∀ w ∈ vs, ∃ t, s.readImage die w = .ok t) →
      s.placeGroup (fun c => decide (c < 100) && partOf s.pkg.mode (sliceOf die c) == v.team.part) die [core]
        (vs.map (fun w => w.team.needs)) = some ps →
      exec (.teamRestore uid die core) s =
          .next (((vs.map (fun w => (w, s.readImage die w))).zip ps).foldl (fun s e => s.copyIn e.1.1 e.2 e.1.2) s)
      ∧ ∀ t p, vs = [v] → ps = [p] → s.readImage die v = .ok t →
        let t1 : Team := { t with
          die := p.die, core := p.core, lanes := p.lanes, tbase := p.tbase, born := s.now
          frags := t.frags.map (fun g => { g with stop := false, skid := 0, wait := keepFault g.wait })
          u := { t.u with stop := false, wait := keepFault t.u.wait }
          m := t.m.map (fun m => { m with stop := false, wait := keepFault m.wait }) }
        let s1 : State := { s with saved := s.saved.filter (fun w => w.team.uid != uid), teams := s.teams ++ [t1] }
        exec (.teamRestore uid die core) s = .next (s1.acquireAll t1))

/-- R403 to R405, R408 to R411, R462: rates are written and the bucket takes its depth, periods and windows pass, an arbiter debits the
request it picks, a crate costing its beats, the Weighbridge grants a request whole, and the clamp is raised and released. At
a period each enabled pitch's bucket takes its REFILL, and what is past its DEPTH goes to the pool. A crate of zeros costs 1, one on a page without the attribute 4
(log 70). (Logs 54, 70.) -/
def Obligations.PowerEventsComplete : Prop := ∀ s : State,
  (∀ x i (r d : DWord), x < 64 → i < arbCount → r.toNat ≤ d.toNat → s.otherRefills x i + r.toNat ≤ s.capacity i →
    let dflt (i : Nat) : DWord := BitVec.ofNat 64 (rateReset x i)
    exec (.refill x i r d) s = .next ((s.setPitch x (fun p =>
      { p with refill := FMap.set dflt p.refill i r, depth := FMap.set dflt p.depth i d })).fillBucket x i))
  ∧ (s.pkg.periods < s.now / 1024 → ∃ s', exec .bucketPeriod s = .next s' ∧ { s' with arbiters := s.arbiters, pkg := s.pkg } = s
      ∧ s'.pkg = { s.pkg with periods := s.pkg.periods + 1 } ∧ ∀ i, i < arbCount →
        let filled (x : Nat) : Int := (s.arbiter i).bucket i x + s.refillOf x i
        (∀ x, x < 64 → (s'.arbiter i).bucket i x =
          if (s.pitch x).enable = true then min (filled x) (s.depthOf x i) else (s.arbiter i).bucket i x)
        ∧ (s'.arbiter i).pool =
          (((List.range 64).filter (fun x => (s.pitch x).enable)).map (fun x => (filled x - s.depthOf x i).toNat)).sum
        ∧ (s'.arbiter i).last = (s.arbiter i).last)
  ∧ (s.pkg.wWindows < s.now / 2000 → exec .weighbridgeWindow s = .next
      (((List.range 6).foldl (fun s d => s.setDie d (fun e => { e with credit := min e.credit 0 + e.budget })) s).setPkg
        (fun k => { k with wWindows := k.wWindows + 1 })))
  ∧ (∀ i reqs k x c, let rs := reqs.map (fun r => (r.1, s.costOf r.2))
      (s.arbiter i).pick i rs = some k → rs[k]? = some (x, c) →
      exec (.arbiterGrant i reqs) s = .next (s.setArbiter i (fun a =>
        if 0 < a.bucket i x then a.setBucket i x (a.bucket i x - c) else { a with pool := a.pool - c, last := x })))
  ∧ (∀ n pa, s.costOf (.tokens n) = n
      ∧ ((∀ b ∈ s.bytes (pa / 256 * 256) 256, b = 0) → s.costOf (.crate pa) = 1)
      ∧ ((∃ b ∈ s.bytes (pa / 256 * 256) 256, b ≠ 0) → FMap.get (fun _ => false) s.czPages (pa / 65536) = false → s.costOf (.crate pa) = 4)
      ∧ 1 ≤ s.costOf (.crate pa) ∧ s.costOf (.crate pa) ≤ 4)
  ∧ (∀ req g k, s.grants.find? (fun h => h.id == req) = some g →
      (s.arbiter (440 + bedOf g.die)).pick (440 + bedOf g.die) ((s.weighable (bedOf g.die)).map (fun h => (h.pitch, h.grains))) = some k →
      (s.weighable (bedOf g.die))[k]? = some g →
      ∃ s', exec (.weighbridgeGrant req) s = .next s' ∧ s'.grants = s.grants.filter (fun h => h.id != req)
        ∧ (s'.die g.die).credit = (s.die g.die).credit - g.grains
        ∧ ∀ t, g.op = 0 → s.team? g.uid = some t → s'.team? g.uid =
          some { t with m := t.m.map (fun m => { m with leave := m.leave + 16 * g.grains }) })
  ∧ exec .overCurrentClamp s = .next (s.setPkg (fun k => { k with clamp := true }))
  ∧ exec .overCurrentClampRelease s = .next (s.setPkg (fun k => { k with clamp := false }))

/-- R28, R280, R424, R428, R451, R455, R456, R463, R466, R473: the service registers and what follows from them complete. The signatures, the
certificate chain and the drawn keys are constants of the configuration (log 7), and what a page-request answer does is the model's (log 34).
(Log 24.) -/
def Obligations.ServiceEventsComplete : Prop := ∀ s : State,
  (∀ x (q : DWord) r, x < 64 → s.faults.find? (fun e => e.fseq == q.toNat) = some r → r.pitch = x → r.signal = 0 →
    let marks (n : Nat) : State := { s with faults := s.faults.map (fun e => if e.fseq = q.toNat then { e with signal := n } else e) }
    exec (.sigok x q) s = .next (marks 1)
    ∧ (r.victim.party = none → exec (.sigfail x q) s = .next (marks 2))
    ∧ (∀ p t, r.victim.party = some p → s.team? (partyUid p) = some t → t.halt.phase = .running →
        exec (.sigfail x q) s = .next (((marks 2).served q.toNat).trap p { code := Trap.xlat.code, va := BitVec.ofNat 64 r.va })))
  ∧ (∀ x (q : DWord) r, s.faults.find? (fun e => e.fseq == q.toNat && e.pitch == x) = some r →
      exec (.pageRequestResponse x q true) s = .next ((s.grantPage r).signal x q.toNat false)
      ∧ exec (.pageRequestResponse x q false) s = .next (s.signal x q.toNat true))
  ∧ (∀ x (va : DWord), x < 64 →
      exec (.invalPage x va) s = .next (s.setPitch x (fun p => { p with inval := some (bits va.toNat 16 41 * 65536) }))
      ∧ exec (.invalPitch x) s = .next (s.setPitch x (fun p => { p with inval := some 1 }))
      ∧ ∀ page, (s.pitch x).inval = some page →
        exec (.invalidationDone x) s = .next ((s.dropPages x page).setPitch x (fun p => { p with inval := none })))
  ∧ (∀ x (v : DWord), x < 64 → (s.pitch x).czstat ≠ 1 →
      ((∀ p ∈ s.czRange x v, s.mayConvert x (p / 8192) = true) →
        exec (.czctl x v) s = .next (s.setPitch x (fun p =>
          { p with czctl := v.toNat % 2 ^ 17, czbase := p.czaddr.toNat / 65536, czstat := 1 })))
      ∧ ((∃ p ∈ s.czRange x v, s.mayConvert x (p / 8192) = false) →
        exec (.czctl x v) s = .next (s.setPitch x (fun p => { p with czstat := 3 }))))
  ∧ (∀ x, x < 64 → (s.pitch x).czstat = 1 →
      let v : DWord := BitVec.ofNat 64 (s.pitch x).czctl
      exec (.crateConversionDone x) s = .next (({ s with
        czPages := FMap.setMany (fun _ => false) s.czPages ((czPagesOf (s.pitch x).czbase v).map (fun p => (p, v.getLsbD 0))) } : State).setPitch x
        (fun p => { p with czstat := 2 })))
  ∧ (∀ d (v : DWord), isVDie d = true → bits v.toNat 0 4 ≤ 8 → (s.die d).rvsWant = none →
      exec (.rvsways d v) s = .next (s.setDie d (fun e => { e with rvsWant := some (bits v.toNat 0 4) })))
  ∧ (∀ d n, (s.die d).rvsWant = some n → (∀ t ∈ s.teams, t.die = d → t.retired = false → t.rcd.rvslen = 0) →
      exec (.rvsResize d) s = .next (((s.clearRange (rvsBase + 2 ^ 32 * d + min (s.die d).rvsN n * 2 ^ 23)
        (rvsBase + 2 ^ 32 * d + max (s.die d).rvsN n * 2 ^ 23)).setDie d (fun e => { e with rvsN := n, rvsWant := none })).drop (fun e =>
          e.cache == .l2 d && decide (16 - n ≤ e.way))))
  ∧ (∀ f (v : DWord), f < 1152 → (bits v.toNat 0 6 = 0x3F ∨ (partStarts s.pkg.mode).contains (bits v.toNat 0 6) = true) →
      exec (.frameEntry f v) s = .next (s.setFrame f (fun e =>
        { owner := bits v.toNat 0 6, scrub := e.scrub || e.owner != bits v.toNat 0 6, ftag := BitVec.ofNat 16 (bits v.toNat 16 16) })))
  ∧ (∀ f, (s.frame f).scrub = true → exec (.frameScrubDone f) s = .next
      ((s.clearRange (f * 2 ^ 29) ((f + 1) * 2 ^ 29)).setFrame f (fun e => { e with scrub := false })).releaseHeld)
  ∧ (∀ d (v : DWord) q, s.svc.find? (fun r => r.tag == (s.die d).svctag.toNat) = some q →
      exec (.svcreply d v) s = .next { s with
        svc := s.svc.filter (fun r => r.tag != (s.die d).svctag.toNat)
        teams := s.teams.map (fun t => if t.uid = q.uid then t.answer (s.die d).svctag.toNat v else t)
        saved := s.saved.map (fun w => if w.team.uid = q.uid then { w with team := w.team.answer (s.die d).svctag.toNat v } else w) })
  ∧ (let answers (req : SpdmReq) (x : Answer) : Prop := exec (.spdmRequest req) s = .next { s with outbox := s.outbox ++ [x] }
     (∀ n : DWord, answers (.measurements n) (.measurements s.pkg.measLog
        (Config.sign (leBytes 8 n.toNat ++ s.pkg.measLog.flatMap (fun e => leBytes 1 e.1 ++ e.2))))
      ∧ answers (.challenge n) (.challenge (Config.sign (leBytes 8 n.toNat))))
     ∧ answers .certificate (.certificate Config.certChain) ∧ ∀ p, answers (.keyExchange p) (.keys p (Config.drawKey s.tick)))

/-- R452 to R454, R458, R459, R464 to R470, R474: the transitions of the package complete. A mode change is taken up, waits, or is refused;
it drains, purges and ends with the new MODE, its pitches in no partition and its frames unowned. A partition or a function is reset. A die
goes offline, its frames copied, or comes online, its images measured, or the request waits or is rejected. A checkpoint begins, waits or is
ignored, quiesces, streams and ends. A team due its launch deadline in the cycle of such a deadline takes DLN and is not reset (R445). A
package reset boots what it verifies. (Logs 15, 25, 27, 68, 73.) -/
def Obligations.TransitionsComplete : Prop := ∀ s : State,
  let set (f : Pkg → Pkg) : Host.Outcome State Fault Refusal := .next (s.setPkg f)
  let quiet : Prop := s.pkg.dieWait = [] ∧ s.pkg.ckptWait = none
  (∀ v : DWord, bits v.toNat 40 20 ≤ 1000000 →
    let sound : Prop := bits v.toNat 60 4 = 0 ∧ modeValid (v.truncate 40) = true ∧ s.pkg.modeReq = none ∧ s.pkg.dieReq = none
      ∧ s.pkg.ckpt = none
    (¬ sound → exec (.modereq v) s = set (fun k => { k with modestat := 3 }))
    ∧ (sound → v.truncate 40 = s.pkg.mode → exec (.modereq v) s = set (fun k => { k with modestat := 0 }))
    ∧ (sound → v.truncate 40 ≠ s.pkg.mode → exec (.modereq v) s = set (fun k => { k with
        modestat := 1
        modeReq := some { start := v.truncate 40, drain := if bits v.toNat 40 20 = 0 then 10000 else bits v.toNat 40 20,
                          parts := affected k.mode (v.truncate 40), at_ := s.now, phase := 1 } })))
  ∧ (∀ r, s.pkg.modeReq = some r → r.phase = 1 → (r.at_ + 2000 * r.drain ≤ s.now ∨ s.residents r.parts = []) →
      let s1 := s.resetTeams (r.at_ + 2000 * r.drain) (s.residents r.parts)
      (s1.residents r.parts ≠ [] → exec .modeDrainDeadline s = .next s1)
      ∧ (s1.residents r.parts = [] → exec .modeDrainDeadline s = .next (s1.setPkg (fun k => { k with
        modestat := 2, modeReq := some { r with phase := 2 }, purging := k.purging ++ r.parts }))))
  ∧ (∀ due (t : Team), s.team? t.uid = some t → t.retired = false → s.resetTeams due [t] =
      if t.born + t.dleft = due then s.setTeam t.uid (fun u => u.expire s.now) else s.forceReset t)
  ∧ (∀ p, p ∈ s.pkg.purging →
      let s1 := s.setPkg (fun k => { k with purging := k.purging.erase p })
      (s.pkg.modeReq = none → p < 64 → exec (.purgeDone p) s = .next (s1.report evRing 0 { kind := 12, pitch := some 0xFF, va := p }))
      ∧ (∀ x, s.pkg.modeReq = none → p = 64 + x →
          exec (.purgeDone p) s = .next (s1.report evRing 0 { kind := 12, pitch := some x, va := (s.pitch x).part }))
      ∧ ∀ r, s.pkg.modeReq = some r → r.phase = 2 → (∀ q ∈ r.parts, q ∉ s.pkg.purging.erase p) → quiet → (s.frames.map (·.1)).Nodup →
          ∃ s', exec (.purgeDone p) s = .next s' ∧ s'.pkg.mode = r.start ∧ s'.pkg.modestat = 0 ∧ s'.pkg.modeReq = none ∧ s'.mem = s.mem
            ∧ (∀ x, x < 64 → (s'.pitch x).part = if (s.pitch x).part ∈ r.parts then 0xFF else (s.pitch x).part)
            ∧ ∀ f, (s'.frame f).owner = if (s.frame f).owner ∈ r.parts then 0x3F else (s.frame f).owner)
  ∧ (∀ p, p ∈ partStarts s.pkg.mode →
      let mine (x : Nat) : Bool := (s.pitch x).part == p
      let purges (t : State) : State := t.setPkg (fun k => { k with purging := k.purging ++ [p] })
      exec (.partreset p) s = .next (purges (s.cancel mine (fun t => t.part == p || mine t.pitch)))
      ∧ ((∀ t ∈ s.teams ++ s.saved.map (·.team), t.retired = true ∨ t.part ≠ p ∧ mine t.pitch = false) →
          exec (.partreset p) s = .next (purges (((s.launches.filter (fun l => mine l.pitch)).map (·.lid)).foldl State.checkLaunch
            { s with launches := s.launches.map (fun l => if mine l.pitch = true then { l with cancelled := true } else l) }))))
  ∧ (∀ x, x ≠ 0 → x < 64 → ∃ s', exec (.flr x) s = .next s' ∧ (s'.pitch x).pool = [] ∧ (s'.pitch x).ring = 0 ∧ (s'.pitch x).ovfl = 0
      ∧ (s'.pitch x).save = 0 ∧ (s'.pitch x).savelen = 0 ∧ (s'.pitch x).inval = none ∧ (s'.pitch x).czaddr = 0
      ∧ (s'.pitch x).czctl = 0 ∧ (s'.pitch x).czstat = 0 ∧ (s'.pitch x).svcmask = 0 ∧ (∀ a ∈ s'.accepts, a.pitch ≠ x)
      ∧ (64 + x) ∈ s'.pkg.purging)
  ∧ (∀ (v : DWord) imgs i, (i = .dieOffline v ∧ imgs = [] ∧ v.getLsbD 3 = false) ∨ (i = .dieOnline v imgs ∧ v.getLsbD 3 = true) →
      let d := bits v.toNat 0 3
      let op := bits v.toNat 3 1
      let r : DieReq := { die := d, op := op, list := bits v.toNat 4 44 * 16, count := bits v.toNat 48 16, started := false, at_ := s.now,
                          imgs := imgs }
      let fits (e : Nat × Nat) : Prop := e.1 % 2 ^ 29 = 0 ∧ e.2 % 2 ^ 29 = 0 ∧ e.1 < 0x9000000000 ∧ e.2 < 0x9000000000
        ∧ homeDie e.1 = d ∧ homeDie e.2 ≠ d ∧ (s.die (homeDie e.2)).online = true
        ∧ (s.frame (e.1 / 2 ^ 29)).owner ≠ 0x3F ∧ (s.frame (e.2 / 2 ^ 29)).owner = (s.frame (e.1 / 2 ^ 29)).owner
      let sound : Prop := d ≠ 0 ∧ d < 6 ∧ (s.die d).online = !v.getLsbD 3 ∧ s.pkg.dieReq = none
        ∧ s.poisoned r.list (16 * r.count) = false
        ∧ ∀ k, k < r.count → fits (s.readN (r.list + 16 * k) 8, s.readN (r.list + 16 * k + 8) 8)
      let own := imgs.filter (fun i => i.die == d)
      let go : Prop := sound ∧ s.pkg.modeReq = none ∧ s.pkg.ckpt = none
      (¬ sound → exec i s = set (fun k => { k with diestat := 4 + 16 * d + 128 * op }))
      ∧ (sound → (s.pkg.modeReq.isSome = true ∨ s.pkg.ckpt.isSome = true) →
          exec i s = set (fun k => { k with dieWait := k.dieWait ++ [r], diestat := 1 + 16 * d + 128 * op }))
      ∧ (go → v.getLsbD 3 = false →
          let touched (t : Team) : Bool :=
            !t.retired && (if isVDie d = true then t.die == d else t.hdr.mstream && mDieOf (bedOf t.die) == d)
          exec i s = .next (({ s with preempts := s.preempts ++
              (((s.teams.filter touched).map (fun t => (t.launch, t.die))).eraseDups).map (fun e =>
                { lid := e.1, die := e.2, core0 := 0, ncore := 100, at_ := s.now, mOnly := !isVDie d }) } : State).setPkg
            (fun k => { k with dieReq := some { r with started := true, at_ := s.now }, diestat := 2 + 16 * d })))
      ∧ (go → v.getLsbD 3 = true → (∀ i ∈ own, imageGood i = true) →
          exec i s = .next ((((own.foldl State.measure s).raiseDie d).report evRing d { kind := 9, die := d }).setPkg
            (fun k => { k with diestat := 3 + 16 * d + 128 })))
      ∧ ∀ bad, go → v.getLsbD 3 = true → own.find? (fun i => !imageGood i) = some bad →
          exec i s = .next ((((own.filter imageGood).foldl State.measure s).report evRing 0
            { kind := 10, code := bad.index, die := d }).setPkg (fun k => { k with diestat := 4 + 16 * d + 128 })))
  ∧ (∀ d, ((s.raiseDie d).die d).online = true ∧ ((s.raiseDie d).die d).rvsN = 0
      ∧ (∀ j, j < 192 → (s.raiseDie d).frame (192 * d + j) = {})
      ∧ ∀ a, d * 0x1800000000 ≤ a → a < (d + 1) * 0x1800000000 → (s.raiseDie d).byte a = 0)
  ∧ (∀ r, s.pkg.dieReq = some r → quiet →
      (∀ t ∈ s.teams, t.retired = false → (if isVDie r.die = true then t.die ≠ r.die else t.m = none ∨ mDieOf (bedOf t.die) ≠ r.die)) →
      exec .dieEvacuationDone s = .next ((((((s.evacuation r).foldl State.copyFrame s).setDie r.die (fun e =>
        { e with online := false, rvsN := 0, rvsWant := none })).drop (Line.onDie r.die)).setPkg (fun k =>
          { k with dieReq := none, diestat := 3 + 16 * r.die })).report evRing r.die { kind := 8, die := r.die }))
  ∧ (∀ src dst a, s.Inv → src % 2 ^ 29 = 0 → dst % 2 ^ 29 = 0 → src ≠ dst →
      (s.copyFrame (src, dst)).byte a = if dst ≤ a ∧ a < dst + 2 ^ 29 then s.byte (a - dst + src) else s.byte a)
  ∧ (∀ v : DWord,
      (s.pkg.ckpt.isSome = true → exec (.ckpt v) s = .next s)
      ∧ (s.pkg.ckpt = none → (s.pkg.modeReq.isSome = true ∨ s.pkg.dieReq.isSome = true) →
          exec (.ckpt v) s = set (fun k => { k with ckptWait := some v }))
      ∧ (s.pkg.ckpt = none → s.pkg.modeReq = none → s.pkg.dieReq = none →
          exec (.ckpt v) s = .next (({ s with teams := s.teams.map (fun t =>
            if t.retired = true ∨ (s.launch? t.launch).any Launch.det = true then t else t.haltAll 0 true s.now) } : State).setPkg
            (fun k => { k with ckpt := some { target := v, at_ := s.now }, ckptstat := 0, ckptWait := none }))))
  ∧ (∀ c, s.pkg.ckpt = some c → c.at_ + 400000000 ≤ s.now → exec .ckptQuiesceDeadline s = .next
      (s.resetTeams (c.at_ + 400000000) (s.teams.filter (fun t => !t.retired && (s.launch? t.launch).any Launch.det))))
  ∧ (∀ c ok, s.pkg.ckpt = some c → (∀ t ∈ s.teams, t.retired = true) →
      let dev := bits c.target.toNat 44 12
      let good := ok && s.pkg.domain.contains dev && !s.pkg.unreachable.contains dev
      let st := if good = true then 1 else 4
      let s1 := ((if good = true then s.stream c.target else s).setPkg (fun k =>
        { k with ckpt := none, ckptstat := st })).report evRing 0 { kind := 14, code := st }
      exec (.ckptStreamDone ok) s = .next s1.releaseHeld.afterChange ∧ (s.held = [] → quiet → exec (.ckptStreamDone ok) s = .next s1))
  ∧ (∀ (v : DWord) a, s.Inv → a < 0x9000000000 →
      let dst := fabKey (bits v.toNat 44 12) (bits v.toNat 0 44)
      (s.stream v).byte (dst + a) = if (s.die (homeDie a)).online = true then s.byte a else s.byte (dst + a))
  ∧ ∀ imgs,
      let base : State := { State.reset with
        mem := s.mem.filter (fun c => decide (2 ^ 60 ≤ c.1)), atsDenied := s.atsDenied, outbox := s.outbox, agenda := s.agenda,
        turn := s.turn, tick := s.tick, pkg := { flash := imgs } }
      let own := imgs.filter (fun i => i.die == 0)
      ((∀ i ∈ own, imageGood i = true) →
        exec (.packageReset imgs) s = .next ([1, 2, 3, 4, 5].foldl (fun s d => s.bootDie imgs d) (own.foldl State.measure base)))
      ∧ ∀ bad, own.find? (fun i => !imageGood i) = some bad →
        let s1 := (own.filter imageGood).foldl State.measure base
        exec (.packageReset imgs) s =
          .next { s1.setPkg (fun k => { k with bootHeld := true }) with outbox := s1.outbox ++ [.i3cBootFailure bad.index] }

/-- R17, R20, R247, R403, R409, R438, R448 to R451, R460, R461, R472, Tables 25.1 to 25.3 and 25.7: accesses from outside complete. A host's
function that reaches a register reads it, or writes it within its limits, whole or by halves; other values, registers that are only read, and
other sizes leave everything as it is; a register whose write is an event has that event's effect. A host's access of memory, another
device's and a management core's are performed where they translate, where the tag is admitted, and where the memory is present, and fail
otherwise; a poisoned one reads as an error. The domain forms and loses members. (Logs 15, 26, 46, 47, 55, 72.) -/
def Obligations.OutsideComplete : Prop := ∀ s : State,
  let put (r : RegAt) (v : DWord) (t : Host.Outcome State Fault Refusal) : Prop := ∀ port fn a, s.bar0 port fn a = true → a % 8 = 0 →
    regAt a = r → exec (.registerWrite ⟨port, fn⟩ a (.write (leBytes 8 v.toNat))) s = t
  let within (ok : Prop) (r : RegAt) (v : DWord) (t : State) : Prop := (ok → put r v (.next t)) ∧ (¬ ok → put r v (.next s))
  let pitch (x : Nat) (f : Pitch → Pitch) : State := s.setPitch x f
  let runs (d w : Nat) (a0 : Word) (cmd : Nat) (t : State) : Host.Outcome State Fault Refusal :=
    let x := s.window d w
    match cmd with
    | 1 => exec (.readf d w a0) t
    | 2 => exec (.readt d w a0 x.a1) t
    | 3 => exec (.writet d w a0 x.a1 x.a2) t
    | 4 => exec (.reads d w a0) t
    | 5 => exec (.step d w a0) t
    | 6 => exec (.resume d w) t
    | 7 => exec (.kill d w a0) t
    | 8 => exec (.halt d w a0 x.a1) t
    | _ => .next (t.setWindow d w (fun x => { x with cstat := 3 }))
  (∀ x o, x < 64 → (o < 0x80000 → regAt (0xF4000000000 + 0x100000 * x + o) = .control x o)
    ∧ (o < 0x10000 → regAt (0xF4000000000 + 0x100000 * x + 0x80000 + o) = .service x o))
  ∧ (∀ d o, d < 6 → o < 0x1000000 → regAt (0xF0000000000 + 0x10000000 * d + o) = .die d o)
  ∧ (∀ d w o, isVDie d = true → w < 64 → o < 0x1000 → regAt (0xF0000000000 + 0x10000000 * d + 0x1000000 + 0x1000 * w + o) = .window d w o)
  ∧ (∀ o, regAt (0xFC000000000 + o) = .pkg o)
  ∧ (∀ x (v : DWord),
      within (v = 0xFF ∨ v.toNat ∈ partStarts s.pkg.mode) (.control x 0x000) v (pitch x (fun p => { p with part := v.toNat }))
      ∧ put (.control x 0x008) v (.next (
          if v.getLsbD 0 = true ∧ (s.pitch x).enable = false then (pitch x (fun p => { p with enable := true })).fillAll x
          else pitch x (fun p => { p with enable := v.getLsbD 0 })))
      ∧ within (v.toNat % 2 ^ 18 = 0) (.control x 0x010) v (pitch x (fun p => { p with troot := v }))
      ∧ put (.control x 0x018) v (.next (pitch x (fun p => { p with fmode := v.getLsbD 0 })))
      ∧ within (1 ≤ v.toNat ∧ v.toNat ≤ 1000000) (.control x 0x020) v (pitch x (fun p => { p with pdead := v.toNat }))
      ∧ put (.control x 0x028) v (.next (pitch x (fun p => { p with fab := BitVec.ofNat 64 (v.toNat % 2 ^ 18) })))
      ∧ put (.control x 0x030) v (.next (pitch x (fun p => { p with port := v.toNat % 2 })))
      ∧ put (.control x 0x038) v (.next (pitch x (fun p => { p with handler := v })))
      ∧ (∀ d, d < 6 → let m := v.toNat % 65536
          within (¬(m = 0 ∧ (s.pitch x).enable = true) ∧ m / 2 ^ (16 - (s.die d).rvsN) = 0) (.control x (0x800 + 8 * d)) v
            (pitch x (fun p => { p with waymask := FMap.set (fun _ => 0xFFFF) p.waymask d m })))
      ∧ (∀ i, i < arbCount →
          put (.control x (0x1000 + 16 * i)) v (exec (.refill x i v (BitVec.ofNat 64 (s.depthOf x i))) s)
          ∧ put (.control x (0x1008 + 16 * i)) v (exec (.refill x i (BitVec.ofNat 64 (s.refillOf x i)) v) s))
      ∧ ∀ o, 0x40 ≤ o → ¬(0x800 ≤ o ∧ o < 0x830) → ¬(0x1000 ≤ o ∧ o < 0x1000 + 16 * arbCount) → put (.control x o) v (.next s))
  ∧ (∀ x (v : DWord),
      (∀ k, k < 16 → within (v.toNat % 64 = 0) (.service x (8 * k)) v (pitch x (fun p =>
          { p with pool := FMap.set (fun _ => (0 : DWord)) p.pool k v, poolBroken := p.poolBroken.filter (· != k)
                   poolHold := p.poolHold.filter (fun h => h.1 != k) })))
      ∧ within (v.toNat % 64 = 0) (.service x 0x080) v (pitch x (fun p => { p with ring := v, ringBroken := false }))
      ∧ put (.service x 0x090) v (exec (.sigok x v) s) ∧ put (.service x 0x098) v (exec (.sigfail x v) s)
      ∧ put (.service x 0x0A0) v (.next (pitch x (fun p => { p with save := v })))
      ∧ put (.service x 0x0A8) v (.next (pitch x (fun p => { p with savelen := v })))
      ∧ put (.service x 0x0B0) v (if v.getLsbD 0 = true then exec (.invalPitch x) s else exec (.invalPage x v) s)
      ∧ within (v.toNat % 65536 = 0) (.service x 0x0C0) v (pitch x (fun p => { p with czaddr := v }))
      ∧ put (.service x 0x0C8) v (exec (.czctl x v) s)
      ∧ (∀ j, j < 4 → put (.service x (0x100 + 8 * j)) v (.next (pitch x (fun p =>
          { p with svcmask := BitVec.ofNat 256 (p.svcmask.toNat - bits p.svcmask.toNat (64 * j) 64 * 2 ^ (64 * j) + v.toNat * 2 ^ (64 * j)) }))))
      ∧ ∀ o, 0x80 ≤ o → o ∉ [0x080, 0x090, 0x098, 0x0A0, 0x0A8, 0x0B0, 0x0C0, 0x0C8] → ¬(0x100 ≤ o ∧ o < 0x120) → put (.service x o) v (.next s))
  ∧ (∀ v : DWord,
      put (.pkg 0x018) v (exec (.modereq v) s) ∧ put (.pkg 0x028) v (exec (.partreset (v.toNat % 64)) s)
      ∧ put (.pkg 0x030) v (if v.getLsbD 3 = true then exec (.dieOnline v s.pkg.flash) s else exec (.dieOffline v) s)
      ∧ within (v.toNat % 64 = 0) (.pkg 0x040) v (s.setPkg (fun k => { k with evring := v, evBroken := false }))
      ∧ put (.pkg 0x048) v (exec (.ckpt v) s) ∧ (∀ f, f < 1152 → put (.pkg (0x1000 + 8 * f)) v (exec (.frameEntry f v) s))
      ∧ (∀ o, o ∉ [0x018, 0x028, 0x030, 0x040, 0x048] → ¬(0x1000 ≤ o ∧ o < 0x1000 + 8 * 1152) → put (.pkg o) v (.next s))
      ∧ put .none v (.next s))
  ∧ (∀ d (v : DWord), isVDie d = true →
      put (.die d 0x000) v (exec (.rvsways d v) s)
      ∧ within (v.toNat % 64 = 0) (.die d 0x020) v (s.setDie d (fun e => { e with svcring := v }))
      ∧ put (.die d 0x028) v (.next (s.setDie d (fun e => { e with svctag := v }))) ∧ put (.die d 0x030) v (exec (.svcreply d v) s)
      ∧ (∀ o, o ∉ [0x000, 0x020, 0x028, 0x030] → put (.die d o) v (.next s))
      ∧ ∀ w,
          let named : State := (s.setWindow d w (fun x => { x with a0 := (v >>> 32).truncate 32 })).setWindow d w (fun x =>
            { x with cmd := v.toNat % 2 ^ 32 })
          put (.window d w 0x440) v (runs d w ((v >>> 32).truncate 32) (v.toNat % 2 ^ 32) named)
          ∧ put (.window d w 0x448) v (.next (s.setWindow d w (fun x => { x with a1 := v })))
          ∧ put (.window d w 0x450) v (.next (s.setWindow d w (fun x => { x with a2 := v })))
          ∧ ∀ o, o ∉ [0x440, 0x448, 0x450] → put (.window d w o) v (.next s))
  ∧ (∀ d (v : DWord), isVDie d = false →
      (∀ j, j < 3 → let e := d + j
        let s1 := s.setDie e (fun x => { x with budget := v.toNat })
        within ((List.range 6).foldl (fun n g => if g = e then n else n + s.budget g) 0 + v.toNat ≤ 3600
            ∧ (List.range 64).foldl (fun n x => n + s.refillOf x (440 + bedOf e)) 0 ≤ s1.capacity (440 + bedOf e))
          (.die d (0x100 + 8 * j)) v s1)
      ∧ ∀ o, ¬(0x100 ≤ o ∧ o < 0x118) → put (.die d o) v (.next s))
  ∧ (∀ port fn a, s.bar0 port fn a = true → a % 8 = 0 →
      let wr (a n x : Nat) : Host.Outcome State Fault Refusal := exec (.registerWrite ⟨port, fn⟩ a (.write (leBytes n x))) s
      (∀ x, x < 2 ^ 32 → (∀ d w o, regAt a ≠ .window d w o) →
        (∀ old, s.readReg a = some old →
          wr a 4 x = wr a 8 (bits old 32 32 * 2 ^ 32 + x) ∧ wr (a + 4) 4 x = wr a 8 (x * 2 ^ 32 + old % 2 ^ 32))
        ∧ (s.readReg a = none → wr a 4 x = wr a 8 x ∧ wr (a + 4) 4 x = .next s))
      ∧ (∀ d w x, x < 2 ^ 32 → regAt a = .window d w 0x440 →
          wr a 4 x = runs d w (s.window d w).a0 x (s.setWindow d w (fun e => { e with cmd := x }))
          ∧ wr (a + 4) 4 x = .next (s.setWindow d w (fun e => { e with a0 := BitVec.ofNat 32 x })))
      ∧ (∀ v, s.readReg a = some v → ∀ k n, (k, n) ∈ [(0, 8), (0, 4), (4, 4)] →
          exec (.registerWrite ⟨port, fn⟩ (a + k) (.read n)) s =
            .next { s with outbox := s.outbox ++ [.data (leBytes n (v / 2 ^ (8 * k)))] })
      ∧ (∀ n, exec (.registerWrite ⟨port, fn⟩ a (.read n)) s = .next { s with outbox := s.outbox ++ [.data (s.readSpace a n)] })
      ∧ ∀ n (x y : DWord), ∀ op ∈ [ExtOp.fetchAdd n x, .swap n x, .cas n x y],
          exec (.registerWrite ⟨port, fn⟩ a op) s = .next { s with outbox := s.outbox ++ [.abort] })
  ∧ (∀ port fn a op, s.bar0 port fn a = false → exec (.registerWrite ⟨port, fn⟩ a op) s = .next s)
  ∧ (∀ port fn a bs, (¬(bs.length = 4 ∨ bs.length = 8) ∨ a % bs.length ≠ 0) → exec (.registerWrite ⟨port, fn⟩ a (.write bs)) s = .next s)
  ∧ (∀ port x (off : DWord) op, s.onPort port x = true → off.toNat + op.size ≤ 2 ^ 40 → op.fits off.toNat = true →
      (op.writes = true → s.pkg.ckpt = none ∧ ∀ p y o b, Held.bar2 p y o b ∈ s.held → b.writes = true → p ≠ port) →
      let d := portDie port
      let ps := pagesOf (op.size / 65536 + 2) off op.size
      let r := s.reach x d (if op.writes = true then .write else .read) false ps
      let fails : Prop := exec (.hostBar2Access ⟨port, x⟩ off op) s = .next ((s.extAbort op .abort).report x d
        { kind := 15, pitch := x, va := off.toNat, rflags := if op.writes = true then 1 else 0 })
      (∀ ks b, (s.pitch x).enable = true → r = .ok ks b →
        ((∃ bs, op = .write bs) ∨ ∀ e ∈ ps.zip ks, s.poisoned e.2 e.1.2 = false) →
        exec (.hostBar2Access ⟨port, x⟩ off op) s = .next (s.extPerform x ps ks op))
      ∧ (∀ ks b, (s.pitch x).enable = true → r = .ok ks b → (∀ bs, op ≠ .write bs) → (∃ e ∈ ps.zip ks, s.poisoned e.2 e.1.2 = true) →
        exec (.hostBar2Access ⟨port, x⟩ off op) s = .next { s with outbox := s.outbox ++ [.abort] })
      ∧ ((s.pitch x).enable = false → fails) ∧ (∀ e, r = .trap e → fails) ∧ (∀ va p, r = .recoverable va p → fails)
      ∧ ∀ f, (s.pitch x).enable = true → r = .busy f →
        exec (.hostBar2Access ⟨port, x⟩ off op) s = .next { s with held := s.held ++ [.bar2 port x off op] })
  ∧ (∀ d pa op, (s.die d).online = true →
      let rvs (a : Nat) : Prop := rvsBase ≤ a ∧ s.placeAt d a = .present
      (s.onPackage d pa op.size = true ∨ rvs pa ∧ rvs (pa + (op.size - 1)) → op.fits pa = true →
        ((∃ bs, op = .write bs) ∨ s.poisoned pa op.size = false →
          exec (.managementCoreAccess ⟨d, pa⟩ op) s = .next (s.extPerform noPitch [(BitVec.ofNat 64 pa, op.size)] [pa] op))
        ∧ ((∀ bs, op ≠ .write bs) → s.poisoned pa op.size = true →
          exec (.managementCoreAccess ⟨d, pa⟩ op) s = .next { s with outbox := s.outbox ++ [.abort] }))
      ∧ ∀ port, s.onPackage d pa op.size = false → ¬ rvs pa → coreReaches pa = true → s.bar0 port 0 pa = true →
        exec (.managementCoreAccess ⟨d, pa⟩ op) s = exec (.registerWrite ⟨port, 0⟩ pa op) s)
  ∧ (∀ port src ftag pa op,
      let last := pa + (op.size - 1)
      let ok : Prop := s.fabricUp port = true ∧ ftag ≠ 0 ∧ s.onPackage (port / 3) pa op.size = true ∧ op.fits pa = true
        ∧ (s.frame (pa / 2 ^ 29)).ftag = ftag ∧ (s.frame (last / 2 ^ 29)).ftag = ftag
      (ok → (s.frame (pa / 2 ^ 29)).scrub = false → (s.frame (last / 2 ^ 29)).scrub = false →
        ((∃ bs, op = .write bs) ∨ s.poisoned pa op.size = false) →
        exec (.fabricRequest ⟨port, src⟩ ftag pa op) s = .next (s.extPerform noPitch [(BitVec.ofNat 64 pa, op.size)] [pa] op))
      ∧ (ok → (s.frame (pa / 2 ^ 29)).scrub = false → (s.frame (last / 2 ^ 29)).scrub = false →
        (∀ bs, op ≠ .write bs) → s.poisoned pa op.size = true →
        exec (.fabricRequest ⟨port, src⟩ ftag pa op) s = .next { s with outbox := s.outbox ++ [.abort] })
      ∧ (ok → ((s.frame (pa / 2 ^ 29)).scrub = true ∨ (s.frame (last / 2 ^ 29)).scrub = true) →
        exec (.fabricRequest ⟨port, src⟩ ftag pa op) s = .next { s with held := s.held ++ [.fabric port src ftag pa op] })
      ∧ (¬ ok → exec (.fabricRequest ⟨port, src⟩ ftag pa op) s = .next { s with outbox := s.outbox ++ [.fabricFail] }))
  ∧ (∀ dev parties, dev ∉ s.pkg.unreachable → exec (.fabricUnreachableTimeout ⟨dev, parties⟩) s =
      .next (s.setPkg (fun k => { k with unreachable := dev :: k.unreachable, unacked := k.unacked ++ parties })))
  ∧ ∀ (dev : BitVec 12) members tags, dev.toNat ≤ 2303 → (∀ m ∈ members, m ≤ 2303) →
      exec (.fabricDomainFormation dev ⟨members, tags⟩) s = .next (s.setPkg (fun k => { k with
        fabdev := dev, domain := members, unreachable := [], unacked := []
        fabTags := FMap.setMany (fun _ => 0) [] (tags.map (fun e => (e.1 * 2 ^ 15 + e.2.1 % 2 ^ 15, e.2.2))) }))

/-! ### The machine: reset, encodings, fetching, issue, traps, storage -/

/-- R28, R409, R444, R452, Tables 25.2, 25.5 and 25.7: what reset leaves; nothing is listed in memory, so the invariant holds. (Log 4, 6.) -/
def Obligations.ResetState : Prop :=
  State.reset.Inv ∧ State.reset.mem = [] ∧ State.reset.teams = [] ∧ State.reset.launches = []
  ∧ State.reset.pkg.mode = 1 ∧ State.reset.pkg.modestat = 0 ∧ State.reset.pkg.diestat = 0 ∧ State.reset.pkg.evring = 0
  ∧ State.reset.pkg.evovfl = 0 ∧ State.reset.pkg.ckptstat = 1
  ∧ (∀ x, (State.reset.pitch x).part = (if x = 0 then 0 else 0xFF) ∧ (State.reset.pitch x).enable = (x == 0)
    ∧ (State.reset.pitch x).troot = 0 ∧ (State.reset.pitch x).fmode = false ∧ (State.reset.pitch x).pdead = 10000
    ∧ (State.reset.pitch x).ring = 0 ∧ (State.reset.pitch x).ovfl = 0 ∧ (State.reset.pitch x).svcmask = 0)
  ∧ (∀ d, (State.reset.die d).rvsN = 0 ∧ (State.reset.die d).budget = 600 ∧ (State.reset.die d).svcring = 0)
  ∧ ∀ f, (State.reset.frame f).owner = 0x3F ∧ (State.reset.frame f).scrub = false ∧ (State.reset.frame f).ftag = 0

/-- R6, R249: memory stays in its canonical form, whatever a step does. (Log 4.) -/
def Obligations.StepKeepsInvariant : Prop := ∀ s t : State, s.Inv → step s = .next t → t.Inv

/-- R128 to R132, R160, Tables 7.2 to 7.6: an instruction that is legal in a stream, with every field at every value its encoding
admits, decodes from its words to itself. -/
def Obligations.EncodeDecode : Prop := ∀ (st : Stream) (i : Instr) (rest : List Word),
  i.wf st = true → i.parts.isSome = true → decodeInstr (st == .mstream) (encode i ++ rest) = .ok (i, rest)

/-- R119, Table 7.1: a word of row code is a clause header exactly when it holds none of the illegal values, and its fields are
those of the table. -/
def Obligations.ClauseHeader : Prop := ∀ (w : Word) (h : Header),
  decodeHeader false w = .ok h ↔
    (w.extractLsb' 16 16 = 0 ∧ w.extractLsb' 13 2 = 0 ∧ w.extractLsb' 4 3 ≠ 7 ∧ w.extractLsb' 0 4 ≠ 0
      ∧ h = { yld := w.getLsbD 15, wait := w.extractLsb' 7 6, clazz := w.extractLsb' 4 3, count := w.extractLsb' 0 4 })

/-- R124: in a clause that decodes, a control-transfer instruction is the last. -/
def Obligations.TransfersLast : Prop := ∀ (st : Stream) (n : Nat) (ws : List Word) (c : Clause),
  decodeClause st n ws = .ok c → ∀ (j : Nat) (i : Instr) (o : Opc) (fm : Form), c.instrs[j]? = some i → i.parts = some (o, fm) →
    o ∈ [.bra, .brx, .call, .ret, .join, .exit, .fresume, .mbra, .mloop, .mend] → j + 1 = c.instrs.length

/-- R119 to R122, R125, R133: a clause that decodes holds COUNT instructions, each legal in the stream and of the clause's class, a
`skip` within its reach, and in row code only registers that the role has; it takes no more than 31 words. -/
def Obligations.ClauseIsLegal : Prop := ∀ (st : Stream) (n : Nat) (ws : List Word) (c : Clause), decodeClause st n ws = .ok c →
  c.instrs.length = c.header.count.toNat ∧ 1 ≤ c.instrs.length ∧ c.instrs.length ≤ 15
  ∧ 1 + c.instrs.length ≤ c.words ∧ c.words ≤ 1 + 2 * c.instrs.length
  ∧ ∀ (j : Nat) (i : Instr), c.instrs[j]? = some i → i.wf st = true
    ∧ (st = .row → i.regsOk n = true)
    ∧ (∀ (o : Opc) (fm : Form), i.parts = some (o, fm) →
      (st ≠ .mstream → c.header.clazz ≠ 0 → o.transfer = false → o ≠ .nop → o ≠ .skip → o.clazz = c.header.clazz.toNat)
      ∧ ∀ x, o = .skip → fm = .i x → j + x.imm.toNat < c.instrs.length)

/-- R344, R366, R432, R434, Tables 7.2 and 7.10: words that the spec writes out decode to the instructions it says they are: `brk 5`,
`trap 7`, `fresume`, `mrg` of v41 and v40, `rqresume v20, v24, v22`. -/
def Obligations.DecodeWords : Prop :=
  let f (d a b c : Nat) (t : Ty) : FForm :=
    { interlock := true, d := BitVec.ofNat 7 d, a := BitVec.ofNat 7 a, b := BitVec.ofNat 7 b, look := 0, grd := { neg := false, pred := 7 },
      c := BitVec.ofNat 7 c, wc := 7, ty := t, mod := 0 }
  let i (n : Nat) : IForm := { interlock := true, d := 0, look := 0, grd := { neg := false, pred := 7 }, ty := .none, imm := BitVec.ofNat 32 n }
  decodeInstr false [0x41400005] = .ok (.brk (i 5), [])
  ∧ decodeInstr false [0x41600007] = .ok (.trap (i 7), [])
  ∧ decodeInstr false [0x41C00000] = .ok (.fresume (f 0 0 0 0 .none), [])
  ∧ decodeInstr false [0x5D0A5400] = .ok (.mrg (f 41 40 0 0 .none), [])
  ∧ decodeInstr false [0x5A850C16] = .ok (.rqresume (f 20 24 22 0 .none), [])

/-- R118, R120, R137, R401, R426 and logs 1, 3, 21, 50, 69 and 74: a turn of a party that may issue runs the instruction at its place: of the clause it
holds, or of the clause that the bytes at its PC decode to, which it then holds. What the step adds is the deadlines that have passed (R83, log 69),
the schedule, the group operations of its team that can act (logs 21, 50), the tokens that the issue costs its pitch, without which it does not issue, the
note of whose turn it is, and, afterwards, the clock (log 3). -/
def Obligations.StepRunsDecoded : Prop := ∀ (s s0 s1 : State) (p : Party) (t : Team) (st : Stream) (d n : Nat) (cur : Cursor) (i : Instr),
  ((∃ rest, s.agenda = .party p :: rest ∧ s0 = { s.expireAll with agenda := rest })
    ∨ (s.agenda = [] ∧ pickTurn s = some (.party p) ∧ s0 = { s.expireAll with turn := s.turn + 1 })) →
  withheld s0 (.party p) = false → s1 = s0.actDue (partyUid p) → partyPlace s1 p = some (t, st, d, n, cur) → mayIssue t p = true →
  (∀ o fm, i.parts = some (o, fm) → isConv o = true → ∀ u r q, p ≠ .lane u r q) →
  let issues (s2 : State) : Prop :=
    (∀ s3, s2.issue p i = some s3 → step s = clockOn (exec i { s3 with cur := some p }))
    ∧ (s2.issue p i = none → step s = clockOn (.next s2))
  (∀ c, cur.clause = some c → c.instrs[cur.idx]? = some i → issues s1)
  ∧ ∀ w ws c, cur.clause = none → cur.pc.toNat % 4 = 0 → readCode s1 t.pitch d cur.pc 1 = ([w], none) →
      (readCode s1 t.pitch d (cur.pc + 4) (2 * (w.extractLsb' 0 4).toNat)).1 = ws → decodeClause st n (w :: ws) = .ok c →
      c.instrs[cur.idx]? = some i → issues (s1.setTeam t.uid (fun t => t.begin p c))

/-- R122, R136, R142, R143, R426, R442: when a party comes to issue its instruction: a fragment, or a thread alone, that holds a clause,
whose selected wait counters are zero, whose destinations are written and whose counters and pending writes have room; it
issues with its members, the active ones being those whose guard is true and which no `skip` passes over. -/
def Obligations.StartConditions : Prop := ∀ (o : Opc) (fm : Form) (s : State) (uid : Nat) (t : Team), s.team? uid = some t →
  (s.teams.map (·.uid)).Nodup →
  let free (hs : List Thread) (c : Cursor) : Prop :=
    (∀ h ∈ hs, countersBusy h.wcnt c.waitMask = false ∧ heldUp o fm h = false ∧ (flushes o fm = true → h.pend = []))
    ∧ ∀ h ∈ hs, h.on fm.guard = true → (fm.wc ≤ 5 → h.wcnt fm.wc < 63) ∧ h.pend.length + pendNeed o fm ≤ 8
  let ctx (p : Party) (fid : Nat) (c : Cursor) (hs : List Thread) : Ctx :=
    { s := s, t := t, p := p, fid := fid, cur := c, mem := hs, act := hs.filter (Thread.on fm.guard), md := writeMode o fm c.idx }
  (∀ fid g, s.cur = some (.frag uid fid) → t.frag? fid = some g → g.cur.clause.isSome = true → (keysOf t.threads).Nodup →
    (isConv o = true → t.parking fid = false ∧ ∀ h ∈ t.threads, h.fid = fid → h.st ≠ .atConv) → free (t.members fid) g.cur →
    rowStart o fm s = .go (ctx (.frag uid fid) fid g.cur (t.members fid)))
  ∧ (∀ row pos h, s.cur = some (.lane uid row pos) → t.thread? row pos = some h → h.cur.clause.isSome = true →
    (keysOf t.threads).Nodup → free [h] h.cur → rowStart o fm s = .go (ctx (.lane uid row pos) h.fid h.cur [h]))
  ∧ (s.cur = some (.ustream uid) → t.u.cur.clause.isSome = true → countersBusy t.u.wcnt t.u.cur.waitMask = false →
    (flushes o fm = true → t.u.pend = []) → t.u.skip = 0 → guardOn fm.guard t.u.p = true → (fm.wc ≤ 5 → t.u.wcnt fm.wc < 63) →
    t.u.pend.length + pendNeed o fm ≤ 8 →
    uStart o fm s = .go { s := s, t := t, u := t.u, md := writeMode o fm t.u.cur.idx })
  ∧ ∀ m, s.cur = some (.mstream uid) → t.m = some m → m.cur.clause.isSome = true → mStart s = .go { s := s, t := t, m := m }

/-- R433, R435 to R437, R439, R440: a trap of a running team records its cause and its place, stops its own party there, changes no
register of a thread, a home row or a stream and nothing outside the team; a later trap is recorded at its party and leaves the cause; the return lets every
fragment and stream go on at its recorded place. (Log 8.) -/
def Obligations.TrapAndReturn : Prop :=
  let atRest (m : Option MStream) : Option MStream := m.map (fun m => { m with stop := true })
  (∀ (s : State) (uid fid : Nat) (t : Team) (g : Frag) (c : Cause), s.team? uid = some t → t.frag? fid = some g →
    ∃ u g', (s.trap (.frag uid fid) c).team? uid = some u ∧ u.frag? fid = some g' ∧ g'.cur = g.cur ∧ g'.stop = true ∧ g'.trap = c.code
      ∧ u.threads = t.threads ∧ u.s = t.s ∧ { u.u with stop := t.u.stop } = t.u ∧ atRest u.m = atRest t.m
      ∧ s.sameWorld uid (s.trap (.frag uid fid) c)
      ∧ (t.halt.phase = .running → u.halt.phase ≠ .running ∧ u.halt.cause = c.code ∧ u.halt.cfid = fid ∧ u.halt.cidx = g.cur.idx
        ∧ u.halt.cpc = g.cur.pc ∧ u.halt.imm = c.imm ∧ u.halt.va = c.va ∧ u.halt.since = s.now)
      ∧ (t.halt.phase ≠ .running → t.halt.cause ≠ 0 → u.halt.cause = t.halt.cause ∧ u.halt.cfid = t.halt.cfid ∧ u.halt.cpc = t.halt.cpc))
  ∧ (∀ (s : State) (uid : Nat) (t : Team) (c : Cause), s.team? uid = some t → t.halt.phase = .running →
    ∃ u, (s.trap (.ustream uid) c).team? uid = some u ∧ u.u.cur = t.u.cur ∧ u.u.stop = true ∧ u.halt.utrap = c.code
      ∧ u.halt.cause = c.code ∧ u.halt.cfid = 0xFFFF ∧ u.halt.cidx = t.u.cur.idx ∧ u.halt.cpc = t.u.cur.pc ∧ u.threads = t.threads
      ∧ u.s = t.s ∧ { u.u with stop := t.u.stop, wait := t.u.wait } = t.u ∧ atRest u.m = atRest t.m
      ∧ s.sameWorld uid (s.trap (.ustream uid) c))
  ∧ (∀ (s : State) (uid : Nat) (t : Team) (m : MStream) (c : Cause), s.team? uid = some t → t.m = some m → t.halt.phase = .running →
    ∃ u m', (s.trap (.mstream uid) c).team? uid = some u ∧ u.m = some m' ∧ m'.cur = m.cur ∧ m'.stop = true ∧ m'.trap = c.code
      ∧ u.halt.cause = c.code ∧ u.halt.cfid = 0xFFFF ∧ u.halt.cidx = m.cur.idx ∧ u.halt.cpc = m.cur.pc ∧ u.threads = t.threads
      ∧ u.s = t.s ∧ { u.u with stop := t.u.stop } = t.u ∧ { m' with stop := m.stop, wait := m.wait, trap := m.trap } = m
      ∧ s.sameWorld uid (s.trap (.mstream uid) c))
  ∧ ∀ (t : Team) (now : Nat), t.halt.save = false → (t.resumeHalt now).halt = {} ∧ (t.resumeHalt now).threads = t.threads
      ∧ (t.resumeHalt now).u.cur = t.u.cur ∧ (t.resumeHalt now).u.stop = false
      ∧ (t.resumeHalt now).m.map (fun m => (m.cur, m.stop, m.trap)) = t.m.map (fun m => (m.cur, false, 0))
      ∧ ∀ fid, ((t.resumeHalt now).frag? fid).map (fun g => (g.cur, g.stop, g.skid, g.trap))
          = (t.frag? fid).map (fun g => (g.cur, false, 0, 0))

/-- R143, R327: under VER 00 a long-latency instruction with LOOK = k leaves its registers as they stand, and its writes wait; at the end of
each issue the thread, or the U-stream, comes nearer to them by one, and those that are spent are made, in program order; one whose value a
group operation has still to give holds those behind it. A thread in which the instruction has parked does not come nearer. That the writes of
predicates and of s registers wait in the thread is the model's reading (log 13). -/
def Obligations.DelayedWrites : Prop :=
  let spent (ps : List Pend) : List Pend := ps.filter (fun e => decide (e.left ≤ 1))
  let rest (ps : List Pend) : List Pend := (ps.filter (fun e => decide (1 < e.left))).map (fun e => { e with left := e.left - 1 })
  let nearer (ps : List Pend) : List Pend := ps.map (fun e => { e with left := e.left - 1 })
  let ready (ps : List Pend) : Prop := ∀ e ∈ ps, e.left ≤ 1 → e.due = none
  let blocked (ps : List Pend) : Prop := ∃ e r, ps = e :: r ∧ e.left ≤ 1 ∧ e.due.isSome = true
  let last (ps : List Pend) (n : Nat) : Option Pend := ((spent ps).filter (fun e => e.reg == n)).getLast?
  let waiting (ps : List Pend) : List (Nat × DWord × Tag × Nat) := ps.map (fun e => (e.reg, e.val, e.tag, e.left))
  let asked (ws : List RegW) (k : Nat) : List (Nat × DWord × Tag × Nat) :=
    (ws.filter (fun w => realReg w.reg)).map (fun w => (w.reg, w.val, w.tag, k + 1))
  (∀ (o : Opc) (fm : Form) (j : Nat), (writeMode o fm j).delay = if o.latency = .long ∧ fm.interlock = false then some fm.look else none)
  ∧ (∀ (md : WriteMode) (t : Team) (row pos k : Nat) (h : Thread) (ws : List RegW), md.delay = some k → t.thread? row pos = some h →
      ∃ g, (t.commit md row pos ws).thread? row pos = some g ∧ g.v = h.v ∧ g.p = h.p
        ∧ waiting g.pend = waiting h.pend ++ asked ws k ∧ (t.commit md row pos ws).s = t.s)
  ∧ (∀ (md : WriteMode) (u : UStream) (k : Nat) (ws : List RegW), md.delay = some k →
      (u.commit md ws).s = u.s ∧ (u.commit md ws).p = u.p ∧ waiting (u.commit md ws).pend = waiting u.pend ++ asked ws k)
  ∧ (∀ (t : Team) (row pos : Nat) (h : Thread), t.thread? row pos = some h →
      (ready h.pend → ∃ g, (t.tickThread row pos).thread? row pos = some g ∧ g.pend = rest h.pend
        ∧ (∀ n, n < 120 → g.reg n = match last h.pend n with
            | some e => ⟨e.val.truncate 32, e.tag⟩
            | none => h.reg n)
        ∧ (∀ n, n < 7 → g.pred n = match last h.pend (128 + n) with
            | some e => e.val.getLsbD 0
            | none => h.pred n)
        ∧ ∀ n, n < 64 → (t.tickThread row pos).sreg row n = match last h.pend (192 + n) with
            | some e => e.val
            | none => t.sreg row n)
      ∧ (blocked h.pend → ∃ g, (t.tickThread row pos).thread? row pos = some g ∧ g.pend = nearer h.pend ∧ g.v = h.v ∧ g.p = h.p
        ∧ (t.tickThread row pos).s = t.s))
  ∧ (∀ u : UStream, ready u.pend → u.tick.pend = rest u.pend
      ∧ (∀ n, n < 64 → u.tick.sreg n = match last u.pend (192 + n) with
          | some e => e.val
          | none => u.sreg n)
      ∧ ∀ n, n < 7 → predOf u.tick.p n = match last u.pend (128 + n) with
          | some e => e.val.getLsbD 0
          | none => predOf u.p n)
  ∧ (∀ (o : Opc) (fm : Form) (c : Ctx) (s : State) (adv : Bool) (t : Team) (row pos : Nat) (h : Thread), s.team? c.t.uid = some t →
      t.thread? row pos = some h → (keysOf c.mem).Nodup →
      ∃ u g, (finishFrag o fm c s adv).team? c.t.uid = some u ∧ u.thread? row pos = some g
        ∧ ((row, pos) ∈ keysOf c.mem → (∀ q, h.st ≠ .parked q) →
            ∃ x, (t.tickThread row pos).thread? row pos = some x ∧ g.pend = x.pend ∧ g.v = x.v ∧ g.p = x.p)
        ∧ ((row, pos) ∉ keysOf c.mem ∨ (∃ q, h.st = .parked q) → g.pend = h.pend ∧ g.v = h.v ∧ g.p = h.p))
  ∧ ∀ (o : Opc) (fm : Form) (uid : Nat) (s : State) (counts adv : Bool) (t : Team), s.team? uid = some t →
      ∃ u, (finishU o fm uid s counts adv).team? uid = some u ∧ u.u.pend = t.u.tick.pend ∧ u.u.s = t.u.tick.s ∧ u.u.p = t.u.tick.p

/-- R6, R24, R134, R161, Tables 7.7 and 7.8: what is written reads back, every other place reads as before, memory keeps its
canonical form; vz, sz, mz and p7 discard what is written to them. (Log 4.) -/
def Obligations.StorageReads : Prop :=
  (∀ (s : State) (k : Nat) (bs : List Byte), (s.writeBytes k bs).bytes k bs.length = bs
    ∧ (∀ a, ¬ within k bs.length a → (s.writeBytes k bs).byte a = s.byte a) ∧ (s.Inv → (s.writeBytes k bs).Inv))
  ∧ (∀ (t : Team) (k : Nat) (bs : List Byte), (t.writeBytes k bs).bytes k bs.length = bs
    ∧ ∀ a, ¬ within k bs.length a → (t.writeBytes k bs).byte a = t.byte a)
  ∧ (∀ (h : Thread) (n : Nat) (v : DWord) (g : Tag),
      (n < 120 → ∀ m, (h.put ⟨n, v, g⟩).reg m = if m = n then ⟨v.truncate 32, g⟩ else h.reg m)
      ∧ (n < 7 → ∀ m, m < 8 → (h.put ⟨128 + n, v, g⟩).pred m = if m = n then v.getLsbD 0 else h.pred m)
      ∧ h.put ⟨120, v, g⟩ = h ∧ h.put ⟨135, v, g⟩ = h)
  ∧ (∀ (t : Team) (row n : Nat) (v : DWord), (n < 64 → ∀ r m, m < 64 →
        (t.setSreg row n v).sreg r m = if r = row ∧ m = n then v else t.sreg r m)
      ∧ t.setSreg row 64 v = t ∧ t.sreg row 64 = 0)
  ∧ (∀ (u : UStream) (n : Nat) (v : DWord), (n < 64 → ∀ m, m < 64 → (u.setSreg n v).sreg m = if m = n then v else u.sreg m)
      ∧ u.setSreg 64 v = u ∧ u.sreg 64 = 0)
  ∧ ∀ (x : MStream) (n : Nat) (v : Word) (k : BitVec 256),
      (n < 16 → ∀ m, m < 16 → (x.setM n v).mreg m = if m = n then v else x.mreg m) ∧ x.setM 48 v = x ∧ x.mreg 48 = 0
      ∧ (16 ≤ n → n < 24 → ∀ m, 16 ≤ m → m < 24 → (x.setK n k).kreg m = if m = n then k else x.kreg m)

/-! ### Rules of single instructions -/

/-- R161: a predicate field that a legal instruction holds names p0 to p7; p0 to p6 read and write their bit and no other, p7 reads
as true and discards what is written. -/
def Obligations.PredicateFields : Prop :=
  (∀ (st : Stream) (o : Opc) (f : FForm), illegalF st o f = none →
    let sh := shape (st == .ustream) o f
    (sh.d = .p → f.d.toNat ≤ 7) ∧ (sh.a = .p → f.a.toNat ≤ 7) ∧ (sh.b = .p → f.b.toNat ≤ 7) ∧ (sh.c = .p → f.c.toNat ≤ 7))
  ∧ ∀ (p : BitVec 7) (n : Nat) (b : Bool),
    (n ≤ 6 → predOf p n = p.getLsbD n ∧ ∀ m, m ≤ 7 → predOf (setPred p n b) m = if m = n then b else predOf p m)
    ∧ predOf p 7 = true ∧ setPred p 7 b = p

/-- R179: the shifts and the rotate. The count k is b read as unsigned at its full width: 32 bits, or the width of T in the uniform
shifts; from the width on a shift gives 0, an arithmetic one the sign bit everywhere. That the count of a uniform shift of 32 bits is the low
word is the model's reading (log 78). -/
def Obligations.Shifts : Prop := ∀ f : FForm,
  let lane (o : Opc) (i : Instr) (g : Word → Nat → Word) : Prop :=
    LaneSays o (.f f) i noCheck (fun c h => [wV f.d.toNat (g (c.vA f h).w (c.vB f h).w.toNat) .b32])
  let wide (x : Word) : DWord := if f.ty = .s32 then x.signExtend 64 else x.zeroExtend 64
  let uni (o : Opc) (i : Instr) (g : DWord → Nat → DWord) (h : Word → Nat → Word) : Prop :=
    ((f.ty = .s64 ∨ f.ty = .n64) → BothSay o (.f f) i true (uniRes f (fun a b => g a b.toNat)))
    ∧ ((f.ty = .s32 ∨ f.ty = .n32) → BothSay o (.f f) i true (uniRes f (fun a b => wide (h (a.truncate 32) (b.truncate 32 : Word).toNat))))
  lane .vshl (.vshl f) (fun a k => if k < 32 then a <<< k else 0)
  ∧ lane .vshr (.vshr f) (fun a k => if k < 32 then a >>> k else 0)
  ∧ lane .vsar (.vsar f) (fun a k => if k < 32 then a.sshiftRight k else if a.msb then -1 else 0)
  ∧ lane .vrol (.vrol f) (fun a k => a.rotateLeft (k % 32))
  ∧ uni .sshl (.sshl f) (fun a k => if k < 64 then a <<< k else 0) (fun a k => if k < 32 then a <<< k else 0)
  ∧ uni .sshr (.sshr f) (fun a k => if k < 64 then a >>> k else 0) (fun a k => if k < 32 then a >>> k else 0)
  ∧ uni .ssar (.ssar f) (fun a k => if k < 64 then a.sshiftRight k else if a.msb then -1 else 0)
      (fun a k => if k < 32 then a.sshiftRight k else if a.msb then -1 else 0)

/-- R112, R190, R333: `vdot4` gives c + Σ a_e × b_e over the four signed bytes, exact, then wrapped, or under SAT clamped to s32; its sources are
checked as s8x4, s8x4 and s32, and a source that fails its check makes it take FMT, in the lowest thread that
meets one, with VA 0, which is the model's choice (log 75). -/
def Obligations.DotProduct : Prop := ∀ f : FForm,
  let byte (x : Word) (e : Nat) : Int := (x.extractLsb' (8 * e) 8).toInt
  let fit (c : Ctx) (h : Thread) : Bool :=
    tagOk .s8x4 (f.mb 4) (c.vA f h) && tagOk .s8x4 (f.mb 4) (c.vB f h) && tagOk .s32 (f.mb 4) (c.vC f h)
  LaneSays .vdot4 (.f f) (.vdot4 f) fit (fun c h =>
    let x : Int := (c.vC f h).w.toInt + (byte (c.vA f h).w 0 * byte (c.vB f h).w 0 + byte (c.vA f h).w 1 * byte (c.vB f h).w 1
      + byte (c.vA f h).w 2 * byte (c.vB f h).w 2 + byte (c.vA f h).w 3 * byte (c.vB f h).w 3)
    [wV f.d.toNat (if f.mb 3 = true ∧ x < -2147483648 then 0x80000000
      else if f.mb 3 = true ∧ 2147483647 < x then 0x7FFFFFFF else BitVec.ofInt 32 x) .s32])
  ∧ LaneTraps .vdot4 f (.vdot4 f) fit

/-- R69: `rdvinit` sets E of its point and sets A to 0; the phase stays, and is 0 at a point never initialised; a fragment acts once,
with the count of its lowest-positioned member with a true guard, which is the model's reading of 'member' (log 51). -/
def Obligations.PointInit : Prop := ∀ f : FForm,
  let p := f.m 0 5
  let good (t : Team) (n : Nat) : Prop := p ≤ 23 ∧ 1 ≤ n ∧ n ≤ 4095 ∧ (t.point p).a = 0
  let set (s' : State) (t : Team) (n : Nat) : Prop := ∃ u, s'.team? t.uid = some u
    ∧ u.point p = { init := true, e := n, a := 0, phase := (t.point p).phase } ∧ ∀ q, q ≠ p → u.point q = t.point q
  (∀ (s : State) (c : Ctx) (h : Thread) (r : List Thread), rowStart .rdvinit (.f f) s = .go c → c.act = h :: r →
    good c.t (h.src c.cur.idx f.b.toNat).w.toNat →
    ∃ s', exec (.rdvinit f) s = .next s' ∧ set s' c.t (h.src c.cur.idx f.b.toNat).w.toNat)
  ∧ (∀ (s : State) (c : UCtx), uStart .rdvinit (.f f) s = .go c → good c.t (c.u.sreg f.b.toNat).toNat →
    ∃ s', exec (.rdvinit f) s = .next s' ∧ set s' c.t (c.u.sreg f.b.toNat).toNat)
  ∧ ∀ t : Team, t.rdv = [] → ∀ q, (t.point q).phase = 0

/-- R112, R204 to R207, Table 5.13: the checks of operands and addresses come before anything is written: a tag that does not fit
gives FMT, a misaligned access ALN, an offset outside the allocation PROT, an address that is not canonical XLAT. R461: a fence or a
store that releases at domain scope or wider, by a party whose earlier writes another device cannot acknowledge, takes XLAT.
VA 0 in the cause of a check that names no address is the model's choice (log 75). (Log 72.) -/
def Obligations.IssueTraps : Prop := ∀ f : FForm,
  let n := memSize f.ty
  let trap (i : Instr) (s : State) (c : Ctx) (code : Nat) : Prop :=
    ∃ h ∈ c.act, exec i s = .next (c.s.trap c.p { code := code, who := some (h.row, h.pos) })
  LaneTraps .vadd f (.vadd f) (fits f 2 f.ty) ∧ LaneTraps .vsub f (.vsub f) (fits f 2 f.ty) ∧ LaneTraps .vmul f (.vmul f) (fits f 2 f.ty)
  ∧ LaneTraps .vmulh f (.vmulh f) (fits f 2 f.ty) ∧ LaneTraps .vmad f (.vmad f) (fits f 3 f.ty) ∧ LaneTraps .vcmp f (.vcmp f) (fits f 2 f.ty)
  ∧ LaneTraps .vfadd f (.vfadd f) (fits f 2 .f32) ∧ LaneTraps .vfmul f (.vfmul f) (fits f 2 .f32)
  ∧ LaneTraps .vffma f (.vffma f) (fits f 3 .f32) ∧ LaneTraps .vdiv f (.vdiv f) (fits f 2 .f32)
  ∧ LaneTraps .vfcmp f (.vfcmp f) (fits f 2 .f32)
  ∧ (∀ (s : State) (c : Ctx), rowStart .ld (.f f) s = .go c → (∃ h ∈ c.act, (c.globalVA f f.b n h).toNat % n ≠ 0) → trap (.ld f) s c 3)
  ∧ (∀ (s : State) (c : Ctx), rowStart .st (.f f) s = .go c → (∀ h ∈ c.act, dataOk f.ty (c.regB f h) = true) →
      (∃ h ∈ c.act, (c.globalVA f f.c n h).toNat % n ≠ 0) → trap (.st f) s c 3)
  ∧ (∀ (s : State) (c : Ctx), rowStart .ld (.f f) s = .go c → (∀ h ∈ c.act, (c.globalVA f f.b n h).toNat % n = 0
        ∧ c.s.reach c.t.pitch c.t.die .read true [(c.globalVA f f.b n h, n)] ≠ .trap .prot) →
      (∃ h ∈ c.act, ∃ j, 57 ≤ j ∧ j < 64 ∧ (c.globalVA f f.b n h).getLsbD j ≠ (c.globalVA f f.b n h).getLsbD 56) →
      ∃ va, ∃ h ∈ c.act, exec (.ld f) s = .next (c.s.trap c.p { code := 5, va := va, who := some (h.row, h.pos) }))
  ∧ (∀ (s : State) (c : Ctx), rowStart .ldt (.f f) s = .go c →
      (∃ h ∈ c.act, h.made = false ∧ (c.teamOff f f.b n h).toNat % n ≠ 0) → trap (.ldt f) s c 3)
  ∧ (∀ (s : State) (c : Ctx), rowStart .ldt (.f f) s = .go c → (∀ h ∈ c.act, (c.teamOff f f.b n h).toNat % n = 0) →
      (∃ h ∈ c.act, h.made = false ∧ c.t.hdr.tmem ≤ (c.teamOff f f.b n h).toNat) → trap (.ldt f) s c 4)
  ∧ (∀ (s : State) (c : Ctx), rowStart .ldp (.f f) s = .go c → (∀ h ∈ c.act, (c.teamOff f f.b n h).toNat % n = 0) →
      (∃ h ∈ c.act, h.made = false ∧ (2 ^ 22 ≤ (c.teamOff f f.b n h).toNat
        ∨ ∀ q, c.s.member? c.t (bits (c.teamOff f f.b n h).toNat 19 3) = some q → q.hdr.tmem ≤ bits (c.teamOff f f.b n h).toNat 0 19)) →
      trap (.ldp f) s c 4)
  ∧ (∀ (s : State) (c : Ctx), rowStart .fence (.f f) s = .go c → f.m 3 2 ≠ 0 → 4 ≤ f.m 0 3 →
      (∃ h ∈ c.act, .lane c.t.uid h.row h.pos ∈ c.s.pkg.unacked) → trap (.fence f) s c 5)
  ∧ (∀ (s : State) (c : UCtx), uStart .fence (.f f) s = .go c → f.m 3 2 ≠ 0 → 4 ≤ f.m 0 3 →
      .ustream c.t.uid ∈ c.s.pkg.unacked → exec (.fence f) s = .next (c.s.trap (.ustream c.t.uid) { code := 5 }))
  ∧ ∀ (s : State) (c : Ctx), rowStart .st (.f f) s = .go c → f.m 4 2 ≠ 0 → 4 ≤ f.m 1 3 →
      (∀ h ∈ c.act, dataOk f.ty (c.regB f h) = true ∧ (c.globalVA f f.c n h).toNat % n = 0
        ∧ c.s.reach c.t.pitch c.t.die .write false [(c.globalVA f f.c n h, n)] ≠ .trap .prot) →
      (∃ h ∈ c.act, .lane c.t.uid h.row h.pos ∈ c.s.pkg.unacked) →
      ∃ va, ∃ h ∈ c.act, exec (.st f) s = .next (c.s.trap c.p { code := 5, va := va, who := some (h.row, h.pos) })

/-- R207, R210: when the threads of a store reach their places, no release of theirs failing (R461), in ascending row position, each byte ends as the last of them that
writes it leaves it: the highest row position. -/
def Obligations.StoreOrder : Prop := ∀ (f : FForm) (s : State) (c : Ctx) (k : Thread → Nat), rowStart .st (.f f) s = .go c →
  c.act.Pairwise (fun g h => g.pos < h.pos) →
  (∀ h ∈ c.act, dataOk f.ty (c.regB f h) = true ∧ (c.globalVA f f.c (memSize f.ty) h).toNat % memSize f.ty = 0
    ∧ c.s.acked (c.me h) (scopeIf (f.m 4 2 != 0) (f.m 1 3)) = true
    ∧ ∃ b, c.s.reach c.t.pitch c.t.die .write false [(c.globalVA f f.c (memSize f.ty) h, memSize f.ty)] = .ok [k h] b) →
  ∃ s', exec (.st f) s = .next s' ∧ ∀ h ∈ c.act, ∀ j, j < memSize f.ty →
    (∀ g ∈ c.act, h.pos < g.pos → ¬ within (k g) (memSize f.ty) (k h + j)) →
    some (s'.byte (k h + j)) = (dataBytes f.ty (c.regB f h))[j]?

/-! ### What instructions leave as it was -/

/-- R112, R143, R166, R192: the vector, predicate, cross-lane and uniform arithmetic instructions write nothing but their
destinations (and the wait counter they name), whatever becomes of them; what earlier instructions left pending may reach its
register meanwhile. All of memory, every other team, team memory, queues and every special register stay. -/
def Obligations.RegisterFrame : Prop := ∀ (o : Opc) (fm : Form) (i : Instr), i.parts = some (o, fm) →
  (o ∈ vectorOps ++ uniformOps → RowFrame i (fun uid s s' t u =>
    s.sameWorld uid s' ∧ t.rowKeeps (formDests false o fm) fm.wc false u ∧ t.sameStore u))
  ∧ (o ∈ uniformOps ++ [.pand, .por, .pxor, .pnot, .sr] → UniFrame i (fun uid s s' t u =>
    s.sameWorld uid s' ∧ t.uniKeeps (formDests true o fm) fm.wc false u ∧ t.sameStore u))

/-- R57, R60 to R62, R124 to R127, R167 to R173: the control instructions write no register, no memory and nothing outside their
team; only `call` and `ret` change a return stack. -/
def Obligations.ControlFrame : Prop := ∀ (o : Opc) (fm : Form) (i : Instr), i.parts = some (o, fm) → o ∈ controlOps →
  RowFrame i (fun uid s s' t u => s.sameWorld uid s' ∧ t.rowKeeps [] 7 (o == .call || o == .ret) u ∧ t.sameStore u)
  ∧ UniFrame i (fun uid s s' t u => s.sameWorld uid s' ∧ t.uniKeeps [] 7 (o == .call || o == .ret) u ∧ t.sameStore u)

/-- R182 to R184, R203, R208, R217, R225, R371: the loads write nothing but their destinations and wait counter: every byte of
memory stays, and so do team memory and every register that the load does not name. -/
def Obligations.LoadFrame : Prop := ∀ (o : Opc) (fm : Form) (i : Instr), i.parts = some (o, fm) →
  (o ∈ [.ld, .fetch, .slk, .vlk, .sldc, .sld, .rsvld] → RowFrame i (fun _ s s' t u =>
    s'.mem = s.mem ∧ t.rowKeeps (formDests false o fm) fm.wc false u ∧ t.sameStore u))
  ∧ (o ∈ [.fetch, .slk, .sldc, .sld] → UniFrame i (fun _ s s' t u =>
    s'.mem = s.mem ∧ t.uniKeeps (formDests true o fm) fm.wc false u ∧ t.sameStore u))

/-- R184, R208, R217, R219: the stores and atomics of global memory change no byte outside the places that their active threads reach,
and no register but the destination of an atomic and the wait counter. (Log 2.) -/
def Obligations.StoreFrame : Prop := ∀ f : FForm,
  let n := memSize f.ty
  let solo (c : Ctx) (h : Thread) : DWord := gBase c.t.rcd.window f (c.env h)
  StoresOnly .st f (.st f) false n (fun c => c.globalVA f f.c n)
  ∧ StoresOnly .atom f (.atom f) true n (fun c h => solo c h + ((c.env h).v f.c.toNat).w.zeroExtend 64)
  ∧ StoresOnly .cas f (.cas f) true n solo
  ∧ StoresOnly .sst f (.sst f) false n (fun c h => c.t.sreg h.row f.a.toNat + c.t.sreg h.row f.c.toNat)
  ∧ (∀ (s s' : State) (uid : Nat), s.cur = some (.ustream uid) → exec (.sst f) s = .next s' →
      ((∀ c, uStart .sst (.f f) s ≠ .go c) → s'.mem = s.mem)
      ∧ ∀ c, uStart .sst (.f f) s = .go c → ∀ a,
        ¬ c.s.touches c.t false (c.u.sreg f.a.toNat + c.u.sreg f.c.toNat) n a → s'.byte a = s.byte a)
  ∧ ∀ (o : Opc) (i : Instr), (o, i) ∈ [(Opc.st, Instr.st f), (.atom, .atom f), (.cas, .cas f), (.sst, .sst f)] →
      RowFrame i (fun _ _ _ t u => t.rowKeeps (formDests false o (.f f)) f.wc.toNat false u ∧ t.sameStore u)

/-- R205, R212 to R216, R219: the loads of team and plot memory and `fe` change no byte of any team's memory; the stores and atomics
change no byte outside the places of their active threads; none writes a register but its destination and wait counter. -/
def Obligations.TeamMemoryFrame : Prop := ∀ f : FForm,
  let n := memSize f.ty
  let solo (c : Ctx) (h : Thread) : DWord := tBase f (c.env h)
  let idx (c : Ctx) (h : Thread) : DWord := tBase f (c.env h) + ((c.env h).v f.c.toNat).w.zeroExtend 64
  (∀ i ∈ [Instr.ldt f, .ldp f, .sldt f, .fe f], ∀ s s' : State, exec i s = .next s' → s.sameTeams s')
  ∧ StoresTeam .stt f (.stt f) n (fun c h => c.s.localPlace c.t false n (c.teamOff f f.c n h))
  ∧ StoresTeam .stp f (.stp f) n (fun c h => c.s.localPlace c.t true n (c.teamOff f f.c n h))
  ∧ StoresTeam .atomt f (.atomt f) n (fun c h => c.s.localPlace c.t false n (idx c h))
  ∧ StoresTeam .atomp f (.atomp f) n (fun c h => c.s.localPlace c.t true n (if f.m 5 3 = 7 then solo c h else idx c h))
  ∧ StoresTeam .cast f (.cast f) n (fun c h => c.s.localPlace c.t false n (solo c h))
  ∧ StoresTeam .sstt f (.sstt f) n (fun c h => c.s.localPlace c.t false n (c.t.sreg h.row f.a.toNat + c.t.sreg h.row f.c.toNat))
  ∧ ∀ (o : Opc) (i : Instr), (o, i) ∈ [(Opc.ldt, Instr.ldt f), (.ldp, .ldp f), (.fe, .fe f), (.stt, .stt f), (.stp, .stp f),
        (.atomt, .atomt f), (.atomp, .atomp f), (.cast, .cast f), (.sldt, .sldt f), (.sstt, .sstt f)] →
      RowFrame i (fun _ s s' t u => s'.mem = s.mem ∧ t.rowKeeps (formDests false o (.f f)) f.wc.toNat false u)

/-- R151, R290, R296 to R304, R313, R315 to R321: an M-stream instruction writes no m or k register but its destination, and no byte of
memory or of team memory; those that compute in the m and k registers leave the arrays, the leave and everything outside the M-stream as
they were; of the others only `mqpop` takes an entry of an M-queue, only `marr` changes a rendezvous point, and only the loads that may
consume (`mast`, `mscl`, `mmasp`, `mmaskld`) change full/empty bits (a drain's granules are written by its own events). -/
def Obligations.MatrixFrame : Prop := ∀ (o : Opc) (fm : Form) (i : Instr), i.parts = some (o, fm) → i.wf .mstream = true →
  (o ∈ [.mnop, .mli, .madd, .mbra, .mloop, .msr] → MFrame i (fun uid s s' t u =>
    s.sameWorld uid s' ∧ t.mKeeps (mDests o fm) u ∧ t.sameArrays u))
  ∧ (o ∈ [.mzero, .mma, .mmak, .mscout, .mcvt, .msieve] → MFrame i (fun _ s s' t u => s'.mem = s.mem ∧ t.mKeeps (mDests o fm) u))
  ∧ (o ∈ [.mend, .mqpop, .marr, .mwait, .mleave, .mfence, .mast, .mwb, .mscl, .mmasp, .mmaskld, .mdrain] → MFrame i (fun _ s s' t u =>
      s'.mem = s.mem ∧ t.mLeaves (mDests o fm) u ∧ (o ≠ .mqpop → u.mq = t.mq ∧ u.popped = t.popped) ∧ (o ≠ .marr → u.rdv = t.rdv)
      ∧ (o ∉ [.mast, .mscl, .mmasp, .mmaskld] → u.fe = t.fe ∧ u.drained = t.drained ∧ u.filled = t.filled)))

/-- R207, R249, R286, R332, R342: of the instructions of code only the stores and atomics of global memory, the image and record writes,
the output lists of `mrg`, `sysc`, `launch` and the engine commands (their chits) write memory; every other one leaves every byte of it
as it was, in every case. Of the group operations that a step lets act, those of `drlld`, `drlend` and `drlrst` write none, and that of
`drlsave` only the 16,448 bytes of the image that a live thread with a true guard asks for in global memory. (Log 21.) -/
def Obligations.MemoryFrame : Prop :=
  (∀ (s t : State) (i : Instr) (o : Opc) (fm : Form), i.parts = some (o, fm) → o ∉ memoryWriters → exec i s = .next t → t.mem = s.mem)
  ∧ ∀ (s : State) (uid ds row pos : Nat) (t : Team) (h : Thread) (a : Arrival),
      s.team? uid = some t → t.thread? row pos = some h → h.arrival ds = some a →
      (a.op ≠ .save → (s.groupAct uid ds row pos).mem = s.mem)
      ∧ (a.op = .save → ∀ key : Nat,
          (∀ g ∈ t.threads, ∀ b : Arrival, g.arrival ds = some b → b.guard = true → b.space = 0 →
            ∀ ks u, s.reach t.pitch t.die .write false (spanPages b.addr 16448) = .ok ks u →
              ∀ e ∈ (spanPages b.addr 16448).zip ks, ¬ within e.2 e.1.2 key) →
          (s.groupAct uid ds row pos).byte key = s.byte key)

/-- R33, R403, R422, R448, R452, R455: no instruction of code changes the partition mode, the domain, a frame's owner, a pitch's part,
enable, translation root, fault mode, handler or rates, a die's state, RVS ways or budget: software of the cores cannot reach
what system software rules by, whatever it executes. -/
def Obligations.CodeKeepsRule : Prop := ∀ (s t : State) (i : Instr), i.parts.isSome = true → exec i s = .next t → s.sameRule t


/-! ### The memory model -/

/-- R72, R232, R244, R250 to R252, R258 to R261, R273, R276, R277 and log 2: an execution whose events happen one after another, each read
taking what was written last, is one that the memory model allows (R260). It speaks of executions, and of no step of the machine. -/
def Obligations.InterleavingAllowed : Prop := ∀ x : MemExec, x.sequential → x.allowed
end

