-- ==== Sys2Proof/Laws/Issue.lean ====
section
/-! SUPPORT. What the issue of an instruction comes to once its party has started it: the answer of its meaning, concluded. -/

namespace Sys2Proof.Machine

open Sys2Proof

theorem runRow_go {o fm body s c} (h : rowStart o fm s = .go c) : runRow o fm body s = concludeFrag o fm c (blame body c (body c)) := by
  simp only [runRow, h]

theorem runU_go {o fm body s c} (h : uStart o fm s = .go c) : runU o fm body s = concludeU o fm c (body c) := by
  simp only [runU, h]

theorem runM_go {body s c} (h : mStart s = .go c) : runM body s = concludeM c (body c) := by
  simp only [runM, h]

theorem rowStart_cur {o fm s c} (h : rowStart o fm s = .go c) (uid : Nat) : s.cur ≠ some (.ustream uid) := by
  intro e
  simp only [rowStart, e] at h
  cases h

theorem uStart_cur {o fm s c} (h : uStart o fm s = .go c) : ∃ uid, s.cur = some (.ustream uid) := by
  unfold uStart at h
  split at h
  · exact ⟨_, by assumption⟩
  · cases h

theorem runRU_row {o fm r u s c} (h : rowStart o fm s = .go c) : runRU o fm r u s = concludeFrag o fm c (blame r c (r c)) := by
  unfold runRU
  split
  · exact absurd (by assumption) (rowStart_cur h _)
  · exact runRow_go h

theorem runRU_u {o fm r u s c} (h : uStart o fm s = .go c) : runRU o fm r u s = concludeU o fm c (u c) := by
  obtain ⟨uid, e⟩ := uStart_cur h
  simp only [runRU, e]
  exact runU_go h

/-- No trap is the lowest of none. -/
theorem lowest_none {ts : List (Option Trap)} (h : ∀ t ∈ ts, t = none) : lowest ts = none := by
  induction ts with
  | nil => rfl
  | cons a l ih =>
    have ha : a = none := h a (by simp)
    subst ha
    have := ih (fun t ht => h t (by simp [ht]))
    simp only [lowest, List.foldl_cons] at this ⊢
    exact this

theorem lowestTrap_none {l : List (Except Trap (List RegW))} (h : ∀ r ∈ l, ∃ w, r = .ok w) : lowestTrap l = none := by
  unfold lowestTrap
  induction l with
  | nil => rfl
  | cons a l ih =>
    obtain ⟨w, rfl⟩ := h a (by simp)
    simp only [List.foldl_cons]
    exact ih (fun r hr => h r (by simp [hr]))

theorem lanes_ok {f : Ctx → Thread → LaneOut} {c : Ctx} {g : Thread → List RegW} (h : ∀ x ∈ c.act, f c x = .ok (g x)) :
    lanes f c = .done (c.writeAll g) := by
  have e : lowestTrap ((c.act.map (fun x => ((x.row, x.pos), f c x))).map (·.2)) = none := by
    apply lowestTrap_none
    intro r hr
    simp only [List.map_map, List.mem_map, Function.comp] at hr
    obtain ⟨x, hx, rfl⟩ := hr
    exact ⟨g x, h x hx⟩
  unfold lanes Ctx.writeAll
  simp only [e]
  congr 2
  funext t
  have : ∀ (l : List Thread) (t : Team), (∀ x ∈ l, f c x = .ok (g x)) →
      (l.map (fun h => ((h.row, h.pos), f c h))).foldl (fun t r => match r.2 with
        | .ok ws => t.commit c.md r.1.1 r.1.2 ws
        | .error _ => t) t = l.foldl (fun t h => t.commit c.md h.row h.pos (g h)) t := by
    intro l
    induction l with
    | nil => intros; rfl
    | cons a l ih =>
      intro t hl
      simp only [List.map_cons, List.foldl_cons, hl a (by simp)]
      exact ih _ (fun x hx => hl x (by simp [hx]))
  exact this c.act t h

/-- An instruction whose threads compute their writes apart completes as its statement says. -/
theorem laneSays_of {o fm i ok g} {f : Ctx → Thread → LaneOut} (he : ∀ s, exec i s = runRow o fm (lanes f) s)
    (hf : ∀ c h, ok c h = true → f c h = .ok (g c h)) : LaneSays o fm i ok g := by
  intro s c hs hok
  rw [he, runRow_go hs, lanes_ok (g := g c) (fun x hx => hf c x (hok x hx))]
  rfl

/-- The same where the U-stream has a form of its own. -/
theorem laneSays_ofRU {o fm i ok g u} {f : Ctx → Thread → LaneOut} (he : ∀ s, exec i s = runRU o fm (lanes f) u s)
    (hf : ∀ c h, ok c h = true → f c h = .ok (g c h)) : LaneSays o fm i ok g := by
  intro s c hs hok
  rw [he, runRU_row hs, lanes_ok (g := g c) (fun x hx => hf c x (hok x hx))]
  rfl

theorem uWrites_says {o fm i f r} (he : ∀ s, exec i s = runRU o fm r (uWrites f) s) {s : State} {c : UCtx} {ws : List RegW}
    (hs : uStart o fm s = .go c) (hf : f c = .ok ws) : exec i s = c.wrote o fm ws := by
  rw [he, runRU_u hs]
  simp only [uWrites, hf]
  rfl

theorem rowSays_of {o fm i ok g body u} (he : ∀ s, exec i s = runRU o fm body u s) (h : ∀ c, ok c → body c = .done (g c)) :
    RowSays o fm i ok g := by
  intro s c hs hk
  rw [he, runRU_row hs, h c hk]; rfl

theorem rowSays_ofRow {o fm i ok g body} (he : ∀ s, exec i s = runRow o fm body s) (h : ∀ c, ok c → body c = .done (g c)) :
    RowSays o fm i ok g := by
  intro s c hs hk
  rw [he, runRow_go hs, h c hk]; rfl

theorem rowMoves_of {o fm i ok g body u} (he : ∀ s, exec i s = runRU o fm body u s) (h : ∀ c, ok c → body c = .moved (g c)) :
    RowMoves o fm i ok g := by
  intro s c hs hk
  rw [he, runRU_row hs, h c hk]; rfl

theorem rowMoves_ofRow {o fm i ok g body} (he : ∀ s, exec i s = runRow o fm body s) (h : ∀ c, ok c → body c = .moved (g c)) :
    RowMoves o fm i ok g := by
  intro s c hs hk
  rw [he, runRow_go hs, h c hk]; rfl

theorem uniSays_of {o fm i ok g r body} (he : ∀ s, exec i s = runRU o fm r body s) (h : ∀ c, ok c → body c = .done (g c)) :
    UniSays o fm i ok g := by
  intro s c hs hk
  rw [he, runRU_u hs, h c hk]; rfl

theorem uniMoves_of {o fm i ok g r body} (he : ∀ s, exec i s = runRU o fm r body s) (h : ∀ c, ok c → body c = .moved (g c)) :
    UniMoves o fm i ok g := by
  intro s c hs hk
  rw [he, runRU_u hs, h c hk]; rfl

theorem mSays_of {i ok g body} (he : ∀ s, exec i s = runM body s) (h : ∀ c, ok c → body c = .done (g c)) : MSays i ok g := by
  intro s c hs hk
  rw [he, runM_go hs, h c hk]; rfl

theorem mMoves_of {i ok g body} (he : ∀ s, exec i s = runM body s) (h : ∀ c, ok c → body c = .moved (g c)) : MMoves i ok g := by
  intro s c hs hk
  rw [he, runM_go hs, h c hk]; rfl

/-- Folding over a list equals folding over its image. -/
theorem foldl_ext_mem {α β γ} {l : List α} {f : β → γ → β} {g : β → α → β} {m : α → γ} (b : β)
    (h : ∀ b x, x ∈ l → f b (m x) = g b x) : (l.map m).foldl f b = l.foldl g b := by
  induction l generalizing b with
  | nil => rfl
  | cons a l ih =>
    simp only [List.map_cons, List.foldl_cons, h b a (by simp)]
    exact ih _ (fun b x hx => h b x (by simp [hx]))

theorem foldl_congr_mem {α β} {l : List α} {f g : β → α → β} (b : β) (h : ∀ b x, x ∈ l → f b x = g b x) :
    l.foldl f b = l.foldl g b := by
  induction l generalizing b with
  | nil => rfl
  | cons a l ih =>
    simp only [List.foldl_cons, h b a (by simp)]
    exact ih _ (fun b x hx => h b x (by simp [hx]))

theorem findSome_none {α β} {l : List α} {f : α → Option β} (h : ∀ x ∈ l, f x = none) : l.findSome? f = none := by
  simpa [List.findSome?_eq_none_iff] using h

/-- Threads that act one after another, none of which stops. -/
theorem soloOp_ok {f : Ctx → Thread → Solo} {c : Ctx} {go : Thread → State → State × List RegW}
    (h : ∀ x ∈ c.act, ∃ g ws, f c x = .ok g ws ∧ ∀ s, go x s = (g s, ws)) :
    soloOp f c = .done (c.act.foldl (fun s h =>
      (go h s).1.setTeam c.t.uid (fun t => t.commit c.md h.row h.pos (go h s).2)) c.s) := by
  unfold soloOp
  dsimp only
  rw [lowest_none, findSome_none]
  · dsimp only
    congr 1
    apply foldl_ext_mem
    intro b x hx
    obtain ⟨g, ws, e, k⟩ := h x hx
    simp only [e, k]
  · intro t ht
    simp only [List.mem_map] at ht
    obtain ⟨x, hx, rfl⟩ := ht
    obtain ⟨g, ws, e, _⟩ := h x hx
    simp only [e]
  · intro t ht
    simp only [List.map_map, List.mem_map, Function.comp] at ht
    obtain ⟨x, hx, rfl⟩ := ht
    obtain ⟨g, ws, e, _⟩ := h x hx
    simp only [e]

theorem soloSays_of {o f i ok go} {m : Ctx → Thread → Solo} (he : ∀ s, exec i s = runRow o (.f f) (soloOp m) s)
    (h : ∀ c x, ok c x → ∃ g ws, m c x = .ok g ws ∧ ∀ s, go c x s = (g s, ws)) : SoloSays o f i ok go :=
  rowSays_ofRow he (fun c hk => soloOp_ok (fun x hx => h c x (hk x hx)))

/-- A uniform instruction in row code, with no check that fails. -/
theorem perRow_ok {sdst : Bool} {f : Ctx → Nat → Thread → Except Trap (List RegW × List RegW)} {c : Ctx}
    {g : Nat → Thread → List RegW × List RegW} (hd : (sdst && rowDet c) = false) (h : ∀ r x, f c r x = .ok (g r x)) :
    perRow sdst f c = .done (c.writeRows g) := by
  unfold perRow
  simp only [hd, if_false, Bool.false_eq_true]
  have e1 : lowestTrap (((rowsOf c.act).filterMap (fun r =>
      (c.act.find? (fun h => h.row == r)).map (fun h => (r, h, f c r h)))).map (fun e => e.2.2.map (·.1))) = none := by
    apply lowestTrap_none
    intro t ht
    simp only [List.mem_map, List.mem_filterMap, Option.map_eq_some_iff] at ht
    obtain ⟨e, ⟨r, hr, x, hx, rfl⟩, rfl⟩ := ht
    exact ⟨_, by simp only [h]; rfl⟩
  simp only [e1, Ctx.writeRows]
  congr 2
  funext t
  generalize rowsOf c.act = rs
  induction rs generalizing t with
  | nil => rfl
  | cons r rs ih =>
    cases hx : c.act.find? (fun h => h.row == r) with
    | none => simp only [List.filterMap_cons, hx, Option.map_none, List.foldl_cons]; exact ih t
    | some x => simp only [List.filterMap_cons, hx, Option.map_some, List.foldl_cons, h]; simp only [h] at ih; exact ih _

/-- A global access in threads whose checks pass and whose pages are present. -/
theorem globalOp_ok {via acc reads det fl} {plan : Ctx → Thread → Plan} {go} {c : Ctx} {ps : Thread → List (DWord × Nat)}
    {ks : Thread → List Nat} {b : Thread → Bool} (hd : det = false ∨ c.act = [])
    (h : ∀ x ∈ c.act, plan c x = .ok (ps x) ∧ c.s.reach c.t.pitch c.t.die acc reads (ps x) = .ok (ks x) (b x)) :
    globalOp via acc reads det fl plan go c = .done (c.act.foldl (fun s x => c.perform via (acc == .write) go x (ps x) (ks x) (b x) s) c.s) := by
  unfold globalOp
  have e0 : (if det && !c.act.isEmpty then some Trap.det else none) = none := by
    rcases hd with hd | hd <;> simp [hd]
  dsimp only
  rw [lowest_none, findSome_none]
  · dsimp only
    congr 1
    apply foldl_ext_mem
    intro s x hx
    simp only [(h x hx).1, (h x hx).2]
  · intro t ht
    simp only [List.mem_map] at ht
    obtain ⟨x, hx, rfl⟩ := ht
    simp only [(h x hx).1, (h x hx).2]
  · intro t ht
    simp only [List.map_map, List.mem_cons, List.mem_map, Function.comp] at ht
    rcases ht with rfl | ⟨x, hx, rfl⟩
    · exact e0
    · simp only [(h x hx).1, (h x hx).2]

end Sys2Proof.Machine
end

