-- ==== Sys2Proof/Laws/Map.lean ====
section
/-! SUPPORT. The laws of the sparse tables: a read after a write, other numbers unchanged, the canonical form kept. -/

namespace Sys2Proof.FMap

variable {α : Type}

theorem get_erase_same (d : Nat → α) (m : FMap α) (k : Nat) : get d (erase m k) k = d k := by
  induction m with
  | nil => rfl
  | cons e r ih =>
    obtain ⟨j, v⟩ := e
    by_cases h : j = k
    · subst h; simpa [erase] using ih
    · have hb : (j != k) = true := by simpa using h
      simp only [erase, List.filter_cons, hb, if_true, get, if_neg h]
      exact ih

theorem get_erase_other (d : Nat → α) (m : FMap α) {k i : Nat} (h : i ≠ k) :
    get d (erase m k) i = get d m i := by
  induction m with
  | nil => rfl
  | cons e r ih =>
    obtain ⟨j, v⟩ := e
    by_cases hj : j = k
    · subst hj
      have : (j != j) = false := by simp
      simp only [erase, List.filter_cons, this, get, if_neg (Ne.symm h)]
      exact ih
    · have hb : (j != k) = true := by simpa using hj
      simp only [erase, List.filter_cons, hb, if_true, get]
      split
      · rfl
      · exact ih

theorem get_insert_same (d : Nat → α) (m : FMap α) (k : Nat) (v : α)
    (h : ∀ e ∈ m, e.1 ≠ k) : get d (insert m k v) k = v := by
  induction m with
  | nil => simp [insert, get]
  | cons e r ih =>
    obtain ⟨j, w⟩ := e
    have hj : j ≠ k := h (j, w) (by simp)
    simp only [insert]
    split
    · simp [get]
    · simp only [get, if_neg hj]
      exact ih (fun e he => h e (by simp [he]))

theorem get_insert_other (d : Nat → α) (m : FMap α) {k i : Nat} (v : α) (h : i ≠ k) :
    get d (insert m k v) i = get d m i := by
  induction m with
  | nil => simp [insert, get, Ne.symm h]
  | cons e r ih =>
    obtain ⟨j, w⟩ := e
    simp only [insert]
    split
    · simp [get, Ne.symm h]
    · simp only [get, ih]

theorem erase_ne (m : FMap α) (k : Nat) : ∀ e ∈ erase m k, e.1 ≠ k := by
  intro e he
  simpa [erase] using (List.mem_filter.mp he).2

/-- A read of the number just written gives the value written. -/
theorem get_set_same [DecidableEq α] (d : Nat → α) (m : FMap α) (k : Nat) (v : α) :
    get d (set d m k v) k = v := by
  unfold set
  split
  · rename_i h; rw [get_erase_same, h]
  · exact get_insert_same d _ k v (erase_ne m k)

/-- A write leaves every other number alone. -/
theorem get_set_other [DecidableEq α] (d : Nat → α) (m : FMap α) {k i : Nat} (v : α) (h : i ≠ k) :
    get d (set d m k v) i = get d m i := by
  unfold set
  split
  · exact get_erase_other d m h
  · rw [get_insert_other d _ v h, get_erase_other d m h]

theorem get_set [DecidableEq α] (d : Nat → α) (m : FMap α) (k i : Nat) (v : α) :
    get d (set d m k v) i = if i = k then v else get d m i := by
  by_cases h : i = k
  · subst h; simp [get_set_same]
  · simp [h, get_set_other d m v h]

/-- A number that no write of a list names is unchanged. -/
theorem get_setMany_other [DecidableEq α] (d : Nat → α) (ws : List (Nat × α)) (m : FMap α) (i : Nat)
    (h : ∀ w ∈ ws, w.1 ≠ i) : get d (setMany d m ws) i = get d m i := by
  induction ws generalizing m with
  | nil => rfl
  | cons w r ih =>
    obtain ⟨k, v⟩ := w
    simp only [setMany]
    rw [ih _ (fun w hw => h w (by simp [hw]))]
    exact get_set_other d m v (Ne.symm (h (k, v) (by simp)))

theorem wfFrom_mono [DecidableEq α] (d : Nat → α) {lo lo' : Nat} (m : FMap α) (h : lo' ≤ lo)
    (hm : wfFrom d lo m = true) : wfFrom d lo' m = true := by
  cases m with
  | nil => rfl
  | cons e r =>
    obtain ⟨k, v⟩ := e
    simp only [wfFrom, Bool.and_eq_true, decide_eq_true_eq] at hm ⊢
    exact ⟨⟨by omega, hm.1.2⟩, hm.2⟩

theorem wfFrom_filter [DecidableEq α] (d : Nat → α) (p : Nat × α → Bool) {lo : Nat} (m : FMap α)
    (hm : wfFrom d lo m = true) : wfFrom d lo (m.filter p) = true := by
  induction m generalizing lo with
  | nil => rfl
  | cons e r ih =>
    obtain ⟨k, v⟩ := e
    simp only [wfFrom, Bool.and_eq_true, decide_eq_true_eq] at hm
    simp only [List.filter_cons]
    split
    · simp only [wfFrom, Bool.and_eq_true, decide_eq_true_eq]
      exact ⟨hm.1, ih hm.2⟩
    · exact ih (wfFrom_mono d r (by omega) hm.2)

theorem wfFrom_insert [DecidableEq α] (d : Nat → α) {lo : Nat} (m : FMap α) (k : Nat) (v : α)
    (hm : wfFrom d lo m = true) (hk : ∀ e ∈ m, e.1 ≠ k) (hlo : lo ≤ k) (hv : v ≠ d k) :
    wfFrom d lo (insert m k v) = true := by
  induction m generalizing lo with
  | nil => simp [insert, wfFrom, hlo, hv]
  | cons e r ih =>
    obtain ⟨j, w⟩ := e
    simp only [wfFrom, Bool.and_eq_true, decide_eq_true_eq] at hm
    have hj : j ≠ k := hk (j, w) (by simp)
    simp only [insert]
    split
    · simp only [wfFrom, Bool.and_eq_true, decide_eq_true_eq]
      exact ⟨⟨hlo, hv⟩, ⟨by omega, hm.1.2⟩, hm.2⟩
    · simp only [wfFrom, Bool.and_eq_true, decide_eq_true_eq]
      exact ⟨hm.1, ih hm.2 (fun e he => hk e (by simp [he])) (by omega)⟩

/-- A write keeps the canonical form. -/
theorem wf_set [DecidableEq α] (d : Nat → α) (m : FMap α) (k : Nat) (v : α) (hm : wf d m = true) :
    wf d (set d m k v) = true := by
  unfold set wf at *
  split
  · exact wfFrom_filter d _ m hm
  · rename_i h
    exact wfFrom_insert d _ k v (wfFrom_filter d _ m hm) (erase_ne m k) (Nat.zero_le k) h

theorem wf_erase [DecidableEq α] (d : Nat → α) (m : FMap α) (k : Nat) (hm : wf d m = true) :
    wf d (erase m k) = true := wfFrom_filter d _ m hm

theorem wf_eraseRange [DecidableEq α] (d : Nat → α) (m : FMap α) (lo hi : Nat) (hm : wf d m = true) :
    wf d (eraseRange m lo hi) = true := wfFrom_filter d _ m hm

theorem wf_setMany [DecidableEq α] (d : Nat → α) (ws : List (Nat × α)) (m : FMap α) (hm : wf d m = true) :
    wf d (setMany d m ws) = true := by
  induction ws generalizing m with
  | nil => exact hm
  | cons w r ih =>
    obtain ⟨k, v⟩ := w
    exact ih _ (wf_set d m k v hm)

theorem wf_modify [DecidableEq α] (d : Nat → α) (m : FMap α) (k : Nat) (f : α → α) (hm : wf d m = true) :
    wf d (modify d m k f) = true := wf_set d m k _ hm

end Sys2Proof.FMap
end

