-- ==== Sys2Proof/Laws/Frame.lean ====
section
/-! SUPPORT. What an instruction of row code can change outside its destinations: nothing (R58, R143). `rowFrame_of` is the lemma
to cite; `lanes_keeps` serves the instructions whose threads only write registers. -/

namespace Sys2Proof.Machine
open Sys2Proof

theorem find_map_key {l : List Thread} {row pos : Nat} (f : Thread → Thread) (hf : ∀ h, (f h).row = h.row ∧ (f h).pos = h.pos) :
    (l.map f).find? (fun h => h.row == row && h.pos == pos) = (l.find? (fun h => h.row == row && h.pos == pos)).map f := by
  induction l with
  | nil => rfl
  | cons a r ih =>
    simp only [List.map_cons, List.find?_cons, (hf a).1, (hf a).2]
    split <;> simp_all

theorem Team.thread_setThread (t : Team) (r p row pos : Nat) (f : Thread → Thread) (hf : ∀ h, (f h).row = h.row ∧ (f h).pos = h.pos) :
    (t.setThread r p f).thread? row pos = (t.thread? row pos).map (fun h => if h.row = r ∧ h.pos = p then f h else h) := by
  unfold Team.thread? Team.setThread
  exact find_map_key _ (fun h => by split <;> simp [hf])

theorem Team.thread_mapThreads (t : Team) (row pos : Nat) (f : Thread → Thread) (hf : ∀ h, (f h).row = h.row ∧ (f h).pos = h.pos) :
    (t.mapThreads f).thread? row pos = (t.thread? row pos).map f := by
  unfold Team.thread? Team.mapThreads
  exact find_map_key _ hf

/-- A register write within the allowed sets. -/
def mayWrite (A : Nat → Nat → List Nat) (S : Nat → Nat → Prop) (row pos reg : Nat) : Prop :=
  (192 ≤ reg → reg - 192 < 64 → S row (reg - 192)) ∧ (realReg reg = true → reg ∈ A row pos)

/-- A thread keeps what lies outside a fixed set of registers, and its pending writes stay within `Q`. -/
def ThreadRel (A : List Nat) (Q : Nat → Prop) (wc : Nat) (calls : Bool) (h g : Thread) : Prop :=
  h.keeps A wc calls g ∧ ((∀ e ∈ h.pend, Q e.reg) → ∀ e ∈ g.pend, Q e.reg)

theorem ThreadRel.refl {A Q wc calls h} : ThreadRel A Q wc calls h h := by simp [ThreadRel, Thread.keeps]
theorem ThreadRel.trans {A Q wc calls a b c} (h1 : ThreadRel A Q wc calls a b) (h2 : ThreadRel A Q wc calls b c) : ThreadRel A Q wc calls a c := by
  obtain ⟨⟨a1,a2,a3,a4,a5,a6,a7,a8⟩,a9⟩ := h1
  obtain ⟨⟨b1,b2,b3,b4,b5,b6,b7,b8⟩,b9⟩ := h2
  refine ⟨⟨fun n hn hA => (b1 n hn hA).trans (a1 n hn hA), fun n hn hA => (b2 n hn hA).trans (a2 n hn hA),
    fun n hn => (b3 n hn).trans (a3 n hn), fun hc => (b4 hc).trans (a4 hc), by rw [b5,a5], by rw [b6,a6], by rw [b7,a7], by rw [b8,a8]⟩,
    fun h => b9 (a9 h)⟩

/-- A team changes only registers that are allowed: by thread in `A`, by home row in `S`. -/
def TeamRel (A : Nat → Nat → List Nat) (S : Nat → Nat → Prop) (wc : Nat) (calls : Bool) (t u : Team) : Prop :=
  (∀ row pos, Option.Rel (ThreadRel (A row pos) (mayWrite A S row pos) wc calls) (t.thread? row pos) (u.thread? row pos))
  ∧ (∀ row n, n < 64 → ¬ S row n → u.sreg row n = t.sreg row n)
  ∧ { u.u with stop := t.u.stop } = t.u
  ∧ u.m.map (fun m => { m with stop := false }) = t.m.map (fun m => { m with stop := false })
  ∧ t.sameStore u

theorem rel_refl {α} {R : α → α → Prop} (h : ∀ a, R a a) (o : Option α) : Option.Rel R o o := by
  cases o <;> constructor; exact h _

theorem rel_trans {α} {R : α → α → Prop} (h : ∀ a b c, R a b → R b c → R a c) {a b c : Option α} (h1 : Option.Rel R a b) (h2 : Option.Rel R b c) :
    Option.Rel R a c := by
  cases h1 <;> cases h2 <;> constructor
  exact h _ _ _ ‹_› ‹_›

theorem TeamRel.refl {A S wc calls t} : TeamRel A S wc calls t t :=
  ⟨fun _ _ => rel_refl (fun _ => ThreadRel.refl) _, fun _ _ _ _ => rfl, rfl, rfl, rfl⟩

theorem TeamRel.trans {A S wc calls a b c} (h1 : TeamRel A S wc calls a b) (h2 : TeamRel A S wc calls b c) : TeamRel A S wc calls a c := by
  obtain ⟨a1,a2,a3,a4,a5⟩ := h1
  obtain ⟨b1,b2,b3,b4,b5⟩ := h2
  refine ⟨fun r p => rel_trans (R := ThreadRel (A r p) (mayWrite A S r p) wc calls) (fun _ _ _ h1 h2 => ThreadRel.trans h1 h2) (a1 r p) (b1 r p), fun r n hn hS => (b2 r n hn hS).trans (a2 r n hn hS), ?_, b4.trans a4, ?_⟩
  · rw [← a3, ← b3]
  · unfold Team.sameStore at *
    rw [← a5, ← b5]

theorem sreg_congr {t u : Team} (h : u.s = t.s) (row n : Nat) : u.sreg row n = t.sreg row n := by unfold Team.sreg; rw [h]

theorem TeamRel.setThread {A S wc calls} (t : Team) (r p : Nat) (f : Thread → Thread)
    (hf : ∀ h, (f h).row = h.row ∧ (f h).pos = h.pos) (hR : ∀ h, ThreadRel (A r p) (mayWrite A S r p) wc calls h (f h)) : TeamRel A S wc calls t (t.setThread r p f) := by
  refine ⟨fun row pos => ?_, fun _ _ _ _ => sreg_congr rfl _ _, rfl, rfl, rfl⟩
  rw [Team.thread_setThread _ _ _ _ _ _ hf]
  cases e : t.thread? row pos with
  | none => exact .none
  | some h =>
    refine .some ?_
    show ThreadRel (A row pos) (mayWrite A S row pos) wc calls h (if h.row = r ∧ h.pos = p then f h else h)
    split
    · rename_i hc
      have := List.find?_some e
      simp at this
      rw [← this.1, ← this.2, hc.1, hc.2]
      exact hR h
    · exact ThreadRel.refl

theorem TeamRel.mapThreads {A S wc calls} (t : Team) (f : Thread → Thread)
    (hf : ∀ h, (f h).row = h.row ∧ (f h).pos = h.pos) (hR : ∀ h, ThreadRel (A h.row h.pos) (mayWrite A S h.row h.pos) wc calls h (f h)) : TeamRel A S wc calls t (t.mapThreads f) := by
  refine ⟨fun row pos => ?_, fun _ _ _ _ => sreg_congr rfl _ _, rfl, rfl, rfl⟩
  rw [Team.thread_mapThreads _ _ _ _ hf]
  cases e : t.thread? row pos with
  | none => exact .none
  | some h =>
    refine .some ?_
    have := List.find?_some e
    simp at this
    rw [← this.1, ← this.2]
    exact hR h

theorem TeamRel.of_frags {A S wc calls} {t u : Team} (h1 : u.threads = t.threads) (h2 : u.s = t.s) (h3 : { u.u with stop := t.u.stop } = t.u)
    (h4 : u.m.map (fun m => { m with stop := false }) = t.m.map (fun m => { m with stop := false })) (h5 : t.sameStore u) :
    TeamRel A S wc calls t u := by
  refine ⟨fun row pos => ?_, fun _ _ _ _ => sreg_congr h2 _ _, h3, h4, h5⟩
  unfold Team.thread?
  rw [h1]
  exact rel_refl (fun _ => ThreadRel.refl) _

theorem TeamRel.foldl {α A S wc calls} (l : List α) (f : Team → α → Team) (t : Team) (h : ∀ t x, x ∈ l → TeamRel A S wc calls t (f t x)) :
    TeamRel A S wc calls t (l.foldl f t) := by
  induction l generalizing t with
  | nil => exact TeamRel.refl
  | cons a r ih => exact (h t a (by simp)).trans (ih _ (fun t x hx => h t x (by simp [hx])))

theorem get_set' (m : FMap DWord) (k i : Nat) (v : DWord) (h : i ≠ k) :
    FMap.get (fun _ => (0 : DWord)) (FMap.set (fun _ => (0 : DWord)) m k v) i = FMap.get (fun _ => (0 : DWord)) m i :=
  FMap.get_set_other _ _ _ h

theorem ThreadRel.put {A Q wc calls} (h : Thread) (w : RegW) (hw : realReg w.reg = true → w.reg ∈ A) : ThreadRel A Q wc calls h (h.put w) := by
  unfold Thread.put
  split
  · refine ⟨⟨fun n hn hA => ?_, fun n _ _ => rfl, fun _ _ => rfl, fun _ => rfl, rfl, rfl, rfl, rfl⟩, fun h => h⟩
    have : n ≠ w.reg := by rintro rfl; exact hA (hw (by simp only [realReg, decide_eq_true hn, Bool.true_or]))
    unfold Thread.reg Thread.setReg
    exact FMap.get_set_other (fun _ => ({} : VReg)) h.v _ this
  · split
    · rename_i h1 h2
      refine ⟨⟨fun n hn hA => by unfold Thread.reg; rfl, fun n hn hA => ?_, fun _ _ => by unfold Thread.wcnt; rfl, fun _ => rfl, rfl, rfl, rfl, rfl⟩, fun h => h⟩
      simp only [Thread.pred, predOf, setPred]
      have hne : n ≠ 7 := by omega
      simp only [hne, if_false]
      split
      · rename_i h3
        have hn' : w.reg - 128 ≠ n := by
          rintro rfl
          apply hA
          have : 128 + (w.reg - 128) = w.reg := by omega
          rw [this]
          exact hw (by simp only [realReg, Bool.or_eq_true, Bool.and_eq_true, decide_eq_true_eq]; omega)
        have ht : (2 ^ (w.reg - 128)).testBit n = false := by simp [hn']
        have hb : (BitVec.ofNat 7 (2 ^ (w.reg - 128))).getLsbD n = false := by rw [BitVec.getLsbD_ofNat, ht, Bool.and_false]
        split
        · rw [BitVec.getLsbD_or, hb, Bool.or_false]
        · rw [BitVec.getLsbD_and, BitVec.getLsbD_not, hb, decide_eq_true hn]; exact Bool.and_true _
      · rfl
    · exact ThreadRel.refl

theorem put_key (h : Thread) (w : RegW) : (h.put w).row = h.row ∧ (h.put w).pos = h.pos := by
  unfold Thread.put Thread.setReg; split; · simp
  split <;> simp

theorem TeamRel.put {A S wc calls} (t : Team) (row pos : Nat) (w : RegW) (hw : mayWrite A S row pos w.reg) : TeamRel A S wc calls t (t.put row pos w) := by
  unfold Team.put
  split
  · rename_i h1
    unfold Team.setSreg
    split
    · rename_i h2
      refine ⟨fun _ _ => rel_refl (fun _ => ThreadRel.refl) _, fun r n hn hS => ?_, rfl, rfl, rfl⟩
      unfold Team.sreg
      have : 64 * r + n ≠ 64 * row + (w.reg - 192) := by
        intro he
        have h1' : r = row := by omega
        subst h1'
        have e : n = w.reg - 192 := by omega
        have hs := hw.1 h1 h2
        rw [← e] at hs
        exact hS hs
      have e := FMap.get_set_other (fun _ => (0 : DWord)) t.s w.val this
      split
      · rfl
      · exact e
    · exact TeamRel.refl
  · exact TeamRel.setThread _ _ _ _ (fun h => put_key h w) (fun h => ThreadRel.put h w hw.2)

theorem TeamRel.putAll {A S wc calls} (t : Team) (row pos : Nat) (ws : List RegW) (hw : ∀ w ∈ ws, mayWrite A S row pos w.reg) :
    TeamRel A S wc calls t (t.putAll row pos ws) :=
  TeamRel.foldl _ _ _ (fun t w h => TeamRel.put t row pos w (hw w h))

theorem TeamRel.commit {A S wc calls} (md : WriteMode) (t : Team) (row pos : Nat) (ws : List RegW) (hw : ∀ w ∈ ws, mayWrite A S row pos w.reg) :
    TeamRel A S wc calls t (t.commit md row pos ws) := by
  unfold Team.commit
  have h1 : TeamRel A S wc calls t (match md.delay with
      | some look => t.setThread row pos (fun h => { h with pend := h.pend ++ pendsOf look ws })
      | none => t.putAll row pos ws) := by
    split
    · refine TeamRel.setThread _ _ _ _ (fun h => ⟨rfl, rfl⟩) (fun h => ⟨by simp [Thread.keeps, Thread.reg, Thread.pred, Thread.wcnt], fun hp e he => ?_⟩)
      simp only [List.mem_append] at he
      rcases he with he | he
      · exact hp e he
      · simp only [pendsOf, List.mem_map] at he
        obtain ⟨⟨x, i⟩, hx, rfl⟩ := he
        have := List.fst_mem_of_mem_zipIdx hx
        simp only [List.mem_filter] at this
        exact hw x this.1
    · exact TeamRel.putAll _ _ _ _ hw
  simp only []
  split
  · exact h1.trans (TeamRel.setThread _ _ _ _ (fun h => ⟨rfl, rfl⟩) (fun h => ⟨by simp [Thread.keeps, Thread.reg, Thread.pred, Thread.wcnt], fun h => h⟩))
  · exact h1

theorem thread_key {t : Team} {row pos h} (e : t.thread? row pos = some h) : h.row = row ∧ h.pos = pos := by
  have := List.find?_some e
  simpa using this

/-- All pending writes of threads are allowed. -/
def PendOk (A : Nat → Nat → List Nat) (S : Nat → Nat → Prop) (t : Team) : Prop :=
  ∀ row pos h, t.thread? row pos = some h → ∀ e ∈ h.pend, mayWrite A S row pos e.reg

theorem PendOk.mono {A S wc calls t u} (h : PendOk A S t) (r : TeamRel A S wc calls t u) : PendOk A S u := by
  intro row pos g hg
  have := r.1 row pos
  rw [hg] at this
  cases e : t.thread? row pos with
  | none => rw [e] at this; cases this
  | some x => rw [e] at this; cases this with
    | some hr => exact hr.2 (h row pos x e)

theorem PendOk.all (t : Team) : PendOk (fun _ _ => List.range 256) (fun _ _ => True) t := by
  intro _ _ _ _ e _
  refine ⟨fun _ _ => trivial, fun h => ?_⟩
  simp only [realReg, Bool.or_eq_true, Bool.and_eq_true, decide_eq_true_eq] at h
  simp only [List.mem_range]
  omega

/-- A selection of pending writes names only registers that were pending. -/
def PickOk (sel : List Pend → List Pend × List Pend) : Prop :=
  ∀ ps, (∀ e ∈ (sel ps).1, ∃ y ∈ ps, y.reg = e.reg) ∧ ∀ e ∈ (sel ps).2, ∃ y ∈ ps, y.reg = e.reg

theorem PickOk.spent : PickOk Pend.spent := by
  intro ps
  induction ps with
  | nil => simp [Pend.spent]
  | cons a r ih =>
    have up : ∀ e : Pend, (∃ y ∈ r, y.reg = e.reg) → ∃ y ∈ a :: r, y.reg = e.reg :=
      fun e ⟨y, hy, h⟩ => ⟨y, List.mem_cons_of_mem _ hy, h⟩
    unfold Pend.spent
    split
    · refine ⟨fun e he => up e (ih.1 e he), fun e he => ?_⟩
      rcases List.mem_cons.1 he with rfl | he
      · exact ⟨_, List.mem_cons_self, rfl⟩
      · exact up e (ih.2 e he)
    · split
      · exact ⟨by simp, fun e he => ⟨e, he, rfl⟩⟩
      · refine ⟨fun e he => ?_, fun e he => up e (ih.2 e he)⟩
        rcases List.mem_cons.1 he with rfl | he
        · exact ⟨_, List.mem_cons_self, rfl⟩
        · exact up e (ih.1 e he)

theorem PickOk.all : PickOk Pend.all := by
  refine fun ps => ⟨fun e he => ⟨e, (List.takeWhile_sublist _).mem he, rfl⟩, fun e he => ?_⟩
  simp only [Pend.all, List.mem_map] at he
  obtain ⟨y, hy, rfl⟩ := he
  exact ⟨y, (List.dropWhile_sublist _).mem hy, rfl⟩

theorem PickOk.tick : PickOk Pend.tick := by
  intro ps
  have up : ∀ e : Pend, (∃ y ∈ ps.map (fun (e : Pend) => { e with left := e.left - 1 }), y.reg = e.reg) → ∃ y ∈ ps, y.reg = e.reg := by
    rintro e ⟨y, hy, h⟩
    obtain ⟨x, hx, rfl⟩ := List.mem_map.1 hy
    exact ⟨x, hx, h⟩
  exact ⟨fun e he => up e ((PickOk.spent _).1 e he), fun e he => up e ((PickOk.spent _).2 e he)⟩

theorem PickOk.room (n k : Nat) : PickOk (Pend.room n k) := by
  induction k with
  | zero => exact fun ps => ⟨by simp [Pend.room], fun e he => ⟨e, he, rfl⟩⟩
  | succ k ih =>
    intro ps
    have none_ : (∀ e ∈ (([] : List Pend), ps).1, ∃ y ∈ ps, y.reg = e.reg) ∧ ∀ e ∈ (([] : List Pend), ps).2, ∃ y ∈ ps, y.reg = e.reg :=
      ⟨by simp, fun e he => ⟨e, he, rfl⟩⟩
    unfold Pend.room
    split
    · exact none_
    · split
      · exact none_
      · split
        · exact none_
        · have up : ∀ (q : Pend → Bool) (e : Pend), (∃ y ∈ ps.filter q, y.reg = e.reg) → ∃ y ∈ ps, y.reg = e.reg :=
            fun q e ⟨y, hy, h⟩ => ⟨y, (List.mem_filter.1 hy).1, h⟩
          refine ⟨fun e he => ?_, fun e he => up _ e ((ih _).2 e he)⟩
          rcases List.mem_append.1 he with he | he
          · exact ⟨e, (List.mem_filter.1 he).1, rfl⟩
          · exact up _ e ((ih _).1 e he)

theorem TeamRel.makePend {A S wc calls sel} (hs : PickOk sel) (t : Team) (row pos : Nat) (hp : PendOk A S t) :
    TeamRel A S wc calls t (t.makePend sel row pos) := by
  unfold Team.makePend
  split
  · rename_i h e
    refine (TeamRel.putAll _ _ _ _ ?_).trans (TeamRel.setThread _ _ _ _ (fun h => ⟨rfl, rfl⟩) (fun g => ⟨by simp [Thread.keeps, Thread.reg, Thread.pred, Thread.wcnt], ?_⟩))
    · intro w hw
      obtain ⟨x, hx, rfl⟩ := List.mem_map.1 hw
      obtain ⟨y, hy, hr⟩ := (hs _).1 x hx
      have := hp row pos h e y hy
      rwa [hr] at this
    · intro _ x hx
      obtain ⟨y, hy, hr⟩ := (hs _).2 x hx
      have := hp row pos h e y hy
      rwa [hr] at this
  · exact TeamRel.refl

theorem TeamRel.tick {A S wc calls} (t : Team) (row pos : Nat) (hp : PendOk A S t) : TeamRel A S wc calls t (t.tickThread row pos) :=
  (TeamRel.makePend PickOk.tick t row pos hp).trans
    (TeamRel.setThread _ _ _ _ (fun h => ⟨rfl, rfl⟩) (fun g => ⟨by simp [Thread.keeps, Thread.reg, Thread.pred, Thread.wcnt], fun h => h⟩))

theorem TeamRel.flush {A S wc calls} (t : Team) (row pos : Nat) (hp : PendOk A S t) : TeamRel A S wc calls t (t.flushThread row pos) :=
  TeamRel.makePend PickOk.all t row pos hp

theorem TeamRel.foldlP {α A S wc calls} (l : List α) (f : Team → α → Team) (t : Team) (hp : PendOk A S t)
    (h : ∀ t x, x ∈ l → PendOk A S t → TeamRel A S wc calls t (f t x)) : TeamRel A S wc calls t (l.foldl f t) := by
  induction l generalizing t with
  | nil => exact TeamRel.refl
  | cons a r ih =>
    have h1 := h t a (by simp) hp
    exact h1.trans (ih _ (hp.mono h1) (fun t x hx => h t x (by simp [hx])))

theorem TeamRel.flushFor {A S wc calls} (o fm) (t : Team) (ks) (hp : PendOk A S t) : TeamRel A S wc calls t (t.flushFor o fm ks) := by
  unfold Team.flushFor
  split
  · exact TeamRel.foldlP _ _ _ hp (fun t k _ hp => TeamRel.flush t _ _ hp)
  · exact TeamRel.refl

theorem TeamRel.roomFor {A S wc calls} (o fm) (t : Team) (ks) (hp : PendOk A S t) : TeamRel A S wc calls t (t.roomFor o fm ks) := by
  unfold Team.roomFor
  refine TeamRel.foldlP _ _ _ hp (fun t k _ hp => ?_)
  split
  · exact TeamRel.makePend (PickOk.room _ _) t _ _ hp
  · exact TeamRel.refl

/-- The pending writes that are made before the instruction issues. -/
theorem TeamRel.ready {A S wc calls} (o fm) (t : Team) (ks) (hp : PendOk A S t) :
    TeamRel A S wc calls t ((t.flushFor o fm ks).roomFor o fm ks) := by
  have h := TeamRel.flushFor (A := A) (S := S) (wc := wc) (calls := calls) o fm t ks hp
  exact h.trans (TeamRel.roomFor _ _ _ _ (hp.mono h))

theorem TeamRel.rejoin {A S wc calls} (o) (t : Team) (fid) : TeamRel A S wc calls t (t.rejoin o fid) := by
  unfold Team.rejoin
  split
  · refine TeamRel.mapThreads _ _ (fun h => ?_) (fun h => ?_)
    · split <;> simp
    · split
      · exact ⟨by simp [Thread.keeps, Thread.reg, Thread.pred, Thread.wcnt], fun h => h⟩
      · exact ThreadRel.refl
  · exact TeamRel.refl

theorem TeamRel.fillRes {A S wc calls} (md d) (t : Team) (ks) : TeamRel A S wc calls t (t.fillRes md d ks) := by
  unfold Team.fillRes
  split
  · exact TeamRel.refl
  · refine TeamRel.foldl _ _ _ (fun t k _ => TeamRel.setThread _ _ _ _ (fun h => ?_) (fun h => ?_))
    · split <;> simp
    · split
      · exact ThreadRel.refl
      · exact ⟨by simp [Thread.keeps, Thread.reg, Thread.pred, Thread.wcnt], fun h => h⟩

theorem TeamRel.setFrag {A S wc calls} (t : Team) (fid f) : TeamRel A S wc calls t (t.setFrag fid f) :=
  TeamRel.of_frags rfl rfl rfl rfl rfl

theorem TeamRel.settle {A S wc calls} (t : Team) : TeamRel A S wc calls t t.settle := by
  unfold Team.settle
  split
  · exact TeamRel.refl
  · have hu : ∀ u : UStream, { u.settle with stop := u.stop } = u := by
      intro u; unfold UStream.settle; split <;> rfl
    simp only []
    split <;> refine TeamRel.of_frags rfl rfl (hu _) ?_ rfl <;> cases t.m <;> rfl
  · unfold Team.endStep
    split
    · exact TeamRel.refl
    · simp only []
      split
      · split
        · exact TeamRel.of_frags rfl rfl rfl rfl rfl
        · exact TeamRel.refl
      · split
        · exact TeamRel.of_frags rfl rfl rfl rfl rfl
        · exact TeamRel.refl

theorem TeamRel.takeTrap {A S wc calls} (t : Team) (p : Party) (c : Cause) (idx now) (hp : ∀ u, p ≠ .ustream u) (hm : ∀ u, p ≠ .mstream u) :
    TeamRel A S wc calls t (t.takeTrap p c idx now) := by
  have h1 : TeamRel A S wc calls t (t.stopParty p c.code) := by
    unfold Team.stopParty
    cases p with
    | frag u f => exact TeamRel.setFrag _ _ _
    | lane u r q => simp only []; split; · exact TeamRel.setFrag _ _ _
                    · exact TeamRel.refl
    | ustream u => exact absurd rfl (hp u)
    | mstream u => exact absurd rfl (hm u)
  unfold Team.takeTrap
  simp only []
  split
  · refine h1.trans (TeamRel.trans ?_ (TeamRel.settle _))
    exact TeamRel.of_frags rfl rfl rfl rfl rfl
  · exact h1.trans (TeamRel.settle _)

theorem find_uid {l : List Team} (uid v : Nat) (f : Team → Team) (hf : ∀ t, (f t).uid = t.uid) :
    (l.map (fun t => if t.uid = uid then f t else t)).find? (fun t => t.uid == v)
      = (l.find? (fun t => t.uid == v)).map (fun t => if v = uid then f t else t) := by
  induction l with
  | nil => rfl
  | cons a r ih =>
    simp only [List.map_cons, List.find?_cons]
    have : (if a.uid = uid then f a else a).uid = a.uid := by split <;> simp [hf]
    rw [this]
    by_cases h : a.uid = v
    · subst h; simp
    · have h' : (a.uid == v) = false := by simpa using h
      simp only [h', ih]

theorem team_setTeam (s : State) (uid v : Nat) (f : Team → Team) (hf : ∀ t, (f t).uid = t.uid) :
    (s.setTeam uid f).team? v = (s.team? v).map (fun t => if v = uid then f t else t) := find_uid uid v f hf

theorem TeamRel.uid {A S wc calls t u} (h : TeamRel A S wc calls t u) : u.uid = t.uid := by
  have := h.2.2.2.2
  unfold Team.sameStore at this
  exact (congrArg Team.uid this :)

/-- Nothing but the team differs, and the team by `R`. -/
def StateLift (uid : Nat) (R : Team → Team → Prop) (s s' : State) : Prop :=
  s.sameWorld uid s' ∧ Option.Rel R (s.team? uid) (s'.team? uid)

theorem sameWorld_refl {uid s} : State.sameWorld uid s s := ⟨rfl, fun _ => rfl, fun _ _ => rfl⟩
theorem sameWorld_trans {uid a b c} (h1 : State.sameWorld uid a b) (h2 : State.sameWorld uid b c) : State.sameWorld uid a c := by
  obtain ⟨a1,a2,a3⟩ := h1
  obtain ⟨b1,b2,b3⟩ := h2
  refine ⟨?_, fun d => (b2 d).trans (a2 d), fun v hv => (b3 v hv).trans (a3 v hv)⟩
  rw [← a1, ← b1]

theorem StateLift.setTeam {uid R} (s : State) (f : Team → Team) (hf : ∀ t, (f t).uid = t.uid) (hR : ∀ t, s.team? uid = some t → R t (f t)) :
    StateLift uid R s (s.setTeam uid f) := by
  refine ⟨⟨rfl, fun _ => rfl, fun v hv => ?_⟩, ?_⟩
  · rw [team_setTeam _ _ _ _ hf]; simp [hv]
  · rw [team_setTeam _ _ _ _ hf]
    cases e : s.team? uid with
    | none => exact .none
    | some t => exact .some (by simpa using hR t e)

theorem StateLift.refl {uid R} {s : State} (h : ∀ t, R t t) : StateLift uid R s s := ⟨sameWorld_refl, rel_refl h _⟩
theorem StateLift.trans {uid} {R : Team → Team → Prop} (h : ∀ a b c, R a b → R b c → R a c) {a b c : State} (h1 : StateLift uid R a b) (h2 : StateLift uid R b c) : StateLift uid R a c :=
  ⟨sameWorld_trans h1.1 h2.1, rel_trans h h1.2 h2.2⟩

theorem sameWorld_setWindow (uid : Nat) (s : State) (d w : Nat) (f : Window → Window) : State.sameWorld uid s (s.setWindow d w f) := by
  refine ⟨rfl, fun e => ?_, fun _ _ => rfl⟩
  unfold State.setWindow State.setDie State.die FMap.modify
  simp only []
  by_cases h : e = d
  · subst h
    rw [FMap.get_set_same]
  · rw [FMap.get_set_other _ _ _ h]

theorem StateLift.stepDone {uid A S wc calls} (s : State) : StateLift uid (TeamRel A S wc calls) s (s.stepDone uid) := by
  unfold State.stepDone
  split
  · exact StateLift.refl (fun _ => TeamRel.refl)
  · split
    · split
      · exact ⟨sameWorld_setWindow _ _ _ _ _, rel_refl (fun _ => TeamRel.refl) _⟩
      · exact StateLift.refl (fun _ => TeamRel.refl)
    · exact StateLift.setTeam _ _ (fun _ => rfl) (fun _ _ => TeamRel.of_frags rfl rfl rfl rfl rfl)
    · exact StateLift.refl (fun _ => TeamRel.refl)

theorem StateLift.settle {uid A S wc calls} (s : State) : StateLift uid (TeamRel A S wc calls) s (s.settle uid) := by
  unfold State.settle
  exact StateLift.trans (R := TeamRel A S wc calls) (fun _ _ _ h1 h2 => TeamRel.trans h1 h2) (StateLift.setTeam _ _ (fun t => (TeamRel.settle (A := A) (S := S) (wc := wc) (calls := calls) t).uid) (fun t _ => TeamRel.settle t)) (StateLift.stepDone _)

/-- Nothing but the team differs, and the team only in allowed registers. -/
abbrev StateRel (uid : Nat) (A : Nat → Nat → List Nat) (S : Nat → Nat → Prop) (wc : Nat) (calls : Bool) (s s' : State) : Prop :=
  StateLift uid (TeamRel A S wc calls) s s'

theorem StateRel.trans {uid A S wc calls a b c} (h1 : StateRel uid A S wc calls a b) (h2 : StateRel uid A S wc calls b c) : StateRel uid A S wc calls a c :=
  StateLift.trans (R := TeamRel A S wc calls) (fun _ _ _ h1 h2 => TeamRel.trans h1 h2) h1 h2

theorem StateRel.refl {uid A S wc calls s} : StateRel uid A S wc calls s s := StateLift.refl (fun _ => TeamRel.refl)

theorem StateRel.setTeam {uid A S wc calls} (s : State) (f : Team → Team) (hR : ∀ t, s.team? uid = some t → TeamRel A S wc calls t (f t))
   (hu : ∀ t, (f t).uid = t.uid) : StateRel uid A S wc calls s (s.setTeam uid f) := StateLift.setTeam s f hu hR

theorem StateRel.trap {A S wc calls} (s : State) (p : Party) (c : Cause) (idx) (hp : ∀ u, p ≠ .ustream u) (hm : ∀ u, p ≠ .mstream u) :
    StateRel (partyUid p) A S wc calls s (s.trap p c idx) := by
  unfold State.trap
  refine StateRel.trans (StateRel.setTeam _ _ (fun t _ => TeamRel.takeTrap t p c idx _ hp hm) (fun t => (TeamRel.takeTrap (A := A) (S := S) (wc := wc) (calls := calls) t p c idx _ hp hm).uid)) (StateLift.stepDone _)

/-- Pending writes of the team are allowed. -/
def StatePend (uid : Nat) (A : Nat → Nat → List Nat) (S : Nat → Nat → Prop) (s : State) : Prop := ∀ t, s.team? uid = some t → PendOk A S t

theorem StatePend.mono {uid A S wc calls s s'} (h : StatePend uid A S s) (r : StateRel uid A S wc calls s s') : StatePend uid A S s' := by
  intro u hu
  have := r.2
  rw [hu] at this
  cases e : s.team? uid with
  | none => rw [e] at this; cases this
  | some t => rw [e] at this; cases this with
    | some hr => exact (h t e).mono hr

theorem StateRel.count {uid A S wc calls} (s : State) (hs) (dep) : StateRel uid A S wc calls s (s.count uid hs wc dep) := by
  unfold State.count
  split
  · exact StateRel.refl
  · have h1 : ∀ t : Team, TeamRel A S wc calls t (hs.foldl (fun t e =>
      t.setThread e.1 e.2 (fun h => { h with w := FMap.modify (fun _ => 0) h.w wc (· + 1) })) t) := by
      intro t
      refine TeamRel.foldl _ _ _ (fun t e _ => TeamRel.setThread _ _ _ _ (fun h => ⟨rfl, rfl⟩) (fun h => ⟨?_, fun h => h⟩))
      simp only [Thread.keeps, Thread.reg, Thread.pred, Thread.wcnt, implies_true, true_and, and_true]
      intro n hn
      exact FMap.get_set_other _ _ _ hn
    refine StateRel.trans (StateRel.setTeam s _ (fun t _ => h1 t) (fun t => (h1 t).uid)) ?_
    exact ⟨⟨rfl, fun _ => rfl, fun _ _ => rfl⟩, rel_refl (fun _ => TeamRel.refl) _⟩

theorem StateRel.finish {A S calls} (o fm) (c : Ctx) (s : State) (adv) (_ : c.t.uid = partyUid c.p) (hp : StatePend c.t.uid A S s) :
    StateRel c.t.uid A S fm.wc calls s (finishFrag o fm c s adv) := by
  unfold finishFrag
  simp only []
  refine StateRel.trans (b := if o.latency = .long ∧ ownCounter o = false then
      s.count c.t.uid ((keysOf c.act).filter (fun k => !(s.parkedOf c.t.uid (keysOf c.mem)).contains k)) fm.wc 0 else s) ?_ ?_
  · split
    · exact StateRel.count _ _ _
    · exact StateRel.refl
  · refine StateRel.trans ?_ (StateLift.settle _)
    have hp1 := hp.mono (wc := fm.wc) (calls := calls) (s' := if o.latency = .long ∧ ownCounter o = false then
      s.count c.t.uid ((keysOf c.act).filter (fun k => !(s.parkedOf c.t.uid (keysOf c.mem)).contains k)) fm.wc 0 else s) (by
        split
        · exact StateRel.count _ _ _
        · exact StateRel.refl)
    generalize (if o.latency = .long ∧ ownCounter o = false then
      s.count c.t.uid ((keysOf c.act).filter (fun k => !(s.parkedOf c.t.uid (keysOf c.mem)).contains k)) fm.wc 0 else s) = s1 at *
    generalize (keysOf c.mem).filter (fun k => !(s.parkedOf c.t.uid (keysOf c.mem)).contains k) = ks
    have key : ∀ (A : Nat → Nat → List Nat) (S : Nat → Nat → Prop) (t : Team), PendOk A S t → TeamRel A S fm.wc calls t
        (ks.foldl (fun t k => t.tickThread k.1 k.2) (t.fillRes c.md fm.d ks)) := by
      intro A S t hp
      have h1 : TeamRel A S fm.wc calls t (t.fillRes c.md fm.d ks) := TeamRel.fillRes _ _ _ _
      exact h1.trans (TeamRel.foldlP _ _ _ (hp.mono h1) (fun t k _ hp => TeamRel.tick t _ _ hp))
    have big : ∀ (A : Nat → Nat → List Nat) (S : Nat → Nat → Prop) (t : Team), PendOk A S t → TeamRel A S fm.wc calls t (
      let t2 := ks.foldl (fun t k => t.tickThread k.1 k.2) (t.fillRes c.md fm.d ks)
      let skidOf (g : Frag) : Nat := if t.halt.phase = .running ∨ g.stop then g.skid else g.skid + 1
      match c.p, adv with
      | .lane _ row pos, true =>
        if (s.parkedOf c.t.uid (keysOf c.mem)).contains (row, pos) then t2 else t2.setThread row pos (fun h => { h with cur := h.cur.advance })
      | .lane .., false => t2
      | _, true => t2.setFrag c.fid (fun g => { g with cur := g.cur.advance, wait := none, skid := skidOf g })
      | _, false => t2.setFrag c.fid (fun g => { g with skid := skidOf g })) := by
      intro A S t hp
      refine (key A S t hp).trans ?_
      simp only []
      split
      · split
        · exact TeamRel.refl
        · exact TeamRel.setThread _ _ _ _ (fun h => ⟨rfl, rfl⟩) (fun h => ⟨by simp [Thread.keeps, Thread.reg, Thread.pred, Thread.wcnt], fun h => h⟩)
      · exact TeamRel.refl
      · exact TeamRel.setFrag _ _ _
      · exact TeamRel.setFrag _ _ _
    refine StateRel.setTeam _ _ (fun t ht => big A S t (hp1 t ht)) (fun t => (big _ _ t (PendOk.all t)).uid)

/-- A note that a party has paid. -/
theorem StateRel.paid {uid A S wc calls} (s : State) (p : Party) : StateRel uid A S wc calls s (s.havePaid p) :=
  ⟨⟨rfl, fun _ => rfl, fun _ _ => rfl⟩, rel_refl (fun _ => TeamRel.refl) _⟩

theorem StateRel.stay {A S wc calls} (c : Ctx) (s : State) (w : WaitFor) : StateRel c.t.uid A S wc calls s (stayFrag c s w) := by
  unfold stayFrag
  split
  · exact StateRel.trans (StateRel.paid _ _) (StateLift.settle _)
  · refine StateRel.trans (StateRel.paid _ c.p) ?_
    exact StateRel.trans (StateRel.setTeam _ _ (fun t _ => TeamRel.setFrag _ _ _) (fun _ => rfl)) (StateLift.settle _)

theorem TeamRel.ready_uid (o fm) (t : Team) (ks) : ((t.flushFor o fm ks).roomFor o fm ks).uid = t.uid :=
  (TeamRel.ready (wc := 0) (calls := false) o fm t ks (PendOk.all t)).uid

/-- What coming to an instruction leaves. -/
theorem rowIssue_keeps {A S wc calls} {o fm p fid cur ks} {s : State} {uid : Nat} (hp : StatePend uid A S s) :
    match rowIssue o fm s p uid fid cur ks with
    | .go c => c.t.uid = uid ∧ c.p = p ∧ StateRel uid A S wc calls s c.s ∧ c.s.team? uid = some c.t
    | .hold s' => StateRel uid A S wc calls s s'
    | .stop _ => True := by
  unfold rowIssue
  have h1 : StateRel uid A S wc calls s (s.setTeam uid (fun t => (t.flushFor o fm ks).roomFor o fm ks)) :=
    StateRel.setTeam _ _ (fun t ht => TeamRel.ready _ _ _ _ (hp t ht)) (fun t => TeamRel.ready_uid _ _ _ _)
  simp only []
  cases e : (s.setTeam uid (fun t => (t.flushFor o fm ks).roomFor o fm ks)).team? uid with
  | none => simp
  | some t =>
    have hid : t.uid = uid := by simpa using List.find?_some e
    simp only []
    split
    · rename_i s' w e2
      split at e2
      · cases e2
      · simp only [Start.go.injEq] at e2; subst e2; exact ⟨hid, rfl, h1, e⟩
    · rename_i s' e2
      split at e2
      · simp only [Start.hold.injEq] at e2; subst e2
        refine h1.trans ?_
        subst hid
        exact StateRel.stay _ _ _
      · cases e2
    · trivial

theorem rowStart_keeps {A S wc calls} {o fm p} {s : State} (hc : s.cur = some p) (hn : ∀ u, p ≠ .ustream u) (hp : StatePend (partyUid p) A S s) :
    match rowStart o fm s with
    | .go c => c.t.uid = partyUid p ∧ c.p = p ∧ (∀ u, p ≠ .mstream u) ∧ StateRel (partyUid p) A S wc calls s c.s ∧ c.s.team? (partyUid p) = some c.t
    | .hold s' => StateRel (partyUid p) A S wc calls s s'
    | .stop _ => True := by
  unfold rowStart
  rw [hc]
  cases p with
  | ustream u => exact absurd rfl (hn u)
  | mstream u => trivial
  | frag uid fid =>
    simp only [partyUid] at *
    cases e : s.team? uid with
    | none => trivial
    | some t =>
      simp only []
      cases e2 : t.frag? fid with
      | none => trivial
      | some g =>
        simp only []
        by_cases h1 : g.cur.clause.isNone = true
        · simp [h1]
        · simp only [h1]
          by_cases h2 : (isConv o && t.parking fid) = true
          · simp only [h2, if_true]
            refine StateRel.trans (StateRel.paid _ (.frag uid fid)) ?_
            exact StateRel.trans (StateRel.setTeam _ _ (fun t _ => TeamRel.setFrag _ _ _) (fun _ => rfl)) (StateLift.settle _)
          · simp only [h2]
            have hr : StateRel uid A S wc calls s (s.setTeam uid (fun t => t.rejoin o fid)) :=
              StateRel.setTeam _ _ (fun t _ => TeamRel.rejoin _ _ _) (fun t => (TeamRel.rejoin (A := A) (S := S) (wc := wc) (calls := calls) o t fid).uid)
            have := rowIssue_keeps (wc := wc) (calls := calls) (o := o) (fm := fm) (p := .frag uid fid) (fid := fid) (cur := g.cur)
              (ks := keysOf ((((s.setTeam uid (fun t => t.rejoin o fid)).team? uid).map (fun t => t.members fid)).getD []))
              (s := s.setTeam uid (fun t => t.rejoin o fid)) (uid := uid) (hp.mono hr)
            revert this
            simp only [Bool.false_eq_true, if_false]
            cases rowIssue o fm (s.setTeam uid (fun t => t.rejoin o fid)) (.frag uid fid) uid fid g.cur
              (keysOf ((((s.setTeam uid (fun t => t.rejoin o fid)).team? uid).map (fun t => t.members fid)).getD [])) with
            | go c => exact fun h => ⟨h.1, h.2.1, by simp, hr.trans h.2.2.1, h.2.2.2⟩
            | hold s' => exact fun h => hr.trans h
            | stop f => exact fun _ => trivial
  | lane uid row pos =>
    simp only [partyUid] at *
    cases e : s.team? uid with
    | none => trivial
    | some t =>
      simp only []
      cases e2 : t.thread? row pos with
      | none => trivial
      | some g =>
        simp only []
        by_cases h1 : g.cur.clause.isNone = true
        · simp [h1]
        · simp only [h1]
          have := rowIssue_keeps (wc := wc) (calls := calls) (o := o) (fm := fm) (p := .lane uid row pos) (fid := g.fid) (cur := g.cur)
              (ks := [(row, pos)]) (s := s) (uid := uid) hp
          revert this
          simp only [Bool.false_eq_true, if_false]
          cases rowIssue o fm s (.lane uid row pos) uid g.fid g.cur [(row, pos)] with
          | go c => exact fun h => ⟨h.1, h.2.1, by simp, h.2.2.1, h.2.2.2⟩
          | hold s' => exact fun h => h
          | stop f => exact fun _ => trivial

/-- What a body answers. -/
def OutKeeps (uid : Nat) (A : Nat → Nat → List Nat) (S : Nat → Nat → Prop) (wc : Nat) (calls : Bool) (s : State) : Out → Prop
  | .done s' => StateRel uid A S wc calls s s'
  | .moved s' => StateRel uid A S wc calls s s'
  | .wait s' _ => StateRel uid A S wc calls s s'
  | .trap s' _ => StateRel uid A S wc calls s s'

theorem runRow_keeps {A S calls} {o fm p body} {s s' : State} (hc : s.cur = some p) (hn : ∀ u, p ≠ .ustream u) (hp : StatePend (partyUid p) A S s)
    (hb : ∀ c : Ctx, c.t.uid = partyUid p → c.s.team? c.t.uid = some c.t → OutKeeps c.t.uid A S fm.wc calls c.s (body c))
    (h : runRow o fm body s = .next s') : StateRel (partyUid p) A S fm.wc calls s s' := by
  unfold runRow at h
  have hs := rowStart_keeps (wc := fm.wc) (calls := calls) (o := o) (fm := fm) hc hn hp
  cases e : rowStart o fm s with
  | hold t => rw [e] at h hs; simp only [Host.Outcome.next.injEq] at h; subst h; exact hs
  | stop f => rw [e] at h; cases h
  | go c =>
    rw [e] at h hs
    obtain ⟨h1, h2, h3, h4, h5⟩ := hs
    have hb := hb c h1 (by rw [h1]; exact h5)
    have hp' := hp.mono h4
    rw [← h1] at h4 hp' ⊢
    simp only [concludeFrag, blame] at h
    cases eb : body c with
    | done s1 =>
      rw [eb] at h hb; simp only [Host.Outcome.next.injEq] at h; subst h
      exact h4.trans (hb.trans (StateRel.finish o fm c s1 true (by rw [h1, h2]) (hp'.mono hb)))
    | moved s1 =>
      rw [eb] at h hb; simp only [Host.Outcome.next.injEq] at h; subst h
      exact h4.trans (hb.trans (StateRel.finish o fm c s1 false (by rw [h1, h2]) (hp'.mono hb)))
    | wait s1 w =>
      rw [eb] at h hb; simp only [Host.Outcome.next.injEq] at h; subst h
      exact h4.trans (hb.trans (StateRel.stay _ _ _))
    | trap s1 e1 =>
      rw [eb] at h hb; simp only [Host.Outcome.next.injEq] at h; subst h
      refine h4.trans (hb.trans ?_)
      have := StateRel.trap (A := A) (S := S) (wc := fm.wc) (calls := calls) s1 c.p
        { e1 with who := ((c.act.find? (fun h => match body { c with act := [h] } with
            | .trap _ e' => e'.code == e1.code
            | _ => false)) <|> c.act.head?).map (fun h => (h.row, h.pos)) } none (by rw [h2]; exact hn) (by rw [h2]; exact h3)
      have hu : partyUid c.p = c.t.uid := by rw [h2, h1]
      rw [hu] at this
      exact this

theorem rowFrame_of {calls dests} {o fm i body} (he : ∀ s, (∀ u, s.cur ≠ some (.ustream u)) → exec i s = runRow o fm body s)
    (hb : ∀ A S (c : Ctx), (∀ row pos, ∀ r ∈ dests, mayWrite A S row pos r) → c.s.team? c.t.uid = some c.t →
      OutKeeps c.t.uid A S fm.wc calls c.s (body c)) :
    RowFrame i (fun uid s s' t u => s.sameWorld uid s' ∧ t.rowKeeps dests fm.wc calls u ∧ t.sameStore u) := by
  intro s s' p t hc hn ht h
  rw [he s (by rw [hc]; intro u hu; exact hn u (by simpa using hu))] at h
  have hr := runRow_keeps (A := fun row pos => dests ++ ((t.thread? row pos).map (fun h => h.pend.map (·.reg))).getD [])
    (S := fun row n => 192 + n ∈ dests ∨ ∃ h ∈ t.threads, h.row = row ∧ 192 + n ∈ h.pend.map (·.reg)) (calls := calls) hc hn ?_ ?_ h
  · obtain ⟨hw, hr⟩ := hr
    rw [ht] at hr
    cases e : s'.team? (partyUid p) with
    | none => rw [e] at hr; cases hr
    | some u =>
      rw [e] at hr
      cases hr with
      | some hr =>
        refine ⟨u, rfl, hw, ⟨fun row pos x hx => ?_, fun row n hn hd hq => hr.2.1 row n hn ?_, hr.2.2.1, hr.2.2.2.1⟩, hr.2.2.2.2⟩
        · have := hr.1 row pos
          rw [hx] at this
          cases e2 : u.thread? row pos with
          | none => rw [e2] at this; cases this
          | some g => rw [e2] at this; cases this with
            | some h3 => exact ⟨g, rfl, by simpa [hx] using h3.1⟩
        · rintro (h | ⟨y, hy, hyr, hym⟩)
          · exact hd h
          · exact hq y hy hyr hym
  · intro t' ht' row pos x hx e he'
    rw [ht] at ht'; cases ht'
    have hk := thread_key hx
    have hm : x ∈ t.threads := List.mem_of_find?_eq_some hx
    refine ⟨fun h1 h2 => .inr ⟨x, hm, hk.1, ?_⟩, fun _ => ?_⟩
    · rw [List.mem_map]; exact ⟨e, he', by omega⟩
    · simp only [hx, List.mem_append]
      exact .inr (List.mem_map.2 ⟨e, he', rfl⟩)
  · intro c _ hct
    refine hb _ _ c (fun row pos r hr => ⟨fun h1 h2 => .inl ?_, fun _ => by simp [hr]⟩) hct
    have : 192 + (r - 192) = r := by omega
    rw [this]; exact hr

theorem lanes_keeps {A S wc calls} {dests : List Nat} {f : Ctx → Thread → LaneOut} (c : Ctx) (hd : ∀ row pos, ∀ r ∈ dests, mayWrite A S row pos r)
    (hf : ∀ h ws, f c h = .ok ws → ∀ w ∈ ws, w.reg ∈ dests) : OutKeeps c.t.uid A S wc calls c.s (lanes f c) := by
  unfold lanes
  simp only []
  split
  · exact StateRel.refl
  · have : ∀ t : Team, TeamRel A S wc calls t (List.foldl (fun t (r : (Nat × Nat) × LaneOut) =>
      match r.2 with
      | .ok ws => t.commit c.md r.1.1 r.1.2 ws
      | .error _ => t) t (c.act.map (fun h => ((h.row, h.pos), f c h)))) := by
      intro t
      refine TeamRel.foldl _ _ _ (fun t r hr => ?_)
      split
      · rename_i ws e
        simp only [List.mem_map] at hr
        obtain ⟨h, _, rfl⟩ := hr
        exact TeamRel.commit _ _ _ _ _ (fun w hw => hd _ _ _ (hf h ws e w hw))
      · exact TeamRel.refl
    exact StateRel.setTeam _ _ (fun t _ => this t) (fun t => (this t).uid)

end Sys2Proof.Machine
end

