-- ==== Sys2Proof/Laws/MemModel.lean ====
section
/-! SUPPORT. What the memory model forbids, in the shapes of the examples of the spec (Tables 14.1, 14.3, 14.4 and 14.5). -/

namespace Sys2Proof.Machine

open Sys2Proof

theorem MemExec.hb_trans {x : MemExec} {a b c : Nat} (h : x.hb a b) (k : x.hb b c) : x.hb a c := Relation.TransGen.trans h k

theorem MemExec.hb_po {x : MemExec} {a b : Nat} (h : x.po a b) : x.hb a b := .single (.inl h)

theorem MemExec.hb_sw {x : MemExec} {a b : Nat} (h : x.sw a b) : x.hb a b := .single (.inr (.inl h))

/-- R260 items 4 and 6: a read does not go behind a write that happens before it. -/
theorem MemExec.allowed_fresh {x : MemExec} (h : x.allowed) {r w : Nat} {l : Loc} (hr : l ∈ (x.ev r).reads) (hw : x.hb w r)
    (hf : x.isFetch r = false) (hs : ¬ x.stale r l w) : ¬ before (x.co l) (x.rf r l) w := fun hb => by
  rcases h.2.2.2.2.1 r l w hr hb hw with k | k
  · simp [hf] at k
  · exact hs k

/-- Message passing (Table 14.1): what was written before a release is read after the acquire that synchronises with it. -/
theorem MemExec.message_passing {x : MemExec} (h : x.allowed) {w e f r : Nat} {l : Loc} (h1 : x.po w e) (h2 : x.sw e f) (h3 : x.po f r)
    (hr : l ∈ (x.ev r).reads) (hf : x.isFetch r = false) (hs : ¬ x.stale r l w) : ¬ before (x.co l) (x.rf r l) w :=
  MemExec.allowed_fresh h hr (MemExec.hb_trans (MemExec.hb_po h1) (MemExec.hb_trans (MemExec.hb_sw h2) (MemExec.hb_po h3))) hf hs

/-- Store buffering with fences (Table 14.3): of two fences of kind `.sc`, the one that is first in S lets its party's write be seen after
the other. -/
theorem MemExec.fenced_writes {x : MemExec} (h : x.allowed) {w e f r : Nat} {l : Loc} (h1 : x.po w e) (h2 : x.scEdge e f) (h3 : x.po f r)
    (hr : l ∈ (x.ev r).reads) (hf : x.isFetch r = false) (hs : ¬ x.stale r l w) : ¬ before (x.co l) (x.rf r l) w :=
  MemExec.allowed_fresh h hr (MemExec.hb_trans (MemExec.hb_po h1)
    (MemExec.hb_trans (.single (.inr (.inr (.inr (.inr (.inr (.inr (.inl h2)))))))) (MemExec.hb_po h3))) hf hs

/-- Coherence of one location (Table 14.4): two reads of one party follow the coherence order. -/
theorem MemExec.read_read {x : MemExec} (h : x.allowed) {q r : Nat} {l : Loc} (h1 : x.po q r) (hq : l ∈ (x.ev q).reads)
    (hr : l ∈ (x.ev r).reads) (hf : x.isFetch r = false) (hs : ¬ x.stale r l (x.rf q l)) : ¬ before (x.co l) (x.rf r l) (x.rf q l) :=
  fun hb => by
    rcases h.2.2.2.2.2.1 q r l hq hr (MemExec.hb_po h1) hb with k | k
    · simp [hf] at k
    · exact hs k

/-- Load buffering (Table 14.5): no values out of nowhere. -/
theorem MemExec.load_buffering {x : MemExec} (h : x.allowed) {q v r w : Nat} {l m : Loc} (h1 : x.po q v) (h2 : x.po r w)
    (hq : l ∈ (x.ev q).reads) (hr : m ∈ (x.ev r).reads) (hw : x.rf q l = w) : x.rf r m ≠ v := fun hv =>
  h.2.2.2.2.2.2.1 q (.tail (.tail (.tail (.single (.inl (.inl h1))) (.inr ⟨m, hr, hv⟩)) (.inl (.inl h2))) (.inr ⟨l, hq, hw⟩))

end Sys2Proof.Machine
end

