-- ==== Sys2Proof/Laws/State.lean ====
section
/-! SUPPORT. What each update of a record leaves of its fields, one lemma per field, and what the memory operations read back. -/

namespace Sys2Proof.Machine

/-! ### Updates of State -/

@[simp] theorem State.setTeam_clk (s : State) (u : Nat) (f : Team → Team) : (s.setTeam u f).clk = s.clk := rfl
@[simp] theorem State.setTeam_tick (s : State) (u : Nat) (f : Team → Team) : (s.setTeam u f).tick = s.tick := rfl
@[simp] theorem State.setTeam_mem (s : State) (u : Nat) (f : Team → Team) : (s.setTeam u f).mem = s.mem := rfl
@[simp] theorem State.setTeam_poison (s : State) (u : Nat) (f : Team → Team) : (s.setTeam u f).poison = s.poison := rfl
@[simp] theorem State.setTeam_caches (s : State) (u : Nat) (f : Team → Team) : (s.setTeam u f).caches = s.caches := rfl
@[simp] theorem State.setTeam_czPages (s : State) (u : Nat) (f : Team → Team) : (s.setTeam u f).czPages = s.czPages := rfl
@[simp] theorem State.setTeam_atsDenied (s : State) (u : Nat) (f : Team → Team) : (s.setTeam u f).atsDenied = s.atsDenied := rfl
@[simp] theorem State.setTeam_frames (s : State) (u : Nat) (f : Team → Team) : (s.setTeam u f).frames = s.frames := rfl
@[simp] theorem State.setTeam_pitches (s : State) (u : Nat) (f : Team → Team) : (s.setTeam u f).pitches = s.pitches := rfl
@[simp] theorem State.setTeam_arbiters (s : State) (u : Nat) (f : Team → Team) : (s.setTeam u f).arbiters = s.arbiters := rfl
@[simp] theorem State.setTeam_dies (s : State) (u : Nat) (f : Team → Team) : (s.setTeam u f).dies = s.dies := rfl
@[simp] theorem State.setTeam_pkg (s : State) (u : Nat) (f : Team → Team) : (s.setTeam u f).pkg = s.pkg := rfl
@[simp] theorem State.setTeam_launches (s : State) (u : Nat) (f : Team → Team) : (s.setTeam u f).launches = s.launches := rfl
@[simp] theorem State.setTeam_accepts (s : State) (u : Nat) (f : Team → Team) : (s.setTeam u f).accepts = s.accepts := rfl
@[simp] theorem State.setTeam_saved (s : State) (u : Nat) (f : Team → Team) : (s.setTeam u f).saved = s.saved := rfl
@[simp] theorem State.setTeam_preempts (s : State) (u : Nat) (f : Team → Team) : (s.setTeam u f).preempts = s.preempts := rfl
@[simp] theorem State.setTeam_inflight (s : State) (u : Nat) (f : Team → Team) : (s.setTeam u f).inflight = s.inflight := rfl
@[simp] theorem State.setTeam_barrows (s : State) (u : Nat) (f : Team → Team) : (s.setTeam u f).barrows = s.barrows := rfl
@[simp] theorem State.setTeam_gleans (s : State) (u : Nat) (f : Team → Team) : (s.setTeam u f).gleans = s.gleans := rfl
@[simp] theorem State.setTeam_drains (s : State) (u : Nat) (f : Team → Team) : (s.setTeam u f).drains = s.drains := rfl
@[simp] theorem State.setTeam_grants (s : State) (u : Nat) (f : Team → Team) : (s.setTeam u f).grants = s.grants := rfl
@[simp] theorem State.setTeam_faults (s : State) (u : Nat) (f : Team → Team) : (s.setTeam u f).faults = s.faults := rfl
@[simp] theorem State.setTeam_recs (s : State) (u : Nat) (f : Team → Team) : (s.setTeam u f).recs = s.recs := rfl
@[simp] theorem State.setTeam_svc (s : State) (u : Nat) (f : Team → Team) : (s.setTeam u f).svc = s.svc := rfl
@[simp] theorem State.setTeam_held (s : State) (u : Nat) (f : Team → Team) : (s.setTeam u f).held = s.held := rfl
@[simp] theorem State.setTeam_nextId (s : State) (u : Nat) (f : Team → Team) : (s.setTeam u f).nextId = s.nextId := rfl
@[simp] theorem State.setTeam_outbox (s : State) (u : Nat) (f : Team → Team) : (s.setTeam u f).outbox = s.outbox := rfl
@[simp] theorem State.setTeam_agenda (s : State) (u : Nat) (f : Team → Team) : (s.setTeam u f).agenda = s.agenda := rfl
@[simp] theorem State.setTeam_turn (s : State) (u : Nat) (f : Team → Team) : (s.setTeam u f).turn = s.turn := rfl
@[simp] theorem State.setTeam_cur (s : State) (u : Nat) (f : Team → Team) : (s.setTeam u f).cur = s.cur := rfl
@[simp] theorem State.setTeam_waited (s : State) (u : Nat) (f : Team → Team) : (s.setTeam u f).waited = s.waited := rfl

@[simp] theorem State.setPitch_clk (s : State) (x : Nat) (f : Pitch → Pitch) : (s.setPitch x f).clk = s.clk := rfl
@[simp] theorem State.setPitch_tick (s : State) (x : Nat) (f : Pitch → Pitch) : (s.setPitch x f).tick = s.tick := rfl
@[simp] theorem State.setPitch_mem (s : State) (x : Nat) (f : Pitch → Pitch) : (s.setPitch x f).mem = s.mem := rfl
@[simp] theorem State.setPitch_poison (s : State) (x : Nat) (f : Pitch → Pitch) : (s.setPitch x f).poison = s.poison := rfl
@[simp] theorem State.setPitch_caches (s : State) (x : Nat) (f : Pitch → Pitch) : (s.setPitch x f).caches = s.caches := rfl
@[simp] theorem State.setPitch_czPages (s : State) (x : Nat) (f : Pitch → Pitch) : (s.setPitch x f).czPages = s.czPages := rfl
@[simp] theorem State.setPitch_atsDenied (s : State) (x : Nat) (f : Pitch → Pitch) : (s.setPitch x f).atsDenied = s.atsDenied := rfl
@[simp] theorem State.setPitch_frames (s : State) (x : Nat) (f : Pitch → Pitch) : (s.setPitch x f).frames = s.frames := rfl
@[simp] theorem State.setPitch_arbiters (s : State) (x : Nat) (f : Pitch → Pitch) : (s.setPitch x f).arbiters = s.arbiters := rfl
@[simp] theorem State.setPitch_dies (s : State) (x : Nat) (f : Pitch → Pitch) : (s.setPitch x f).dies = s.dies := rfl
@[simp] theorem State.setPitch_pkg (s : State) (x : Nat) (f : Pitch → Pitch) : (s.setPitch x f).pkg = s.pkg := rfl
@[simp] theorem State.setPitch_launches (s : State) (x : Nat) (f : Pitch → Pitch) : (s.setPitch x f).launches = s.launches := rfl
@[simp] theorem State.setPitch_accepts (s : State) (x : Nat) (f : Pitch → Pitch) : (s.setPitch x f).accepts = s.accepts := rfl
@[simp] theorem State.setPitch_teams (s : State) (x : Nat) (f : Pitch → Pitch) : (s.setPitch x f).teams = s.teams := rfl
@[simp] theorem State.setPitch_saved (s : State) (x : Nat) (f : Pitch → Pitch) : (s.setPitch x f).saved = s.saved := rfl
@[simp] theorem State.setPitch_preempts (s : State) (x : Nat) (f : Pitch → Pitch) : (s.setPitch x f).preempts = s.preempts := rfl
@[simp] theorem State.setPitch_inflight (s : State) (x : Nat) (f : Pitch → Pitch) : (s.setPitch x f).inflight = s.inflight := rfl
@[simp] theorem State.setPitch_barrows (s : State) (x : Nat) (f : Pitch → Pitch) : (s.setPitch x f).barrows = s.barrows := rfl
@[simp] theorem State.setPitch_gleans (s : State) (x : Nat) (f : Pitch → Pitch) : (s.setPitch x f).gleans = s.gleans := rfl
@[simp] theorem State.setPitch_drains (s : State) (x : Nat) (f : Pitch → Pitch) : (s.setPitch x f).drains = s.drains := rfl
@[simp] theorem State.setPitch_grants (s : State) (x : Nat) (f : Pitch → Pitch) : (s.setPitch x f).grants = s.grants := rfl
@[simp] theorem State.setPitch_faults (s : State) (x : Nat) (f : Pitch → Pitch) : (s.setPitch x f).faults = s.faults := rfl
@[simp] theorem State.setPitch_recs (s : State) (x : Nat) (f : Pitch → Pitch) : (s.setPitch x f).recs = s.recs := rfl
@[simp] theorem State.setPitch_svc (s : State) (x : Nat) (f : Pitch → Pitch) : (s.setPitch x f).svc = s.svc := rfl
@[simp] theorem State.setPitch_held (s : State) (x : Nat) (f : Pitch → Pitch) : (s.setPitch x f).held = s.held := rfl
@[simp] theorem State.setPitch_nextId (s : State) (x : Nat) (f : Pitch → Pitch) : (s.setPitch x f).nextId = s.nextId := rfl
@[simp] theorem State.setPitch_outbox (s : State) (x : Nat) (f : Pitch → Pitch) : (s.setPitch x f).outbox = s.outbox := rfl
@[simp] theorem State.setPitch_agenda (s : State) (x : Nat) (f : Pitch → Pitch) : (s.setPitch x f).agenda = s.agenda := rfl
@[simp] theorem State.setPitch_turn (s : State) (x : Nat) (f : Pitch → Pitch) : (s.setPitch x f).turn = s.turn := rfl
@[simp] theorem State.setPitch_cur (s : State) (x : Nat) (f : Pitch → Pitch) : (s.setPitch x f).cur = s.cur := rfl
@[simp] theorem State.setPitch_waited (s : State) (x : Nat) (f : Pitch → Pitch) : (s.setPitch x f).waited = s.waited := rfl

@[simp] theorem State.setDie_clk (s : State) (d : Nat) (f : Die → Die) : (s.setDie d f).clk = s.clk := rfl
@[simp] theorem State.setDie_tick (s : State) (d : Nat) (f : Die → Die) : (s.setDie d f).tick = s.tick := rfl
@[simp] theorem State.setDie_mem (s : State) (d : Nat) (f : Die → Die) : (s.setDie d f).mem = s.mem := rfl
@[simp] theorem State.setDie_poison (s : State) (d : Nat) (f : Die → Die) : (s.setDie d f).poison = s.poison := rfl
@[simp] theorem State.setDie_caches (s : State) (d : Nat) (f : Die → Die) : (s.setDie d f).caches = s.caches := rfl
@[simp] theorem State.setDie_czPages (s : State) (d : Nat) (f : Die → Die) : (s.setDie d f).czPages = s.czPages := rfl
@[simp] theorem State.setDie_atsDenied (s : State) (d : Nat) (f : Die → Die) : (s.setDie d f).atsDenied = s.atsDenied := rfl
@[simp] theorem State.setDie_frames (s : State) (d : Nat) (f : Die → Die) : (s.setDie d f).frames = s.frames := rfl
@[simp] theorem State.setDie_pitches (s : State) (d : Nat) (f : Die → Die) : (s.setDie d f).pitches = s.pitches := rfl
@[simp] theorem State.setDie_arbiters (s : State) (d : Nat) (f : Die → Die) : (s.setDie d f).arbiters = s.arbiters := rfl
@[simp] theorem State.setDie_pkg (s : State) (d : Nat) (f : Die → Die) : (s.setDie d f).pkg = s.pkg := rfl
@[simp] theorem State.setDie_launches (s : State) (d : Nat) (f : Die → Die) : (s.setDie d f).launches = s.launches := rfl
@[simp] theorem State.setDie_accepts (s : State) (d : Nat) (f : Die → Die) : (s.setDie d f).accepts = s.accepts := rfl
@[simp] theorem State.setDie_teams (s : State) (d : Nat) (f : Die → Die) : (s.setDie d f).teams = s.teams := rfl
@[simp] theorem State.setDie_saved (s : State) (d : Nat) (f : Die → Die) : (s.setDie d f).saved = s.saved := rfl
@[simp] theorem State.setDie_preempts (s : State) (d : Nat) (f : Die → Die) : (s.setDie d f).preempts = s.preempts := rfl
@[simp] theorem State.setDie_inflight (s : State) (d : Nat) (f : Die → Die) : (s.setDie d f).inflight = s.inflight := rfl
@[simp] theorem State.setDie_barrows (s : State) (d : Nat) (f : Die → Die) : (s.setDie d f).barrows = s.barrows := rfl
@[simp] theorem State.setDie_gleans (s : State) (d : Nat) (f : Die → Die) : (s.setDie d f).gleans = s.gleans := rfl
@[simp] theorem State.setDie_drains (s : State) (d : Nat) (f : Die → Die) : (s.setDie d f).drains = s.drains := rfl
@[simp] theorem State.setDie_grants (s : State) (d : Nat) (f : Die → Die) : (s.setDie d f).grants = s.grants := rfl
@[simp] theorem State.setDie_faults (s : State) (d : Nat) (f : Die → Die) : (s.setDie d f).faults = s.faults := rfl
@[simp] theorem State.setDie_recs (s : State) (d : Nat) (f : Die → Die) : (s.setDie d f).recs = s.recs := rfl
@[simp] theorem State.setDie_svc (s : State) (d : Nat) (f : Die → Die) : (s.setDie d f).svc = s.svc := rfl
@[simp] theorem State.setDie_held (s : State) (d : Nat) (f : Die → Die) : (s.setDie d f).held = s.held := rfl
@[simp] theorem State.setDie_nextId (s : State) (d : Nat) (f : Die → Die) : (s.setDie d f).nextId = s.nextId := rfl
@[simp] theorem State.setDie_outbox (s : State) (d : Nat) (f : Die → Die) : (s.setDie d f).outbox = s.outbox := rfl
@[simp] theorem State.setDie_agenda (s : State) (d : Nat) (f : Die → Die) : (s.setDie d f).agenda = s.agenda := rfl
@[simp] theorem State.setDie_turn (s : State) (d : Nat) (f : Die → Die) : (s.setDie d f).turn = s.turn := rfl
@[simp] theorem State.setDie_cur (s : State) (d : Nat) (f : Die → Die) : (s.setDie d f).cur = s.cur := rfl
@[simp] theorem State.setDie_waited (s : State) (d : Nat) (f : Die → Die) : (s.setDie d f).waited = s.waited := rfl

@[simp] theorem State.setPkg_clk (s : State) (f : Pkg → Pkg) : (s.setPkg f).clk = s.clk := rfl
@[simp] theorem State.setPkg_tick (s : State) (f : Pkg → Pkg) : (s.setPkg f).tick = s.tick := rfl
@[simp] theorem State.setPkg_mem (s : State) (f : Pkg → Pkg) : (s.setPkg f).mem = s.mem := rfl
@[simp] theorem State.setPkg_poison (s : State) (f : Pkg → Pkg) : (s.setPkg f).poison = s.poison := rfl
@[simp] theorem State.setPkg_caches (s : State) (f : Pkg → Pkg) : (s.setPkg f).caches = s.caches := rfl
@[simp] theorem State.setPkg_czPages (s : State) (f : Pkg → Pkg) : (s.setPkg f).czPages = s.czPages := rfl
@[simp] theorem State.setPkg_atsDenied (s : State) (f : Pkg → Pkg) : (s.setPkg f).atsDenied = s.atsDenied := rfl
@[simp] theorem State.setPkg_frames (s : State) (f : Pkg → Pkg) : (s.setPkg f).frames = s.frames := rfl
@[simp] theorem State.setPkg_pitches (s : State) (f : Pkg → Pkg) : (s.setPkg f).pitches = s.pitches := rfl
@[simp] theorem State.setPkg_arbiters (s : State) (f : Pkg → Pkg) : (s.setPkg f).arbiters = s.arbiters := rfl
@[simp] theorem State.setPkg_dies (s : State) (f : Pkg → Pkg) : (s.setPkg f).dies = s.dies := rfl
@[simp] theorem State.setPkg_launches (s : State) (f : Pkg → Pkg) : (s.setPkg f).launches = s.launches := rfl
@[simp] theorem State.setPkg_accepts (s : State) (f : Pkg → Pkg) : (s.setPkg f).accepts = s.accepts := rfl
@[simp] theorem State.setPkg_teams (s : State) (f : Pkg → Pkg) : (s.setPkg f).teams = s.teams := rfl
@[simp] theorem State.setPkg_saved (s : State) (f : Pkg → Pkg) : (s.setPkg f).saved = s.saved := rfl
@[simp] theorem State.setPkg_preempts (s : State) (f : Pkg → Pkg) : (s.setPkg f).preempts = s.preempts := rfl
@[simp] theorem State.setPkg_inflight (s : State) (f : Pkg → Pkg) : (s.setPkg f).inflight = s.inflight := rfl
@[simp] theorem State.setPkg_barrows (s : State) (f : Pkg → Pkg) : (s.setPkg f).barrows = s.barrows := rfl
@[simp] theorem State.setPkg_gleans (s : State) (f : Pkg → Pkg) : (s.setPkg f).gleans = s.gleans := rfl
@[simp] theorem State.setPkg_drains (s : State) (f : Pkg → Pkg) : (s.setPkg f).drains = s.drains := rfl
@[simp] theorem State.setPkg_grants (s : State) (f : Pkg → Pkg) : (s.setPkg f).grants = s.grants := rfl
@[simp] theorem State.setPkg_faults (s : State) (f : Pkg → Pkg) : (s.setPkg f).faults = s.faults := rfl
@[simp] theorem State.setPkg_recs (s : State) (f : Pkg → Pkg) : (s.setPkg f).recs = s.recs := rfl
@[simp] theorem State.setPkg_svc (s : State) (f : Pkg → Pkg) : (s.setPkg f).svc = s.svc := rfl
@[simp] theorem State.setPkg_held (s : State) (f : Pkg → Pkg) : (s.setPkg f).held = s.held := rfl
@[simp] theorem State.setPkg_nextId (s : State) (f : Pkg → Pkg) : (s.setPkg f).nextId = s.nextId := rfl
@[simp] theorem State.setPkg_outbox (s : State) (f : Pkg → Pkg) : (s.setPkg f).outbox = s.outbox := rfl
@[simp] theorem State.setPkg_agenda (s : State) (f : Pkg → Pkg) : (s.setPkg f).agenda = s.agenda := rfl
@[simp] theorem State.setPkg_turn (s : State) (f : Pkg → Pkg) : (s.setPkg f).turn = s.turn := rfl
@[simp] theorem State.setPkg_cur (s : State) (f : Pkg → Pkg) : (s.setPkg f).cur = s.cur := rfl
@[simp] theorem State.setPkg_waited (s : State) (f : Pkg → Pkg) : (s.setPkg f).waited = s.waited := rfl

@[simp] theorem State.setFrame_clk (s : State) (i : Nat) (f : Frame → Frame) : (s.setFrame i f).clk = s.clk := rfl
@[simp] theorem State.setFrame_tick (s : State) (i : Nat) (f : Frame → Frame) : (s.setFrame i f).tick = s.tick := rfl
@[simp] theorem State.setFrame_mem (s : State) (i : Nat) (f : Frame → Frame) : (s.setFrame i f).mem = s.mem := rfl
@[simp] theorem State.setFrame_poison (s : State) (i : Nat) (f : Frame → Frame) : (s.setFrame i f).poison = s.poison := rfl
@[simp] theorem State.setFrame_caches (s : State) (i : Nat) (f : Frame → Frame) : (s.setFrame i f).caches = s.caches := rfl
@[simp] theorem State.setFrame_czPages (s : State) (i : Nat) (f : Frame → Frame) : (s.setFrame i f).czPages = s.czPages := rfl
@[simp] theorem State.setFrame_atsDenied (s : State) (i : Nat) (f : Frame → Frame) : (s.setFrame i f).atsDenied = s.atsDenied := rfl
@[simp] theorem State.setFrame_pitches (s : State) (i : Nat) (f : Frame → Frame) : (s.setFrame i f).pitches = s.pitches := rfl
@[simp] theorem State.setFrame_arbiters (s : State) (i : Nat) (f : Frame → Frame) : (s.setFrame i f).arbiters = s.arbiters := rfl
@[simp] theorem State.setFrame_dies (s : State) (i : Nat) (f : Frame → Frame) : (s.setFrame i f).dies = s.dies := rfl
@[simp] theorem State.setFrame_pkg (s : State) (i : Nat) (f : Frame → Frame) : (s.setFrame i f).pkg = s.pkg := rfl
@[simp] theorem State.setFrame_launches (s : State) (i : Nat) (f : Frame → Frame) : (s.setFrame i f).launches = s.launches := rfl
@[simp] theorem State.setFrame_accepts (s : State) (i : Nat) (f : Frame → Frame) : (s.setFrame i f).accepts = s.accepts := rfl
@[simp] theorem State.setFrame_teams (s : State) (i : Nat) (f : Frame → Frame) : (s.setFrame i f).teams = s.teams := rfl
@[simp] theorem State.setFrame_saved (s : State) (i : Nat) (f : Frame → Frame) : (s.setFrame i f).saved = s.saved := rfl
@[simp] theorem State.setFrame_preempts (s : State) (i : Nat) (f : Frame → Frame) : (s.setFrame i f).preempts = s.preempts := rfl
@[simp] theorem State.setFrame_inflight (s : State) (i : Nat) (f : Frame → Frame) : (s.setFrame i f).inflight = s.inflight := rfl
@[simp] theorem State.setFrame_barrows (s : State) (i : Nat) (f : Frame → Frame) : (s.setFrame i f).barrows = s.barrows := rfl
@[simp] theorem State.setFrame_gleans (s : State) (i : Nat) (f : Frame → Frame) : (s.setFrame i f).gleans = s.gleans := rfl
@[simp] theorem State.setFrame_drains (s : State) (i : Nat) (f : Frame → Frame) : (s.setFrame i f).drains = s.drains := rfl
@[simp] theorem State.setFrame_grants (s : State) (i : Nat) (f : Frame → Frame) : (s.setFrame i f).grants = s.grants := rfl
@[simp] theorem State.setFrame_faults (s : State) (i : Nat) (f : Frame → Frame) : (s.setFrame i f).faults = s.faults := rfl
@[simp] theorem State.setFrame_recs (s : State) (i : Nat) (f : Frame → Frame) : (s.setFrame i f).recs = s.recs := rfl
@[simp] theorem State.setFrame_svc (s : State) (i : Nat) (f : Frame → Frame) : (s.setFrame i f).svc = s.svc := rfl
@[simp] theorem State.setFrame_held (s : State) (i : Nat) (f : Frame → Frame) : (s.setFrame i f).held = s.held := rfl
@[simp] theorem State.setFrame_nextId (s : State) (i : Nat) (f : Frame → Frame) : (s.setFrame i f).nextId = s.nextId := rfl
@[simp] theorem State.setFrame_outbox (s : State) (i : Nat) (f : Frame → Frame) : (s.setFrame i f).outbox = s.outbox := rfl
@[simp] theorem State.setFrame_agenda (s : State) (i : Nat) (f : Frame → Frame) : (s.setFrame i f).agenda = s.agenda := rfl
@[simp] theorem State.setFrame_turn (s : State) (i : Nat) (f : Frame → Frame) : (s.setFrame i f).turn = s.turn := rfl
@[simp] theorem State.setFrame_cur (s : State) (i : Nat) (f : Frame → Frame) : (s.setFrame i f).cur = s.cur := rfl
@[simp] theorem State.setFrame_waited (s : State) (i : Nat) (f : Frame → Frame) : (s.setFrame i f).waited = s.waited := rfl

@[simp] theorem State.setLaunch_clk (s : State) (l : Nat) (f : Launch → Launch) : (s.setLaunch l f).clk = s.clk := rfl
@[simp] theorem State.setLaunch_tick (s : State) (l : Nat) (f : Launch → Launch) : (s.setLaunch l f).tick = s.tick := rfl
@[simp] theorem State.setLaunch_mem (s : State) (l : Nat) (f : Launch → Launch) : (s.setLaunch l f).mem = s.mem := rfl
@[simp] theorem State.setLaunch_poison (s : State) (l : Nat) (f : Launch → Launch) : (s.setLaunch l f).poison = s.poison := rfl
@[simp] theorem State.setLaunch_caches (s : State) (l : Nat) (f : Launch → Launch) : (s.setLaunch l f).caches = s.caches := rfl
@[simp] theorem State.setLaunch_czPages (s : State) (l : Nat) (f : Launch → Launch) : (s.setLaunch l f).czPages = s.czPages := rfl
@[simp] theorem State.setLaunch_atsDenied (s : State) (l : Nat) (f : Launch → Launch) : (s.setLaunch l f).atsDenied = s.atsDenied := rfl
@[simp] theorem State.setLaunch_frames (s : State) (l : Nat) (f : Launch → Launch) : (s.setLaunch l f).frames = s.frames := rfl
@[simp] theorem State.setLaunch_pitches (s : State) (l : Nat) (f : Launch → Launch) : (s.setLaunch l f).pitches = s.pitches := rfl
@[simp] theorem State.setLaunch_arbiters (s : State) (l : Nat) (f : Launch → Launch) : (s.setLaunch l f).arbiters = s.arbiters := rfl
@[simp] theorem State.setLaunch_dies (s : State) (l : Nat) (f : Launch → Launch) : (s.setLaunch l f).dies = s.dies := rfl
@[simp] theorem State.setLaunch_pkg (s : State) (l : Nat) (f : Launch → Launch) : (s.setLaunch l f).pkg = s.pkg := rfl
@[simp] theorem State.setLaunch_accepts (s : State) (l : Nat) (f : Launch → Launch) : (s.setLaunch l f).accepts = s.accepts := rfl
@[simp] theorem State.setLaunch_teams (s : State) (l : Nat) (f : Launch → Launch) : (s.setLaunch l f).teams = s.teams := rfl
@[simp] theorem State.setLaunch_saved (s : State) (l : Nat) (f : Launch → Launch) : (s.setLaunch l f).saved = s.saved := rfl
@[simp] theorem State.setLaunch_preempts (s : State) (l : Nat) (f : Launch → Launch) : (s.setLaunch l f).preempts = s.preempts := rfl
@[simp] theorem State.setLaunch_inflight (s : State) (l : Nat) (f : Launch → Launch) : (s.setLaunch l f).inflight = s.inflight := rfl
@[simp] theorem State.setLaunch_barrows (s : State) (l : Nat) (f : Launch → Launch) : (s.setLaunch l f).barrows = s.barrows := rfl
@[simp] theorem State.setLaunch_gleans (s : State) (l : Nat) (f : Launch → Launch) : (s.setLaunch l f).gleans = s.gleans := rfl
@[simp] theorem State.setLaunch_drains (s : State) (l : Nat) (f : Launch → Launch) : (s.setLaunch l f).drains = s.drains := rfl
@[simp] theorem State.setLaunch_grants (s : State) (l : Nat) (f : Launch → Launch) : (s.setLaunch l f).grants = s.grants := rfl
@[simp] theorem State.setLaunch_faults (s : State) (l : Nat) (f : Launch → Launch) : (s.setLaunch l f).faults = s.faults := rfl
@[simp] theorem State.setLaunch_recs (s : State) (l : Nat) (f : Launch → Launch) : (s.setLaunch l f).recs = s.recs := rfl
@[simp] theorem State.setLaunch_svc (s : State) (l : Nat) (f : Launch → Launch) : (s.setLaunch l f).svc = s.svc := rfl
@[simp] theorem State.setLaunch_held (s : State) (l : Nat) (f : Launch → Launch) : (s.setLaunch l f).held = s.held := rfl
@[simp] theorem State.setLaunch_nextId (s : State) (l : Nat) (f : Launch → Launch) : (s.setLaunch l f).nextId = s.nextId := rfl
@[simp] theorem State.setLaunch_outbox (s : State) (l : Nat) (f : Launch → Launch) : (s.setLaunch l f).outbox = s.outbox := rfl
@[simp] theorem State.setLaunch_agenda (s : State) (l : Nat) (f : Launch → Launch) : (s.setLaunch l f).agenda = s.agenda := rfl
@[simp] theorem State.setLaunch_turn (s : State) (l : Nat) (f : Launch → Launch) : (s.setLaunch l f).turn = s.turn := rfl
@[simp] theorem State.setLaunch_cur (s : State) (l : Nat) (f : Launch → Launch) : (s.setLaunch l f).cur = s.cur := rfl
@[simp] theorem State.setLaunch_waited (s : State) (l : Nat) (f : Launch → Launch) : (s.setLaunch l f).waited = s.waited := rfl

@[simp] theorem State.setWindow_clk (s : State) (d w : Nat) (f : Window → Window) : (s.setWindow d w f).clk = s.clk := rfl
@[simp] theorem State.setWindow_tick (s : State) (d w : Nat) (f : Window → Window) : (s.setWindow d w f).tick = s.tick := rfl
@[simp] theorem State.setWindow_mem (s : State) (d w : Nat) (f : Window → Window) : (s.setWindow d w f).mem = s.mem := rfl
@[simp] theorem State.setWindow_poison (s : State) (d w : Nat) (f : Window → Window) : (s.setWindow d w f).poison = s.poison := rfl
@[simp] theorem State.setWindow_caches (s : State) (d w : Nat) (f : Window → Window) : (s.setWindow d w f).caches = s.caches := rfl
@[simp] theorem State.setWindow_czPages (s : State) (d w : Nat) (f : Window → Window) : (s.setWindow d w f).czPages = s.czPages := rfl
@[simp] theorem State.setWindow_atsDenied (s : State) (d w : Nat) (f : Window → Window) : (s.setWindow d w f).atsDenied = s.atsDenied := rfl
@[simp] theorem State.setWindow_frames (s : State) (d w : Nat) (f : Window → Window) : (s.setWindow d w f).frames = s.frames := rfl
@[simp] theorem State.setWindow_pitches (s : State) (d w : Nat) (f : Window → Window) : (s.setWindow d w f).pitches = s.pitches := rfl
@[simp] theorem State.setWindow_arbiters (s : State) (d w : Nat) (f : Window → Window) : (s.setWindow d w f).arbiters = s.arbiters := rfl
@[simp] theorem State.setWindow_pkg (s : State) (d w : Nat) (f : Window → Window) : (s.setWindow d w f).pkg = s.pkg := rfl
@[simp] theorem State.setWindow_launches (s : State) (d w : Nat) (f : Window → Window) : (s.setWindow d w f).launches = s.launches := rfl
@[simp] theorem State.setWindow_accepts (s : State) (d w : Nat) (f : Window → Window) : (s.setWindow d w f).accepts = s.accepts := rfl
@[simp] theorem State.setWindow_teams (s : State) (d w : Nat) (f : Window → Window) : (s.setWindow d w f).teams = s.teams := rfl
@[simp] theorem State.setWindow_saved (s : State) (d w : Nat) (f : Window → Window) : (s.setWindow d w f).saved = s.saved := rfl
@[simp] theorem State.setWindow_preempts (s : State) (d w : Nat) (f : Window → Window) : (s.setWindow d w f).preempts = s.preempts := rfl
@[simp] theorem State.setWindow_inflight (s : State) (d w : Nat) (f : Window → Window) : (s.setWindow d w f).inflight = s.inflight := rfl
@[simp] theorem State.setWindow_barrows (s : State) (d w : Nat) (f : Window → Window) : (s.setWindow d w f).barrows = s.barrows := rfl
@[simp] theorem State.setWindow_gleans (s : State) (d w : Nat) (f : Window → Window) : (s.setWindow d w f).gleans = s.gleans := rfl
@[simp] theorem State.setWindow_drains (s : State) (d w : Nat) (f : Window → Window) : (s.setWindow d w f).drains = s.drains := rfl
@[simp] theorem State.setWindow_grants (s : State) (d w : Nat) (f : Window → Window) : (s.setWindow d w f).grants = s.grants := rfl
@[simp] theorem State.setWindow_faults (s : State) (d w : Nat) (f : Window → Window) : (s.setWindow d w f).faults = s.faults := rfl
@[simp] theorem State.setWindow_recs (s : State) (d w : Nat) (f : Window → Window) : (s.setWindow d w f).recs = s.recs := rfl
@[simp] theorem State.setWindow_svc (s : State) (d w : Nat) (f : Window → Window) : (s.setWindow d w f).svc = s.svc := rfl
@[simp] theorem State.setWindow_held (s : State) (d w : Nat) (f : Window → Window) : (s.setWindow d w f).held = s.held := rfl
@[simp] theorem State.setWindow_nextId (s : State) (d w : Nat) (f : Window → Window) : (s.setWindow d w f).nextId = s.nextId := rfl
@[simp] theorem State.setWindow_outbox (s : State) (d w : Nat) (f : Window → Window) : (s.setWindow d w f).outbox = s.outbox := rfl
@[simp] theorem State.setWindow_agenda (s : State) (d w : Nat) (f : Window → Window) : (s.setWindow d w f).agenda = s.agenda := rfl
@[simp] theorem State.setWindow_turn (s : State) (d w : Nat) (f : Window → Window) : (s.setWindow d w f).turn = s.turn := rfl
@[simp] theorem State.setWindow_cur (s : State) (d w : Nat) (f : Window → Window) : (s.setWindow d w f).cur = s.cur := rfl
@[simp] theorem State.setWindow_waited (s : State) (d w : Nat) (f : Window → Window) : (s.setWindow d w f).waited = s.waited := rfl

@[simp] theorem State.writeBytes_clk (s : State) (k : Nat) (bs : List Byte) : (s.writeBytes k bs).clk = s.clk := rfl
@[simp] theorem State.writeBytes_tick (s : State) (k : Nat) (bs : List Byte) : (s.writeBytes k bs).tick = s.tick := rfl
@[simp] theorem State.writeBytes_poison (s : State) (k : Nat) (bs : List Byte) : (s.writeBytes k bs).poison = s.poison := rfl
@[simp] theorem State.writeBytes_caches (s : State) (k : Nat) (bs : List Byte) : (s.writeBytes k bs).caches = s.caches := rfl
@[simp] theorem State.writeBytes_czPages (s : State) (k : Nat) (bs : List Byte) : (s.writeBytes k bs).czPages = s.czPages := rfl
@[simp] theorem State.writeBytes_atsDenied (s : State) (k : Nat) (bs : List Byte) : (s.writeBytes k bs).atsDenied = s.atsDenied := rfl
@[simp] theorem State.writeBytes_frames (s : State) (k : Nat) (bs : List Byte) : (s.writeBytes k bs).frames = s.frames := rfl
@[simp] theorem State.writeBytes_pitches (s : State) (k : Nat) (bs : List Byte) : (s.writeBytes k bs).pitches = s.pitches := rfl
@[simp] theorem State.writeBytes_arbiters (s : State) (k : Nat) (bs : List Byte) : (s.writeBytes k bs).arbiters = s.arbiters := rfl
@[simp] theorem State.writeBytes_dies (s : State) (k : Nat) (bs : List Byte) : (s.writeBytes k bs).dies = s.dies := rfl
@[simp] theorem State.writeBytes_pkg (s : State) (k : Nat) (bs : List Byte) : (s.writeBytes k bs).pkg = s.pkg := rfl
@[simp] theorem State.writeBytes_launches (s : State) (k : Nat) (bs : List Byte) : (s.writeBytes k bs).launches = s.launches := rfl
@[simp] theorem State.writeBytes_accepts (s : State) (k : Nat) (bs : List Byte) : (s.writeBytes k bs).accepts = s.accepts := rfl
@[simp] theorem State.writeBytes_teams (s : State) (k : Nat) (bs : List Byte) : (s.writeBytes k bs).teams = s.teams := rfl
@[simp] theorem State.writeBytes_saved (s : State) (k : Nat) (bs : List Byte) : (s.writeBytes k bs).saved = s.saved := rfl
@[simp] theorem State.writeBytes_preempts (s : State) (k : Nat) (bs : List Byte) : (s.writeBytes k bs).preempts = s.preempts := rfl
@[simp] theorem State.writeBytes_inflight (s : State) (k : Nat) (bs : List Byte) : (s.writeBytes k bs).inflight = s.inflight := rfl
@[simp] theorem State.writeBytes_barrows (s : State) (k : Nat) (bs : List Byte) : (s.writeBytes k bs).barrows = s.barrows := rfl
@[simp] theorem State.writeBytes_gleans (s : State) (k : Nat) (bs : List Byte) : (s.writeBytes k bs).gleans = s.gleans := rfl
@[simp] theorem State.writeBytes_drains (s : State) (k : Nat) (bs : List Byte) : (s.writeBytes k bs).drains = s.drains := rfl
@[simp] theorem State.writeBytes_grants (s : State) (k : Nat) (bs : List Byte) : (s.writeBytes k bs).grants = s.grants := rfl
@[simp] theorem State.writeBytes_faults (s : State) (k : Nat) (bs : List Byte) : (s.writeBytes k bs).faults = s.faults := rfl
@[simp] theorem State.writeBytes_recs (s : State) (k : Nat) (bs : List Byte) : (s.writeBytes k bs).recs = s.recs := rfl
@[simp] theorem State.writeBytes_svc (s : State) (k : Nat) (bs : List Byte) : (s.writeBytes k bs).svc = s.svc := rfl
@[simp] theorem State.writeBytes_held (s : State) (k : Nat) (bs : List Byte) : (s.writeBytes k bs).held = s.held := rfl
@[simp] theorem State.writeBytes_nextId (s : State) (k : Nat) (bs : List Byte) : (s.writeBytes k bs).nextId = s.nextId := rfl
@[simp] theorem State.writeBytes_outbox (s : State) (k : Nat) (bs : List Byte) : (s.writeBytes k bs).outbox = s.outbox := rfl
@[simp] theorem State.writeBytes_agenda (s : State) (k : Nat) (bs : List Byte) : (s.writeBytes k bs).agenda = s.agenda := rfl
@[simp] theorem State.writeBytes_turn (s : State) (k : Nat) (bs : List Byte) : (s.writeBytes k bs).turn = s.turn := rfl
@[simp] theorem State.writeBytes_cur (s : State) (k : Nat) (bs : List Byte) : (s.writeBytes k bs).cur = s.cur := rfl
@[simp] theorem State.writeBytes_waited (s : State) (k : Nat) (bs : List Byte) : (s.writeBytes k bs).waited = s.waited := rfl

@[simp] theorem State.clearRange_clk (s : State) (lo hi : Nat) : (s.clearRange lo hi).clk = s.clk := rfl
@[simp] theorem State.clearRange_tick (s : State) (lo hi : Nat) : (s.clearRange lo hi).tick = s.tick := rfl
@[simp] theorem State.clearRange_caches (s : State) (lo hi : Nat) : (s.clearRange lo hi).caches = s.caches := rfl
@[simp] theorem State.clearRange_czPages (s : State) (lo hi : Nat) : (s.clearRange lo hi).czPages = s.czPages := rfl
@[simp] theorem State.clearRange_atsDenied (s : State) (lo hi : Nat) : (s.clearRange lo hi).atsDenied = s.atsDenied := rfl
@[simp] theorem State.clearRange_frames (s : State) (lo hi : Nat) : (s.clearRange lo hi).frames = s.frames := rfl
@[simp] theorem State.clearRange_pitches (s : State) (lo hi : Nat) : (s.clearRange lo hi).pitches = s.pitches := rfl
@[simp] theorem State.clearRange_arbiters (s : State) (lo hi : Nat) : (s.clearRange lo hi).arbiters = s.arbiters := rfl
@[simp] theorem State.clearRange_dies (s : State) (lo hi : Nat) : (s.clearRange lo hi).dies = s.dies := rfl
@[simp] theorem State.clearRange_pkg (s : State) (lo hi : Nat) : (s.clearRange lo hi).pkg = s.pkg := rfl
@[simp] theorem State.clearRange_launches (s : State) (lo hi : Nat) : (s.clearRange lo hi).launches = s.launches := rfl
@[simp] theorem State.clearRange_accepts (s : State) (lo hi : Nat) : (s.clearRange lo hi).accepts = s.accepts := rfl
@[simp] theorem State.clearRange_teams (s : State) (lo hi : Nat) : (s.clearRange lo hi).teams = s.teams := rfl
@[simp] theorem State.clearRange_saved (s : State) (lo hi : Nat) : (s.clearRange lo hi).saved = s.saved := rfl
@[simp] theorem State.clearRange_preempts (s : State) (lo hi : Nat) : (s.clearRange lo hi).preempts = s.preempts := rfl
@[simp] theorem State.clearRange_inflight (s : State) (lo hi : Nat) : (s.clearRange lo hi).inflight = s.inflight := rfl
@[simp] theorem State.clearRange_barrows (s : State) (lo hi : Nat) : (s.clearRange lo hi).barrows = s.barrows := rfl
@[simp] theorem State.clearRange_gleans (s : State) (lo hi : Nat) : (s.clearRange lo hi).gleans = s.gleans := rfl
@[simp] theorem State.clearRange_drains (s : State) (lo hi : Nat) : (s.clearRange lo hi).drains = s.drains := rfl
@[simp] theorem State.clearRange_grants (s : State) (lo hi : Nat) : (s.clearRange lo hi).grants = s.grants := rfl
@[simp] theorem State.clearRange_faults (s : State) (lo hi : Nat) : (s.clearRange lo hi).faults = s.faults := rfl
@[simp] theorem State.clearRange_recs (s : State) (lo hi : Nat) : (s.clearRange lo hi).recs = s.recs := rfl
@[simp] theorem State.clearRange_svc (s : State) (lo hi : Nat) : (s.clearRange lo hi).svc = s.svc := rfl
@[simp] theorem State.clearRange_held (s : State) (lo hi : Nat) : (s.clearRange lo hi).held = s.held := rfl
@[simp] theorem State.clearRange_nextId (s : State) (lo hi : Nat) : (s.clearRange lo hi).nextId = s.nextId := rfl
@[simp] theorem State.clearRange_outbox (s : State) (lo hi : Nat) : (s.clearRange lo hi).outbox = s.outbox := rfl
@[simp] theorem State.clearRange_agenda (s : State) (lo hi : Nat) : (s.clearRange lo hi).agenda = s.agenda := rfl
@[simp] theorem State.clearRange_turn (s : State) (lo hi : Nat) : (s.clearRange lo hi).turn = s.turn := rfl
@[simp] theorem State.clearRange_cur (s : State) (lo hi : Nat) : (s.clearRange lo hi).cur = s.cur := rfl
@[simp] theorem State.clearRange_waited (s : State) (lo hi : Nat) : (s.clearRange lo hi).waited = s.waited := rfl

@[simp] theorem State.served_clk (s : State) (q : Nat) : (s.served q).clk = s.clk := rfl
@[simp] theorem State.served_tick (s : State) (q : Nat) : (s.served q).tick = s.tick := rfl
@[simp] theorem State.served_mem (s : State) (q : Nat) : (s.served q).mem = s.mem := rfl
@[simp] theorem State.served_poison (s : State) (q : Nat) : (s.served q).poison = s.poison := rfl
@[simp] theorem State.served_caches (s : State) (q : Nat) : (s.served q).caches = s.caches := rfl
@[simp] theorem State.served_czPages (s : State) (q : Nat) : (s.served q).czPages = s.czPages := rfl
@[simp] theorem State.served_atsDenied (s : State) (q : Nat) : (s.served q).atsDenied = s.atsDenied := rfl
@[simp] theorem State.served_frames (s : State) (q : Nat) : (s.served q).frames = s.frames := rfl
@[simp] theorem State.served_pitches (s : State) (q : Nat) : (s.served q).pitches = s.pitches := rfl
@[simp] theorem State.served_arbiters (s : State) (q : Nat) : (s.served q).arbiters = s.arbiters := rfl
@[simp] theorem State.served_dies (s : State) (q : Nat) : (s.served q).dies = s.dies := rfl
@[simp] theorem State.served_pkg (s : State) (q : Nat) : (s.served q).pkg = s.pkg := rfl
@[simp] theorem State.served_launches (s : State) (q : Nat) : (s.served q).launches = s.launches := rfl
@[simp] theorem State.served_accepts (s : State) (q : Nat) : (s.served q).accepts = s.accepts := rfl
@[simp] theorem State.served_teams (s : State) (q : Nat) : (s.served q).teams = s.teams := rfl
@[simp] theorem State.served_saved (s : State) (q : Nat) : (s.served q).saved = s.saved := rfl
@[simp] theorem State.served_preempts (s : State) (q : Nat) : (s.served q).preempts = s.preempts := rfl
@[simp] theorem State.served_inflight (s : State) (q : Nat) : (s.served q).inflight = s.inflight := rfl
@[simp] theorem State.served_barrows (s : State) (q : Nat) : (s.served q).barrows = s.barrows := rfl
@[simp] theorem State.served_gleans (s : State) (q : Nat) : (s.served q).gleans = s.gleans := rfl
@[simp] theorem State.served_drains (s : State) (q : Nat) : (s.served q).drains = s.drains := rfl
@[simp] theorem State.served_grants (s : State) (q : Nat) : (s.served q).grants = s.grants := rfl
@[simp] theorem State.served_recs (s : State) (q : Nat) : (s.served q).recs = s.recs := rfl
@[simp] theorem State.served_svc (s : State) (q : Nat) : (s.served q).svc = s.svc := rfl
@[simp] theorem State.served_held (s : State) (q : Nat) : (s.served q).held = s.held := rfl
@[simp] theorem State.served_nextId (s : State) (q : Nat) : (s.served q).nextId = s.nextId := rfl
@[simp] theorem State.served_outbox (s : State) (q : Nat) : (s.served q).outbox = s.outbox := rfl
@[simp] theorem State.served_agenda (s : State) (q : Nat) : (s.served q).agenda = s.agenda := rfl
@[simp] theorem State.served_turn (s : State) (q : Nat) : (s.served q).turn = s.turn := rfl
@[simp] theorem State.served_cur (s : State) (q : Nat) : (s.served q).cur = s.cur := rfl
@[simp] theorem State.served_waited (s : State) (q : Nat) : (s.served q).waited = s.waited := rfl

@[simp] theorem State.havePaid_clk (s : State) (p : Party) : (s.havePaid p).clk = s.clk := rfl
@[simp] theorem State.havePaid_tick (s : State) (p : Party) : (s.havePaid p).tick = s.tick := rfl
@[simp] theorem State.havePaid_mem (s : State) (p : Party) : (s.havePaid p).mem = s.mem := rfl
@[simp] theorem State.havePaid_poison (s : State) (p : Party) : (s.havePaid p).poison = s.poison := rfl
@[simp] theorem State.havePaid_caches (s : State) (p : Party) : (s.havePaid p).caches = s.caches := rfl
@[simp] theorem State.havePaid_czPages (s : State) (p : Party) : (s.havePaid p).czPages = s.czPages := rfl
@[simp] theorem State.havePaid_atsDenied (s : State) (p : Party) : (s.havePaid p).atsDenied = s.atsDenied := rfl
@[simp] theorem State.havePaid_frames (s : State) (p : Party) : (s.havePaid p).frames = s.frames := rfl
@[simp] theorem State.havePaid_pitches (s : State) (p : Party) : (s.havePaid p).pitches = s.pitches := rfl
@[simp] theorem State.havePaid_arbiters (s : State) (p : Party) : (s.havePaid p).arbiters = s.arbiters := rfl
@[simp] theorem State.havePaid_dies (s : State) (p : Party) : (s.havePaid p).dies = s.dies := rfl
@[simp] theorem State.havePaid_pkg (s : State) (p : Party) : (s.havePaid p).pkg = s.pkg := rfl
@[simp] theorem State.havePaid_launches (s : State) (p : Party) : (s.havePaid p).launches = s.launches := rfl
@[simp] theorem State.havePaid_accepts (s : State) (p : Party) : (s.havePaid p).accepts = s.accepts := rfl
@[simp] theorem State.havePaid_teams (s : State) (p : Party) : (s.havePaid p).teams = s.teams := rfl
@[simp] theorem State.havePaid_saved (s : State) (p : Party) : (s.havePaid p).saved = s.saved := rfl
@[simp] theorem State.havePaid_preempts (s : State) (p : Party) : (s.havePaid p).preempts = s.preempts := rfl
@[simp] theorem State.havePaid_inflight (s : State) (p : Party) : (s.havePaid p).inflight = s.inflight := rfl
@[simp] theorem State.havePaid_barrows (s : State) (p : Party) : (s.havePaid p).barrows = s.barrows := rfl
@[simp] theorem State.havePaid_gleans (s : State) (p : Party) : (s.havePaid p).gleans = s.gleans := rfl
@[simp] theorem State.havePaid_drains (s : State) (p : Party) : (s.havePaid p).drains = s.drains := rfl
@[simp] theorem State.havePaid_grants (s : State) (p : Party) : (s.havePaid p).grants = s.grants := rfl
@[simp] theorem State.havePaid_faults (s : State) (p : Party) : (s.havePaid p).faults = s.faults := rfl
@[simp] theorem State.havePaid_recs (s : State) (p : Party) : (s.havePaid p).recs = s.recs := rfl
@[simp] theorem State.havePaid_svc (s : State) (p : Party) : (s.havePaid p).svc = s.svc := rfl
@[simp] theorem State.havePaid_held (s : State) (p : Party) : (s.havePaid p).held = s.held := rfl
@[simp] theorem State.havePaid_nextId (s : State) (p : Party) : (s.havePaid p).nextId = s.nextId := rfl
@[simp] theorem State.havePaid_outbox (s : State) (p : Party) : (s.havePaid p).outbox = s.outbox := rfl
@[simp] theorem State.havePaid_agenda (s : State) (p : Party) : (s.havePaid p).agenda = s.agenda := rfl
@[simp] theorem State.havePaid_turn (s : State) (p : Party) : (s.havePaid p).turn = s.turn := rfl
@[simp] theorem State.havePaid_cur (s : State) (p : Party) : (s.havePaid p).cur = s.cur := rfl

@[simp] theorem State.drop_clk (s : State) (p : Line → Bool) : (s.drop p).clk = s.clk := rfl
@[simp] theorem State.drop_tick (s : State) (p : Line → Bool) : (s.drop p).tick = s.tick := rfl
@[simp] theorem State.drop_mem (s : State) (p : Line → Bool) : (s.drop p).mem = s.mem := rfl
@[simp] theorem State.drop_poison (s : State) (p : Line → Bool) : (s.drop p).poison = s.poison := rfl
@[simp] theorem State.drop_czPages (s : State) (p : Line → Bool) : (s.drop p).czPages = s.czPages := rfl
@[simp] theorem State.drop_atsDenied (s : State) (p : Line → Bool) : (s.drop p).atsDenied = s.atsDenied := rfl
@[simp] theorem State.drop_frames (s : State) (p : Line → Bool) : (s.drop p).frames = s.frames := rfl
@[simp] theorem State.drop_pitches (s : State) (p : Line → Bool) : (s.drop p).pitches = s.pitches := rfl
@[simp] theorem State.drop_arbiters (s : State) (p : Line → Bool) : (s.drop p).arbiters = s.arbiters := rfl
@[simp] theorem State.drop_dies (s : State) (p : Line → Bool) : (s.drop p).dies = s.dies := rfl
@[simp] theorem State.drop_pkg (s : State) (p : Line → Bool) : (s.drop p).pkg = s.pkg := rfl
@[simp] theorem State.drop_launches (s : State) (p : Line → Bool) : (s.drop p).launches = s.launches := rfl
@[simp] theorem State.drop_accepts (s : State) (p : Line → Bool) : (s.drop p).accepts = s.accepts := rfl
@[simp] theorem State.drop_teams (s : State) (p : Line → Bool) : (s.drop p).teams = s.teams := rfl
@[simp] theorem State.drop_saved (s : State) (p : Line → Bool) : (s.drop p).saved = s.saved := rfl
@[simp] theorem State.drop_preempts (s : State) (p : Line → Bool) : (s.drop p).preempts = s.preempts := rfl
@[simp] theorem State.drop_inflight (s : State) (p : Line → Bool) : (s.drop p).inflight = s.inflight := rfl
@[simp] theorem State.drop_barrows (s : State) (p : Line → Bool) : (s.drop p).barrows = s.barrows := rfl
@[simp] theorem State.drop_gleans (s : State) (p : Line → Bool) : (s.drop p).gleans = s.gleans := rfl
@[simp] theorem State.drop_drains (s : State) (p : Line → Bool) : (s.drop p).drains = s.drains := rfl
@[simp] theorem State.drop_grants (s : State) (p : Line → Bool) : (s.drop p).grants = s.grants := rfl
@[simp] theorem State.drop_faults (s : State) (p : Line → Bool) : (s.drop p).faults = s.faults := rfl
@[simp] theorem State.drop_recs (s : State) (p : Line → Bool) : (s.drop p).recs = s.recs := rfl
@[simp] theorem State.drop_svc (s : State) (p : Line → Bool) : (s.drop p).svc = s.svc := rfl
@[simp] theorem State.drop_held (s : State) (p : Line → Bool) : (s.drop p).held = s.held := rfl
@[simp] theorem State.drop_nextId (s : State) (p : Line → Bool) : (s.drop p).nextId = s.nextId := rfl
@[simp] theorem State.drop_outbox (s : State) (p : Line → Bool) : (s.drop p).outbox = s.outbox := rfl
@[simp] theorem State.drop_agenda (s : State) (p : Line → Bool) : (s.drop p).agenda = s.agenda := rfl
@[simp] theorem State.drop_turn (s : State) (p : Line → Bool) : (s.drop p).turn = s.turn := rfl
@[simp] theorem State.drop_cur (s : State) (p : Line → Bool) : (s.drop p).cur = s.cur := rfl
@[simp] theorem State.drop_waited (s : State) (p : Line → Bool) : (s.drop p).waited = s.waited := rfl

@[simp] theorem State.turnClock_mem (s : State) : (s.turnClock).mem = s.mem := rfl
@[simp] theorem State.turnClock_poison (s : State) : (s.turnClock).poison = s.poison := rfl
@[simp] theorem State.turnClock_caches (s : State) : (s.turnClock).caches = s.caches := rfl
@[simp] theorem State.turnClock_czPages (s : State) : (s.turnClock).czPages = s.czPages := rfl
@[simp] theorem State.turnClock_atsDenied (s : State) : (s.turnClock).atsDenied = s.atsDenied := rfl
@[simp] theorem State.turnClock_frames (s : State) : (s.turnClock).frames = s.frames := rfl
@[simp] theorem State.turnClock_pitches (s : State) : (s.turnClock).pitches = s.pitches := rfl
@[simp] theorem State.turnClock_arbiters (s : State) : (s.turnClock).arbiters = s.arbiters := rfl
@[simp] theorem State.turnClock_dies (s : State) : (s.turnClock).dies = s.dies := rfl
@[simp] theorem State.turnClock_pkg (s : State) : (s.turnClock).pkg = s.pkg := rfl
@[simp] theorem State.turnClock_launches (s : State) : (s.turnClock).launches = s.launches := rfl
@[simp] theorem State.turnClock_accepts (s : State) : (s.turnClock).accepts = s.accepts := rfl
@[simp] theorem State.turnClock_teams (s : State) : (s.turnClock).teams = s.teams := rfl
@[simp] theorem State.turnClock_saved (s : State) : (s.turnClock).saved = s.saved := rfl
@[simp] theorem State.turnClock_preempts (s : State) : (s.turnClock).preempts = s.preempts := rfl
@[simp] theorem State.turnClock_inflight (s : State) : (s.turnClock).inflight = s.inflight := rfl
@[simp] theorem State.turnClock_barrows (s : State) : (s.turnClock).barrows = s.barrows := rfl
@[simp] theorem State.turnClock_gleans (s : State) : (s.turnClock).gleans = s.gleans := rfl
@[simp] theorem State.turnClock_drains (s : State) : (s.turnClock).drains = s.drains := rfl
@[simp] theorem State.turnClock_grants (s : State) : (s.turnClock).grants = s.grants := rfl
@[simp] theorem State.turnClock_faults (s : State) : (s.turnClock).faults = s.faults := rfl
@[simp] theorem State.turnClock_recs (s : State) : (s.turnClock).recs = s.recs := rfl
@[simp] theorem State.turnClock_svc (s : State) : (s.turnClock).svc = s.svc := rfl
@[simp] theorem State.turnClock_held (s : State) : (s.turnClock).held = s.held := rfl
@[simp] theorem State.turnClock_nextId (s : State) : (s.turnClock).nextId = s.nextId := rfl
@[simp] theorem State.turnClock_outbox (s : State) : (s.turnClock).outbox = s.outbox := rfl
@[simp] theorem State.turnClock_agenda (s : State) : (s.turnClock).agenda = s.agenda := rfl
@[simp] theorem State.turnClock_turn (s : State) : (s.turnClock).turn = s.turn := rfl
@[simp] theorem State.turnClock_cur (s : State) : (s.turnClock).cur = s.cur := rfl
@[simp] theorem State.turnClock_waited (s : State) : (s.turnClock).waited = s.waited := rfl

/-! ### Updates of Team -/

@[simp] theorem Team.setThread_uid (t : Team) (r p : Nat) (f : Thread → Thread) : (t.setThread r p f).uid = t.uid := rfl
@[simp] theorem Team.setThread_launch (t : Team) (r p : Nat) (f : Thread → Thread) : (t.setThread r p f).launch = t.launch := rfl
@[simp] theorem Team.setThread_team (t : Team) (r p : Nat) (f : Thread → Thread) : (t.setThread r p f).team = t.team := rfl
@[simp] theorem Team.setThread_pitch (t : Team) (r p : Nat) (f : Thread → Thread) : (t.setThread r p f).pitch = t.pitch := rfl
@[simp] theorem Team.setThread_part (t : Team) (r p : Nat) (f : Thread → Thread) : (t.setThread r p f).part = t.part := rfl
@[simp] theorem Team.setThread_die (t : Team) (r p : Nat) (f : Thread → Thread) : (t.setThread r p f).die = t.die := rfl
@[simp] theorem Team.setThread_core (t : Team) (r p : Nat) (f : Thread → Thread) : (t.setThread r p f).core = t.core := rfl
@[simp] theorem Team.setThread_plot (t : Team) (r p : Nat) (f : Thread → Thread) : (t.setThread r p f).plot = t.plot := rfl
@[simp] theorem Team.setThread_width (t : Team) (r p : Nat) (f : Thread → Thread) : (t.setThread r p f).width = t.width := rfl
@[simp] theorem Team.setThread_hdr (t : Team) (r p : Nat) (f : Thread → Thread) : (t.setThread r p f).hdr = t.hdr := rfl
@[simp] theorem Team.setThread_rcd (t : Team) (r p : Nat) (f : Thread → Thread) : (t.setThread r p f).rcd = t.rcd := rfl
@[simp] theorem Team.setThread_codeVA (t : Team) (r p : Nat) (f : Thread → Thread) : (t.setThread r p f).codeVA = t.codeVA := rfl
@[simp] theorem Team.setThread_argp (t : Team) (r p : Nat) (f : Thread → Thread) : (t.setThread r p f).argp = t.argp := rfl
@[simp] theorem Team.setThread_lanes (t : Team) (r p : Nat) (f : Thread → Thread) : (t.setThread r p f).lanes = t.lanes := rfl
@[simp] theorem Team.setThread_tbase (t : Team) (r p : Nat) (f : Thread → Thread) : (t.setThread r p f).tbase = t.tbase := rfl
@[simp] theorem Team.setThread_ord (t : Team) (r p : Nat) (f : Thread → Thread) : (t.setThread r p f).ord = t.ord := rfl
@[simp] theorem Team.setThread_recs (t : Team) (r p : Nat) (f : Thread → Thread) : (t.setThread r p f).recs = t.recs := rfl
@[simp] theorem Team.setThread_node (t : Team) (r p : Nat) (f : Thread → Thread) : (t.setThread r p f).node = t.node := rfl
@[simp] theorem Team.setThread_born (t : Team) (r p : Nat) (f : Thread → Thread) : (t.setThread r p f).born = t.born := rfl
@[simp] theorem Team.setThread_dleft (t : Team) (r p : Nat) (f : Thread → Thread) : (t.setThread r p f).dleft = t.dleft := rfl
@[simp] theorem Team.setThread_frags (t : Team) (r p : Nat) (f : Thread → Thread) : (t.setThread r p f).frags = t.frags := rfl
@[simp] theorem Team.setThread_u (t : Team) (r p : Nat) (f : Thread → Thread) : (t.setThread r p f).u = t.u := rfl
@[simp] theorem Team.setThread_m (t : Team) (r p : Nat) (f : Thread → Thread) : (t.setThread r p f).m = t.m := rfl
@[simp] theorem Team.setThread_s (t : Team) (r p : Nat) (f : Thread → Thread) : (t.setThread r p f).s = t.s := rfl
@[simp] theorem Team.setThread_tmem (t : Team) (r p : Nat) (f : Thread → Thread) : (t.setThread r p f).tmem = t.tmem := rfl
@[simp] theorem Team.setThread_fe (t : Team) (r p : Nat) (f : Thread → Thread) : (t.setThread r p f).fe = t.fe := rfl
@[simp] theorem Team.setThread_q (t : Team) (r p : Nat) (f : Thread → Thread) : (t.setThread r p f).q = t.q := rfl
@[simp] theorem Team.setThread_mq (t : Team) (r p : Nat) (f : Thread → Thread) : (t.setThread r p f).mq = t.mq := rfl
@[simp] theorem Team.setThread_pushed (t : Team) (r p : Nat) (f : Thread → Thread) : (t.setThread r p f).pushed = t.pushed := rfl
@[simp] theorem Team.setThread_popped (t : Team) (r p : Nat) (f : Thread → Thread) : (t.setThread r p f).popped = t.popped := rfl
@[simp] theorem Team.setThread_drained (t : Team) (r p : Nat) (f : Thread → Thread) : (t.setThread r p f).drained = t.drained := rfl
@[simp] theorem Team.setThread_filled (t : Team) (r p : Nat) (f : Thread → Thread) : (t.setThread r p f).filled = t.filled := rfl
@[simp] theorem Team.setThread_rdv (t : Team) (r p : Nat) (f : Thread → Thread) : (t.setThread r p f).rdv = t.rdv := rfl
@[simp] theorem Team.setThread_drills (t : Team) (r p : Nat) (f : Thread → Thread) : (t.setThread r p f).drills = t.drills := rfl
@[simp] theorem Team.setThread_episodes (t : Team) (r p : Nat) (f : Thread → Thread) : (t.setThread r p f).episodes = t.episodes := rfl
@[simp] theorem Team.setThread_syscs (t : Team) (r p : Nat) (f : Thread → Thread) : (t.setThread r p f).syscs = t.syscs := rfl
@[simp] theorem Team.setThread_halt (t : Team) (r p : Nat) (f : Thread → Thread) : (t.setThread r p f).halt = t.halt := rfl
@[simp] theorem Team.setThread_retired (t : Team) (r p : Nat) (f : Thread → Thread) : (t.setThread r p f).retired = t.retired := rfl

@[simp] theorem Team.mapThreads_uid (t : Team) (f : Thread → Thread) : (t.mapThreads f).uid = t.uid := rfl
@[simp] theorem Team.mapThreads_launch (t : Team) (f : Thread → Thread) : (t.mapThreads f).launch = t.launch := rfl
@[simp] theorem Team.mapThreads_team (t : Team) (f : Thread → Thread) : (t.mapThreads f).team = t.team := rfl
@[simp] theorem Team.mapThreads_pitch (t : Team) (f : Thread → Thread) : (t.mapThreads f).pitch = t.pitch := rfl
@[simp] theorem Team.mapThreads_part (t : Team) (f : Thread → Thread) : (t.mapThreads f).part = t.part := rfl
@[simp] theorem Team.mapThreads_die (t : Team) (f : Thread → Thread) : (t.mapThreads f).die = t.die := rfl
@[simp] theorem Team.mapThreads_core (t : Team) (f : Thread → Thread) : (t.mapThreads f).core = t.core := rfl
@[simp] theorem Team.mapThreads_plot (t : Team) (f : Thread → Thread) : (t.mapThreads f).plot = t.plot := rfl
@[simp] theorem Team.mapThreads_width (t : Team) (f : Thread → Thread) : (t.mapThreads f).width = t.width := rfl
@[simp] theorem Team.mapThreads_hdr (t : Team) (f : Thread → Thread) : (t.mapThreads f).hdr = t.hdr := rfl
@[simp] theorem Team.mapThreads_rcd (t : Team) (f : Thread → Thread) : (t.mapThreads f).rcd = t.rcd := rfl
@[simp] theorem Team.mapThreads_codeVA (t : Team) (f : Thread → Thread) : (t.mapThreads f).codeVA = t.codeVA := rfl
@[simp] theorem Team.mapThreads_argp (t : Team) (f : Thread → Thread) : (t.mapThreads f).argp = t.argp := rfl
@[simp] theorem Team.mapThreads_lanes (t : Team) (f : Thread → Thread) : (t.mapThreads f).lanes = t.lanes := rfl
@[simp] theorem Team.mapThreads_tbase (t : Team) (f : Thread → Thread) : (t.mapThreads f).tbase = t.tbase := rfl
@[simp] theorem Team.mapThreads_ord (t : Team) (f : Thread → Thread) : (t.mapThreads f).ord = t.ord := rfl
@[simp] theorem Team.mapThreads_recs (t : Team) (f : Thread → Thread) : (t.mapThreads f).recs = t.recs := rfl
@[simp] theorem Team.mapThreads_node (t : Team) (f : Thread → Thread) : (t.mapThreads f).node = t.node := rfl
@[simp] theorem Team.mapThreads_born (t : Team) (f : Thread → Thread) : (t.mapThreads f).born = t.born := rfl
@[simp] theorem Team.mapThreads_dleft (t : Team) (f : Thread → Thread) : (t.mapThreads f).dleft = t.dleft := rfl
@[simp] theorem Team.mapThreads_frags (t : Team) (f : Thread → Thread) : (t.mapThreads f).frags = t.frags := rfl
@[simp] theorem Team.mapThreads_u (t : Team) (f : Thread → Thread) : (t.mapThreads f).u = t.u := rfl
@[simp] theorem Team.mapThreads_m (t : Team) (f : Thread → Thread) : (t.mapThreads f).m = t.m := rfl
@[simp] theorem Team.mapThreads_s (t : Team) (f : Thread → Thread) : (t.mapThreads f).s = t.s := rfl
@[simp] theorem Team.mapThreads_tmem (t : Team) (f : Thread → Thread) : (t.mapThreads f).tmem = t.tmem := rfl
@[simp] theorem Team.mapThreads_fe (t : Team) (f : Thread → Thread) : (t.mapThreads f).fe = t.fe := rfl
@[simp] theorem Team.mapThreads_q (t : Team) (f : Thread → Thread) : (t.mapThreads f).q = t.q := rfl
@[simp] theorem Team.mapThreads_mq (t : Team) (f : Thread → Thread) : (t.mapThreads f).mq = t.mq := rfl
@[simp] theorem Team.mapThreads_pushed (t : Team) (f : Thread → Thread) : (t.mapThreads f).pushed = t.pushed := rfl
@[simp] theorem Team.mapThreads_popped (t : Team) (f : Thread → Thread) : (t.mapThreads f).popped = t.popped := rfl
@[simp] theorem Team.mapThreads_drained (t : Team) (f : Thread → Thread) : (t.mapThreads f).drained = t.drained := rfl
@[simp] theorem Team.mapThreads_filled (t : Team) (f : Thread → Thread) : (t.mapThreads f).filled = t.filled := rfl
@[simp] theorem Team.mapThreads_rdv (t : Team) (f : Thread → Thread) : (t.mapThreads f).rdv = t.rdv := rfl
@[simp] theorem Team.mapThreads_drills (t : Team) (f : Thread → Thread) : (t.mapThreads f).drills = t.drills := rfl
@[simp] theorem Team.mapThreads_episodes (t : Team) (f : Thread → Thread) : (t.mapThreads f).episodes = t.episodes := rfl
@[simp] theorem Team.mapThreads_syscs (t : Team) (f : Thread → Thread) : (t.mapThreads f).syscs = t.syscs := rfl
@[simp] theorem Team.mapThreads_halt (t : Team) (f : Thread → Thread) : (t.mapThreads f).halt = t.halt := rfl
@[simp] theorem Team.mapThreads_retired (t : Team) (f : Thread → Thread) : (t.mapThreads f).retired = t.retired := rfl

@[simp] theorem Team.setFrag_uid (t : Team) (i : Nat) (f : Frag → Frag) : (t.setFrag i f).uid = t.uid := rfl
@[simp] theorem Team.setFrag_launch (t : Team) (i : Nat) (f : Frag → Frag) : (t.setFrag i f).launch = t.launch := rfl
@[simp] theorem Team.setFrag_team (t : Team) (i : Nat) (f : Frag → Frag) : (t.setFrag i f).team = t.team := rfl
@[simp] theorem Team.setFrag_pitch (t : Team) (i : Nat) (f : Frag → Frag) : (t.setFrag i f).pitch = t.pitch := rfl
@[simp] theorem Team.setFrag_part (t : Team) (i : Nat) (f : Frag → Frag) : (t.setFrag i f).part = t.part := rfl
@[simp] theorem Team.setFrag_die (t : Team) (i : Nat) (f : Frag → Frag) : (t.setFrag i f).die = t.die := rfl
@[simp] theorem Team.setFrag_core (t : Team) (i : Nat) (f : Frag → Frag) : (t.setFrag i f).core = t.core := rfl
@[simp] theorem Team.setFrag_plot (t : Team) (i : Nat) (f : Frag → Frag) : (t.setFrag i f).plot = t.plot := rfl
@[simp] theorem Team.setFrag_width (t : Team) (i : Nat) (f : Frag → Frag) : (t.setFrag i f).width = t.width := rfl
@[simp] theorem Team.setFrag_hdr (t : Team) (i : Nat) (f : Frag → Frag) : (t.setFrag i f).hdr = t.hdr := rfl
@[simp] theorem Team.setFrag_rcd (t : Team) (i : Nat) (f : Frag → Frag) : (t.setFrag i f).rcd = t.rcd := rfl
@[simp] theorem Team.setFrag_codeVA (t : Team) (i : Nat) (f : Frag → Frag) : (t.setFrag i f).codeVA = t.codeVA := rfl
@[simp] theorem Team.setFrag_argp (t : Team) (i : Nat) (f : Frag → Frag) : (t.setFrag i f).argp = t.argp := rfl
@[simp] theorem Team.setFrag_lanes (t : Team) (i : Nat) (f : Frag → Frag) : (t.setFrag i f).lanes = t.lanes := rfl
@[simp] theorem Team.setFrag_tbase (t : Team) (i : Nat) (f : Frag → Frag) : (t.setFrag i f).tbase = t.tbase := rfl
@[simp] theorem Team.setFrag_ord (t : Team) (i : Nat) (f : Frag → Frag) : (t.setFrag i f).ord = t.ord := rfl
@[simp] theorem Team.setFrag_recs (t : Team) (i : Nat) (f : Frag → Frag) : (t.setFrag i f).recs = t.recs := rfl
@[simp] theorem Team.setFrag_node (t : Team) (i : Nat) (f : Frag → Frag) : (t.setFrag i f).node = t.node := rfl
@[simp] theorem Team.setFrag_born (t : Team) (i : Nat) (f : Frag → Frag) : (t.setFrag i f).born = t.born := rfl
@[simp] theorem Team.setFrag_dleft (t : Team) (i : Nat) (f : Frag → Frag) : (t.setFrag i f).dleft = t.dleft := rfl
@[simp] theorem Team.setFrag_threads (t : Team) (i : Nat) (f : Frag → Frag) : (t.setFrag i f).threads = t.threads := rfl
@[simp] theorem Team.setFrag_u (t : Team) (i : Nat) (f : Frag → Frag) : (t.setFrag i f).u = t.u := rfl
@[simp] theorem Team.setFrag_m (t : Team) (i : Nat) (f : Frag → Frag) : (t.setFrag i f).m = t.m := rfl
@[simp] theorem Team.setFrag_s (t : Team) (i : Nat) (f : Frag → Frag) : (t.setFrag i f).s = t.s := rfl
@[simp] theorem Team.setFrag_tmem (t : Team) (i : Nat) (f : Frag → Frag) : (t.setFrag i f).tmem = t.tmem := rfl
@[simp] theorem Team.setFrag_fe (t : Team) (i : Nat) (f : Frag → Frag) : (t.setFrag i f).fe = t.fe := rfl
@[simp] theorem Team.setFrag_q (t : Team) (i : Nat) (f : Frag → Frag) : (t.setFrag i f).q = t.q := rfl
@[simp] theorem Team.setFrag_mq (t : Team) (i : Nat) (f : Frag → Frag) : (t.setFrag i f).mq = t.mq := rfl
@[simp] theorem Team.setFrag_pushed (t : Team) (i : Nat) (f : Frag → Frag) : (t.setFrag i f).pushed = t.pushed := rfl
@[simp] theorem Team.setFrag_popped (t : Team) (i : Nat) (f : Frag → Frag) : (t.setFrag i f).popped = t.popped := rfl
@[simp] theorem Team.setFrag_drained (t : Team) (i : Nat) (f : Frag → Frag) : (t.setFrag i f).drained = t.drained := rfl
@[simp] theorem Team.setFrag_filled (t : Team) (i : Nat) (f : Frag → Frag) : (t.setFrag i f).filled = t.filled := rfl
@[simp] theorem Team.setFrag_rdv (t : Team) (i : Nat) (f : Frag → Frag) : (t.setFrag i f).rdv = t.rdv := rfl
@[simp] theorem Team.setFrag_drills (t : Team) (i : Nat) (f : Frag → Frag) : (t.setFrag i f).drills = t.drills := rfl
@[simp] theorem Team.setFrag_episodes (t : Team) (i : Nat) (f : Frag → Frag) : (t.setFrag i f).episodes = t.episodes := rfl
@[simp] theorem Team.setFrag_syscs (t : Team) (i : Nat) (f : Frag → Frag) : (t.setFrag i f).syscs = t.syscs := rfl
@[simp] theorem Team.setFrag_halt (t : Team) (i : Nat) (f : Frag → Frag) : (t.setFrag i f).halt = t.halt := rfl
@[simp] theorem Team.setFrag_retired (t : Team) (i : Nat) (f : Frag → Frag) : (t.setFrag i f).retired = t.retired := rfl

@[simp] theorem Team.writeBytes_uid (t : Team) (k : Nat) (bs : List Byte) : (t.writeBytes k bs).uid = t.uid := rfl
@[simp] theorem Team.writeBytes_launch (t : Team) (k : Nat) (bs : List Byte) : (t.writeBytes k bs).launch = t.launch := rfl
@[simp] theorem Team.writeBytes_team (t : Team) (k : Nat) (bs : List Byte) : (t.writeBytes k bs).team = t.team := rfl
@[simp] theorem Team.writeBytes_pitch (t : Team) (k : Nat) (bs : List Byte) : (t.writeBytes k bs).pitch = t.pitch := rfl
@[simp] theorem Team.writeBytes_part (t : Team) (k : Nat) (bs : List Byte) : (t.writeBytes k bs).part = t.part := rfl
@[simp] theorem Team.writeBytes_die (t : Team) (k : Nat) (bs : List Byte) : (t.writeBytes k bs).die = t.die := rfl
@[simp] theorem Team.writeBytes_core (t : Team) (k : Nat) (bs : List Byte) : (t.writeBytes k bs).core = t.core := rfl
@[simp] theorem Team.writeBytes_plot (t : Team) (k : Nat) (bs : List Byte) : (t.writeBytes k bs).plot = t.plot := rfl
@[simp] theorem Team.writeBytes_width (t : Team) (k : Nat) (bs : List Byte) : (t.writeBytes k bs).width = t.width := rfl
@[simp] theorem Team.writeBytes_hdr (t : Team) (k : Nat) (bs : List Byte) : (t.writeBytes k bs).hdr = t.hdr := rfl
@[simp] theorem Team.writeBytes_rcd (t : Team) (k : Nat) (bs : List Byte) : (t.writeBytes k bs).rcd = t.rcd := rfl
@[simp] theorem Team.writeBytes_codeVA (t : Team) (k : Nat) (bs : List Byte) : (t.writeBytes k bs).codeVA = t.codeVA := rfl
@[simp] theorem Team.writeBytes_argp (t : Team) (k : Nat) (bs : List Byte) : (t.writeBytes k bs).argp = t.argp := rfl
@[simp] theorem Team.writeBytes_lanes (t : Team) (k : Nat) (bs : List Byte) : (t.writeBytes k bs).lanes = t.lanes := rfl
@[simp] theorem Team.writeBytes_tbase (t : Team) (k : Nat) (bs : List Byte) : (t.writeBytes k bs).tbase = t.tbase := rfl
@[simp] theorem Team.writeBytes_ord (t : Team) (k : Nat) (bs : List Byte) : (t.writeBytes k bs).ord = t.ord := rfl
@[simp] theorem Team.writeBytes_recs (t : Team) (k : Nat) (bs : List Byte) : (t.writeBytes k bs).recs = t.recs := rfl
@[simp] theorem Team.writeBytes_node (t : Team) (k : Nat) (bs : List Byte) : (t.writeBytes k bs).node = t.node := rfl
@[simp] theorem Team.writeBytes_born (t : Team) (k : Nat) (bs : List Byte) : (t.writeBytes k bs).born = t.born := rfl
@[simp] theorem Team.writeBytes_dleft (t : Team) (k : Nat) (bs : List Byte) : (t.writeBytes k bs).dleft = t.dleft := rfl
@[simp] theorem Team.writeBytes_threads (t : Team) (k : Nat) (bs : List Byte) : (t.writeBytes k bs).threads = t.threads := rfl
@[simp] theorem Team.writeBytes_frags (t : Team) (k : Nat) (bs : List Byte) : (t.writeBytes k bs).frags = t.frags := rfl
@[simp] theorem Team.writeBytes_u (t : Team) (k : Nat) (bs : List Byte) : (t.writeBytes k bs).u = t.u := rfl
@[simp] theorem Team.writeBytes_m (t : Team) (k : Nat) (bs : List Byte) : (t.writeBytes k bs).m = t.m := rfl
@[simp] theorem Team.writeBytes_s (t : Team) (k : Nat) (bs : List Byte) : (t.writeBytes k bs).s = t.s := rfl
@[simp] theorem Team.writeBytes_fe (t : Team) (k : Nat) (bs : List Byte) : (t.writeBytes k bs).fe = t.fe := rfl
@[simp] theorem Team.writeBytes_q (t : Team) (k : Nat) (bs : List Byte) : (t.writeBytes k bs).q = t.q := rfl
@[simp] theorem Team.writeBytes_mq (t : Team) (k : Nat) (bs : List Byte) : (t.writeBytes k bs).mq = t.mq := rfl
@[simp] theorem Team.writeBytes_pushed (t : Team) (k : Nat) (bs : List Byte) : (t.writeBytes k bs).pushed = t.pushed := rfl
@[simp] theorem Team.writeBytes_popped (t : Team) (k : Nat) (bs : List Byte) : (t.writeBytes k bs).popped = t.popped := rfl
@[simp] theorem Team.writeBytes_drained (t : Team) (k : Nat) (bs : List Byte) : (t.writeBytes k bs).drained = t.drained := rfl
@[simp] theorem Team.writeBytes_filled (t : Team) (k : Nat) (bs : List Byte) : (t.writeBytes k bs).filled = t.filled := rfl
@[simp] theorem Team.writeBytes_rdv (t : Team) (k : Nat) (bs : List Byte) : (t.writeBytes k bs).rdv = t.rdv := rfl
@[simp] theorem Team.writeBytes_drills (t : Team) (k : Nat) (bs : List Byte) : (t.writeBytes k bs).drills = t.drills := rfl
@[simp] theorem Team.writeBytes_episodes (t : Team) (k : Nat) (bs : List Byte) : (t.writeBytes k bs).episodes = t.episodes := rfl
@[simp] theorem Team.writeBytes_syscs (t : Team) (k : Nat) (bs : List Byte) : (t.writeBytes k bs).syscs = t.syscs := rfl
@[simp] theorem Team.writeBytes_halt (t : Team) (k : Nat) (bs : List Byte) : (t.writeBytes k bs).halt = t.halt := rfl
@[simp] theorem Team.writeBytes_retired (t : Team) (k : Nat) (bs : List Byte) : (t.writeBytes k bs).retired = t.retired := rfl

@[simp] theorem Team.setFull_uid (t : Team) (g : Nat) (b : Bool) : (t.setFull g b).uid = t.uid := rfl
@[simp] theorem Team.setFull_launch (t : Team) (g : Nat) (b : Bool) : (t.setFull g b).launch = t.launch := rfl
@[simp] theorem Team.setFull_team (t : Team) (g : Nat) (b : Bool) : (t.setFull g b).team = t.team := rfl
@[simp] theorem Team.setFull_pitch (t : Team) (g : Nat) (b : Bool) : (t.setFull g b).pitch = t.pitch := rfl
@[simp] theorem Team.setFull_part (t : Team) (g : Nat) (b : Bool) : (t.setFull g b).part = t.part := rfl
@[simp] theorem Team.setFull_die (t : Team) (g : Nat) (b : Bool) : (t.setFull g b).die = t.die := rfl
@[simp] theorem Team.setFull_core (t : Team) (g : Nat) (b : Bool) : (t.setFull g b).core = t.core := rfl
@[simp] theorem Team.setFull_plot (t : Team) (g : Nat) (b : Bool) : (t.setFull g b).plot = t.plot := rfl
@[simp] theorem Team.setFull_width (t : Team) (g : Nat) (b : Bool) : (t.setFull g b).width = t.width := rfl
@[simp] theorem Team.setFull_hdr (t : Team) (g : Nat) (b : Bool) : (t.setFull g b).hdr = t.hdr := rfl
@[simp] theorem Team.setFull_rcd (t : Team) (g : Nat) (b : Bool) : (t.setFull g b).rcd = t.rcd := rfl
@[simp] theorem Team.setFull_codeVA (t : Team) (g : Nat) (b : Bool) : (t.setFull g b).codeVA = t.codeVA := rfl
@[simp] theorem Team.setFull_argp (t : Team) (g : Nat) (b : Bool) : (t.setFull g b).argp = t.argp := rfl
@[simp] theorem Team.setFull_lanes (t : Team) (g : Nat) (b : Bool) : (t.setFull g b).lanes = t.lanes := rfl
@[simp] theorem Team.setFull_tbase (t : Team) (g : Nat) (b : Bool) : (t.setFull g b).tbase = t.tbase := rfl
@[simp] theorem Team.setFull_ord (t : Team) (g : Nat) (b : Bool) : (t.setFull g b).ord = t.ord := rfl
@[simp] theorem Team.setFull_recs (t : Team) (g : Nat) (b : Bool) : (t.setFull g b).recs = t.recs := rfl
@[simp] theorem Team.setFull_node (t : Team) (g : Nat) (b : Bool) : (t.setFull g b).node = t.node := rfl
@[simp] theorem Team.setFull_born (t : Team) (g : Nat) (b : Bool) : (t.setFull g b).born = t.born := rfl
@[simp] theorem Team.setFull_dleft (t : Team) (g : Nat) (b : Bool) : (t.setFull g b).dleft = t.dleft := rfl
@[simp] theorem Team.setFull_threads (t : Team) (g : Nat) (b : Bool) : (t.setFull g b).threads = t.threads := rfl
@[simp] theorem Team.setFull_frags (t : Team) (g : Nat) (b : Bool) : (t.setFull g b).frags = t.frags := rfl
@[simp] theorem Team.setFull_u (t : Team) (g : Nat) (b : Bool) : (t.setFull g b).u = t.u := rfl
@[simp] theorem Team.setFull_m (t : Team) (g : Nat) (b : Bool) : (t.setFull g b).m = t.m := rfl
@[simp] theorem Team.setFull_s (t : Team) (g : Nat) (b : Bool) : (t.setFull g b).s = t.s := rfl
@[simp] theorem Team.setFull_tmem (t : Team) (g : Nat) (b : Bool) : (t.setFull g b).tmem = t.tmem := rfl
@[simp] theorem Team.setFull_q (t : Team) (g : Nat) (b : Bool) : (t.setFull g b).q = t.q := rfl
@[simp] theorem Team.setFull_mq (t : Team) (g : Nat) (b : Bool) : (t.setFull g b).mq = t.mq := rfl
@[simp] theorem Team.setFull_pushed (t : Team) (g : Nat) (b : Bool) : (t.setFull g b).pushed = t.pushed := rfl
@[simp] theorem Team.setFull_popped (t : Team) (g : Nat) (b : Bool) : (t.setFull g b).popped = t.popped := rfl
@[simp] theorem Team.setFull_drained (t : Team) (g : Nat) (b : Bool) : (t.setFull g b).drained = t.drained := rfl
@[simp] theorem Team.setFull_filled (t : Team) (g : Nat) (b : Bool) : (t.setFull g b).filled = t.filled := rfl
@[simp] theorem Team.setFull_rdv (t : Team) (g : Nat) (b : Bool) : (t.setFull g b).rdv = t.rdv := rfl
@[simp] theorem Team.setFull_drills (t : Team) (g : Nat) (b : Bool) : (t.setFull g b).drills = t.drills := rfl
@[simp] theorem Team.setFull_episodes (t : Team) (g : Nat) (b : Bool) : (t.setFull g b).episodes = t.episodes := rfl
@[simp] theorem Team.setFull_syscs (t : Team) (g : Nat) (b : Bool) : (t.setFull g b).syscs = t.syscs := rfl
@[simp] theorem Team.setFull_halt (t : Team) (g : Nat) (b : Bool) : (t.setFull g b).halt = t.halt := rfl
@[simp] theorem Team.setFull_retired (t : Team) (g : Nat) (b : Bool) : (t.setFull g b).retired = t.retired := rfl

@[simp] theorem Team.setPoint_uid (t : Team) (p : Nat) (r : Rdv) : (t.setPoint p r).uid = t.uid := rfl
@[simp] theorem Team.setPoint_launch (t : Team) (p : Nat) (r : Rdv) : (t.setPoint p r).launch = t.launch := rfl
@[simp] theorem Team.setPoint_team (t : Team) (p : Nat) (r : Rdv) : (t.setPoint p r).team = t.team := rfl
@[simp] theorem Team.setPoint_pitch (t : Team) (p : Nat) (r : Rdv) : (t.setPoint p r).pitch = t.pitch := rfl
@[simp] theorem Team.setPoint_part (t : Team) (p : Nat) (r : Rdv) : (t.setPoint p r).part = t.part := rfl
@[simp] theorem Team.setPoint_die (t : Team) (p : Nat) (r : Rdv) : (t.setPoint p r).die = t.die := rfl
@[simp] theorem Team.setPoint_core (t : Team) (p : Nat) (r : Rdv) : (t.setPoint p r).core = t.core := rfl
@[simp] theorem Team.setPoint_plot (t : Team) (p : Nat) (r : Rdv) : (t.setPoint p r).plot = t.plot := rfl
@[simp] theorem Team.setPoint_width (t : Team) (p : Nat) (r : Rdv) : (t.setPoint p r).width = t.width := rfl
@[simp] theorem Team.setPoint_hdr (t : Team) (p : Nat) (r : Rdv) : (t.setPoint p r).hdr = t.hdr := rfl
@[simp] theorem Team.setPoint_rcd (t : Team) (p : Nat) (r : Rdv) : (t.setPoint p r).rcd = t.rcd := rfl
@[simp] theorem Team.setPoint_codeVA (t : Team) (p : Nat) (r : Rdv) : (t.setPoint p r).codeVA = t.codeVA := rfl
@[simp] theorem Team.setPoint_argp (t : Team) (p : Nat) (r : Rdv) : (t.setPoint p r).argp = t.argp := rfl
@[simp] theorem Team.setPoint_lanes (t : Team) (p : Nat) (r : Rdv) : (t.setPoint p r).lanes = t.lanes := rfl
@[simp] theorem Team.setPoint_tbase (t : Team) (p : Nat) (r : Rdv) : (t.setPoint p r).tbase = t.tbase := rfl
@[simp] theorem Team.setPoint_ord (t : Team) (p : Nat) (r : Rdv) : (t.setPoint p r).ord = t.ord := rfl
@[simp] theorem Team.setPoint_recs (t : Team) (p : Nat) (r : Rdv) : (t.setPoint p r).recs = t.recs := rfl
@[simp] theorem Team.setPoint_node (t : Team) (p : Nat) (r : Rdv) : (t.setPoint p r).node = t.node := rfl
@[simp] theorem Team.setPoint_born (t : Team) (p : Nat) (r : Rdv) : (t.setPoint p r).born = t.born := rfl
@[simp] theorem Team.setPoint_dleft (t : Team) (p : Nat) (r : Rdv) : (t.setPoint p r).dleft = t.dleft := rfl
@[simp] theorem Team.setPoint_threads (t : Team) (p : Nat) (r : Rdv) : (t.setPoint p r).threads = t.threads := rfl
@[simp] theorem Team.setPoint_frags (t : Team) (p : Nat) (r : Rdv) : (t.setPoint p r).frags = t.frags := rfl
@[simp] theorem Team.setPoint_u (t : Team) (p : Nat) (r : Rdv) : (t.setPoint p r).u = t.u := rfl
@[simp] theorem Team.setPoint_m (t : Team) (p : Nat) (r : Rdv) : (t.setPoint p r).m = t.m := rfl
@[simp] theorem Team.setPoint_s (t : Team) (p : Nat) (r : Rdv) : (t.setPoint p r).s = t.s := rfl
@[simp] theorem Team.setPoint_tmem (t : Team) (p : Nat) (r : Rdv) : (t.setPoint p r).tmem = t.tmem := rfl
@[simp] theorem Team.setPoint_fe (t : Team) (p : Nat) (r : Rdv) : (t.setPoint p r).fe = t.fe := rfl
@[simp] theorem Team.setPoint_q (t : Team) (p : Nat) (r : Rdv) : (t.setPoint p r).q = t.q := rfl
@[simp] theorem Team.setPoint_mq (t : Team) (p : Nat) (r : Rdv) : (t.setPoint p r).mq = t.mq := rfl
@[simp] theorem Team.setPoint_pushed (t : Team) (p : Nat) (r : Rdv) : (t.setPoint p r).pushed = t.pushed := rfl
@[simp] theorem Team.setPoint_popped (t : Team) (p : Nat) (r : Rdv) : (t.setPoint p r).popped = t.popped := rfl
@[simp] theorem Team.setPoint_drained (t : Team) (p : Nat) (r : Rdv) : (t.setPoint p r).drained = t.drained := rfl
@[simp] theorem Team.setPoint_filled (t : Team) (p : Nat) (r : Rdv) : (t.setPoint p r).filled = t.filled := rfl
@[simp] theorem Team.setPoint_drills (t : Team) (p : Nat) (r : Rdv) : (t.setPoint p r).drills = t.drills := rfl
@[simp] theorem Team.setPoint_episodes (t : Team) (p : Nat) (r : Rdv) : (t.setPoint p r).episodes = t.episodes := rfl
@[simp] theorem Team.setPoint_syscs (t : Team) (p : Nat) (r : Rdv) : (t.setPoint p r).syscs = t.syscs := rfl
@[simp] theorem Team.setPoint_halt (t : Team) (p : Nat) (r : Rdv) : (t.setPoint p r).halt = t.halt := rfl
@[simp] theorem Team.setPoint_retired (t : Team) (p : Nat) (r : Rdv) : (t.setPoint p r).retired = t.retired := rfl

@[simp] theorem Team.setQueue_uid (t : Team) (q : Nat) (es : List VReg) : (t.setQueue q es).uid = t.uid := rfl
@[simp] theorem Team.setQueue_launch (t : Team) (q : Nat) (es : List VReg) : (t.setQueue q es).launch = t.launch := rfl
@[simp] theorem Team.setQueue_team (t : Team) (q : Nat) (es : List VReg) : (t.setQueue q es).team = t.team := rfl
@[simp] theorem Team.setQueue_pitch (t : Team) (q : Nat) (es : List VReg) : (t.setQueue q es).pitch = t.pitch := rfl
@[simp] theorem Team.setQueue_part (t : Team) (q : Nat) (es : List VReg) : (t.setQueue q es).part = t.part := rfl
@[simp] theorem Team.setQueue_die (t : Team) (q : Nat) (es : List VReg) : (t.setQueue q es).die = t.die := rfl
@[simp] theorem Team.setQueue_core (t : Team) (q : Nat) (es : List VReg) : (t.setQueue q es).core = t.core := rfl
@[simp] theorem Team.setQueue_plot (t : Team) (q : Nat) (es : List VReg) : (t.setQueue q es).plot = t.plot := rfl
@[simp] theorem Team.setQueue_width (t : Team) (q : Nat) (es : List VReg) : (t.setQueue q es).width = t.width := rfl
@[simp] theorem Team.setQueue_hdr (t : Team) (q : Nat) (es : List VReg) : (t.setQueue q es).hdr = t.hdr := rfl
@[simp] theorem Team.setQueue_rcd (t : Team) (q : Nat) (es : List VReg) : (t.setQueue q es).rcd = t.rcd := rfl
@[simp] theorem Team.setQueue_codeVA (t : Team) (q : Nat) (es : List VReg) : (t.setQueue q es).codeVA = t.codeVA := rfl
@[simp] theorem Team.setQueue_argp (t : Team) (q : Nat) (es : List VReg) : (t.setQueue q es).argp = t.argp := rfl
@[simp] theorem Team.setQueue_lanes (t : Team) (q : Nat) (es : List VReg) : (t.setQueue q es).lanes = t.lanes := rfl
@[simp] theorem Team.setQueue_tbase (t : Team) (q : Nat) (es : List VReg) : (t.setQueue q es).tbase = t.tbase := rfl
@[simp] theorem Team.setQueue_ord (t : Team) (q : Nat) (es : List VReg) : (t.setQueue q es).ord = t.ord := rfl
@[simp] theorem Team.setQueue_recs (t : Team) (q : Nat) (es : List VReg) : (t.setQueue q es).recs = t.recs := rfl
@[simp] theorem Team.setQueue_node (t : Team) (q : Nat) (es : List VReg) : (t.setQueue q es).node = t.node := rfl
@[simp] theorem Team.setQueue_born (t : Team) (q : Nat) (es : List VReg) : (t.setQueue q es).born = t.born := rfl
@[simp] theorem Team.setQueue_dleft (t : Team) (q : Nat) (es : List VReg) : (t.setQueue q es).dleft = t.dleft := rfl
@[simp] theorem Team.setQueue_threads (t : Team) (q : Nat) (es : List VReg) : (t.setQueue q es).threads = t.threads := rfl
@[simp] theorem Team.setQueue_frags (t : Team) (q : Nat) (es : List VReg) : (t.setQueue q es).frags = t.frags := rfl
@[simp] theorem Team.setQueue_u (t : Team) (q : Nat) (es : List VReg) : (t.setQueue q es).u = t.u := rfl
@[simp] theorem Team.setQueue_m (t : Team) (q : Nat) (es : List VReg) : (t.setQueue q es).m = t.m := rfl
@[simp] theorem Team.setQueue_s (t : Team) (q : Nat) (es : List VReg) : (t.setQueue q es).s = t.s := rfl
@[simp] theorem Team.setQueue_tmem (t : Team) (q : Nat) (es : List VReg) : (t.setQueue q es).tmem = t.tmem := rfl
@[simp] theorem Team.setQueue_fe (t : Team) (q : Nat) (es : List VReg) : (t.setQueue q es).fe = t.fe := rfl
@[simp] theorem Team.setQueue_mq (t : Team) (q : Nat) (es : List VReg) : (t.setQueue q es).mq = t.mq := rfl
@[simp] theorem Team.setQueue_pushed (t : Team) (q : Nat) (es : List VReg) : (t.setQueue q es).pushed = t.pushed := rfl
@[simp] theorem Team.setQueue_popped (t : Team) (q : Nat) (es : List VReg) : (t.setQueue q es).popped = t.popped := rfl
@[simp] theorem Team.setQueue_drained (t : Team) (q : Nat) (es : List VReg) : (t.setQueue q es).drained = t.drained := rfl
@[simp] theorem Team.setQueue_filled (t : Team) (q : Nat) (es : List VReg) : (t.setQueue q es).filled = t.filled := rfl
@[simp] theorem Team.setQueue_rdv (t : Team) (q : Nat) (es : List VReg) : (t.setQueue q es).rdv = t.rdv := rfl
@[simp] theorem Team.setQueue_drills (t : Team) (q : Nat) (es : List VReg) : (t.setQueue q es).drills = t.drills := rfl
@[simp] theorem Team.setQueue_episodes (t : Team) (q : Nat) (es : List VReg) : (t.setQueue q es).episodes = t.episodes := rfl
@[simp] theorem Team.setQueue_syscs (t : Team) (q : Nat) (es : List VReg) : (t.setQueue q es).syscs = t.syscs := rfl
@[simp] theorem Team.setQueue_halt (t : Team) (q : Nat) (es : List VReg) : (t.setQueue q es).halt = t.halt := rfl
@[simp] theorem Team.setQueue_retired (t : Team) (q : Nat) (es : List VReg) : (t.setQueue q es).retired = t.retired := rfl

@[simp] theorem Team.setMqueue_uid (t : Team) (q : Nat) (es : List DWord) : (t.setMqueue q es).uid = t.uid := rfl
@[simp] theorem Team.setMqueue_launch (t : Team) (q : Nat) (es : List DWord) : (t.setMqueue q es).launch = t.launch := rfl
@[simp] theorem Team.setMqueue_team (t : Team) (q : Nat) (es : List DWord) : (t.setMqueue q es).team = t.team := rfl
@[simp] theorem Team.setMqueue_pitch (t : Team) (q : Nat) (es : List DWord) : (t.setMqueue q es).pitch = t.pitch := rfl
@[simp] theorem Team.setMqueue_part (t : Team) (q : Nat) (es : List DWord) : (t.setMqueue q es).part = t.part := rfl
@[simp] theorem Team.setMqueue_die (t : Team) (q : Nat) (es : List DWord) : (t.setMqueue q es).die = t.die := rfl
@[simp] theorem Team.setMqueue_core (t : Team) (q : Nat) (es : List DWord) : (t.setMqueue q es).core = t.core := rfl
@[simp] theorem Team.setMqueue_plot (t : Team) (q : Nat) (es : List DWord) : (t.setMqueue q es).plot = t.plot := rfl
@[simp] theorem Team.setMqueue_width (t : Team) (q : Nat) (es : List DWord) : (t.setMqueue q es).width = t.width := rfl
@[simp] theorem Team.setMqueue_hdr (t : Team) (q : Nat) (es : List DWord) : (t.setMqueue q es).hdr = t.hdr := rfl
@[simp] theorem Team.setMqueue_rcd (t : Team) (q : Nat) (es : List DWord) : (t.setMqueue q es).rcd = t.rcd := rfl
@[simp] theorem Team.setMqueue_codeVA (t : Team) (q : Nat) (es : List DWord) : (t.setMqueue q es).codeVA = t.codeVA := rfl
@[simp] theorem Team.setMqueue_argp (t : Team) (q : Nat) (es : List DWord) : (t.setMqueue q es).argp = t.argp := rfl
@[simp] theorem Team.setMqueue_lanes (t : Team) (q : Nat) (es : List DWord) : (t.setMqueue q es).lanes = t.lanes := rfl
@[simp] theorem Team.setMqueue_tbase (t : Team) (q : Nat) (es : List DWord) : (t.setMqueue q es).tbase = t.tbase := rfl
@[simp] theorem Team.setMqueue_ord (t : Team) (q : Nat) (es : List DWord) : (t.setMqueue q es).ord = t.ord := rfl
@[simp] theorem Team.setMqueue_recs (t : Team) (q : Nat) (es : List DWord) : (t.setMqueue q es).recs = t.recs := rfl
@[simp] theorem Team.setMqueue_node (t : Team) (q : Nat) (es : List DWord) : (t.setMqueue q es).node = t.node := rfl
@[simp] theorem Team.setMqueue_born (t : Team) (q : Nat) (es : List DWord) : (t.setMqueue q es).born = t.born := rfl
@[simp] theorem Team.setMqueue_dleft (t : Team) (q : Nat) (es : List DWord) : (t.setMqueue q es).dleft = t.dleft := rfl
@[simp] theorem Team.setMqueue_threads (t : Team) (q : Nat) (es : List DWord) : (t.setMqueue q es).threads = t.threads := rfl
@[simp] theorem Team.setMqueue_frags (t : Team) (q : Nat) (es : List DWord) : (t.setMqueue q es).frags = t.frags := rfl
@[simp] theorem Team.setMqueue_u (t : Team) (q : Nat) (es : List DWord) : (t.setMqueue q es).u = t.u := rfl
@[simp] theorem Team.setMqueue_m (t : Team) (q : Nat) (es : List DWord) : (t.setMqueue q es).m = t.m := rfl
@[simp] theorem Team.setMqueue_s (t : Team) (q : Nat) (es : List DWord) : (t.setMqueue q es).s = t.s := rfl
@[simp] theorem Team.setMqueue_tmem (t : Team) (q : Nat) (es : List DWord) : (t.setMqueue q es).tmem = t.tmem := rfl
@[simp] theorem Team.setMqueue_fe (t : Team) (q : Nat) (es : List DWord) : (t.setMqueue q es).fe = t.fe := rfl
@[simp] theorem Team.setMqueue_q (t : Team) (q : Nat) (es : List DWord) : (t.setMqueue q es).q = t.q := rfl
@[simp] theorem Team.setMqueue_pushed (t : Team) (q : Nat) (es : List DWord) : (t.setMqueue q es).pushed = t.pushed := rfl
@[simp] theorem Team.setMqueue_popped (t : Team) (q : Nat) (es : List DWord) : (t.setMqueue q es).popped = t.popped := rfl
@[simp] theorem Team.setMqueue_drained (t : Team) (q : Nat) (es : List DWord) : (t.setMqueue q es).drained = t.drained := rfl
@[simp] theorem Team.setMqueue_filled (t : Team) (q : Nat) (es : List DWord) : (t.setMqueue q es).filled = t.filled := rfl
@[simp] theorem Team.setMqueue_rdv (t : Team) (q : Nat) (es : List DWord) : (t.setMqueue q es).rdv = t.rdv := rfl
@[simp] theorem Team.setMqueue_drills (t : Team) (q : Nat) (es : List DWord) : (t.setMqueue q es).drills = t.drills := rfl
@[simp] theorem Team.setMqueue_episodes (t : Team) (q : Nat) (es : List DWord) : (t.setMqueue q es).episodes = t.episodes := rfl
@[simp] theorem Team.setMqueue_syscs (t : Team) (q : Nat) (es : List DWord) : (t.setMqueue q es).syscs = t.syscs := rfl
@[simp] theorem Team.setMqueue_halt (t : Team) (q : Nat) (es : List DWord) : (t.setMqueue q es).halt = t.halt := rfl
@[simp] theorem Team.setMqueue_retired (t : Team) (q : Nat) (es : List DWord) : (t.setMqueue q es).retired = t.retired := rfl
/-! ### Memory (R6, R249) -/

/-- Every write of memory keeps the canonical form. -/
theorem State.writeBytes_inv (s : State) (k : Nat) (bs : List Byte) (h : Memory.wf s.mem = true) :
    Memory.wf (s.writeBytes k bs).mem = true := FMap.wf_setMany _ _ _ h

theorem State.writeN_inv (s : State) (k n x : Nat) (h : Memory.wf s.mem = true) : Memory.wf (s.writeN k n x).mem = true :=
  State.writeBytes_inv s k _ h

theorem State.clearRange_inv (s : State) (lo hi : Nat) (h : Memory.wf s.mem = true) : Memory.wf (s.clearRange lo hi).mem = true :=
  FMap.wf_eraseRange _ _ _ _ h

/-- Several writes into memory at once. -/
theorem Memory.wf_setMany (m : List Host.Cell) (ws : List (Nat × Byte)) (h : Memory.wf m = true) :
    Memory.wf (FMap.setMany memDefault m ws) = true := FMap.wf_setMany _ _ _ h

/-- The memory after reset has the form. -/
theorem State.reset_wf : Memory.wf State.reset.mem = true := rfl

/-- The keys of the writes of some bytes. -/
theorem cells_keys (k : Nat) (bs : List Byte) : ∀ e ∈ cells k bs, k ≤ e.1 ∧ e.1 < k + bs.length := by
  induction bs generalizing k with
  | nil => simp [cells]
  | cons b r ih =>
    intro e he
    simp only [cells, List.mem_cons] at he
    rcases he with rfl | he
    · simp
    · have := ih (k + 1) e he
      simp only [List.length_cons]
      omega

/-- A byte outside those written reads as before. -/
theorem State.byte_writeBytes_other (s : State) (k : Nat) (bs : List Byte) (a : Nat) (h : ¬ (k ≤ a ∧ a < k + bs.length)) :
    (s.writeBytes k bs).byte a = s.byte a :=
  FMap.get_setMany_other _ _ _ _ (fun e he ha => h (ha ▸ cells_keys k bs e he))

/-- A byte of those written reads back. -/
theorem get_cells (m : FMap Byte) (k : Nat) (bs : List Byte) (j : Nat) (h : j < bs.length) :
    FMap.get memDefault (FMap.setMany memDefault m (cells k bs)) (k + j) = bs[j] := by
  induction bs generalizing m k j with
  | nil => simp at h
  | cons b r ih =>
    simp only [cells, FMap.setMany]
    cases j with
    | zero =>
      rw [Nat.add_zero, FMap.get_setMany_other]
      · exact FMap.get_set_same _ _ _ _
      · intro e he ha
        have := cells_keys (k + 1) r e he
        omega
    | succ j =>
      have := ih (FMap.set memDefault m k b) (k + 1) j (by simpa using h)
      rw [show k + (j + 1) = k + 1 + j by omega, this]
      rfl

theorem State.byte_writeBytes (s : State) (k : Nat) (bs : List Byte) (j : Nat) (h : j < bs.length) :
    (s.writeBytes k bs).byte (k + j) = bs[j] := get_cells s.mem k bs j h

theorem Team.byte_writeBytes (t : Team) (k : Nat) (bs : List Byte) (j : Nat) (h : j < bs.length) :
    (t.writeBytes k bs).byte (k + j) = bs[j] := get_cells t.tmem k bs j h

theorem Team.byte_writeBytes_other (t : Team) (k : Nat) (bs : List Byte) (a : Nat) (h : ¬ (k ≤ a ∧ a < k + bs.length)) :
    (t.writeBytes k bs).byte a = t.byte a :=
  FMap.get_setMany_other _ _ _ _ (fun e he ha => h (ha ▸ cells_keys k bs e he))

/-! ### Pitches, dies, teams read back -/

theorem State.pitch_setPitch (s : State) (x y : Nat) (f : Pitch → Pitch) :
    (s.setPitch x f).pitch y = if y = x then f (s.pitch x) else s.pitch y := by
  unfold State.pitch State.setPitch FMap.modify
  simp only [FMap.get_set]

theorem State.die_setDie (s : State) (x y : Nat) (f : Die → Die) :
    (s.setDie x f).die y = if y = x then f (s.die x) else s.die y := by
  unfold State.die State.setDie FMap.modify
  simp only [FMap.get_set]

theorem State.frame_setFrame (s : State) (x y : Nat) (f : Frame → Frame) :
    (s.setFrame x f).frame y = if y = x then f (s.frame x) else s.frame y := by
  unfold State.frame State.setFrame FMap.modify
  simp only [FMap.get_set]

/-! ### Lines and the bytes a unit writes (R26) -/

/-- A line that the L2 takes changes the caches only. -/
theorem State.fillL2_eq (s : State) (d x line : Nat) (wr : Bool) : ∃ cs, s.fillL2 d x line wr = { s with caches := cs } := by
  dsimp only [State.fillL2]
  cases s.caches.find? (fun e => e.inSet (.l2 d) line && e.line == line) with
  | some e => exact ⟨_, rfl⟩
  | none =>
    dsimp only
    cases victimWay (s.fillWays d x) (s.caches.filter (fun e => e.inSet (.l2 d) line)) with
    | none => exact ⟨s.caches, rfl⟩
    | some w => exact ⟨_, rfl⟩

/-- The lines of a write that the home takes change the caches only. -/
theorem State.homeWrite_eq (s : State) (x k n : Nat) : ∃ cs, s.homeWrite x k n = { s with caches := cs } := by
  unfold State.homeWrite
  split
  · exact ⟨s.caches, rfl⟩
  · generalize List.range _ = l
    induction l generalizing s with
    | nil => exact ⟨s.caches, rfl⟩
    | cons j l ih =>
      obtain ⟨c1, h1⟩ := s.fillL2_eq (homeDie k) x (k / 128 + j) true
      obtain ⟨c2, h2⟩ := ih (s.fillL2 (homeDie k) x (k / 128 + j) true)
      exact ⟨c2, by rw [List.foldl_cons, h2, h1]⟩

/-- What a unit writes: the bytes, and lines of caches. -/
theorem State.put_eq (s : State) (x k : Nat) (bs : List Byte) : ∃ cs, s.put x k bs = { s.writeBytes k bs with caches := cs } := by
  obtain ⟨c, h⟩ := s.homeWrite_eq x k bs.length
  exact ⟨c, by rw [State.put, h]; rfl⟩

/-- The memory that a unit's write leaves. -/
@[simp] theorem State.put_mem (s : State) (x k : Nat) (bs : List Byte) : (s.put x k bs).mem = (s.writeBytes k bs).mem := by
  obtain ⟨c, h⟩ := s.put_eq x k bs
  rw [h]

/-- A unit's write over translated pieces changes memory and the caches only. -/
theorem State.scatterFor_eq (s : State) (x : Nat) (ps : List (DWord × Nat)) (ks : List Nat) (bs : List Byte) :
    ∃ m cs, s.scatterFor x ps ks bs = { s with mem := m, caches := cs } := by
  induction ps generalizing s ks bs with
  | nil => exact ⟨s.mem, s.caches, rfl⟩
  | cons p ps ih =>
    cases ks with
    | nil => exact ⟨s.mem, s.caches, rfl⟩
    | cons k ks =>
      obtain ⟨c, h⟩ := s.put_eq x k (bs.take p.2)
      obtain ⟨m, c2, h2⟩ := ih (s.put x k (bs.take p.2)) ks (bs.drop p.2)
      exact ⟨m, c2, by rw [State.scatterFor, h2, h]; rfl⟩

end Sys2Proof.Machine
end

