-- ==== Sys2Proof/Tests/Slice0.lean ====
section
/-! SUPPORT. Tests: words written out from the encoding tables, what the checks refuse, single steps with results taken from
the spec, and for every statement with hypotheses a state and operands that meet them. -/

namespace Sys2Proof.Tests

set_option Elab.async false

open Sys2Proof Sys2Proof.Machine

/-! ### What the tests are written in -/

/-- The words decode to the instruction, with none left over. -/
def decodesTo (m : Bool) (ws : List Word) (i : Instr) : Bool :=
  match decodeInstr m ws with
  | .ok (j, []) => decide (j = i)
  | _ => false

/-- A field form under `VER` 01, unguarded. -/
def ff (d a b c wc : Nat) (t : Ty) (mod : Nat) : FForm :=
  { interlock := true, d := BitVec.ofNat 7 d, a := BitVec.ofNat 7 a, b := BitVec.ofNat 7 b, look := 0, grd := { neg := false, pred := 7 },
    c := BitVec.ofNat 7 c, wc := BitVec.ofNat 3 wc, ty := t, mod := BitVec.ofNat 9 mod }

/-- An immediate form under `VER` 01, unguarded. -/
def fi (d : Nat) (t : Ty) (n : Nat) : IForm :=
  { interlock := true, d := BitVec.ofNat 7 d, look := 0, grd := { neg := false, pred := 7 }, ty := t, imm := BitVec.ofNat 32 n }

/-- The same forms under the guard `!p2`. -/
def gf (d a b c wc : Nat) (t : Ty) (mod : Nat) : FForm := { ff d a b c wc t mod with grd := { neg := true, pred := 2 } }
def gi (d : Nat) (t : Ty) (n : Nat) : IForm := { fi d t n with grd := { neg := true, pred := 2 } }

/-- A clause of one `nop`: where the parties of the test states stand. -/
def oneClause : Clause :=
  { header := { yld := false, wait := 0, clazz := 0, count := 1 }, instrs := [.nop (ff 0 0 0 0 7 .none 0)], words := 2 }

def here : Cursor := { pc := 0x100040, clause := some oneClause }

/-- A thread of home row 0 at a row position, with registers. -/
def lane (pos : Nat) (vs : List (Nat × Nat × Tag)) : Thread :=
  { row := 0, pos := pos, fid := 0, cur := here, v := vs.map (fun e => (e.1, { val := BitVec.ofNat 32 e.2.1, tag := e.2.2 })) }

/-- A team of one home row with these threads in one fragment, a U-stream and an M-stream, each at a clause; s registers of the row
and of the U-stream. -/
def teamOf (hs : List Thread) (ss : List (Nat × Nat)) : Team :=
  { placeTeam with
    threads := hs, frags := [{ fid := 0, cur := here }], s := ss.map (fun e => (e.1, BitVec.ofNat 64 e.2)),
    u := { alive := true, cur := here, s := ss.map (fun e => (e.1, BitVec.ofNat 64 e.2)) },
    m := some { alive := true, cur := here } }

/-- A state that holds the team, behind the address space of Machine/Place.lean: the first 512 MiB page maps to itself. -/
def stOf (t : Team) (p : Party) : State :=
  { teams := [t],
    mem := ((({} : State).writeN placeRoot 8 (placeTable + 1)).writeN placeTable 8 15).mem,
    pitches := [(0, { part := 0, enable := true, troot := BitVec.ofNat 64 placeRoot })],
    launches := [{ lid := 0, pitch := 0, rcd := {}, hdr := placeHdr, chit := { addr := 0 }, st := .ready, width := 16, next := 1 }],
    cur := some p }

/-- Row code, the U-stream, the M-stream come to issue, and what is asked of the context holds. -/
def goesRow (o : Opc) (fm : Form) (s : State) (ok : Ctx → Bool) : Bool :=
  match rowStart o fm s with
  | .go c => !c.act.isEmpty && ok c
  | _ => false
def goesU (o : Opc) (fm : Form) (s : State) (ok : UCtx → Bool) : Bool :=
  match uStart o fm s with
  | .go c => ok c
  | _ => false
def goesM (s : State) (ok : MCtx → Bool) : Bool :=
  match mStart s with
  | .go c => ok c
  | _ => false

/-- The instruction answers a next state, of which this holds. -/
def runs (i : Instr) (s : State) (ok : State → Bool) : Bool :=
  match exec i s with
  | .next t => ok t
  | _ => false

/-- A vector register, a predicate, an s register of row 0 of the thread at a position after the instruction, in row code. -/
def vAt (t : State) (pos n : Nat) : Option (Nat × Tag) :=
  ((t.team? 0).bind (fun u => u.thread? 0 pos)).map (fun h => ((h.reg n).val.toNat, (h.reg n).tag))
def pAt (t : State) (pos n : Nat) : Option Bool := ((t.team? 0).bind (fun u => u.thread? 0 pos)).map (fun h => h.pred n)
def sAt (t : State) (n : Nat) : Option Nat := (t.team? 0).map (fun u => (u.sreg 0 n).toNat)
/-- A register of the U-stream. -/
def uAt (t : State) (n : Nat) : Option Nat := (t.team? 0).map (fun u => (u.u.sreg n).toNat)
/-- The cause of the team's halt, 0 for none. -/
def causeOf (t : State) : Option Nat := (t.team? 0).map (fun u => u.halt.cause)

/-! ### Decoding -/

/-- R128 to R132: a word of each instruction, written out from Tables 7.2 to 7.4 and its code of Table 7.10. -/
theorem test_decode_control :
    ([decodesTo false [0x60000000, 0x0A01DE00] (.nop (gf 0 0 0 0 7 .none 0)),
      decodesTo false [0x60200005, 0x0A3C0000] (.skip (gi 0 .none 5)),
      decodesTo false [0x60403FFD, 0x0A3FFFFF] (.bra (gi 0 .none 4294967293)),
      decodesTo false [0x60601180, 0x0A01C410] (.brx (gf 0 35 0 0 7 .n32 16)),
      decodesTo false [0x60802345, 0x0A3C0004] (.call (gi 0 .none 74565)),
      decodesTo false [0x60A00000, 0x0A01DE00] (.ret (gf 0 0 0 0 7 .none 0)),
      decodesTo false [0x60C00000, 0x0A01DE00] (.join (gf 0 0 0 0 7 .none 0)),
      decodesTo false [0x60E00000, 0x0A01DE00] (.exit (gf 0 0 0 0 7 .none 0)),
      decodesTo false [0x61000000, 0x0A01DE00] (.yield (gf 0 0 0 0 7 .none 0)),
      decodesTo false [0x61200021, 0x0A3C0000] (.wait (gi 0 .none 33)),
      decodesTo false [0x61400005, 0x0A3C0000] (.brk (gi 0 .none 5)),
      decodesTo false [0x61600007, 0x0A3C0000] (.trap (gi 0 .none 7))]
     ++ [decodesTo false [0x6182C003, 0x0A3C0000] (.sr (gi 11 .none 3)),
      decodesTo false [0x61A2C012, 0x0A3C0000] (.srw (gi 11 .none 18)),
      decodesTo false [0x61C00000, 0x0A01DE00] (.fresume (gf 0 0 0 0 7 .none 0)),
      decodesTo false [0x61E4C009, 0x0A3C0000] (.sysc (gi 19 .none 9))]).all id = true := by decide +kernel

/-- R128 to R132: a word of each instruction, written out from Tables 7.2 to 7.4 and its code of Table 7.10. -/
theorem test_decode_uniform :
    ([decodesTo false [0x6204D580, 0x0A01DE00] (.smov (gf 19 43 0 0 7 .none 0)),
      decodesTo false [0x6224CDEF, 0x0A0A26AF] (.sli (gi 19 .n32 2309737967)),
      decodesTo false [0x6244FFF9, 0x0A0BFFFF] (.slk (gi 19 .n32 4294967289)),
      decodesTo false [0x6264D588, 0x0A00DC00] (.sldc (gf 19 43 8 0 3 .n64 0)),
      decodesTo false [0x6284D588, 0x0A01C408] (.sadd (gf 19 43 8 0 7 .n32 8)),
      decodesTo false [0x62A4D588, 0x0A01C408] (.ssub (gf 19 43 8 0 7 .n32 8)),
      decodesTo false [0x62C4D588, 0x0A01C408] (.smul (gf 19 43 8 0 7 .n32 8)),
      decodesTo false [0x62E4D588, 0x0A01C400] (.smulh (gf 19 43 8 0 7 .n32 0)),
      decodesTo false [0x6304D588, 0x0A01DE00] (.sand (gf 19 43 8 0 7 .none 0)),
      decodesTo false [0x6324D588, 0x0A01DE00] (.sor (gf 19 43 8 0 7 .none 0)),
      decodesTo false [0x6344D588, 0x0A01DE00] (.sxor (gf 19 43 8 0 7 .none 0)),
      decodesTo false [0x6364D580, 0x0A01DE00] (.snot (gf 19 43 0 0 7 .none 0))]
     ++ [decodesTo false [0x6384D588, 0x0A01C400] (.sshl (gf 19 43 8 0 7 .n32 0)),
      decodesTo false [0x63A4D588, 0x0A01C400] (.sshr (gf 19 43 8 0 7 .n32 0)),
      decodesTo false [0x63C4D588, 0x0A01C400] (.ssar (gf 19 43 8 0 7 .n32 0)),
      decodesTo false [0x63E4D588, 0x0A01C400] (.smin (gf 19 43 8 0 7 .n32 0)),
      decodesTo false [0x6404D588, 0x0A01C400] (.smax (gf 19 43 8 0 7 .n32 0)),
      decodesTo false [0x64215588, 0x0A01C460] (.scmp (gf 5 43 8 0 7 .n32 96)),
      decodesTo false [0x6444D588, 0x0A03DE00] (.ssel (gf 19 43 8 1 7 .none 0)),
      decodesTo false [0x6464D588, 0x0A01C400] (.sbfe (gf 19 43 8 0 7 .n32 0)),
      decodesTo false [0x6484D588, 0x0A65C400] (.sbfi (gf 19 43 8 50 7 .n32 0)),
      decodesTo false [0x64A4D580, 0x0A01C400] (.sclz (gf 19 43 0 0 7 .n32 0)),
      decodesTo false [0x64C4D580, 0x0A01C400] (.spopc (gf 19 43 0 0 7 .n32 0)),
      decodesTo false [0x64E4D588, 0x0A00DC00] (.sld (gf 19 43 8 0 3 .n64 0))]
     ++ [decodesTo false [0x65001588, 0x0A64DC00] (.sst (gf 0 43 8 50 3 .n64 0)),
      decodesTo false [0x6524D588, 0x0A00DC00] (.sldt (gf 19 43 8 0 3 .n64 0)),
      decodesTo false [0x65401588, 0x0A64DC00] (.sstt (gf 0 43 8 50 3 .n64 0))]).all id = true := by decide +kernel

/-- R128 to R132: a word of each instruction, written out from Tables 7.2 to 7.4 and its code of Table 7.10. -/
theorem test_decode_integer :
    ([decodesTo false [0x66031100, 0x0A01DC00] (.vmov (gf 12 34 0 0 7 .n64 0)),
      decodesTo false [0x66230001, 0x0A3A0000] (.vli (gi 12 .n64 2147483649)),
      decodesTo false [0x66430064, 0x0A380000] (.vlk (gi 12 .n64 100)),
      decodesTo false [0x66631580, 0x0A01DC00] (.vbcs (gf 12 43 0 0 7 .n64 0)),
      decodesTo false [0x6682D188, 0x0A01D718] (.vadd (gf 11 35 8 0 7 .s8x4 280)),
      decodesTo false [0x66A2D188, 0x0A01D718] (.vsub (gf 11 35 8 0 7 .s8x4 280)),
      decodesTo false [0x66C31108, 0x0A01DD18] (.vmul (gf 12 34 8 0 7 .n64 280)),
      decodesTo false [0x66E2D188, 0x0A01C510] (.vmulh (gf 11 35 8 0 7 .n32 272)),
      decodesTo false [0x67031108, 0x0AC5DD18] (.vmad (gf 12 34 8 98 7 .n64 280)),
      decodesTo false [0x6722D180, 0x0A01D618] (.vabs (gf 11 35 0 0 7 .s8x4 24)),
      decodesTo false [0x6742D180, 0x0A01D618] (.vneg (gf 11 35 0 0 7 .s8x4 24)),
      decodesTo false [0x6762D188, 0x0A01D710] (.vmin (gf 11 35 8 0 7 .s8x4 272))]
     ++ [decodesTo false [0x6782D188, 0x0A01D710] (.vmax (gf 11 35 8 0 7 .s8x4 272)),
      decodesTo false [0x67A2D188, 0x0A01DF00] (.vand (gf 11 35 8 0 7 .none 256)),
      decodesTo false [0x67C2D188, 0x0A01DF00] (.vor (gf 11 35 8 0 7 .none 256)),
      decodesTo false [0x67E2D188, 0x0A01DF00] (.vxor (gf 11 35 8 0 7 .none 256)),
      decodesTo false [0x6802D180, 0x0A01DE00] (.vnot (gf 11 35 0 0 7 .none 0)),
      decodesTo false [0x6822D188, 0x0A01DF00] (.vandn (gf 11 35 8 0 7 .none 256)),
      decodesTo false [0x6842D188, 0x0A01DF00] (.vshl (gf 11 35 8 0 7 .none 256)),
      decodesTo false [0x6862D188, 0x0A01DF00] (.vshr (gf 11 35 8 0 7 .none 256)),
      decodesTo false [0x6882D188, 0x0A01DF00] (.vsar (gf 11 35 8 0 7 .none 256)),
      decodesTo false [0x68A2D188, 0x0A01DF00] (.vrol (gf 11 35 8 0 7 .none 256)),
      decodesTo false [0x68C2D180, 0x0A01DE00] (.vclz (gf 11 35 0 0 7 .none 0)),
      decodesTo false [0x68E2D180, 0x0A01DE00] (.vctz (gf 11 35 0 0 7 .none 0))]
     ++ [decodesTo false [0x6902D180, 0x0A01DE00] (.vpopc (gf 11 35 0 0 7 .none 0)),
      decodesTo false [0x6922D180, 0x0A01DE00] (.vbrev (gf 11 35 0 0 7 .none 0)),
      decodesTo false [0x6942D188, 0x0A01C300] (.vbfe (gf 11 35 8 0 7 .s32 256)),
      decodesTo false [0x6962D188, 0x0AC3DF00] (.vbfi (gf 11 35 8 97 7 .none 256)),
      decodesTo false [0x69815108, 0x0A01DD70] (.vcmp (gf 5 34 8 0 7 .n64 368)),
      decodesTo false [0x69A31108, 0x0A03DD00] (.vsel (gf 12 34 8 1 7 .n64 256)),
      decodesTo false [0x69C2D188, 0x0AC3D718] (.vdot4 (gf 11 35 8 97 7 .s8x4 280)),
      decodesTo false [0x69E31100, 0x0A01DC00] (.vtag (gf 12 34 0 0 7 .n64 0)),
      decodesTo false [0x6A014186, 0x0A01DE03] (.pand (gf 5 3 6 0 7 .none 3)),
      decodesTo false [0x6A214186, 0x0A01DE03] (.por (gf 5 3 6 0 7 .none 3)),
      decodesTo false [0x6A414186, 0x0A01DE03] (.pxor (gf 5 3 6 0 7 .none 3)),
      decodesTo false [0x6A614180, 0x0A01DE00] (.pnot (gf 5 3 0 0 7 .none 0))]
     ++ [decodesTo false [0x6A815180, 0x0A01DE00] (.pset (gf 5 35 0 0 7 .none 0)),
      decodesTo false [0x6AA2C180, 0x0A01DE00] (.pget (gf 11 3 0 0 7 .none 0))]).all id = true := by decide +kernel

/-- R128 to R132: a word of each instruction, written out from Tables 7.2 to 7.4 and its code of Table 7.10. -/
theorem test_decode_float :
    ([decodesTo false [0x6C02D188, 0x0A01C71B] (.vfadd (gf 11 35 8 0 7 .f32 283)),
      decodesTo false [0x6C22D188, 0x0A01C71B] (.vfsub (gf 11 35 8 0 7 .f32 283)),
      decodesTo false [0x6C42D188, 0x0A01C71B] (.vfmul (gf 11 35 8 0 7 .f32 283)),
      decodesTo false [0x6C62D188, 0x0AC3C71B] (.vffma (gf 11 35 8 97 7 .f32 283)),
      decodesTo false [0x6C82D188, 0x0A01C710] (.vfmin (gf 11 35 8 0 7 .f32 272)),
      decodesTo false [0x6CA2D188, 0x0A01C710] (.vfmax (gf 11 35 8 0 7 .f32 272)),
      decodesTo false [0x6CC2D180, 0x0A01C610] (.vfabs (gf 11 35 0 0 7 .f32 16)),
      decodesTo false [0x6CE2D180, 0x0A01C610] (.vfneg (gf 11 35 0 0 7 .f32 16)),
      decodesTo false [0x6D015188, 0x0A01C7F0] (.vfcmp (gf 5 35 8 0 7 .f32 496)),
      decodesTo false [0x6D22D180, 0x0A01C610] (.vfclass (gf 11 35 0 0 7 .f32 16)),
      decodesTo false [0x6D42D180, 0x0A01C613] (.vfrnd (gf 11 35 0 0 7 .f32 19)),
      decodesTo false [0x6D62D180, 0x0A00C61B] (.vrcp (gf 11 35 0 0 3 .f32 27))]
     ++ [decodesTo false [0x6D82D180, 0x0A00C613] (.vrsq (gf 11 35 0 0 3 .f32 19)),
      decodesTo false [0x6DA2D180, 0x0A00C613] (.vsqrt (gf 11 35 0 0 3 .f32 19)),
      decodesTo false [0x6DC2D188, 0x0A00C71B] (.vdiv (gf 11 35 8 0 3 .f32 283)),
      decodesTo false [0x6DE2D180, 0x0A00C618] (.vexp2 (gf 11 35 0 0 3 .f32 24)),
      decodesTo false [0x6E02D180, 0x0A00C610] (.vlog2 (gf 11 35 0 0 3 .f32 16)),
      decodesTo false [0x6E22D180, 0x0A00C610] (.vsinpi (gf 11 35 0 0 3 .f32 16)),
      decodesTo false [0x6E42D180, 0x0A00C610] (.vcospi (gf 11 35 0 0 3 .f32 16)),
      decodesTo false [0x6E62D100, 0x0A01E6DB] (.vcvt (gf 11 34 0 0 7 .n16 219)),
      decodesTo false [0x6E82D188, 0x0AC3D57B] (.vpack (gf 11 35 8 97 7 .e2m1x8 379)),
      decodesTo false [0x6EA2D180, 0x0A01D4F0] (.vunpk (gf 11 35 0 0 7 .e2m1x8 240)),
      decodesTo false [0x6EC2D188, 0x0A01C7BB] (.vscl (gf 11 35 8 0 7 .f32 443)),
      decodesTo false [0x6EE2D188, 0x0AC3CB1B] (.vfdot2 (gf 11 35 8 97 7 .f16x2 283))]
     ++ [decodesTo false [0x6F02D188, 0x0AC3CB1B] (.vpfma (gf 11 35 8 97 7 .f16x2 283)),
      decodesTo false [0x6F22D188, 0x0A01CB1B] (.vpfadd (gf 11 35 8 0 7 .f16x2 283)),
      decodesTo false [0x6F42D188, 0x0A01CB1B] (.vpfmul (gf 11 35 8 0 7 .f16x2 283))]).all id = true := by decide +kernel

/-- R128 to R132: a word of each instruction, written out from Tables 7.2 to 7.4 and its code of Table 7.10. -/
theorem test_decode_cross_lane :
    ([decodesTo false [0x72031106, 0x0A64DDC3] (.vshfl (gf 12 34 6 50 3 .n64 451)),
      decodesTo false [0x72231106, 0x0A64DDC0] (.vbcast (gf 12 34 6 50 3 .n64 448)),
      decodesTo false [0x7242D180, 0x0A64C1D3] (.vred (gf 11 35 0 50 3 .b32 467)),
      decodesTo false [0x7262D180, 0x0A64C1F3] (.vscan (gf 11 35 0 50 3 .b32 499)),
      decodesTo false [0x72831100, 0x0A64DDC0] (.vmatch (gf 12 34 0 50 3 .n64 448)),
      decodesTo false [0x72A31106, 0x0A64DDC0] (.vcompact (gf 12 34 6 50 3 .n64 448)),
      decodesTo false [0x72C30180, 0x0A64DFC0] (.vballot (gf 12 3 0 50 3 .none 448)),
      decodesTo false [0x72E14180, 0x0A64DFC1] (.vvote (gf 5 3 0 50 3 .none 449)),
      decodesTo false [0x7302C180, 0x0A64DFC0] (.vrank (gf 11 3 0 50 3 .none 448)),
      decodesTo false [0x7322C180, 0x0A64DFC0] (.vfirst (gf 11 3 0 50 3 .none 448))]).all id = true := by decide +kernel

/-- R128 to R132: a word of each instruction, written out from Tables 7.2 to 7.4 and its code of Table 7.10. -/
theorem test_decode_memory :
    ([decodesTo false [0x7402D588, 0x0A00E757] (.ld (gf 11 43 8 0 3 .n16 343)),
      decodesTo false [0x74201586, 0x0A64E757] (.st (gf 0 43 6 50 3 .n16 343)),
      decodesTo false [0x7442D588, 0x0A00E755] (.ldt (gf 11 43 8 0 3 .n16 341)),
      decodesTo false [0x74601586, 0x0A64E755] (.stt (gf 0 43 6 50 3 .n16 341)),
      decodesTo false [0x7482D588, 0x0A00E755] (.ldp (gf 11 43 8 0 3 .n16 341)),
      decodesTo false [0x74A01586, 0x0A64E755] (.stp (gf 0 43 6 50 3 .n16 341)),
      decodesTo false [0x74C01588, 0x0A00DF5C] (.fe (gf 0 43 8 0 3 .none 348)),
      decodesTo false [0x74E2D586, 0x0AC2C17B] (.atom (gf 11 43 6 97 3 .b32 379)),
      decodesTo false [0x7502D586, 0x0AC2C179] (.atomt (gf 11 43 6 97 3 .b32 377)),
      decodesTo false [0x7522D586, 0x0AC2C1F9] (.atomp (gf 11 43 6 97 3 .b32 505)),
      decodesTo false [0x75431586, 0x0AC4DD1B] (.cas (gf 12 43 6 98 3 .n64 283)),
      decodesTo false [0x75631586, 0x0AC4DD19] (.cast (gf 12 43 6 98 3 .n64 281))]
     ++ [decodesTo false [0x75800000, 0x0A01DE1B] (.fence (gf 0 0 0 0 7 .none 27)),
      decodesTo false [0x75A01588, 0x0A00DF50] (.pref (gf 0 43 8 0 3 .none 336)),
      decodesTo false [0x75C01588, 0x0A00DF70] (.cinv (gf 0 43 8 0 3 .none 368)),
      decodesTo false [0x75E2D586, 0x0A64C776] (.fetch (gf 11 43 6 50 3 .f32 374))]).all id = true := by decide +kernel

/-- R128 to R132: a word of each instruction, written out from Tables 7.2 to 7.4 and its code of Table 7.10. -/
theorem test_decode_sync :
    ([decodesTo false [0x78000006, 0x0A01DE1F] (.rdvinit (gf 0 0 6 0 7 .none 31)),
      decodesTo false [0x7822C000, 0x0A01DE1F] (.rdvarr (gf 11 0 0 0 7 .none 31)),
      decodesTo false [0x78400006, 0x0A01DE1F] (.rdvwait (gf 0 0 6 0 7 .none 31)),
      decodesTo false [0x78614006, 0x0A01DE1F] (.rdvtest (gf 5 0 6 0 7 .none 31)),
      decodesTo false [0x78801180, 0x0A01DE07] (.qpush (gf 0 35 0 0 7 .none 7)),
      decodesTo false [0x78A2C000, 0x0A01DE07] (.qpop (gf 11 0 0 0 7 .none 7)),
      decodesTo false [0x78C2C000, 0x0A03DE07] (.qtry (gf 11 0 0 1 7 .none 7)),
      decodesTo false [0x78E2C000, 0x0A01DE07] (.qcnt (gf 11 0 0 0 7 .none 7))]).all id = true := by decide +kernel

/-- R128 to R132: a word of each instruction, written out from Tables 7.2 to 7.4 and its code of Table 7.10. -/
theorem test_decode_barrow :
    ([decodesTo false [0x79001580, 0x0A00DF00] (.bcp (gf 0 43 0 0 3 .none 256)),
      decodesTo false [0x79201580, 0x0A00DF00] (.btile (gf 0 43 0 0 3 .none 256)),
      decodesTo false [0x79401580, 0x0A00DF00] (.bgat (gf 0 43 0 0 3 .none 256)),
      decodesTo false [0x79601580, 0x0A00DF00] (.bsct (gf 0 43 0 0 3 .none 256)),
      decodesTo false [0x79801580, 0x0A00DF00] (.bred (gf 0 43 0 0 3 .none 256)),
      decodesTo false [0x79A01580, 0x0A00DF00] (.bfill (gf 0 43 0 0 3 .none 256)),
      decodesTo false [0x79C2D588, 0x0A01DF40] (.bwait (gf 11 43 8 0 7 .none 320)),
      decodesTo false [0x79E2D588, 0x0A00DF40] (.bpoll (gf 11 43 8 0 3 .none 320))]).all id = true := by decide +kernel

/-- R128 to R132: a word of each instruction, written out from Tables 7.2 to 7.4 and its code of Table 7.10. -/
theorem test_decode_ray :
    ([decodesTo false [0x7A02D406, 0x0A64DE10] (.rqbegin (gf 11 40 6 50 3 .none 16)),
      decodesTo false [0x7A22C000, 0x0A00DE00] (.rqstep (gf 11 0 0 0 3 .none 0)),
      decodesTo false [0x7A42C000, 0x0A00DE01] (.rqcommit (gf 11 0 0 0 3 .none 1)),
      decodesTo false [0x7A62C000, 0x0A00DE01] (.rqskip (gf 11 0 0 0 3 .none 1)),
      decodesTo false [0x7A82D186, 0x0A00DE11] (.rqresume (gf 11 35 6 0 3 .none 17)),
      decodesTo false [0x7AA01580, 0x0A00DF10] (.rqsave (gf 0 43 0 0 3 .none 272)),
      decodesTo false [0x7AC01580, 0x0A00DF10] (.rqload (gf 0 43 0 0 3 .none 272)),
      decodesTo false [0x7AE2C000, 0x0A00DE0F] (.rqget (gf 11 0 0 0 3 .none 15)),
      decodesTo false [0x7B02D406, 0x0A64DE10] (.rtvis (gf 11 40 6 50 3 .none 16)),
      decodesTo false [0x7B261588, 0x0A00DF70] (.rsvld (gf 24 43 8 0 3 .none 368)),
      decodesTo false [0x7B401588, 0x0A64DF78] (.rsvst (gf 0 43 8 50 3 .none 376)),
      decodesTo false [0x7B661406, 0x0A00DE10] (.rsvupd (gf 24 40 6 0 3 .none 16))]
     ++ [decodesTo false [0x7B861406, 0x0AC2DE10] (.rsvmrg (gf 24 40 6 97 3 .none 16)),
      decodesTo false [0x7BA60000, 0x0A00DE00] (.rsvnorm (gf 24 0 0 0 3 .none 0)),
      decodesTo false [0x7BC2D306, 0x0A00DE10] (.rng (gf 11 38 6 0 3 .none 16)),
      decodesTo false [0x7BE399BE, 0x0A64DE10] (.ltw (gf 14 51 62 50 3 .none 16))]).all id = true := by decide +kernel

/-- R128 to R132: a word of each instruction, written out from Tables 7.2 to 7.4 and its code of Table 7.10. -/
theorem test_decode_irregular :
    ([decodesTo false [0x7C001186, 0x0A00C7B9] (.drlld (gf 0 35 6 0 3 .f32 441)),
      decodesTo false [0x7C230000, 0x0A02DE01] (.drlnext (gf 12 0 0 1 3 .none 1)),
      decodesTo false [0x7C401180, 0x0A00DE09] (.drlred (gf 0 35 0 0 3 .none 9)),
      decodesTo false [0x7C62C000, 0x0A02DE01] (.drlend (gf 11 0 0 1 3 .none 1)),
      decodesTo false [0x7C801580, 0x0A00DF41] (.drlsave (gf 0 43 0 0 3 .none 321)),
      decodesTo false [0x7CA01580, 0x0A00DF41] (.drlrst (gf 0 43 0 0 3 .none 321)),
      decodesTo false [0x7CC01180, 0x0A01C410] (.graft (gf 0 35 0 0 7 .n32 16)),
      decodesTo false [0x7CE00000, 0x0A01DE00] (.gftflush (gf 0 0 0 0 7 .none 0)),
      decodesTo false [0x7D02D580, 0x0A00DF00] (.mrg (gf 11 43 0 0 3 .none 256)),
      decodesTo false [0x7D201580, 0x0A00DF00] (.glean (gf 0 43 0 0 3 .none 256)),
      decodesTo false [0x7D42D580, 0x0A00DF07] (.emit (gf 11 43 0 0 3 .none 263)),
      decodesTo false [0x7D62D588, 0x0A00DF40] (.launch (gf 11 43 8 0 3 .none 320))]
     ++ [decodesTo false [0x7D831180, 0x0A00DE00] (.recget (gf 12 35 0 0 3 .none 0))]).all id = true := by decide +kernel

/-- R128 to R132: a word of each instruction, written out from Tables 7.2 to 7.4 and its code of Table 7.12. -/
theorem test_decode_matrix :
    ([decodesTo true [0x60000000, 0x0701DE00] (.mnop (ff 0 0 0 0 7 .none 0)),
      decodesTo true [0x60234003, 0x07030000] (.mli (fi 13 .b32 3221225475)),
      decodesTo true [0x60434486, 0x0701DE07] (.madd (ff 13 9 6 0 7 .none 7)),
      decodesTo true [0x60635FFF, 0x073FFFFF] (.mbra (fi 13 .none 4294959103)),
      decodesTo true [0x60837FFE, 0x073FFFFF] (.mloop (fi 13 .none 4294967294)),
      decodesTo true [0x60A00000, 0x0701DE00] (.mend (ff 0 0 0 0 7 .none 0)),
      decodesTo true [0x60C28000, 0x0701DE07] (.mqpop (ff 10 0 0 0 7 .none 7)),
      decodesTo true [0x60E34000, 0x0701DE1F] (.marr (ff 13 0 0 0 7 .none 31)),
      decodesTo true [0x61000006, 0x0701DE1F] (.mwait (ff 0 0 6 0 7 .none 31)),
      decodesTo true [0x61200480, 0x0701DE00] (.mleave (ff 0 9 0 0 7 .none 0)),
      decodesTo true [0x61474486, 0x0701F2FF] (.mwb (ff 29 9 6 0 7 .e2m3 255)),
      decodesTo true [0x616A8486, 0x0701F2FC] (.mast (ff 42 9 6 0 7 .e2m3 252))]
     ++ [decodesTo true [0x618B8000, 0x0701DEF1] (.mzero (ff 46 0 0 0 7 .none 241)),
      decodesTo true [0x61A84000, 0x0701DEFD] (.mscl (ff 33 0 0 0 7 .none 253)),
      decodesTo true [0x61CB94A5, 0x0701DEF0] (.mma (ff 46 41 37 0 7 .none 240)),
      decodesTo true [0x61EB94A5, 0x0717DEF1] (.mmasp (ff 46 41 37 11 7 .none 241)),
      decodesTo true [0x620B94A5, 0x0729DEFF] (.mmak (ff 46 41 37 20 7 .none 255)),
      decodesTo true [0x622B94A5, 0x0701DEFF] (.mscout (ff 46 41 37 0 7 .none 255)),
      decodesTo true [0x62455686, 0x0717DEFF] (.msieve (ff 21 45 6 11 7 .none 255)),
      decodesTo true [0x62654486, 0x0701DE01] (.mmaskld (ff 21 9 6 0 7 .none 1)),
      decodesTo true [0x628B8486, 0x0701F2FF] (.mdrain (ff 46 9 6 0 7 .e2m3 255)),
      decodesTo true [0x62AB9680, 0x0701DEF1] (.mcvt (ff 46 45 0 0 7 .none 241)),
      decodesTo true [0x62C34000, 0x0701DE2F] (.msr (ff 13 0 0 0 7 .none 47)),
      decodesTo true [0x62E00000, 0x0701DE1B] (.mfence (ff 0 0 0 0 7 .none 27))]).all id = true := by decide +kernel
/-- R132, Table 7.6: the values that short words imply: C is vz for a vector third source and sz for a uniform one, TY is the first
type of the instruction's list; VER 00 with LOOK 4 in a long word. -/
theorem test_decode_short :
    ([decodesTo false [0x46808183] (.vadd (ff 2 3 3 0 7 .s32 0)),
      decodesTo false [0x4C608183] (.vffma (ff 2 3 3 120 7 .f32 0)),
      decodesTo false [0x45008183] (.sst (ff 2 3 3 64 7 .s64 0)),
      decodesTo false [0x46214FFF] (.vli (fi 5 .s32 4095)),
      decodesTo false [0x46217FFF] (.vli { fi 5 .s32 0 with imm := 0xFFFFFFFF }),
      decodesTo false [0x34008183, 0x470DC000] (.ld { ff 2 3 3 6 7 .b32 0 with interlock := false, look := 4 })]).all id
      = true := by decide +kernel

/-- R120, R128 to R136: every check of an instruction refuses a term that breaks it alone. -/
theorem test_ill_formed :
    ([((Instr.join (ff 0 0 0 0 7 .none 0)).illegal .ustream, Illegal.stream),
      ((Instr.vadd (ff 1 2 3 0 7 .f32 0)).illegal .row, .typeNot),
      ((Instr.vmulh (ff 1 2 3 0 7 .s32 8)).illegal .row, .modifier),
      ((Instr.vadd (ff 121 2 3 0 7 .s32 0)).illegal .row, .field),
      ((Instr.vadd (ff 1 2 3 0 7 .s64 0)).illegal .row, .field),
      ((Instr.sadd (ff 1 2 65 0 7 .s64 0)).illegal .row, .field),
      ((Instr.pand (ff 8 2 3 0 7 .none 0)).illegal .row, .field),
      ((Instr.vadd (ff 1 2 3 0 3 .s32 0)).illegal .row, .counter),
      ((Instr.ld (ff 1 2 3 0 6 .b32 0)).illegal .row, .counter),
      ((Instr.ld { ff 1 2 3 0 7 .b32 0 with look := 4 }).illegal .row, .look),
      ((Instr.st { ff 0 2 3 4 7 .b32 0 with look := 4, interlock := false }).illegal .row, .look),
      ((Instr.mnop { ff 0 0 0 0 7 .none 0 with interlock := false }).illegal .mstream, .version),
      ((Instr.vadd { ff 1 2 3 0 7 .s32 0 with grd := { neg := true, pred := 7 } }).illegal .row, .guard),
      ((Instr.mnop (gf 0 0 0 0 7 .none 0)).illegal .mstream, .guard),
      ((Instr.skip (fi 0 .none 8)).illegal .row, .immediate),
      ((Instr.wait (fi 0 .none 64)).illegal .row, .immediate)]).all (fun e => e.1 == some e.2) = true := by decide +kernel

/-- R121, R124, R125, R133: the checks of an instruction's place in its clause. -/
theorem test_ill_placed :
    ([((Instr.bra (fi 0 .none 1)).illegalAt .row 0 2 0, some Illegal.transferNotLast),
      ((Instr.bra (fi 0 .none 1)).illegalAt .row 1 2 1, none),
      ((Instr.sadd (ff 1 2 3 0 7 .s64 0)).illegalAt .row 1 2 0, some .clazz),
      ((Instr.sadd (ff 1 2 3 0 7 .s64 0)).illegalAt .row 6 2 0, none),
      ((Instr.skip (fi 0 .none 2)).illegalAt .row 1 3 1, some .skipReach),
      ((Instr.skip (fi 0 .none 1)).illegalAt .row 1 3 1, none)]).all (fun e => e.1 == e.2) = true
      ∧ (Instr.vadd (ff 64 2 3 0 7 .s32 0)).regsOk 64 = false ∧ (Instr.vadd (ff 63 2 3 0 7 .s32 0)).regsOk 64 = true := by
  decide +kernel

/-- R119, R120, R128, R140: what decoding a clause refuses, and the index it names: a reserved header bit, HVER, CLASS 7, COUNT 0, an
unassigned code, VER 10, a type code of Table 7.5 that is illegal, bit 23 of word 1, mixed VER, a distance that reaches before
the clause, and IL before DST. -/
theorem test_refused_clauses :
    ([(decodeClause .row 120 [0x00010001, 0x40000000], ClauseResult.il 15 .headerReserved),
      (decodeClause .row 120 [0x00002001, 0x40000000], .il 15 .headerVersion),
      (decodeClause .row 120 [0x00000071, 0x40000000], .il 15 .headerClass),
      (decodeClause .row 120 [0x00000000, 0x40000000], .il 15 .headerCount),
      (decodeClause .mstream 120 [0x00000011, 0x40000000], .il 15 .headerMStream),
      (decodeClause .row 120 [0x00000001, 0x45600000], .il 0 .opcode),
      (decodeClause .row 120 [0x00000002, 0x40000000, 0x80000000], .il 1 .version),
      (decodeClause .row 120 [0x00000001, 0x66808183, 0x0701F600], .il 0 .typeCode),
      (decodeClause .row 120 [0x00000001, 0x66200000, 0x07800000], .il 0 .immReserved),
      (decodeClause .row 120 [0x00000002, 0x40000000, 0x00000000], .il 1 .versionMix),
      (decodeClause .row 120 [0x00000002, 0x40000000, 0x46803D03], .dst 1),
      (decodeClause .row 120 [0x00000002, 0x46803D03, 0x45600000], .il 1 .opcode),
      (decodeClause .row 120 [0x00000002, 0x40000000], .more)]).all (fun e => e.1 == e.2) = true := by decide +kernel

/-- Decoding is right for the words of `DecodeWords` as the other words are: bit by bit from Table 7.2. -/
theorem test_fetched_clause :
    (match decodeClause .row 120 [0x00008092, 0x46808183, 0x46800F83] with
     | .ok c => c == ⟨⟨true, 1, 1, 2⟩, [.vadd (ff 2 3 3 0 7 .s32 0), .vadd (ff 0 31 3 0 7 .s32 0)], 3⟩
     | _ => false) = true := by decide +kernel

/-! ### Register arithmetic: one step each, results by hand from the tables of the spec -/

/-- Registers of the test threads: integers in v2 to v9, f32 values in v10 to v15, packed words in v16 to v21, a pair in v22, v23. -/
def regsA : List (Nat × Nat × Tag) :=
  [(2, 0x7FFFFFFF, .s32), (3, 1, .s32), (4, 5, .s32), (5, 0xFFFFFFF8, .s32), (6, 8, .n32), (7, 3, .n32), (8, 0xFFFFFFFF, .s64),
   (9, 0x7FFFFFFF, .pairHigh)]
  ++ [(10, 0x40000000, .f32), (11, 0x3FC00000, .f32), (12, 0xC0000000, .f32), (13, 0x40800000, .f32), (14, 0x7F800000, .f32),
   (15, 0x7FC00001, .f32)]
  ++ [(16, 0x01FF7F80, .s8x4), (17, 0x02020202, .s8x4), (18, 0x3F804000, .bf16x2), (19, 0x40003F80, .bf16x2),
   (20, 0x1FC, .sc10x3), (21, 0xC0, .e4m3x4), (22, 1, .s64), (23, 0, .pairHigh), (24, 0x204, .n32), (25, 32, .n32), (26, 0x80000000, .s32)]

/-- Row code: two threads with these registers, p1 true in the first. -/
def sA : State := stOf (teamOf [{ lane 0 regsA with p := 2 }, lane 1 regsA] [(1, 40), (2, 2), (3, 0xFFFFFFFFFFFFFFF8), (4, 64)]) (.frag 0 0)

/-- The instruction gives the register of the thread at position 0 this value and tag. -/
def gives (s : State) (i : Instr) (n v : Nat) (t : Tag) : Bool := runs i s (fun u => vAt u 0 n == some (v, t))

/-- R185, R190, Table 9.6. -/
theorem test_integer :
    ([gives sA (.vadd (ff 30 2 3 0 7 .s32 0)) 30 0x80000000 .s32, gives sA (.vadd (ff 30 2 3 0 7 .s32 8)) 30 0x7FFFFFFF .s32,
      gives sA (.vadd (ff 30 8 22 0 7 .s64 0)) 31 0x80000000 .pairHigh, gives sA (.vadd (ff 30 16 17 0 7 .s8x4 0)) 30 0x03018182 .s8x4,
      gives sA (.vadd (ff 30 16 17 0 7 .s8x4 8)) 30 0x03017F82 .s8x4, gives sA (.vadd (ff 30 3 1 0 7 .s32 0x100)) 30 41 .s32,
      gives sA (.vsub (ff 30 7 6 0 7 .n32 0)) 30 0xFFFFFFFB .n32, gives sA (.vsub (ff 30 7 6 0 7 .n32 8)) 30 0 .n32,
      gives sA (.vmul (ff 30 5 4 0 7 .s32 0)) 30 0xFFFFFFD8 .s32, gives sA (.vmulh (ff 30 5 4 0 7 .s32 0)) 30 0xFFFFFFFF .s32,
      gives sA (.vmad (ff 30 5 4 3 7 .s32 0)) 30 0xFFFFFFD9 .s32, gives sA (.vabs (ff 30 26 0 0 7 .s32 0)) 30 0x80000000 .s32]
     ++ [gives sA (.vabs (ff 30 26 0 0 7 .s32 8)) 30 0x7FFFFFFF .s32, gives sA (.vneg (ff 30 3 0 0 7 .s32 0)) 30 0xFFFFFFFF .s32,
      gives sA (.vmin (ff 30 5 4 0 7 .s32 0)) 30 0xFFFFFFF8 .s32, gives sA (.vmax (ff 30 5 4 0 7 .s32 0)) 30 5 .s32,
      gives sA (.vdot4 (ff 30 16 17 3 7 .s8x4 0)) 30 0xFFFFFFFF .s32]).all id = true := by decide +kernel

/-- R179, R180, R186. -/
theorem test_bitwise :
    ([gives sA (.vand (ff 30 2 5 0 7 .none 0)) 30 0x7FFFFFF8 .b32, gives sA (.vor (ff 30 6 7 0 7 .none 0)) 30 11 .b32,
      gives sA (.vxor (ff 30 2 5 0 7 .none 0)) 30 0x80000007 .b32, gives sA (.vnot (ff 30 6 0 0 7 .none 0)) 30 0xFFFFFFF7 .b32,
      gives sA (.vandn (ff 30 5 6 0 7 .none 0)) 30 0xFFFFFFF0 .b32, gives sA (.vshl (ff 30 6 7 0 7 .none 0)) 30 64 .b32,
      gives sA (.vshl (ff 30 6 25 0 7 .none 0)) 30 0 .b32, gives sA (.vshr (ff 30 5 7 0 7 .none 0)) 30 0x1FFFFFFF .b32,
      gives sA (.vsar (ff 30 5 7 0 7 .none 0)) 30 0xFFFFFFFF .b32, gives sA (.vsar (ff 30 5 25 0 7 .none 0)) 30 0xFFFFFFFF .b32,
      gives sA (.vrol (ff 30 5 7 0 7 .none 0)) 30 0xFFFFFFC7 .b32, gives sA (.vclz (ff 30 6 0 0 7 .none 0)) 30 28 .n32]
     ++ [gives sA (.vclz (ff 30 120 0 0 7 .none 0)) 30 32 .n32, gives sA (.vctz (ff 30 6 0 0 7 .none 0)) 30 3 .n32,
      gives sA (.vpopc (ff 30 5 0 0 7 .none 0)) 30 29 .n32, gives sA (.vbrev (ff 30 6 0 0 7 .none 0)) 30 0x10000000 .b32,
      gives sA (.vbfe (ff 30 5 24 0 7 .s32 0)) 30 0xFFFFFFFF .s32, gives sA (.vbfe (ff 30 5 24 0 7 .n32 0)) 30 3 .n32,
      gives sA (.vbfi (ff 30 6 7 24 7 .none 0)) 30 0x38 .b32]).all id = true := by decide +kernel

/-- R187 to R189, R191, R192, Table 9.2. -/
theorem test_moves :
    ([gives sA (.vmov (ff 30 11 0 0 7 .none 0)) 30 0x3FC00000 .f32, gives sA (.vmov (ff 30 8 0 0 7 .s64 0)) 31 0x7FFFFFFF .pairHigh,
      gives sA (.vli (fi 30 .s64 0xFFFFFFFE)) 31 0xFFFFFFFF .pairHigh, gives sA (.vli (fi 30 .n64 0xFFFFFFFE)) 31 0 .pairHigh,
      gives sA (.vbcs (ff 30 1 0 0 7 .f32 0)) 30 40 .f32, gives sA (.vsel (ff 30 2 11 1 7 .none 0)) 30 0x7FFFFFFF .s32,
      gives sA (.vsel (ff 30 2 11 0 7 .none 0)) 30 0x3FC00000 .f32, gives sA (.vsel (ff 30 2 1 0 7 .none 0x100)) 30 40 .b32,
      gives sA (.vtag (ff 30 2 0 0 7 .f32 0)) 30 0x7FFFFFFF .f32, gives sA (.pget (ff 30 1 0 0 7 .none 0)) 30 1 .n32]
     ++ [runs (.vcmp (ff 3 5 4 0 7 .s32 0x40)) sA (fun t => pAt t 0 3 == some true),
      runs (.vcmp (ff 3 5 4 0 7 .s32 0x80)) sA (fun t => pAt t 0 3 == some false),
      runs (.pset (ff 3 6 0 0 7 .none 0)) sA (fun t => pAt t 0 3 == some true),
      runs (.pand (ff 3 1 7 0 7 .none 0)) sA (fun t => pAt t 0 3 == some true && pAt t 1 3 == some false),
      runs (.por (ff 3 1 0 0 7 .none 2)) sA (fun t => pAt t 1 3 == some true), runs (.pxor (ff 3 1 7 0 7 .none 0)) sA (fun t => pAt t 0 3 == some false),
      runs (.pnot (ff 3 1 0 0 7 .none 0)) sA (fun t => pAt t 1 3 == some true)]).all id = true := by decide +kernel

/-- R193 to R196, Tables 9.9, 9.10 and 5.6. -/
theorem test_float :
    ([gives sA (.vfadd (ff 30 10 11 0 7 .f32 0)) 30 0x40600000 .f32, gives sA (.vfsub (ff 30 10 10 0 7 .f32 4)) 30 0x80000000 .f32,
      gives sA (.vfmul (ff 30 10 12 0 7 .f32 0)) 30 0xC0800000 .f32, gives sA (.vffma (ff 30 10 11 12 7 .f32 0)) 30 0x3F800000 .f32,
      gives sA (.vfadd (ff 30 14 14 0 7 .f32 8)) 30 0x7F7FFFFF .f32, gives sA (.vfmin (ff 30 10 15 0 7 .f32 0)) 30 0x40000000 .f32,
      gives sA (.vfmax (ff 30 10 12 0 7 .f32 0)) 30 0x40000000 .f32, gives sA (.vfabs (ff 30 12 0 0 7 .f32 0)) 30 0x40000000 .f32,
      gives sA (.vfneg (ff 30 15 0 0 7 .f32 0)) 30 0x7FC00000 .f32, gives sA (.vfclass (ff 30 12 0 0 7 .f32 0)) 30 2 .n32,
      gives sA (.vfrnd (ff 30 11 0 0 7 .f32 0)) 30 0x40000000 .f32, gives sA (.vfrnd (ff 30 11 0 0 7 .f32 2)) 30 0x3F800000 .f32]
     ++ [gives sA (.vrcp (ff 30 13 0 0 7 .f32 0)) 30 0x3E800000 .f32, gives sA (.vrsq (ff 30 13 0 0 7 .f32 0)) 30 0x3F000000 .f32,
      gives sA (.vsqrt (ff 30 13 0 0 7 .f32 0)) 30 0x40000000 .f32, gives sA (.vsqrt (ff 30 12 0 0 7 .f32 0)) 30 0x7FC00000 .f32,
      gives sA (.vdiv (ff 30 12 13 0 7 .f32 0)) 30 0xBF000000 .f32, gives sA (.vexp2 (ff 30 10 0 0 7 .f32 0)) 30 0x40800000 .f32,
      gives sA (.vlog2 (ff 30 13 0 0 7 .f32 0)) 30 0x40000000 .f32, gives sA (.vsinpi (ff 30 11 0 0 7 .f32 0)) 30 0xBF800000 .f32,
      gives sA (.vcospi (ff 30 11 0 0 7 .f32 0)) 30 0 .f32,
      runs (.vfcmp (ff 3 10 15 0 7 .f32 0xE0)) sA (fun t => pAt t 0 3 == some true),
      runs (.vfcmp (ff 3 10 11 0 7 .f32 0x80)) sA (fun t => pAt t 0 3 == some true)]).all id = true := by decide +kernel

/-- R197 to R201, Tables 5.7 and 9.11. -/
theorem test_convert :
    ([gives sA (.vcvt (ff 30 11 0 0 7 .s32 0x30)) 30 2 .s32, gives sA (.vcvt (ff 30 5 0 0 7 .f32 0x10)) 30 0xC1000000 .f32,
      gives sA (.vcvt (ff 30 2 0 0 7 .s8 0x18)) 30 127 .s32, gives sA (.vcvt (ff 30 5 0 0 7 .s64 0x10)) 31 0xFFFFFFFF .pairHigh,
      gives sA (.vpack (ff 30 10 11 120 7 .bf16x2 0)) 30 0x3FC04000 .bf16x2, gives sA (.vunpk (ff 30 18 0 0 7 .bf16x2 0x20)) 30 0x3F800000 .f32,
      gives sA (.vunpk (ff 30 16 0 0 7 .s8x4 0)) 30 0xFFFFFF80 .s32, gives sA (.vscl (ff 30 11 20 0 7 .f32 0)) 30 0x3FC00000 .f32,
      gives sA (.vfdot2 (ff 30 18 19 11 7 .bf16x2 0)) 30 0x40B00000 .f32, gives sA (.vpfma (ff 30 18 19 19 7 .bf16x2 0)) 30 0x40804040 .bf16x2,
      gives sA (.vpfadd (ff 30 18 19 0 7 .bf16x2 0)) 30 0x40404040 .bf16x2,
      gives sA (.vpfmul (ff 30 18 19 0 7 .bf16x2 0)) 30 0x40004000 .bf16x2]).all id = true := by decide +kernel

/-- R112: a source whose tag does not fit makes the instruction take FMT (code 2), and no thread writes. -/
theorem test_tag_trap :
    runs (.vadd (ff 30 2 10 0 7 .s32 0)) sA (fun t => causeOf t == some 2 && vAt t 0 30 == some (0, .b32)) = true := by decide +kernel

/-! ### Witnesses: for each clause of a statement, a state and operands that meet its hypotheses -/

/-- Every source of every active thread fits. -/
def allFit (s : State) (o : Opc) (f : FForm) (n : Nat) (t : Ty) : Bool := goesRow o (.f f) s (fun c => c.act.all (fits f n t c))

theorem witness_IntegerCompletes :
    (([(Opc.vadd, 2), (.vsub, 2), (.vmul, 2), (.vmulh, 2), (.vmin, 2), (.vmax, 2), (.vabs, 1), (.vneg, 1), (.vmad, 3)].all (fun e =>
        allFit sA e.1 (ff 30 2 3 4 7 .s32 0) e.2 .s32))
     && allFit sA .vadd (ff 119 16 17 0 7 .s8x4 8) 2 .s8x4 && allFit sA .vmad (ff 0 8 22 120 7 .s64 0) 3 .s64
     && goesRow .vdot4 (.f (ff 30 16 17 3 7 .s8x4 0)) sA (fun c => c.act.all (fun h =>
        tagOk .s8x4 false (c.vA (ff 30 16 17 3 7 .s8x4 0) h) && tagOk .s8x4 false (c.vB (ff 30 16 17 3 7 .s8x4 0) h)
          && tagOk .s32 false (c.vC (ff 30 16 17 3 7 .s8x4 0) h)))) = true := by decide +kernel

theorem witness_BitwiseCompletes :
    ([Opc.vand, .vor, .vxor, .vnot, .vandn, .vshl, .vshr, .vsar, .vrol, .vclz, .vctz, .vpopc, .vbrev, .vbfi, .vbfe].all (fun o =>
      goesRow o (.f (ff 30 5 25 24 7 .none 0)) sA (fun _ => true))) = true := by decide +kernel

theorem witness_MoveCompletes :
    (([Opc.vmov, .vbcs, .vsel, .vtag, .pset, .pget].all (fun o => goesRow o (.f (ff 30 2 3 1 7 .none 0)) sA (fun _ => true)))
     && goesRow .vli (.i (fi 30 .s64 0xFFFFFFFF)) sA (fun _ => true) && allFit sA .vcmp (ff 3 5 4 0 7 .s32 0xA0) 2 .s32) = true := by
  decide +kernel

/-- The U-stream's turn in the same team. -/
def uA : State := { sA with cur := some (.ustream 0) }

theorem witness_PredicateCompletes :
    ([Opc.pand, .por, .pxor, .pnot].all (fun o => goesRow o (.f (ff 6 1 7 0 7 .none 3)) sA (fun _ => true)
      && goesU o (.f (ff 6 1 7 0 7 .none 3)) uA (fun _ => true))) = true := by decide +kernel

theorem witness_FloatCompletes :
    ([(Opc.vfadd, 2), (.vfsub, 2), (.vfmul, 2), (.vffma, 3), (.vfmin, 2), (.vfmax, 2), (.vfabs, 1), (.vfneg, 1), (.vfcmp, 2), (.vfclass, 1),
      (.vfrnd, 1), (.vrcp, 1), (.vrsq, 1), (.vsqrt, 1), (.vdiv, 2), (.vexp2, 1), (.vlog2, 1), (.vsinpi, 1), (.vcospi, 1)].all (fun e =>
      allFit sA e.1 (ff 3 14 15 120 7 .f32 4) e.2 .f32)) = true := by decide +kernel

theorem witness_ConvertCompletes :
    (allFit sA .vpfma (ff 30 18 19 120 7 .bf16x2 0) 3 .bf16x2 && allFit sA .vpfadd (ff 30 18 19 0 7 .bf16x2 0) 2 .bf16x2
     && allFit sA .vpfmul (ff 30 18 19 0 7 .bf16x2 0) 2 .bf16x2
     && goesRow .vfdot2 (.f (ff 30 18 19 10 7 .bf16x2 0)) sA (fun c => c.act.all (fun h =>
        tagOk .bf16x2 false (c.vA (ff 30 18 19 10 7 .bf16x2 0) h) && tagOk .bf16x2 false (c.vB (ff 30 18 19 10 7 .bf16x2 0) h)
          && tagOk .f32 false (c.vC (ff 30 18 19 10 7 .bf16x2 0) h)))
     && goesRow .vcvt (.f (ff 30 11 0 0 7 .s32 0x30)) sA (fun c => c.act.all (fun h =>
        tagOk ((tyOf ((ff 30 11 0 0 7 .s32 0x30).m 4 5)).getD .f32) false (c.vA (ff 30 11 0 0 7 .s32 0x30) h)))
     && goesRow .vscl (.f (ff 30 11 20 0 7 .f32 0x40)) sA (fun c => c.act.all (fun h =>
        tagOk .f32 false (c.vA (ff 30 11 20 0 7 .f32 0x40) h) && tagOk .sc10 false (c.vB (ff 30 11 20 0 7 .f32 0x40) h)))
     && allFit sA .vunpk (ff 30 16 0 0 7 .s8x4 0x60) 1 .s8x4
     && goesRow .vpack (.f (ff 30 10 11 120 7 .bf16x2 0)) sA (fun c => c.act.all (fun h =>
        tagOk .f32 false (c.vA (ff 30 10 11 120 7 .bf16x2 0) h) && tagOk .f32 false (c.vB (ff 30 10 11 120 7 .bf16x2 0) h)
          && tagOk .bf16x2 false (c.vC (ff 30 10 11 120 7 .bf16x2 0) h)))) = true := by decide +kernel

theorem witness_CrossLaneCompletes :
    (([Opc.vshfl, .vbcast, .vmatch, .vcompact, .vballot, .vvote, .vrank, .vfirst].all (fun o =>
        goesRow o (.f (ff 30 2 7 0 7 .none 0)) sA (fun _ => true)))
     && goesRow .vmatch (.f (ff 30 120 0 0 7 .s64 0)) sA (fun c => c.act.all (fun h => tagOk .s64 false (c.vA (ff 30 120 0 0 7 .s64 0) h)))
     && [Opc.vred, .vscan].all (fun o => goesRow o (.f (ff 30 3 0 0 7 .s32 0)) sA (fun c => c.act.all (fun h =>
        tagOk .s32 false (c.vA (ff 30 3 0 0 7 .s32 0) h))))) = true := by decide +kernel

theorem witness_UniformCompletes :
    ([Opc.smov, .sadd, .ssub, .smul, .smulh, .smin, .smax, .sand, .sor, .sxor, .snot, .sshl, .sshr, .ssar, .sclz, .spopc, .sbfe, .sbfi,
      .scmp, .ssel].all (fun o => goesRow o (.f (ff 5 1 2 3 7 .s64 0)) sA (fun c => !rowDet c) && goesU o (.f (ff 5 1 2 3 7 .s64 0)) uA (fun _ => true))
     && goesRow .sli (.i (fi 5 .n32 7)) sA (fun c => !rowDet c) && goesU .sli (.i (fi 5 .n32 7)) uA (fun _ => true)) = true := by
  decide +kernel

/-- R178 to R181, R166: the uniform arithmetic in row code and in the U-stream. -/
theorem test_uniform :
    ([(Instr.smov (ff 5 1 0 0 7 .none 0), 40), (.sli (fi 5 .s64 0xFFFFFFFE), 0xFFFFFFFFFFFFFFFE), (.sli (fi 5 .n64 0xFFFFFFFE), 0xFFFFFFFE),
      (.sadd (ff 5 1 3 0 7 .s64 0), 32), (.ssub (ff 5 2 1 0 7 .n64 8), 0), (.smul (ff 5 3 1 0 7 .s64 0), 0xFFFFFFFFFFFFFEC0),
      (.smulh (ff 5 3 1 0 7 .s64 0), 0xFFFFFFFFFFFFFFFF), (.smulh (ff 5 3 1 0 7 .n64 0), 39), (.sand (ff 5 1 3 0 7 .none 0), 40),
      (.sor (ff 5 1 2 0 7 .none 0), 42), (.sxor (ff 5 1 3 0 7 .none 0), 0xFFFFFFFFFFFFFFD0)]
     ++ [(Instr.snot (ff 5 64 0 0 7 .none 0), 0xFFFFFFFFFFFFFFFF), (.sshl (ff 5 1 2 0 7 .s64 0), 160), (.sshl (ff 5 1 4 0 7 .s64 0), 0),
      (.sshr (ff 5 3 2 0 7 .n32 0), 0x3FFFFFFE), (.ssar (ff 5 3 4 0 7 .s64 0), 0xFFFFFFFFFFFFFFFF), (.smin (ff 5 3 1 0 7 .s64 0), 0xFFFFFFFFFFFFFFF8),
      (.smax (ff 5 3 1 0 7 .n64 0), 0xFFFFFFFFFFFFFFF8), (.sclz (ff 5 1 0 0 7 .n64 0), 58), (.spopc (ff 5 1 0 0 7 .n32 0), 2),
      (.ssel (ff 5 1 2 0 7 .none 0), 2), (.ssel (ff 5 1 2 7 7 .none 0), 40)]).all (fun e =>
        runs e.1 sA (fun t => sAt t 5 == some e.2) && runs e.1 uA (fun t => uAt t 5 == some e.2)) = true
    ∧ (runs (.scmp (ff 3 3 1 0 7 .s64 0x40)) sA (fun t => pAt t 0 3 == some true && pAt t 1 3 == some true)
      && runs (.scmp (ff 3 3 1 0 7 .n64 0x40)) sA (fun t => pAt t 0 3 == some false)) = true := by decide +kernel

/-- R65, R66, R228, Table 11.16, with two threads in the row of width 16. -/
def sX : State := stOf (teamOf [{ lane 0 [(2, 5, .s32), (3, 1, .n32)] with p := 2 }, lane 1 [(2, 7, .s32), (3, 0, .n32)]] []) (.frag 0 0)

theorem test_cross_lane :
    ([runs (.vshfl (ff 30 2 3 0 7 .none 0)) sX (fun t => vAt t 0 30 == some (7, .s32) && vAt t 1 30 == some (5, .s32)),
      runs (.vbcast (ff 30 2 3 0 7 .none 0)) sX (fun t => vAt t 0 30 == some (7, .s32) && vAt t 1 30 == some (7, .s32)),
      runs (.vred (ff 30 2 0 0 7 .s32 0)) sX (fun t => vAt t 0 30 == some (12, .s32) && vAt t 1 30 == some (12, .s32)),
      runs (.vscan (ff 30 2 0 0 7 .s32 0)) sX (fun t => vAt t 0 30 == some (5, .s32) && vAt t 1 30 == some (12, .s32)),
      runs (.vmatch (ff 30 2 0 0 7 .none 0)) sX (fun t => vAt t 1 30 == some (2, .n64)),
      runs (.vballot (ff 30 1 0 0 7 .none 0)) sX (fun t => vAt t 1 30 == some (1, .n64)),
      runs (.vvote (ff 3 1 0 0 7 .none 1)) sX (fun t => pAt t 1 3 == some true),
      runs (.vrank (ff 30 1 0 0 7 .none 0)) sX (fun t => vAt t 1 30 == some (1, .n32)),
      runs (.vfirst (ff 30 1 0 0 7 .none 0)) sX (fun t => vAt t 1 30 == some (0, .n32)),
      runs (.vcompact (ff 30 2 1 0 7 .none 0)) sX (fun t => vAt t 0 30 == some (5, .s32))]).all id = true := by decide +kernel

/-- Row code whose threads have a return address; row code and a U-stream outside `.det`. -/
def sC : State := stOf (teamOf [{ lane 0 [(2, 0x80, .n32)] with rets := [0x100080] }, { lane 1 [(2, 0x80, .n32)] with rets := [0x100084] }] [(1, 0x80)]) (.frag 0 0)
def uC : State :=
  match sC.teams with
  | t :: _ => { sC with teams := [{ t with u := { t.u with rets := [0x100080] } }], cur := some (.ustream 0) }
  | [] => sC

theorem witness_ControlCompletes :
    (([Opc.nop, .yield, .join, .fresume].all (fun o => goesRow o (.f (ff 0 0 0 0 7 .none 0)) sC (fun _ => true)))
     && ([Opc.nop, .yield, .exit].all (fun o => goesU o (.f (ff 0 0 0 0 7 .none 0)) uC (fun _ => true)))
     && ([Opc.wait, .skip, .bra, .call].all (fun o => goesRow o (.i (fi 0 .none 7)) sC (fun c => c.act.all (fun h =>
          !countersBusy h.wcnt 7 && decide (h.rets.length < 16)))
        && goesU o (.i (fi 0 .none 7)) uC (fun c => !countersBusy c.u.wcnt 7 && decide (c.u.rets.length < 16))))
     && goesRow .ret (.f (ff 0 0 0 0 7 .none 0)) sC (fun c => c.act.all (fun h =>
          match h.rets with
          | a :: _ => decide (a.toNat % 4 = 0)
          | [] => false))
     && goesU .ret (.f (ff 0 0 0 0 7 .none 0)) uC (fun c =>
          match c.u.rets with
          | a :: _ => decide (a.toNat % 4 = 0)
          | [] => false)
     && goesRow .brx (.f (ff 0 2 0 0 7 .n32 0)) sC (fun c => c.act.all (fun h => tagOk .n32 false (c.vA (ff 0 2 0 0 7 .n32 0) h)
          && decide ((c.vA (ff 0 2 0 0 7 .n32 0) h).w.toNat % 4 = 0) && decide ((c.vA (ff 0 2 0 0 7 .n32 0) h).w.toNat < c.t.hdr.codelen)))
     && goesU .brx (.f (ff 0 1 0 0 7 .n32 0)) uC (fun c => decide ((c.u.sreg 1).toNat % 4 = 0) && decide ((c.u.sreg 1).toNat < c.t.hdr.codelen))
     && goesRow .exit (.f (ff 0 0 0 0 7 .none 0)) sC (fun c => c.act.length == c.mem.length)
     && goesRow .exit (.f (gf 0 0 0 0 7 .none 0)) (stOf (teamOf [{ lane 0 [] with p := 4 }, lane 1 []] []) (.frag 0 0))
          (fun c => c.act.length != c.mem.length)) = true := by decide +kernel

/-- R168 to R171: where transfers send their threads: a branch to PC + 4 × offset, a return to the address it pops. -/
theorem test_control :
    ([runs (.bra (fi 0 .none 0xFFFFFFFE)) sC (fun t => ((t.team? 0).bind (·.frag? 0)).map (·.cur.pc) == some 0x100038),
      runs (.call (fi 0 .none 4)) sC (fun t => ((t.team? 0).bind (·.frag? 0)).map (·.cur.pc) == some 0x100050
        && ((t.team? 0).bind (·.thread? 0 0)).map (·.rets) == some [0x100048, 0x100080]),
      runs (.ret (ff 0 0 0 0 7 .none 0)) uC (fun t => (t.team? 0).map (·.u.cur.pc) == some 0x100080),
      runs (.brx (ff 0 1 0 0 7 .n32 0)) uC (fun t => (t.team? 0).map (·.u.cur.pc) == some 0x100080),
      runs (.exit (ff 0 0 0 0 7 .none 0)) uC (fun t => (t.team? 0).map (·.u.alive) == some false),
      runs (.brk (fi 0 .none 5)) sC (fun t => causeOf t == some 6 && (t.team? 0).map (·.halt.imm) == some 5),
      runs (.trap (fi 0 .none 7)) uC (fun t => causeOf t == some 7)]).all id = true := by decide +kernel

/-- A service request answered: in row 0 of fragment 0, and in the U-stream. -/
def sysTeam : Team := { teamOf [lane 0 []] [] with
  syscs := [{ row := 0, fid := 0, tag := 1, d := 1, reply := some 9 }, { row := 0xFF, fid := 0xFFFF, tag := 2, d := 1, reply := some 8 }] }

theorem witness_SystemCompletes :
    (([Opc.brk, .trap].all (fun o => goesRow o (.i (fi 0 .none 16383)) sC (fun c => !c.act.isEmpty) && goesU o (.i (fi 0 .none 16383)) uC (fun _ => true)))
     && goesRow .sr (.i (fi 30 .none 13)) sC (fun c => !(c.t.hdr.det && detStatus 13)) && goesU .sr (.i (fi 5 .none 21)) uC (fun c => !(c.t.hdr.det && detStatus 21))
     && [18, 19].all (fun n => goesRow .srw (.i (fi 2 .none n)) sC (fun _ => true) && goesU .srw (.i (fi 1 .none n)) uC (fun _ => true))
     && goesRow .fresume (.f (ff 0 0 0 0 7 .none 0)) (stOf (teamOf [{ lane 0 [] with epi := true }] []) (.frag 0 0)) (fun c => c.act.all (·.epi))
     && goesRow .sysc (.i (fi 1 .none 9)) (stOf sysTeam (.frag 0 0)) (fun c => !c.act.isEmpty && !c.t.hdr.det
          && (rowsOf c.act).all (fun r => (c.t.sysc? r c.fid).any (fun q => q.reply.isSome)))
     && goesU .sysc (.i (fi 1 .none 9)) (stOf sysTeam (.ustream 0)) (fun c => !c.t.hdr.det && (c.t.sysc? 0xFF 0xFFFF).any (fun q => q.reply.isSome))) = true := by
  decide +kernel

/-! ### Memory -/

/-- A frame of partition 0, global memory with a datum, s1 at its address, s2 a team offset; v2 carries data, v3 an f32. -/
def memTeam : Team := { teamOf [lane 0 [(2, 0x11223344, .n32), (3, 0x3F800000, .f32), (4, 5, .n32)]] [(1, 0x200000), (2, 0x100), (3, 8), (4, 0x55)] with
  tmem := [(0x100, 0x21), (0x101, 0x43)] }

def withMem (s : State) : State := ({ s with frames := [(0, { owner := 0 })] }).writeN 0x200000 8 0x8877665544332281

def sM : State := withMem (stOf memTeam (.frag 0 0))
def uM : State := { sM with cur := some (.ustream 0) }

/-- A read of `n` bytes reaches its place; an access does. -/
def canRead (s : State) (t : Team) (va : DWord) (n : Nat) : Bool :=
  match s.readVA t.pitch t.die va n with
  | .ok _ _ _ => true
  | _ => false
def canReach (s : State) (t : Team) (acc : Access) (reads : Bool) (va : DWord) (n : Nat) : Bool :=
  match s.reach t.pitch t.die acc reads [(va, n)] with
  | .ok [_] _ => true
  | _ => false

theorem witness_UniformMemoryCompletes :
    ([0, 252].all (fun k => goesRow .slk (.i (fi 5 .s32 (k / 4))) sM (fun c => !rowDet c && decide (k + 4 ≤ c.t.hdr.datalen)
        && canRead c.s c.t (c.t.codeVA + 0x1000 + BitVec.ofNat 64 k) 4)
      && goesU .slk (.i (fi 5 .s32 (k / 4))) uM (fun c => canRead c.s c.t (c.t.codeVA + 0x1000 + BitVec.ofNat 64 k) 4)
      && goesRow .vlk (.i (fi 5 .b32 (k / 4))) sM (fun c => canRead c.s c.t (c.t.codeVA + 0x1000 + BitVec.ofNat 64 k) 4))
     && goesRow .sldc (.f (ff 5 3 64 0 7 .s64 0)) sM (fun c => !rowDet c && decide (8 + 8 ≤ c.t.hdr.datalen) && canRead c.s c.t (c.t.codeVA + 0x1008) 8)
     && goesU .sldc (.f (ff 5 3 64 0 7 .s64 0)) uM (fun c => canRead c.s c.t (c.t.codeVA + 0x1008) 8)
     && goesRow .sld (.f (ff 5 1 64 0 7 .s64 0)) sM (fun c => !rowDet c && canRead c.s c.t (c.t.sreg 0 1) 8)
     && goesU .sld (.f (ff 5 1 64 0 7 .s64 0)) uM (fun c => canRead c.s c.t (c.u.sreg 1) 8)
     && goesRow .sst (.f (ff 0 1 4 64 7 .s64 0)) sM (fun c => canReach c.s c.t .write false (c.t.sreg 0 1) 8)
     && goesU .sst (.f (ff 0 1 4 64 7 .s64 0)) uM (fun c => canReach c.s c.t .write false (c.u.sreg 1) 8)
     && goesRow .sldt (.f (ff 5 2 64 0 7 .s64 0)) sM (fun c => !rowDet c && (uniTeamRead c.s c.t .s64 (c.t.sreg 0 2)).isOk)
     && goesU .sldt (.f (ff 5 2 64 0 7 .s64 0)) uM (fun c => (uniTeamRead c.s c.t .s64 (c.u.sreg 2)).isOk)
     && goesRow .sstt (.f (ff 0 2 4 64 7 .s64 0)) sM (fun c => (c.t.teamPlace (c.t.sreg 0 2)).isOk)
     && goesU .sstt (.f (ff 0 2 4 64 7 .s64 0)) uM (fun c => (c.t.teamPlace (c.u.sreg 2)).isOk)) = true := by decide +kernel

/-- R183, R184: the uniform accesses extend what they load and store the low bytes. -/
theorem test_uniform_memory :
    ([runs (.sld (ff 5 1 64 0 7 .s8 0)) sM (fun t => sAt t 5 == some 0xFFFFFFFFFFFFFF81), runs (.sld (ff 5 1 64 0 7 .n16 0)) uM (fun t => uAt t 5 == some 0x2281),
      runs (.sst (ff 0 1 4 64 7 .n8 0)) sM (fun t => t.readN 0x200000 2 == 0x2255), runs (.sldt (ff 5 2 64 0 7 .n16 0)) uM (fun t => uAt t 5 == some 0x4321),
      runs (.sstt (ff 0 2 4 64 7 .n64 0)) uM (fun t => (t.team? 0).map (fun u => leNat (u.bytes 0x100 8)) == some 0x55),
      runs (.sld (ff 5 1 3 0 7 .s64 0)) sM (fun t => causeOf t == some 0 && sAt t 5 == some 0),
      runs (.sldc (ff 5 4 64 0 7 .s32 0)) sM (fun t => causeOf t == some 3), runs (.slk (fi 5 .s64 63)) sM (fun t => causeOf t == some 4)]).all id = true := by
  decide +kernel

/-- A global access under AU with no index: field B for loads, C for stores. -/
theorem witness_GlobalCompletes :
    ((let f := ff 30 1 0 0 7 .b32 0x180
      goesRow .ld (.f f) sM (fun c => c.act.all (fun h => canReach c.s c.t .read true (c.globalVA f f.b 4 h) 4 && (c.globalVA f f.b 4 h).toNat % 4 == 0))
      && goesRow .ld (.f { f with mod := 0x191 }) sM (fun c => c.act.all (fun h => canReach c.s c.t .read true (c.globalVA f f.b 4 h) 4)))
     && (let f := ff 0 1 2 0 7 .n32 0x180
      goesRow .st (.f f) sM (fun c => c.act.all (fun h => dataOk .n32 (c.regB f h) && canReach c.s c.t .write false (c.globalVA f f.c 4 h) 4)))
     && (let f := ff 30 1 2 120 7 .n32 0x100
      goesRow .atom (.f f) sM (fun c => !atomDet c f false && c.act.all (fun h => dataOk .n32 (c.regB f h)
        && canReach c.s c.t .write true (gBase c.t.rcd.window f (c.env h) + ((c.env h).v f.c.toNat).w.zeroExtend 64) 4)))
     && (let f := ff 30 1 2 4 7 .n32 0x100
      goesRow .cas (.f f) sM (fun c => !atomDet c f true && c.act.all (fun h => dataOk .n32 (c.regB f h) && dataOk .n32 (c.vC f h)
        && canReach c.s c.t .write true (gBase c.t.rcd.window f (c.env h) + 0) 4)))) = true := by decide +kernel

/-- R208, R219: a load, a store, an add and a compare-and-swap at s1. -/
theorem test_global :
    ([runs (.ld (ff 30 1 0 0 7 .b32 0x180)) sM (fun t => vAt t 0 30 == some (0x44332281, .b32)),
      runs (.ld (ff 30 1 1 0 7 .s8 0x180)) sM (fun t => vAt t 0 30 == some (0x22, .s32)),
      runs (.st (ff 0 1 2 1 7 .n32 0x180)) sM (fun t => t.readN 0x200000 8 == 0x1122334444332281),
      runs (.atom (ff 30 1 4 120 7 .n32 0x100)) sM (fun t => vAt t 0 30 == some (0x44332281, .n32) && t.readN 0x200000 4 == 0x44332286),
      runs (.cas (ff 30 1 2 4 7 .n32 0x100)) sM (fun t => vAt t 0 30 == some (0x44332281, .n32) && t.readN 0x200000 4 == 0x44332281),
      runs (.ld (ff 30 4 0 0 7 .b32 0x180)) sM (fun t => causeOf t == some 3 && vAt t 0 30 == some (0, .b32))]).all id = true := by decide +kernel

/-- A thread alone at team offset 0x100, its granule full or empty; and two threads. -/
def sLoc (full : Bool) : State :=
  withMem (stOf { memTeam with fe := if full then [] else [(16, false)] } (.frag 0 0))
def sTwo : State :=
  withMem (stOf { memTeam with
    threads := [lane 0 [(2, 7, .n32), (3, 0x100, .n32), (4, 5, .n32)], lane 1 [(2, 9, .n32), (3, 0x110, .n32), (4, 6, .n32)]] } (.frag 0 0))

/-- One thread whose access has its place, and whose granule is as the form wants it. -/
def localMeets (s : State) (o : Opc) (f : FForm) (w : FeWait) (place : Ctx → Thread → Except Trap (Nat × Nat)) : Bool :=
  goesRow o (.f f) s (fun c => c.act.length == 1 && c.act.all (fun h => !h.made && ([Opc.ldt, .ldp, .fe].contains o || dataOk f.ty (c.regB f h)) &&
    match place c h with
    | .ok (uid, k) => (feDet c w uid (k / 16) h.row).isOk && w.wants.all (fun b => c.s.isFull uid (k / 16) == b)
    | .error _ => false))
/-- Several threads whose accesses have their places, for the forms that do not wait. -/
def localAll (o : Opc) (f : FForm) (place : Ctx → Thread → Except Trap (Nat × Nat)) : Bool :=
  goesRow o (.f f) sTwo (fun c => c.act.length == 2 && decide ((keysOf c.act).Nodup) && c.act.all (fun h => !h.made && (place c h).isOk))

theorem witness_LocalCompletes :
    ((let f := ff 30 2 0 0 7 .n32 0x180
      localMeets (sLoc false) .ldt f .none (fun c h => localAt c f false f.b 4 h) && localMeets (sLoc false) .ldp f .none (fun c h => localAt c f true f.b 4 h))
     && (let f := ff 30 2 0 0 7 .n32 0x184
      localMeets (sLoc true) .ldt f .full (fun c h => localAt c f false f.b 4 h) && localMeets (sLoc true) .ldp f .full (fun c h => localAt c f true f.b 4 h))
     && (let f := ff 30 2 0 0 7 .n32 0x188
      localMeets (sLoc true) .ldt f .consume (fun c h => localAt c f false f.b 4 h))
     && (let f := ff 0 2 2 0 7 .n32 0x180
      localMeets (sLoc true) .stt f .none (fun c h => localAt c f false f.c 4 h) && localMeets (sLoc true) .stp f .none (fun c h => localAt c f true f.c 4 h))
     && (let f := ff 0 2 2 0 7 .n32 0x188
      localMeets (sLoc false) .stt f .fill (fun c h => localAt c f false f.c 4 h) && localMeets (sLoc false) .stp f .fill (fun c h => localAt c f true f.c 4 h))
     && (let f := ff 30 2 2 120 7 .n32 0x100
      localMeets (sLoc true) .atomt f .none (fun c h => c.s.localPlace c.t false 4 (tBase f (c.env h) + ((c.env h).v f.c.toNat).w.zeroExtend 64))
      && localMeets (sLoc true) .atomp f .none (fun c h => c.s.localPlace c.t true 4 (tBase f (c.env h) + ((c.env h).v f.c.toNat).w.zeroExtend 64)))
     && (let f := ff 30 2 2 4 7 .n32 0x100
      localMeets (sLoc true) .cast f .none (fun c h => c.s.localPlace c.t false 4 (tBase f (c.env h) + 0)))
     && [0, 1, 2, 3].all (fun k =>
      let f := ff 30 2 0 0 7 .none (0x180 + 8 * k)
      localMeets (sLoc true) .fe f (if k = 3 then .full else .none) (fun c h => c.s.localPlace c.t false 1 (tBase f (c.env h) + indexOf f f.b 16 (c.env h))))
     && (let f := ff 30 2 0 0 7 .none 0x1A0
      localMeets (sLoc false) .fe f .empty (fun c h => c.s.localPlace c.t false 1 (tBase f (c.env h) + indexOf f f.b 16 (c.env h))))
     && (let f := ff 0 3 2 120 7 .n32 0
      localAll .stt f (fun c h => localAt c f false f.c 4 h) && localAll .stp f (fun c h => localAt c f true f.c 4 h))
     && (let f := ff 30 3 2 120 7 .n32 0
      localAll .ldt f (fun c h => localAt c f false 120 4 h)
      && localAll .atomt f (fun c h => c.s.localPlace c.t false 4 (tBase f (c.env h) + ((c.env h).v f.c.toNat).w.zeroExtend 64)))) = true := by
  decide +kernel

/-- Two threads, each at a granule of its own, in the forms that wait. -/
def feAll (o : Opc) (f : FForm) (w : FeWait) (s : State) (place : Ctx → Thread → Except Trap (Nat × Nat)) : Bool :=
  goesRow o (.f f) s (fun c =>
    let at_ (h : Thread) : Nat × Nat := ((place c h).toOption.map (fun e => (e.1, e.2 / 16))).getD (9, 9)
    c.act.length == 2 && decide ((keysOf c.t.threads).Nodup) && decide ((c.act.map at_).Nodup) && c.act.all (fun h => !h.made && (place c h).isOk
      && (feDet c w (at_ h).1 (at_ h).2 h.row).isOk && w.wants.all (fun b => c.s.isFull (at_ h).1 (at_ h).2 == b)))
def sTwoEmpty : State := { sTwo with teams := sTwo.teams.map (fun t => { t with fe := [(16, false), (17, false)] }) }
theorem witness_LocalCompletes_all :
    ([(0x004, FeWait.full), (0x008, .consume)].all (fun e =>
        let f := ff 30 3 2 120 7 .n32 e.1
        let g := { f with b := 120#7 }
        feAll .ldt g e.2 sTwo (fun c h => localAt c g false 120 4 h) && feAll .ldp g e.2 sTwo (fun c h => localAt c g true 120 4 h))
     && (let f := ff 0 3 2 120 7 .n32 0x008
      feAll .stt f .fill sTwoEmpty (fun c h => localAt c f false 120 4 h) && feAll .stp f .fill sTwoEmpty (fun c h => localAt c f true 120 4 h))
     && [(3, FeWait.full, sTwo), (4, .empty, sTwoEmpty)].all (fun e =>
      let f := ff 30 3 120 0 7 .none (8 * e.1)
      feAll .fe f e.2.1 e.2.2 (fun c h => c.s.localPlace c.t false 1 (tBase f (c.env h) + indexOf f f.b 16 (c.env h))))) = true := by
  decide +kernel

/-- R212 to R216, R219: loads, stores and atomics of team memory, and the full/empty bit. -/
theorem test_local :
    ([runs (.ldt (ff 30 2 0 0 7 .n32 0x180)) (sLoc false) (fun t => vAt t 0 30 == some (0x4321, .n32)),
      runs (.ldt (ff 30 2 0 0 7 .n32 0x188)) (sLoc true) (fun t => vAt t 0 30 == some (0x4321, .n32) && t.isFull 0 16 == false),
      runs (.stt (ff 0 2 2 0 7 .n32 0x188)) (sLoc false) (fun t => t.isFull 0 16 && (t.team? 0).map (fun u => leNat (u.bytes 0x100 4)) == some 0x11223344),
      runs (.stt (ff 0 2 2 0 7 .n32 0x184)) (sLoc false) (fun t => t.isFull 0 16),
      runs (.atomt (ff 30 2 4 120 7 .n32 0x100)) (sLoc false) (fun t => vAt t 0 30 == some (0x4321, .n32)
        && (t.team? 0).map (fun u => leNat (u.bytes 0x100 4)) == some 0x4326),
      runs (.cast (ff 30 2 2 4 7 .n32 0x100)) (sLoc false) (fun t => vAt t 0 30 == some (0x4321, .n32)),
      runs (.ldp (ff 30 2 0 0 7 .n32 0x180)) (sLoc false) (fun t => vAt t 0 30 == some (0x4321, .n32)),
      runs (.fe (ff 30 2 0 0 7 .none 0x190)) (sLoc true) (fun t => vAt t 0 30 == some (1, .n32)),
      runs (.fe (ff 30 2 0 0 7 .none 0x188)) (sLoc false) (fun t => t.isFull 0 16),
      runs (.ldt (ff 30 4 0 0 7 .n32 0x180)) (sLoc false) (fun t => causeOf t == some 3)]).all id = true := by decide +kernel

/-- R222 to R226. -/
theorem witness_CacheCompletes :
    (([Opc.fence, .pref].all (fun o => goesRow o (.f (ff 0 1 0 0 7 .none 0x180)) sM (fun _ => true) && goesU o (.f (ff 0 1 0 0 7 .none 0x180)) uM (fun _ => true)))
     && (let f := ff 0 1 2 0 7 .none 0x140
      goesRow .cinv (.f f) sM (fun c => c.act.all (fun h => canonical (gBase c.t.rcd.window f (c.env h))))
      && goesU .cinv (.f { f with b := 3 }) uM (fun c => canonical (gBase c.t.rcd.window { f with b := 3 } c.env)))
     && (let f := ff 30 1 4 0 7 .f32 0x140
      goesRow .fetch (.f f) sM (fun c => c.act.all (fun h =>
        match fetchPlan f (c.t.sreg h.row f.a.toNat) (c.regB f h).w.toNat (c.t.sreg h.row f.c.toNat) with
        | .ok ps =>
          match c.s.reach c.t.pitch c.t.die .read true ps with
          | .ok _ _ => true
          | _ => false
        | .error _ => false)))
     && (let f := ff 5 1 3 0 7 .f32 0x140
      goesU .fetch (.f f) uM (fun c =>
        match fetchPlan f (c.u.sreg f.a.toNat) ((c.u.sreg f.b.toNat).toNat % 2 ^ 32) (c.u.sreg f.c.toNat) with
        | .ok ps =>
          match c.s.reach c.t.pitch c.t.die .read true ps with
          | .ok _ _ => true
          | _ => false
        | .error _ => false))) = true := by decide +kernel

/-- R225: `fetch` of bf16 element 1 as f32; of an s8 element as s32. -/
theorem test_fetch :
    ([runs (.fetch (ff 5 1 64 0 7 .s32 0x100)) uM (fun t => uAt t 5 == some 0xFFFFFF81),
      runs (.fetch (ff 30 1 120 0 7 .f32 0x140)) sM (fun t => vAt t 0 30 == some (0x22810000, .f32))]).all id = true := by decide +kernel

/-! ### Synchronisation, queues, the Barrow -/

/-- Point 23 set up for four parties with two arrived, and point 0 fresh; a queue of three entries each way; a chit at s5. -/
def syncTeam : Team := { teamOf [lane 0 [(2, 4095, .n32), (3, 0xFFFF, .n32), (4, 0x40, .b32)], lane 1 [(2, 7, .n32), (3, 2, .n32), (4, 0x41, .b32)]]
    [(1, 0x200000), (2, 1), (3, 3), (4, 0x40), (5, 0x200100)] with
  rdv := [(23, { init := true, e := 4, a := 3, phase := 1 })],
  q := [(0, [{ val := 9, tag := .s32 }, { val := 8, tag := .n32 }]), (4, [{ val := 6, tag := .s32 }])] }

def sS : State := (withMem (stOf syncTeam (.frag 0 0))).writeN 0x200100 16 (2 ^ 64 + 0x30)
def uS : State := { sS with cur := some (.ustream 0) }

theorem witness_RendezvousCompletes :
    (goesRow .rdvinit (.f (ff 0 0 2 0 7 .none 0)) sS (fun c => (c.t.point 0).a == 0 && c.act.head?.any (fun h => (h.src 0 2).w.toNat == 4095))
     && goesU .rdvinit (.f (ff 0 0 2 0 7 .none 0)) uS (fun c => (c.u.sreg 2).toNat == 1 && (c.t.point 0).a == 0)
     && [Opc.rdvarr, .rdvwait, .rdvtest].all (fun o => goesRow o (.f (ff 6 0 3 0 7 .none 23)) sS (fun c => (c.t.point 23).init && !c.t.hdr.det
          && c.act.all (fun h => (h.src 0 3).w.truncate 16 != (c.t.point 23).phase))
        && goesU o (.f (ff 6 0 3 0 7 .none 23)) uS (fun c => (c.t.point 23).init && !c.t.hdr.det && (c.u.sreg 3).truncate 16 != (c.t.point 23).phase)))
      = true := by decide +kernel

/-- R69 to R71: an arrival that reaches E begins the next phase, and the arrivals after it count there. -/
theorem test_rendezvous :
    ([runs (.rdvinit (ff 0 0 2 0 7 .none 0)) sS (fun t => (t.team? 0).map (fun u => u.point 0) == some { init := true, e := 4095, a := 0, phase := 0 }),
      runs (.rdvarr (ff 30 0 0 0 7 .none 23)) sS (fun t => vAt t 0 30 == some (1, .n32) && vAt t 1 30 == some (2, .n32)
        && (t.team? 0).map (fun u => u.point 23) == some { init := true, e := 4, a := 1, phase := 2 }),
      runs (.rdvtest (ff 3 0 4 0 7 .none 23)) uS (fun t => (t.team? 0).map (fun u => predOf u.u.p 3) == some true),
      runs (.rdvwait (ff 0 0 2 0 7 .none 23)) uS (fun t => (t.team? 0).map (fun u => u.u.wait) == some (some (.phase 23 [1]))),
      runs (.rdvarr (ff 30 0 0 0 7 .none 24)) sS (fun t => causeOf t == some 8)]).all id = true := by decide +kernel

theorem witness_QueueCompletes :
    (goesRow .qpush (.f (ff 0 2 0 0 7 .none 4)) sS (fun c => qCheck c.t.hdr.det ((mayPush c.role).contains 4) c.holds 0 c.parties == none
        && decide (c.t.qCount 4 + c.act.length ≤ 64))
     && goesU .qpush (.f (ff 0 2 0 0 7 .none 0)) uS (fun c => qCheck c.t.hdr.det ((mayPush 3).contains 0) true 0 [partyNo 0 100] == none && decide (c.t.qCount 0 < qDepth 0))
     && goesU .qpush (.f (ff 0 2 0 0 7 .none 8)) uS (fun c => qCheck c.t.hdr.det ((mayPush 3).contains 8) true 0 [partyNo 0 100] == none && decide (c.t.qCount 8 < qDepth 8))
     && goesRow .qpop (.f (ff 30 0 0 0 7 .none 0)) sS (fun c => qCheck c.t.hdr.det ((mayPop c.role).contains 0) c.holds 0 c.parties == none
        && decide (c.act.length ≤ c.t.qCount 0))
     && goesU .qpop (.f (ff 5 0 0 0 7 .none 4)) uS (fun c => qCheck c.t.hdr.det ((mayPop 3).contains 4) true 0 [partyNo 0 100] == none && decide (1 ≤ c.t.qCount 4))
     && goesRow .qtry (.f (ff 30 0 0 3 7 .none 0)) sS (fun c => (mayPop c.role).contains 0 && !c.t.hdr.det)
     && goesU .qtry (.f (ff 5 0 0 3 7 .none 7)) uS (fun c => (mayPop 3).contains 7 && !c.t.hdr.det)
     && goesRow .qcnt (.f (ff 30 0 0 0 7 .none 7)) sS (fun c => !c.t.hdr.det) && goesU .qcnt (.f (ff 5 0 0 0 7 .none 0)) uS (fun c => !c.t.hdr.det)) = true := by
  decide +kernel

/-- R76, R77, R231, R232: first in, first out, in ascending row position; a wrong queue takes QUE (code 9). -/
theorem test_queue :
    ([runs (.qpush (ff 0 4 0 0 7 .none 4)) sS (fun t => (t.team? 0).map (fun u => (u.queue 4).map (·.val)) == some [6, 0x40, 0x41]),
      runs (.qpop (ff 30 0 0 0 7 .none 0)) sS (fun t => vAt t 0 30 == some (9, .s32) && vAt t 1 30 == some (8, .n32)),
      runs (.qtry (ff 5 0 0 3 7 .none 7)) uS (fun t => (t.team? 0).map (fun u => predOf u.u.p 3) == some false),
      runs (.qcnt (ff 5 0 0 0 7 .none 4)) uS (fun t => uAt t 5 == some 1),
      runs (.qpop (ff 30 0 0 0 7 .none 4)) sS (fun t => causeOf t == some 9)]).all id = true := by decide +kernel

/-- A Barrow descriptor in team memory at byte 0x40: source, destination, chit, length, P0, P1, FLAGS, SEQ, P2. -/
def descTeam (src dst chit len p0 p1 flags seq p2 : Nat) : Team :=
  { syncTeam with }.writeBytes 0x40 (leBytes 8 src ++ leBytes 8 dst ++ leBytes 8 chit ++ leBytes 8 len ++ leBytes 8 p0 ++ leBytes 8 p1
    ++ leBytes 4 flags ++ leBytes 4 seq ++ leBytes 8 p2)

def sB : State := withMem (stOf (descTeam 0x200000 0x200400 0x200200 64 0 0 0 0 0) (.frag 0 0))
def uB : State := { sB with cur := some (.ustream 0) }

def descOk (s : State) (t : Team) (a : DWord) : Bool :=
  match engineDesc s t 64 64 16 a with
  | .ok (bs, none) => bs == t.bytes a.toNat 64
  | _ => false

theorem witness_BarrowCompletes :
    ([Opc.bcp, .btile, .bgat, .bsct, .bred, .bfill].all (fun o =>
        goesRow o (.f (ff 0 4 0 0 5 .none 0x100)) sB (fun c => c.act.all (fun h => descOk c.s c.t (tBase (ff 0 4 0 0 5 .none 0x100) (c.env h))) && !c.t.hdr.det)
        && goesU o (.f (ff 0 4 0 0 5 .none 0x100)) uB (fun c => descOk c.s c.t (tBase (ff 0 4 0 0 5 .none 0x100) c.env) && !c.t.hdr.det))
     && [Opc.bwait, .bpoll].all (fun o =>
        goesRow o (.f (ff 30 5 0 0 7 .none 0x180)) sS (fun c => c.act.all (fun h =>
          canReach c.s c.t .read true (gBase c.t.rcd.window (ff 30 5 0 0 7 .none 0x180) (c.env h) + 8) 4) && finalStatus (c.s.readN 0x200108 4))
        && goesU o (.f (ff 6 5 0 0 7 .none 0x180)) uS (fun c => canRead c.s c.t (c.u.sreg 5 + 8) 4 && finalStatus (c.s.readN 0x200108 4)))) = true := by
  decide +kernel

/-- R233, R236, R241, R245: a `bcp` is taken with its wait counter raised and STATUS 0 in its chit; a `bcp` whose ranges overlap ends at
once with STATUS 4; `bpoll` reads a STATUS. -/
theorem test_barrow :
    ([runs (.bcp (ff 0 4 0 0 5 .none 0x100)) uB (fun t => t.barrows.length == 1 && (t.team? 0).map (fun u => u.u.wcnt 5) == some 1 && t.readN 0x200208 4 == 0),
      runs (.bcp (ff 0 4 0 0 5 .none 0x100)) { uB with teams := [descTeam 0x200000 0x200020 0x200200 64 0 0 0 0 0] }
        (fun t => t.barrows.length == 0 && t.readN 0x200208 4 == 4),
      runs (.bpoll (ff 6 5 0 0 7 .none 0x180)) uS (fun t => uAt t 6 == some 1)]).all id = true := by decide +kernel

/-! ### Rays, reservoirs, random numbers, light trees -/

/-- A bottom-level node with one child of a kind over the box (0, 0, 1) to (2, 2, 2) and reference 1. -/
def nodeBytes (kind : Nat) : List Byte :=
  leBytes 12 0 ++ [127, 127, 127, 0] ++ [0, 0, 1, 2, 2, 2] ++ leBytes 18 0 ++ leBytes 4 1 ++ leBytes 12 0 ++ leBytes 4 kind ++ leBytes 4 0
/-- The triangle (0, 0, 1), (2, 0, 1), (0, 2, 1) with primitive id 7 and geometry 3; a procedural primitive over the box. -/
def triBytes : List Byte :=
  leBytes 12 (0x3F800000 * 2 ^ 64) ++ leBytes 12 (0x40000000 + 0x3F800000 * 2 ^ 64) ++ leBytes 12 (0x40000000 * 2 ^ 32 + 0x3F800000 * 2 ^ 64)
  ++ leBytes 4 7 ++ leBytes 8 3
def procBytes : List Byte :=
  leBytes 12 (0x3F800000 * 2 ^ 64) ++ leBytes 12 (0x40000000 + 0x40000000 * 2 ^ 32 + 0x40000000 * 2 ^ 64) ++ leBytes 4 9 ++ leBytes 4 (5 + 2 ^ 16)

/-- The ray from (0.5, 0.5, 0) along z in v8 to v15, RFLAGS for a bottom-level root in v2 and with OPQ in v3; a team image at 0x100. -/
def rayRegs : List (Nat × Nat × Tag) :=
  [(2, 0x80FF, .n32), (3, 0x81FF, .n32), (4, 0x3FC00000, .f32), (5, 0x77, .b32), (8, 0x3F000000, .f32), (9, 0x3F000000, .f32), (10, 0, .f32),
   (11, 0, .f32), (12, 0, .f32), (13, 0, .f32), (14, 0x3F800000, .f32), (15, 0x7F800000, .f32)]
def rayTeam (q : Query) : Team := teamOf [{ lane 0 rayRegs with query := q }] [(1, 0x200000), (2, 0x200100), (3, 0x100), (4, 0x200200)]
def sR (q : Query) : State :=
  let s : State := { stOf (rayTeam q) (.frag 0 0) with frames := [(0, { owner := 0 })] }
  ((((s.writeBytes 0x200000 (nodeBytes 2)).writeBytes 0x200040 triBytes).writeBytes 0x200100 (nodeBytes 3)).writeBytes 0x200140 procBytes)

/-- The query of the thread after an instruction. -/
def queryAfter (i : Instr) (s : State) : Query :=
  match exec i s with
  | .next t => (((t.team? 0).bind (fun u => u.thread? 0 0)).map (·.query)).getD {}
  | _ => {}
def qBegin (sc : Nat) : Query := queryAfter (.rqbegin (ff 30 8 2 sc 7 .none 0)) (sR {})
def qStep (sc : Nat) : Query := queryAfter (.rqstep (ff 30 0 0 0 7 .none 0)) (sR (qBegin sc))

/-- R357 to R367: the triangle of R359 at t = 1 with u = v = 1/4, stopped at since it is not opaque; the primitive from t = 1 to t = 2;
decisions, saving and loading; `rtvis`. -/
theorem test_rays :
    ([runs (.rqbegin (ff 30 8 2 1 7 .none 0)) (sR {}) (fun t => vAt t 0 30 == some (0, .n32)),
      runs (.rqstep (ff 30 0 0 0 7 .none 0)) (sR (qBegin 1)) (fun t => vAt t 0 30 == some (1, .n32)),
      runs (.rqget (ff 30 0 0 0 7 .none 8)) (sR (qStep 1)) (fun t => vAt t 0 30 == some (0x3F800000, .f32)),
      runs (.rqget (ff 30 0 0 0 7 .none 12)) (sR (qStep 1)) (fun t => vAt t 0 30 == some (0x3E800000, .f32)),
      runs (.rqcommit (ff 30 0 0 0 7 .none 0)) (sR (qStep 1)) (fun t => vAt t 0 30 == some (3, .n32)),
      runs (.rqskip (ff 30 0 0 0 7 .none 0)) (sR (qStep 1)) (fun t => vAt t 0 30 == some (4, .n32)),
      runs (.rqget (ff 30 0 0 0 7 .none 24)) (sR (qStep 2)) (fun t => vAt t 0 30 == some (0x40000000, .f32)),
      runs (.rqresume (ff 30 4 5 0 7 .none 0)) (sR (qStep 2)) (fun t => vAt t 0 30 == some (3, .n32)),
      runs (.rtvis (ff 30 8 2 1 7 .none 0)) (sR {}) (fun t => vAt t 0 30 == some (0, .n32)),
      runs (.rqstep (ff 30 0 0 0 7 .none 0)) (sR {}) (fun t => causeOf t == some 4)]).all id = true := by decide +kernel

/-- R366: what `rqsave` writes `rqload` makes the query again. -/
theorem test_ray_image :
    (match exec (.rqsave (ff 0 3 0 0 7 .none 0x110)) (sR (qStep 1)) with
     | .next t => decide (queryAfter (.rqload (ff 0 3 0 0 7 .none 0x110))
         { sR {} with teams := [{ rayTeam {} with tmem := ((t.team? 0).map (·.tmem)).getD [] }] } = qStep 1)
     | _ => false) = true := by decide +kernel

def ended (w : Walk) : Bool :=
  match w with
  | .stop _ => false
  | _ => true

theorem witness_RaysComplete :
    (goesRow .rqbegin (.f (ff 30 8 2 1 7 .none 0)) (sR {}) (fun c => c.act.all (fun h => (rayOperands (ff 30 8 2 1 7 .none 0) c h).isOk))
     && goesRow .rqstep (.f (ff 30 0 0 0 7 .none 0)) (sR (qBegin 1)) (fun c => c.act.all (fun h => h.query.state == 0 && ended (h.query.advance c.s c.rayEnv)))
     && [{ qBegin 1 with state := 3 }, { qBegin 1 with state := 4 }].all (fun q => goesRow .rqstep (.f (ff 30 0 0 0 7 .none 0)) (sR q) (fun _ => true))
     && [0, 1].all (fun e => goesRow .rqcommit (.f (ff 30 0 0 0 7 .none e)) (sR (qStep 1)) (fun c => c.act.all (fun h => h.query.state == 1
          && ended ((h.query.commit 1 h.query.ct h.query.cu h.query.cv).advance c.s c.rayEnv))))
     && [(0, qStep 1), (0, qStep 2), (1, qStep 1)].all (fun e => goesRow .rqskip (.f (ff 30 0 0 0 7 .none e.1)) (sR e.2) (fun c => c.act.all (fun h =>
          (h.query.state == 1 || h.query.state == 2) && ended ((if e.1 = 1 then h.query.leaveInstance else h.query).advance c.s c.rayEnv))))
     && goesRow .rqresume (.f (ff 30 4 5 0 7 .none 0)) (sR (qStep 2)) (fun c => c.act.all (fun h => h.query.state == 2
          && tagOk .f32 false (c.vA (ff 30 4 5 0 7 .none 0) h) && f32Le h.query.ct 0x3FC00000 && f32Le 0x3FC00000 h.query.ctexit && !h.query.hit
          && ended ((h.query.commit 2 0x3FC00000 0x77 0).advance c.s c.rayEnv)))
     && goesRow .rqresume (.f (ff 30 8 5 0 7 .none 0)) (sR (qStep 2)) (fun c => c.act.all (fun h => !f32Le h.query.ct 0x3F000000 && ended (h.query.advance c.s c.rayEnv)))
     && [0, 24].all (fun k => goesRow .rqget (.f (ff 30 0 0 0 7 .none k)) (sR (qStep 1)) (fun c => c.act.all (fun h => h.query.state != 5)))
     && goesRow .rqsave (.f (ff 0 3 0 0 7 .none 0x110)) (sR (qStep 1)) (fun c => c.act.all (fun h => h.query.state != 5 &&
          match imagePlace (ff 0 3 0 0 7 .none 0x110) c h with
          | .ok (.inr _) => true
          | _ => false))
     && goesRow .rqsave (.f (ff 0 4 0 0 7 .none 0x100)) (sR (qStep 1)) (fun c => c.act.all (fun h =>
          match imagePlace (ff 0 4 0 0 7 .none 0x100) c h with
          | .ok (.inl a) => canReach c.s c.t .write false a 128
          | _ => false))) = true := by decide +kernel

/-- The thread's image lies in team memory, and in global memory. -/
theorem witness_RaysComplete_load :
    (goesRow .rqload (.f (ff 0 3 0 0 7 .none 0x110)) (stOf ((rayTeam {}).writeBytes 0x100 ({ qBegin 1 with rflags := 0xFF } : Query).image) (.frag 0 0))
        (fun c => c.act.all (fun h =>
          match imagePlace (ff 0 3 0 0 7 .none 0x110) c h with
          | .ok (.inr (u, o)) => (c.s.team? u).any (fun t => (loadQuery c.s c.rayEnv (t.bytes o 128)).isOk)
          | _ => false))
     && goesRow .rqload (.f (ff 0 4 0 0 7 .none 0x100)) ((sR {}).writeBytes 0x200200 (qStep 1).image) (fun c => c.act.all (fun h =>
          match imagePlace (ff 0 4 0 0 7 .none 0x100) c h with
          | .ok (.inl a) =>
            match c.s.rayRead c.rayEnv a 128 with
            | .ok bs => (loadQuery c.s c.rayEnv bs).isOk
            | .error _ => false
          | _ => false))
     && goesRow .rtvis (.f (ff 30 8 2 1 7 .none 0)) (sR {}) (fun c => c.act.all (fun h =>
          match rayOperands (ff 30 8 2 1 7 .none 0) c h with
          | .ok x => ended (Query.advance c.s { c.rayEnv with vis := true } { x with rflags := (x.rflags ||| 0x500) &&& ~~~0x200 })
          | .error _ => false))) = true := by decide +kernel

/-- A reservoir in v8 to v15 with wsum 1, phat 2 and M 1, one in v16 to v23; a candidate of weight 1 in v24 to v28; a point in v32 to v34
and a counter in v36, v37; a light tree of one leaf. -/
def rsvRegs : List (Nat × Nat × Tag) :=
  [(2, 0, .n32), (3, 0x3F800000, .f32), (8, 5, .n32), (9, 0x3F800000, .f32), (10, 0x3F800000, .f32), (11, 0x40000000, .f32), (12, 1, .n32),
   (13, 0, .f32), (14, 0, .f32), (15, 0, .n32)]
  ++ [(16, 6, .n32), (17, 0x3F800000, .f32), (18, 0x3F800000, .f32), (19, 0x40000000, .f32), (20, 0x00030002, .n32), (21, 0, .f32), (22, 0, .f32), (23, 0, .n32)]
  ++ [(24, 4, .n32), (25, 0x3F800000, .f32), (26, 0x40000000, .f32), (27, 0, .f32), (28, 0, .f32), (32, 0, .f32), (33, 0, .f32), (34, 0, .f32),
   (36, 0, .n64), (37, 0, .pairHigh)]
def rsvTeam : Team :=
  { teamOf [lane 0 rsvRegs] [(1, 0x200000), (3, 0x100), (4, 0x20)] with rcd := { rvsoff := 0, rvslen := 64 } }
def sV : State :=
  ({ stOf rsvTeam (.frag 0 0) with frames := [(0, { owner := 0 })], dies := [(1, { rvsN := 1 })] }).writeBytes 0x200000
    (leBytes 12 0 ++ leBytes 12 0 ++ leBytes 4 0x3F800000 ++ leBytes 4 0x80000009)

/-- R370 to R374, R377: a candidate of weight 1 with draw 0 is accepted (y 4, wsum 2, M 2, flag 1); a merge adds M; W is wsum ÷ (M × phat);
a tree of one leaf gives its emitter with probability 1. -/
theorem test_reservoir :
    ([runs (.rsvupd (ff 8 24 2 0 7 .none 0)) sV (fun t => vAt t 0 8 == some (4, .n32) && vAt t 0 9 == some (0x40000000, .f32)
        && vAt t 0 12 == some (2, .n32) && vAt t 0 15 == some (2, .n32)),
      runs (.rsvmrg (ff 8 16 3 2 7 .none 0)) sV (fun t => vAt t 0 8 == some (6, .n32) && vAt t 0 9 == some (0x40400000, .f32)
        && vAt t 0 12 == some (0x00030003, .n32)),
      runs (.rsvnorm (ff 8 0 0 0 7 .none 0)) sV (fun t => vAt t 0 10 == some (0x3F000000, .f32)),
      runs (.ltw (ff 30 32 36 1 7 .none 0)) sV (fun t => vAt t 0 30 == some (9, .n32) && vAt t 0 31 == some (0x3F800000, .f32)),
      runs (.rsvst (ff 0 3 8 0 7 .none 0x190)) sV (fun t => (t.team? 0).map (fun u => leNat (u.bytes 0x100 4)) == some 5),
      runs (.rsvld (ff 8 1 0 0 7 .none 0x180)) sV (fun t => vAt t 0 15 == some (0x80000009, .n32))]).all id = true := by decide +kernel

/-- R375: Philox-4×32-10 of a zero counter, stream and key: the published first word. -/
theorem test_philox : runs (.rng (ff 30 36 2 0 7 .none 0)) sV (fun t => vAt t 0 30 == some (0x6627E8D5, .n32)) = true := by decide +kernel

theorem witness_ReservoirCompletes :
    (goesRow .rsvupd (.f (ff 8 24 2 0 7 .none 0)) sV (fun c => c.act.all (fun h => groupOk false rsvTags (h.group 8 8)
          && groupOk false [.n32, .f32, .f32, .f32, .f32] (h.group 24 5) && tagOk .n32 false (h.src 0 2)))
     && goesRow .rsvmrg (.f (ff 8 16 3 2 7 .none 0)) sV (fun c => c.act.all (fun h => groupOk false rsvTags (h.group 8 8) && groupOk false rsvTags (h.group 16 8)
          && tagOk .f32 false (h.src 0 3) && tagOk .n32 false (h.src 0 2)))
     && goesRow .rsvnorm (.f (ff 8 0 0 0 7 .none 0)) sV (fun c => c.act.all (fun h => groupOk false rsvTags (h.group 8 8)))
     && goesRow .rng (.f (ff 30 36 2 0 7 .none 0)) sV (fun c => !c.t.replay && c.act.all (fun h =>
          tagOk .n64 false (c.vA (ff 30 36 2 0 7 .none 0) h) && tagOk .n32 false (h.src 0 2)))
     && [(0x190, 3), (0x180, 1), (0x1B0, 64)].all (fun e =>
        goesRow .rsvld (.f (ff 8 e.2 0 0 7 .none e.1)) sV (fun c => c.act.all (fun h =>
          match rsvAt (ff 8 e.2 0 0 7 .none e.1) (ff 8 e.2 0 0 7 .none e.1).b c h with
          | .ok (.mem _ _) => e.1 == 0x190
          | .ok (.rvs k) => e.1 == 0x1B0 && !c.s.poisoned k 32
          | .ok (.va a) => e.1 == 0x180 && canRead c.s c.t a 32
          | .error _ => false))
        && goesRow .rsvst (.f (ff 0 e.2 8 0 7 .none e.1)) sV (fun c => c.act.all (fun h => groupOk false rsvTags (h.group 8 8) &&
          match rsvAt (ff 0 e.2 8 0 7 .none e.1) (ff 0 e.2 8 0 7 .none e.1).c c h with
          | .ok (.mem _ _) => e.1 == 0x190
          | .ok (.rvs _) => e.1 == 0x1B0
          | .ok (.va a) => e.1 == 0x180 && (match c.s.translate c.t.pitch c.t.die a .write with
            | .ok _ _ => true
            | _ => false)
          | .error _ => false)))
     && goesRow .ltw (.f (ff 30 32 36 1 7 .none 0)) sV (fun c => c.act.all (fun h => groupOk false [.f32, .f32, .f32] (h.group 32 3)
          && tagOk .n64 false (c.vA (ff 30 36 36 1 7 .none 0) h)
          && (lightWalk c.s c.rayEnv (c.t.sreg 0 1) ((h.group 32 3).map (·.val)) (fun l => rngDraw c.t c.t.replay c.t.rcd.rngTab h.rngKey (BitVec.ofNat 64 l) 0)
            48 0 0 (1, 1)).isOk))) = true := by decide +kernel

/-! ### Irregular work, graphs, launches -/

/-- An active session of row 0: thread 0 brought the items 100 and 101, thread 1 the item 200. -/
def drill0 : Drill :=
  { ds := 0, rows := [0], g := 1, rop := 0, ty := .s32, starts := [(0, 100), (1, 200)], lens := [(0, 2), (1, 1)], total := 3, e := 2,
    slots := [(0, 0), (0, 1)], nexts := [], curs := [(0, some 0)], accs := [] }
def drlTeam (ds : List Drill) : Team :=
  { teamOf [lane 0 [(2, 100, .n32), (3, 2, .n32), (4, 7, .s32)], lane 1 [(2, 200, .n32), (3, 1, .n32), (4, 8, .s32)]] [(1, 0x200000), (2, 0x40)] with drills := ds }
def sD (ds : List Drill) : State := withMem (stOf (drlTeam ds) (.frag 0 0))

/-- The lists (1: 10, 3: 30) and (3: 5, 5: 7) of a merge in team memory, its descriptor at byte 0x40. -/
def mrgTeam : Team :=
  (((drlTeam []).writeBytes 0x40 (leBytes 8 0x100 ++ leBytes 8 0x110 ++ leBytes 8 0x120 ++ leBytes 8 0x130 ++ leBytes 8 0x140 ++ leBytes 8 0x150
      ++ leBytes 4 2 ++ leBytes 4 2 ++ leBytes 4 3 ++ leBytes 4 0x15)).writeBytes 0x100 (leBytes 4 1 ++ leBytes 4 3 ++ leBytes 8 0 ++ leBytes 4 10 ++ leBytes 4 30)).writeBytes
    0x120 (leBytes 4 3 ++ leBytes 4 5 ++ leBytes 8 0 ++ leBytes 4 5 ++ leBytes 4 7)
def sMrg : State := withMem (stOf { mrgTeam with threads := [lane 0 []] } (.frag 0 0))

/-- R327 to R331, R337, R343: a session over three items; its next items go to the slots in order; the union of two lists adds the values
of equal indices; threads that graft leave as one fragment for each key, in ascending key. -/
theorem test_irregular :
    ([runs (.drlld (ff 0 2 3 0 7 .s32 0)) (sD []) (fun t => (((t.actDue 0).team? 0).map (·.drills)).any (fun ds => ds.map (·.total) == [3])),
      runs (.drlnext (ff 30 0 0 3 7 .none 0)) (sD [drill0]) (fun t => vAt t 0 30 == some (100, .n32) && vAt t 1 30 == some (101, .n32)
        && vAt t 1 31 == some (0, .n32) && pAt t 1 3 == some true),
      runs (.drlred (ff 0 4 0 0 7 .none 0)) (sD [drill0]) (fun t => ((t.team? 0).bind (·.session 0 0)).map (fun d => (d.acc 0).n) == some 7),
      runs (.drlend (ff 30 0 0 3 7 .none 0)) (sD [drill0]) (fun t => ((t.actDue 0).team? 0).map (·.drills) == some []),
      runs (.graft (ff 0 3 0 0 7 .n32 0)) (sD []) (fun t => (t.team? 0).map (fun u => u.threads.map (·.fid)) == some [33, 32]),
      runs (.mrg (ff 30 2 0 0 7 .none 0x100)) sMrg (fun t => vAt t 0 30 == some (3, .n32)
        && (t.team? 0).map (fun u => leNat (u.bytes 0x140 12)) == some (1 + 3 * 2 ^ 32 + 5 * 2 ^ 64)
        && (t.team? 0).map (fun u => leNat (u.bytes 0x150 12)) == some (10 + 35 * 2 ^ 32 + 7 * 2 ^ 64))]).all id = true := by decide +kernel

theorem witness_IrregularCompletes :
    (goesRow .drlld (.f (ff 0 2 3 0 7 .s32 0)) (sD []) (fun c => c.mem.all (fun h => (h.arrival 0).isNone && tagOk .n32 false (h.src 0 2) && tagOk .n32 false (h.src 0 3)
        && (c.t.groupRows h.row 1).all (fun r => (c.t.session 0 r).isNone && c.t.hdr.role r == c.t.hdr.role h.row)))
     && goesRow .drlend (.f (ff 30 0 0 3 7 .none 0)) (sD [drill0]) (fun c => c.mem.all (fun h => (h.arrival 0).isNone && (c.t.session 0 h.row).isSome))
     && goesRow .drlsave (.f (ff 0 1 0 0 7 .none 0x100)) (sD [drill0]) (fun c => c.mem.all (fun h => (h.arrival 0).isNone && (c.t.session 0 h.row).isSome
        && canonical (gBase c.t.rcd.window (ff 0 1 0 0 7 .none 0x100) (c.env h)) && (gBase c.t.rcd.window (ff 0 1 0 0 7 .none 0x100) (c.env h)).toNat % 4 == 0))
     && goesRow .drlsave (.f (ff 0 2 0 0 7 .none 0x140)) (sD [drill0]) (fun c => c.mem.all (fun h => (tBase (ff 0 2 0 0 7 .none 0x140) (c.env h)).toNat % 64 == 0))
     && goesRow .drlrst (.f (ff 0 1 0 0 7 .none 0x100)) (sD []) (fun c => c.mem.all (fun h => (h.arrival 0).isNone && (c.t.session 0 h.row).isNone))
     && [Opc.drlnext, .drlred].all (fun o => goesRow o (.f (ff 30 4 0 3 7 .none 0)) (sD [drill0]) (fun c => c.act.all (fun h => (h.arrival 0).isNone
        && (c.t.session 0 h.row).any (fun d => (d.slotOf h).isSome && d.rop != 6 && tagOk d.ty false (h.src 0 4)))))
     && goesRow .graft (.f (ff 0 3 0 0 7 .n32 0)) (sD []) (fun c => c.act.all (fun h => tagOk .n32 false (h.src 0 3)))
     && goesRow .gftflush (.f (ff 0 0 0 0 7 .none 0)) (sD []) (fun c => !c.t.hdr.det)
     && runs (.mrg (ff 30 2 0 0 7 .none 0x100)) sMrg (fun t => causeOf t == some 0)) = true := by decide +kernel

def spanOk (r : Span) : Bool :=
  match r with
  | .ok _ => true
  | _ => false

/-- Every premise of the clause about `mrg`, with the lists of `mrgTeam`. -/
theorem witness_IrregularCompletes_mrg :
    goesRow .mrg (.f (ff 30 2 0 0 7 .none 0x100)) sMrg (fun c => c.act.all (fun h =>
      let f := ff 30 2 0 0 7 .none 0x100
      let d (o n : Nat) : Nat := field (c.t.bytes (tBase f (c.env h)).toNat 64) o n
      let ptr (j : Nat) : DWord := BitVec.ofNat 64 (d (8 * j) 8)
      (tBase f (c.env h)).toNat % 64 == 0 && decide ((tBase f (c.env h)).toNat + 64 ≤ c.t.hdr.tmem) && d 60 4 == 0x15
      && (List.range 6).all (fun j => d (8 * j) 4 % 4 == 0)
      && (List.range 4).all (fun j => c.s.spanIn c.t 1 (ptr j) 8 && !overlap 0x140 12 (ptr j).toNat 8 && !overlap 0x150 12 (ptr j).toNat 8)
      && c.s.spanIn c.t 1 (ptr 4) 12 && c.s.spanIn c.t 1 (ptr 5) 12
      && (List.range 4).all (fun j => spanOk (c.s.spanRead c.t 1 (ptr j) 8))
      && spanOk (c.s.spanCheck c.t 1 (ptr 4) 12) && spanOk (c.s.spanCheck c.t 1 (ptr 5) 12)
      && ascending [(1 : Word), 3] && ascending [(3 : Word), 5])) = true := by decide +kernel

/-- A graph launch of two nodes, the first's output 0 leading to the second, whose pool starts at 0x200800; the invocation holds record 0. -/
def graph0 : Graph :=
  let nd : GNode := { code := 0x100000, arg := 0, pool := 0, rsize := 16, pcap := 4, batch := 4, prio := 0, entry := true, tmo := 0, succ := [1] }
  { excl := false, nodes := [nd, { nd with pool := 0x800, entry := false, succ := [0xFF] }] }
def graphTeam : Team :=
  { teamOf [lane 0 [(2, 0, .n32)]] [(1, 0x200000), (2, 0x40), (3, 0)] with recs := [0], rcd := { pool := 0x200000, lflags := 0x10 }, tmem := [(0x40, 0x5A)] }
def sG : State :=
  let s := withMem (stOf graphTeam (.frag 0 0))
  { s with launches := s.launches.map (fun l => { l with graph := some graph0, rcd := { pool := 0x200000, lflags := 0x10 } }) }
def uG : State := { sG with cur := some (.ustream 0) }
/-- A pool without a free slot, a queue without room, a slot that can be written. -/
def fullPool (s : State) : State :=
  { s with launches := s.launches.map (fun l => { l with graph := some { graph0 with used := [(1, 0), (1, 1), (1, 2), (1, 3)] } }) }
def fullQueue (s : State) : State :=
  { s with launches := s.launches ++ (List.range 256).map (fun n =>
      { lid := n + 5, pitch := 0, rcd := {}, hdr := placeHdr, chit := { addr := 0 }, st := .queued, width := 16 }) }
def slotOk (s : State) (t : Team) (nd : GNode) (k : Nat) : Bool :=
  match s.slotReach t nd k with
  | .ok _ _ => true
  | _ => false

/-- A launch record at 0x200000 whose code image stands at 0x200400: one row of width 16, eight registers, 4 KiB, one clause. -/
def launchRec : List Byte := leBytes 8 0x200400 ++ leBytes 32 0 ++ leBytes 4 1 ++ leBytes 84 0
def imageHdr : List Byte :=
  leBytes 4 1 ++ leBytes 4 0 ++ [16, 1, 0, 0, 8, 0, 0, 0] ++ leBytes 4 4096 ++ leBytes 4 64 ++ leBytes 12 0 ++ leBytes 4 72 ++ leBytes 4 0 ++ leBytes 4 72 ++ leBytes 16 0
def sL : State := ((stOf { drlTeam [] with threads := [lane 0 []] } (.frag 0 0)).writeBytes 0x200000 launchRec).writeBytes 0x200400 (imageHdr ++ leBytes 4 0x51 ++ leBytes 4 0x40E00000)
def uL : State := { sL with cur := some (.ustream 0) }

/-- R348 to R350, R389: a record goes to the first free slot; the address of a slot; a launch record is accepted and answers its id. -/
theorem test_graph :
    ([runs (.emit (ff 30 2 0 0 7 .none 0x100)) sG (fun t => vAt t 0 30 == some (0, .n32) && t.readN 0x200800 1 == 0x5A),
      runs (.recget (ff 5 3 0 0 7 .none 0)) uG (fun t => uAt t 5 == some 0x200000),
      runs (.launch (ff 5 1 0 0 7 .none 0x180)) uL (fun t => t.launches.length == 2 && uAt t 5 == some 0)]).all id = true := by decide +kernel

theorem witness_GraphCompletes :
    (goesRow .glean (.f (ff 0 2 0 0 7 .none 0x100)) (sD []) (fun c => c.act.all (fun h =>
        match engineDesc c.s c.t 128 64 0 (tBase (ff 0 2 0 0 7 .none 0x100) (c.env h)) with
        | .ok (_, none) => true
        | _ => false))
     && goesU .glean (.f (ff 0 2 0 0 7 .none 0x100)) { sD [] with cur := some (.ustream 0) } (fun c =>
        match engineDesc c.s c.t 128 64 0 (tBase (ff 0 2 0 0 7 .none 0x100) c.env) with
        | .ok (_, none) => true
        | _ => false)
     && goesRow .emit (.f (ff 30 2 0 0 7 .none 0x100)) sG (fun c => !c.t.hdr.det &&
        match emitTarget c.s c.t 0, (c.s.launch? 0).bind (·.graph) with
        | some (k, nd), some g => c.act.length == 1 && g.freeSlot k == some 0 && slotOk c.s c.t nd 0 && c.act.all (fun h =>
            !c.s.lateBy 0 h.row h.pos (.emit k 0) && decide (h.row < 64)
            && decide ((tBase (ff 30 2 0 0 7 .none 0x100) (c.env h)).toNat % 16 = 0) && decide (0x40 + nd.rsize ≤ c.t.hdr.tmem))
        | _, _ => false)
     && goesRow .emit (.f (ff 30 2 0 0 7 .none 0x100)) (fullPool sG) (fun c => !c.t.hdr.det &&
        match emitTarget c.s c.t 0, (c.s.launch? 0).bind (·.graph) with
        | some (k, nd), some g => (g.freeSlot k).isNone && decide (0x40 + nd.rsize ≤ c.t.hdr.tmem)
        | _, _ => false)
     && [false, true].all (fun full => goesU .emit (.f (ff 5 2 0 0 7 .none 0x100)) (if full then fullPool uG else uG) (fun c =>
        !c.t.hdr.det && decide ((tBase (ff 5 2 0 0 7 .none 0x100) c.env).toNat % 16 = 0) &&
        match emitTarget c.s c.t 0, (c.s.launch? 0).bind (·.graph) with
        | some (k, nd), some g => decide (0x40 + nd.rsize ≤ c.t.hdr.tmem)
            && (if full then (g.freeSlot k).isNone else !c.s.lateBy 0 0xFF 0 (.emit k 0) && g.freeSlot k == some 0 && slotOk c.s c.t nd 0)
        | _, _ => false))
     && goesRow .recget (.f (ff 30 2 0 0 7 .none 0)) sG (fun c => c.act.all (fun h => tagOk .n32 false (h.src 0 2) && (recAddr c.s c.t 0).isOk))
     && goesU .recget (.f (ff 5 3 0 0 7 .none 0)) uG (fun c => (recAddr c.s c.t 0).isOk)
     && goesRow .launch (.f (ff 30 1 0 0 7 .none 0x180)) sL (fun c => !c.t.hdr.det && c.s.accepts.isEmpty && canReach c.s c.t .read true 0x200000 128
        && (c.launches (ff 30 1 0 0 7 .none 0x180) (fun _ => 0x200000) (fun _ => c.s.bytes 0x200000 128) c.act c.s).isSome)
     && goesU .launch (.f (ff 5 1 0 0 7 .none 0x180)) uL (fun c => !c.t.hdr.det && canRead c.s c.t 0x200000 128
        && !c.s.lateBy 0 0xFF 0 (.launch 0x200000 []) && c.s.queueRoom c.t.pitch (LRec.parse (c.s.bytesAt c.t 0x200000 128)).prio &&
        match c.s.tryAccept c.t.pitch (.ustream 0) 0x200000 (c.s.bytesAt c.t 0x200000 128) with
        | (.settled _, _) => true
        | _ => false)
     && goesRow .launch (.f (ff 30 1 0 0 7 .none 0x180)) (fullQueue sL) (fun c => c.s.accepts.isEmpty && canReach c.s c.t .read true 0x200000 128
        && !c.s.queueRoom c.t.pitch (LRec.parse (c.s.bytes 0x200000 128)).prio)
     && goesU .launch (.f (ff 5 1 0 0 7 .none 0x180)) (fullQueue uL) (fun c => canRead c.s c.t 0x200000 128
        && !c.s.queueRoom c.t.pitch (LRec.parse (c.s.bytesAt c.t 0x200000 128)).prio)) = true := by decide +kernel

/-- R141, R142, R348, R350: an `emit` at a full pool, and a `launch` at a full queue, go on with a counter raised and nothing written. -/
theorem test_late :
    ([runs (.emit (ff 30 2 0 0 0 .none 0x100)) (fullPool sG) (fun t => vAt t 0 30 == some (0, .b32) && t.inflight.length == 1
        && ((t.team? 0).bind (·.frag? 0)).any (fun g => g.wait.isNone) && ((t.team? 0).bind (·.thread? 0 0)).map (·.wcnt 0) == some 1),
      runs (.launch (ff 5 1 0 0 0 .none 0x180)) (fullQueue uL) (fun t => uAt t 5 == some 0 && t.inflight.length == 1
        && (t.team? 0).any (fun u => u.u.wait.isNone && u.u.wcnt 0 == 1))]).all id = true := by decide +kernel

/-! ### The matrix engine -/

/-- An M-stream with leave, m registers (m1 team offset, m2 and m3 a global address, m5 a count, m6 the f32 number 2) and mask k0. -/
def mStr : MStream :=
  { alive := true, cur := here, leave := 100000, m := [(1, 0x40), (2, 0x200000), (5, 1), (6, 0x40000000), (7, 0x100)], k := [(0, 5)] }
def mTeam (m : MStream) : Team :=
  let t := teamOf [] []
  ({ t with
    hdr := { placeHdr with tmem := 0x10000 }, m := some m, rdv := [(0, { init := true, e := 2, a := 1, phase := 7 })],
    mq := [(0, [0x11]), (1, [0x200000012])] } : Team).writeBytes 0x50
      (leBytes 16 (2 ^ 128 - 1))
def sT (m : MStream) : State :=
  (({ stOf (mTeam m) (.mstream 0) with frames := [(0, { owner := 0 })] }).writeBytes 0x200000 (List.replicate 64 0x55))

/-- A register of the M-stream, a mask, and what holds of the stream. -/
def mAt (t : State) (n : Nat) : Option Nat := ((t.team? 0).bind (·.m)).map (fun m => (m.mreg n).toNat)
def kAt (t : State) (n : Nat) : Option Nat := ((t.team? 0).bind (·.m)).map (fun m => (m.kreg n).toNat)
def mHolds (t : State) (ok : MStream → Bool) : Bool := ((t.team? 0).bind (·.m)).any ok

theorem witness_MatrixControlCompletes :
    ([goesM (sT mStr) (fun _ => true), goesM (sT mStr) (fun c => c.m.arrays.all (fun e => e.2.ops == 0) && !c.s.draining c.t.uid),
      goesM (sT mStr) (fun c => !c.t.hdr.det), goesM (sT mStr) (fun c => (c.t.mqueue 0).length == 1),
      goesM (sT mStr) (fun c => (c.t.point 0).init && (c.t.point 0).phase != (c.m.mreg 5).truncate 16),
      goesM { sT mStr with teams := [{ mTeam mStr with rdv := [(23, { init := true, e := 1, a := 0, phase := 65535 })] }] } (fun c => (c.t.point 23).init),
      goesM (sT mStr) (fun c => c.s.grants.isEmpty && min (c.m.mreg 0).toNat 4096 == 0),
      goesM (sT { mStr with paid := true }) (fun c => c.s.grants.isEmpty && c.m.paid),
      goesM (sT mStr) (fun c => c.s.grants.isEmpty && min (c.m.mreg 5).toNat 4096 == 1 && !c.m.paid)]).all id = true := by decide +kernel

/-- R297 to R301, R303, R304: results, loops, queues and arrivals as the tables say. -/
theorem test_matrix_control :
    ([runs (.mli (fi 13 .b32 0xC0000001)) (sT mStr) (fun t => mAt t 13 == some 0xC0000001),
      runs (.madd (ff 13 5 6 0 7 .none 1)) (sT mStr) (fun t => mAt t 13 == some (2 ^ 32 + 1 - 0x40000000)),
      runs (.madd (ff 13 16 5 0 7 .none 10)) (sT mStr) (fun t => mAt t 13 == some 2),
      runs (.mbra (fi 5 .none 0xFFFFFFFC)) (sT mStr) (fun t => mHolds t (fun m => m.cur.pc == 0x100030)),
      runs (.mloop (fi 5 .none 0xFFFFFFFC)) (sT mStr) (fun t => mAt t 5 == some 0 && mHolds t (fun m => m.cur.pc == 0x100048)),
      runs (.mend (ff 0 0 0 0 7 .none 0)) (sT mStr) (fun t => mHolds t (fun m => !m.alive && m.leave == 0)),
      runs (.msr (ff 13 0 0 0 7 .none 22)) (sT mStr) (fun t => mAt t 13 == some 1),
      runs (.mqpop (ff 10 0 0 0 7 .none 5)) (sT mStr) (fun t => mAt t 10 == some 0x12 && mAt t 11 == some 2),
      runs (.marr (ff 13 0 0 0 7 .none 0)) (sT mStr) (fun t => mAt t 13 == some 7 && (t.team? 0).map (fun u => u.point 0) ==
        some { init := true, e := 2, a := 0, phase := 8 }),
      runs (.mwait (ff 0 0 5 0 7 .none 0)) (sT mStr) (fun t => mHolds t (fun m => m.cur.clause.isNone)),
      runs (.mleave (ff 0 5 0 0 7 .none 0)) (sT mStr) (fun t => t.grants.length == 1 && mHolds t (fun m => m.wait.isSome))]).all id = true := by
  decide +kernel

/-- Half a tile, of zero sub-blocks and of elements as they are; a stream that has read all but the last granule. -/
def mGot (n : Nat) : MStream := { mStr with got := List.replicate n 0 }
def reads (c : MCtx) (consume : Bool) (o n : Nat) : Option MCtx :=
  if (c.detBad consume o n).isSome then none
  else
  match c.granules consume o n (n / 16 + 1) with
  | .ok (c1, none) => some c1
  | _ => none
def piece (c : MCtx) (va : DWord) (n : Nat) : Option (List Byte) :=
  match c.s.readVA c.t.pitch c.mdie va n with
  | .ok p _ _ => some p
  | _ => none
def chose (c : MCtx) (f : FForm) : Bool :=
  match c.sel f with
  | .ok is => is == [0] && (c.m.array 0).ops == 0
  | _ => false

theorem witness_MatrixLoadsComplete :
    ([false, true].all (fun k => goesM (sT (mGot 8176)) (fun c =>
        let f := ff 40 48 48 0 7 .e2m1 (if k then 0x10C else 0x108)
        chose c f && c.off f == 0 && f.mb 2 == k && tileBytes .e2m1 (f.mb 3) == 8192 && (reads (c.afterPay 1) k 0 8192).isSome))
     && goesM (sT (mGot 16368)) (fun c =>
        let f := ff 24 1 48 0 7 .e4m3 0xC
        chose c f && c.off f == 0x40 && mwbNeed f c.m.got == 16384 && (reads (c.afterPay 1) false 0x40 16384).isSome)
     && goesM (sT mStr) (fun c =>
        let f := ff 24 2 48 0 7 .e4m3 0
        chose c f && c.global f == 0x200000 && mwbNeed f [] == 64 && (piece (c.afterPay 1) 0x200000 64).any (fun p =>
          mwbNeed f p == 64 && p.length == 64 && !weightBad p.toArray .e4m3 false false))
     && goesM (sT mStr) (fun c => chose c (ff 24 48 48 0 7 .none 0xC) && !((c.m.array 0).wSlot 0).second)
     && goesM (sT mStr) (fun c =>
        let f := ff 24 1 48 0 7 .none 8
        chose c f && msclBytes 2 false == 4 && c.off f == 0x40 && (reads c false 0x40 4).isSome)
     && goesM (sT mStr) (fun c =>
        let f := ff 16 1 48 0 7 .none 1
        c.off f == 0x40 && (reads c false 0x40 16).any (fun c1 => maskBytes (c1.m.got.take 16) == some 48 &&
          (reads c1 false 0x40 48).any (fun c2 => (maskOf (c2.m.got.take 48)).isOk)))) = true := by decide +kernel

/-- An array whose weight slot 24 holds a half tile, and metadata that keeps rows 0 and 1 of every group. -/
def halfArray : MArray := { w := [(0, { half := true, zero := true })] }
def metaTeam : Team :=
  { mTeam { mStr with arrays := [(0, halfArray)] } with tmem := (List.range' 0x800 2048).map (fun j => (j, 0x44)) }

theorem get_run (d : Nat → Byte) (b : Byte) (n lo k : Nat) (h1 : lo ≤ k) (h2 : k < lo + n) :
    FMap.get d ((List.range' lo n).map (fun j => (j, b))) k = b := by
  induction n generalizing lo with
  | zero => omega
  | succ n ih =>
    rw [List.range'_succ, List.map_cons, FMap.get]
    split
    · rfl
    · exact ih (lo + 1) (by omega) (by omega)

theorem bytes_run (t : Team) (b : Byte) (n o : Nat) (h : ∀ k, o ≤ k → k < o + n → t.byte k = b) : t.bytes o n = List.replicate n b := by
  induction n generalizing o with
  | zero => rfl
  | succ n ih => rw [Team.bytes, h o (by omega) (by omega), ih (o + 1) (fun k h1 h2 => h k (by omega) (by omega)), List.replicate_succ]

theorem meta_good (a : Array Byte) (h : ∀ i < 2048, a.getD i 0 = 0x44) : metaBad a = false := by
  rw [metaBad, List.any_eq_false]
  intro n hn
  have h1 : (128 * (n / 128) + n % 128) / 2 < 2048 := by have := List.mem_range.1 hn; omega
  have h2 : n % 128 % 2 = 0 ∨ n % 128 % 2 = 1 := by omega
  have h3 := h _ h1
  rcases h2 with h2 | h2 <;> simp only [keptOf, bits, h3, h2] <;> decide

theorem getD_replicate (n i : Nat) (b : Byte) (h : i < n) : (List.replicate n b).toArray.getD i 0 = b := by simp [Array.getD, h]

/-- The metadata of the witness of `mmasp`. -/
theorem witness_metadata : metaBad (metaTeam.bytes 0x800 2048).toArray = false :=
  meta_good _ (fun i hi => by
    rw [bytes_run metaTeam 0x44 2048 0x800 (fun k h1 h2 => get_run _ _ 2048 0x800 k h1 h2)]
    exact getD_replicate 2048 i 0x44 hi)

/-- Tile addresses of the tests: accumulator tile 44, A slot 40, weight slot 24; base m3 = 0, or m8. -/
theorem witness_MatrixWorkCompletes :
    ([ff 44 40 24 0 7 .none 0, ff 59 43 39 0 7 .none 0x100].all (fun f => goesM (sT mStr) (fun c => chose c f &&
        !mulBad (c.m.array 0) (f.d.toNat - 44) (f.a.toNat - 40) (f.b.toNat - 24) false false
        && !mulBad (c.m.array 0) (f.d.toNat - 44) (f.a.toNat - 40) (f.b.toNat - 24) false true && decide (mulCost (c.m.array 0) 0 0 false ≤ c.m.leave)))
     && goesM (sT mStr) (fun c => (c.m.kreg 16).getLsbD 0 && !(c.m.kreg 17).getLsbD 0)
     && goesM { sT mStr with teams := [{ metaTeam with m := some { mStr with arrays := [(0, halfArray)], m := [(3, 0x800)] } }] } (fun c =>
        chose c (ff 44 40 24 3 7 .none 0) && !mulBad (c.m.array 0) 0 0 0 true false && (c.m.mreg 3).toNat == 0x800
        && c.t.tmem == metaTeam.tmem && (List.range 128).all (fun k => c.t.full (128 + k) && !c.notMine (128 + k)) && decide (mulCost (c.m.array 0) 0 0 true ≤ c.m.leave))
     && goesM (sT mStr) (fun c => chose c (ff 44 44 1 0 7 .none 0) && !(c.m.array 0).tileBad 0 && !(c.m.array 0).tileBad 15)
     && goesM (sT mStr) (fun c => (ff 16 1 48 0 7 .none 0).ty == .none && c.off (ff 16 1 48 0 7 .none 0) == 0x40 && decide (0x40 + 48 ≤ c.t.hdr.tmem))
     && goesM (sT mStr) (fun c => chose c (ff 44 48 48 0 7 .f32 0) && c.off (ff 44 48 48 0 7 .f32 0) == 0
        && tileBytes .f32 false == 0x10000 && c.t.hdr.tmem == 0x10000)) = true := by decide +kernel

/-- R289, R290, R305, R317, R319: the leave of a load is debited by one sixteenth-grain and its array holds one operation more; a
drained mask is a format-0 image; a product into the odd tile of a pair takes FMT (code 2). -/
theorem test_matrix_work :
    ([runs (.mzero (ff 44 0 0 0 7 .none 1)) (sT mStr) (fun t => mHolds t (fun m => (m.array 0).ops == 1 && (m.array 0).pairAt 0)),
      runs (.mwb (ff 24 2 48 0 7 .e4m3 0)) (sT mStr) (fun t => mHolds t (fun m => m.leave == 99999 && (m.array 0).ops == 1 && !((m.array 0).wSlot 0).zero)),
      runs (.mmaskld (ff 17 1 48 0 7 .none 1)) (sT mStr) (fun t => kAt t 17 == some 0xFFFFFFFFFFFFFFFFFFFFFFFFFFFFFFFF),
      runs (.mdrain (ff 16 1 48 0 7 .none 0)) (sT mStr) (fun t => t.drains.map (fun d => d.granules) ==
        [[(4, leBytes 16 (2 ^ 17)), (5, leBytes 16 5), (6, leBytes 16 0)]]),
      runs (.mma (ff 45 40 24 0 7 .none 0)) (sT { mStr with arrays := [(0, ({} : MArray).setT 1 { tag := .pairHigh })] })
        (fun t => causeOf t == some 2)]).all id = true := by decide +kernel
/-! ### Events -/

/-- A plain team behind the address space of `stOf`, with memory from 0x200000 on. -/
def evTeam : Team := teamOf [lane 0 [], lane 1 []] []
def sE (t : Team) : State := withMem (stOf t (.frag 0 0))

/-- The state a clause of a statement asks for, with what it asks. -/
def asks (p : State → Bool) (s : State) : Bool := p s

def waitsAt (w : WaitFor) : State :=
  sE { evTeam with frags := [{ fid := 0, cur := here, wait := some w }], u := { evTeam.u with wait := some (.counterRoom 0) },
                   m := some { mStr with wait := some (.granule true [(0, 0)]) } }

theorem witness_CodeEventsComplete :
    (asks (fun s => s.inflight.any (fun i => i.id == 5 && i.grp.isNone && i.dep == 0 && (s.team? i.uid).isSome))
        { sE evTeam with inflight := [{ id := 5, uid := 0, threads := [(0, 0)], wc := 1, dep := 0 }] }
     && asks (fun s => s.inflight.any (fun i => i.id == 5 && i.dep == 9 && !s.engineLive 9))
        { sE evTeam with inflight := [{ id := 5, uid := 0, threads := [], wc := 1, dep := 9 }] }
     && asks (fun s => s.inflight.any (fun i => i.id == 5 && i.grp == some 1))
        { sE evTeam with inflight := [{ id := 5, uid := 0, threads := [(0, 0)], wc := 1, dep := 0, grp := some 1 }] }
     && asks (fun s => (s.team? 0).any (fun t => t.goesOn (.frag 0 0) && (t.frag? 0).any (fun g =>
          g.wait.any (fun w => s.waitReady t (t.members 0) g.cur.instr? w)))) (waitsAt (.counters 3))
     && asks (fun s => (s.team? 0).any (fun t => t.goesOn (.ustream 0) && t.u.wait.any (s.waitReady t [] t.u.cur.instr?))) (waitsAt .others)
     && asks (fun s => (s.team? 0).any (fun t => t.goesOn (.mstream 0) && (t.m.bind (·.wait)).any (s.waitReady t [] none))) (waitsAt .others)
     && asks (fun s => (s.team? 0).any (fun t => t.goesOn (.lane 0 0 1) && (t.thread? 0 1).any (fun h =>
          h.st == .parked 9 && (s.failedOn h).isNone && s.signalOf 9 == 1)))
        { sE { evTeam with threads := [lane 0 [], { lane 1 [] with st := .parked 9 }] } with
          faults := [{ fseq := 9, pitch := 0, victim := .thread 0 0 1, va := 0, signal := 1 }] }
     && asks (fun s => s.drains.any (fun d => d.id == 3 && s.drainReady d))
        { sE { evTeam with fe := [(4, false)] } with drains := [{ id := 3, uid := 0, kf := false, we := true, granules := [(4, leBytes 16 5)] }] })
      = true := by decide +kernel

/-- R122, R319: the counter falls; the granule takes its bytes and becomes full. -/
theorem test_code_events :
    ([runs (.longLatencyComplete 5) { sE { evTeam with threads := [{ lane 0 [] with w := [(1, 2)] }] } with
        inflight := [{ id := 5, uid := 0, threads := [(0, 0)], wc := 1, dep := 0 }] }
        (fun t => ((t.team? 0).bind (fun u => u.thread? 0 0)).map (fun h => h.wcnt 1) == some 1 && t.inflight == []),
      runs (.mdrainGranuleWrite 3) { sE { evTeam with fe := [(4, false)] } with
        drains := [{ id := 3, uid := 0, kf := false, we := true, granules := [(4, leBytes 16 5)] }] }
        (fun t => (t.team? 0).any (fun u => u.full 4 && leNat (u.bytes 64 16) == 5) && t.drains == [])]).all id = true := by decide +kernel

/-- FLAGS with an element type; engine operation 5 of team 0. -/
def etBits (t : Ty) : Nat := 1024 * ((List.range 32).find? (fun n => tyOf n == some t)).getD 0
def eng5 : Engine := { id := 5, uid := 0, pitch := 0, die := 1, core := 0, launch := 0, team := 0, chit := { addr := 0x200200 } }
def bar (op : BarrowOp) (len p2 flags seq : Nat) : Barrow :=
  { eng := eng5, op := op, src := 0x200000, dst := 0x200400, len := len, p0 := 0, p1 := 0, flags := BitVec.ofNat 32 flags,
    seq := BitVec.ofNat 32 seq, p2 := BitVec.ofNat 64 p2 }
def runningB (s : State) : Bool :=
  s.barrows.any (fun b => b.eng.st == .running && (s.owner? b.eng.uid).isSome && !s.noLeave 5 && decide (b.eng.done < b.total))
def seqBar : Barrow := bar .bred 2 0x200300 (etBits .n32 + 2 ^ 20) 7
def sSeq : State := (({ sE evTeam with barrows := [seqBar] }).writeN 0x200300 8 7).writeN 0x200400 8 (2 ^ 32 * 4 + 5)
/-- A pass over a tile of a screen of 16 by 16 pixels whose next pixel is `n`. -/
def sPass (n : Nat) : State :=
  { sE { evTeam with rcd := { rvsoff := 0, rvslen := 8192 } } with
    dies := [(1, { rvsN := 1 })],
    gleans := [{ eng := { eng5 with chit := { addr := 0x200200 } }, pixel := n, rngMode := 1, rngTab := 0, rngKey := 0,
                 desc := leBytes 48 0 ++ [16, 0, 16, 0] ++ leBytes 76 0 }] }

/-- A Barrow that runs and finds its next `n` bytes and their place. -/
def movesB (n : Nat) (s : State) : Bool :=
  runningB s && s.barrows.any (fun b => (s.owner? 0).any (fun t => match s.barrowDest t b with
    | .ok (_, m, _) =>
      let o := b.eng.done
      m == n && (match b.op with
        | .bcp => decide (m ≤ b.ahead.length) || (s.engineRead t b.ssp (b.src + BitVec.ofNat 64 (o + b.ahead.length))
            (min (64 - (o + b.ahead.length) % 64) (b.total - (o + b.ahead.length)))).2.isNone
        | .bsct => (s.engineRead t b.ssp (b.src + BitVec.ofNat 64 o) m).2.isNone
        | .bgat => (s.gatBytes t b m o m).2.1.isNone
        | op => op == .bfill)
    | .error _ => false))
def oneB (b : Barrow) : State := { sE evTeam with barrows := [b] }

/-- The next quantum: a block, a granule under WE that is empty, the last granule of a block read ahead, words found through an index. -/
theorem witness_BarrowQuanta :
    (movesB 64 (oneB (bar .bcp 64 0 0 0)) && movesB 40 (oneB (bar .bfill 40 9 0 0))
     && asks (fun s => (s.team? 0).any (fun t => !t.full 64)) { oneB { bar .bcp 64 0 516 0 with dst := 0x400 } with teams := [{ evTeam with fe := [(64, false)] }] }
     && movesB 16 { oneB { bar .bcp 64 0 516 0 with dst := 0x400 } with teams := [{ evTeam with fe := [(64, false)] }] }
     && movesB 16 (oneB { bar .bcp 64 0 4 0 with dst := 0x400, eng := { eng5 with done := 48 }, blk := (0, List.replicate 64 7) })
     && movesB 8 (oneB { bar .bgat 2 0 0 0 with p0 := 0x200600, p1 := 4 }) && movesB 4 (oneB { bar .bsct 2 0 0 0 with p0 := 0x200600, p1 := 4 })
     && asks (fun s => runningB s && s.barrows.any (fun b => b.op == .bred && !b.sq && (s.owner? 0).any (fun t => (s.engineRead t b.ssp b.src b.elem).2.isNone
          && (match s.translate t.pitch t.die b.dst .write with
            | .ok k _ => !s.poisoned k b.elem
            | _ => false)))) (oneB (bar .bred 2 0 (etBits .n32) 0))
     && [1, 2].all (fun n => asks (fun s => s.barrows.any (fun b => b.eng.st == .paused 9) && s.signalOf 9 == n)
          { oneB { bar .bcp 64 0 0 0 with eng := { eng5 with st := .paused 9 } } with
            faults := [{ fseq := 9, pitch := 0, victim := .thread 0 0 1, va := 0, signal := n }] })) = true := by decide +kernel

theorem witness_EngineEventsComplete :
    (asks runningB { sE evTeam with barrows := [bar .bcp 64 0 0 0] }
     && asks runningB { sE evTeam with barrows := [bar .bred 2 0 (etBits .n32) 0] }
     && asks (fun s => runningB s && s.barrows.all (fun b => b.sq) && !s.poisoned 0x200300 8 && s.readN 0x200300 8 == 7
          && (match s.translate 0 1 0x200300 .write with
              | .ok k _ => k == 0x200300
              | _ => false)
          && (match s.homesOf 0 1 ((0x200300, 8) :: pagesOf (seqBar.total / 65536 + 2) seqBar.dst seqBar.total) with
              | .ok h => h.all (fun x => x.isSome && x == h.headD none)
              | .error _ => false)
          && (let s1 := (s.putBarrow 5 (some { seqBar with arrived := true })).barrowElems evTeam 5 (seqBar.len + 1)
              (s1.barrow? 5).any (fun b => b.eng.st == .running && decide (b.total ≤ b.eng.done)))) sSeq
     && [0, 1, 254, 255].all (fun n => asks (fun s => s.gleans.all (fun g => g.eng.st == .running && !s.noLeave 5 && decide (g.pixel < 256)
          && (s.owner? 0).any (fun t => match s.pixel t g g.pixel with
            | .ok (some _) => true
            | _ => false))) (sPass n))) = true := by decide +kernel

/-- R237, R239, R382: bytes and sums arrive at the destination, the sequence word advances, and the chit takes STATUS 1. -/
theorem test_engine_events :
    ([runs (.barrowBlock 5) { sE evTeam with barrows := [bar .bcp 4 0 0 0] } (fun t => t.readN 0x200400 4 == 0x44332281
        && t.readN 0x200208 4 == 1 && t.barrows == []),
      runs (.sequencedReducingCopy 5) sSeq (fun t => t.readN 0x200300 8 == 8 && t.readN 0x200400 4 == 0x44332281 + 5
        && t.readN 0x200404 4 == 0x88776655 + 4 && t.readN 0x200208 4 == 1),
      runs (.gleanerPass 5) (sPass 0) (fun t => t.gleans.map (fun g => g.pixel) == [1]),
      runs (.gleanerPass 5) (sPass 255) (fun t => t.gleans == [] && t.readN 0x200208 4 == 1)]).all id = true := by decide +kernel
/-- A ring at an address: empty, of 16 places, its places from 0x200100 on. -/
def ringHdr (used : Nat) : List Byte := leBytes 8 used ++ leBytes 8 0 ++ leBytes 8 16 ++ leBytes 8 0x200100 ++ leBytes 32 0
def sRing (ring used : Nat) : State :=
  let s := (sE evTeam).writeBytes 0x200000 (ringHdr used)
  { s with
    recs := [{ n := 1, ring := ring, die := 1, fault := false, bytes := leBytes 64 3 }],
    pitches := [(0, { part := 0, enable := true, troot := BitVec.ofNat 64 placeRoot, ring := 0x200000 })], pkg := { s.pkg with evring := 0x200000 } }

/-- A team stopped with a cause; in window 3 of die 1; a handler that the pitch has. -/
def stopTeam (cause : Nat) : Team :=
  { evTeam with halt := { phase := .stopped, cause := cause, since := 5 }, frags := [{ fid := 0, cur := here, stop := true }] }
def sWin (t : Team) (n : Nat) : State := { sE t with dies := [(1, { windows := [(3, { uid := some 0 })] })], clk := BitVec.ofNat 64 n }
def sHandler (cause : Nat) (h : DWord) : State :=
  { sE (stopTeam cause) with pitches := [(0, { part := 0, enable := true, troot := BitVec.ofNat 64 placeRoot, handler := h })] }
def parkedTeam : Team :=
  { evTeam with
    hdr := { placeHdr with contd := true, cont := 72 },
    threads := [{ lane 0 [] with st := .parked 9 }, { lane 1 [] with st := .atConv }] }
def sFault (t : Team) : State :=
  { sE t with faults := [{ fseq := 9, pitch := 0, victim := .thread 0 0 0, va := 0 }] }

theorem witness_FaultEventsComplete :
    ([0, 64].all (fun r => [0, 15].all (fun u => asks (fun s => s.recs.any (fun q => q.n == 1 && q.ring == r) && s.ringOpen r &&
          (match s.ringKeys r 1 .read (s.ringAt r) 64, s.ringKeys r 1 .write (s.ringAt r) 8 with
           | .ok ks _, .ok _ _ =>
             let h := RingHdr.parse (s.gather (ringPieces r (s.ringAt r) 64) ks)
             !h.bad 64 && decide (h.used < h.cap) && h.used == u
           | _, _ => false)) (sRing r u)))
     && asks (fun s => (s.team? 0).any (fun t => (t.frag? 0).any t.mayEnter)) (sFault parkedTeam)
     && [0, 0x300000].all (fun h => asks (fun s => (s.team? 0).any (fun t => t.halt.phase == .stopped && t.halt.window.isNone && t.halt.cause == 6
          && s.atRest t && (s.pitch 0).handler == h && ((List.range 64).find? (fun w => (s.window t.die w).uid.isNone)).isSome)) (sHandler 6 h))
     && asks (fun s => (s.windowTeam 1 3).any (fun t => decide (t.halt.since + 2 ^ 24 ≤ s.now))) (sWin (stopTeam 6) (2 ^ 24 + 5))
     && asks (fun s => (s.windowTeam 1 3).any (fun t => t.halt.stepping == some (0, 7) && decide (7 + 65536 ≤ s.now)))
          (sWin { stopTeam 6 with halt := { phase := .stopped, cause := 6, stepping := some (0, 7) } } 65543)
     && [0, 6].all (fun c => asks (fun s => (s.team? 0).any (fun t => !t.retired && t.halt.cause == c && decide (t.born + t.dleft ≤ s.now)))
          (sWin { stopTeam c with born := 10, dleft := 90 } 100))
     && [(0, 2 ^ 39), (6, 100), (0, 100)].all (fun e => asks (fun s => (s.team? 0).any (fun t => !t.retired && (s.preemptDue t).any (fun d => decide (d ≤ s.now)
          && (decide (t.born + t.dleft ≤ d) && t.halt.cause == 0) == (e.1 == 0 && e.2 == 100))))
          { sWin { stopTeam e.1 with born := 10, dleft := e.2 } (2 ^ 40) with preempts := [{ lid := 0, die := 1, core0 := 0, ncore := 100, at_ := 20 }] })
     && asks (fun s => (s.team? 0).any (fun t => !t.retired)) (sE evTeam)) = true := by decide +kernel

/-- R427, R437, R445, R83: the record and the tail; the window of least number; KILL by time-out; DLN (code 12); a poisoned unit. -/
theorem test_fault_events :
    ([runs (.reportRecordWrite 1) (sRing 0 0) (fun t => t.readN 0x200100 4 == 3 && t.readN 0x200000 8 == 1 && t.recs == []),
      runs (.continuationEntry 0 0) (sFault parkedTeam) (fun t => (t.team? 0).any (fun u => u.episodes.length == 1 && u.threads.all (fun h => h.epi))),
      runs (.handlerWindowAssign 0) (sHandler 6 0x300000) (fun t => (t.windowTeam 1 0).any (fun u => u.uid == 0) && t.outbox.length == 1),
      runs (.handlerWindowTimeout 1 3) (sWin (stopTeam 6) (2 ^ 24 + 5)) (fun t => t.teams.all (fun u => u.retired)),
      runs (.handlerWindowTimeout 1 3) (sWin (stopTeam 6) (2 ^ 24 + 4)) (fun t => t.teams.all (fun u => !u.retired)),
      runs (.launchDeadlineExpiry 0) (sWin { evTeam with born := 10, dleft := 90 } 100) (fun t => causeOf t == some 12),
      runs (.launchDeadlineExpiry 0) (sWin { evTeam with born := 10, dleft := 90 } 99) (fun t => causeOf t == some 0),
      runs (.uncorrectableError (.l2OrHbm 0x12345)) (sE evTeam) (fun t => t.poisoned 0x1234F 1 && !t.poisoned 0x12350 16)]).all id = true := by
  decide +kernel

def cmdTeam : Team := { stopTeam 6 with threads := [lane 0 [(2, 5, .s32)], { lane 1 [] with fid := 1, st := .parked 9 }], frags := [{ fid := 0, cur := here, stop := true },
  { fid := 1, cur := here, stop := true }] }
def sCmd : State :=
  let s := sWin cmdTeam 100
  { s with teams := s.teams ++ [{ evTeam with uid := 1, team := 1 }] }

theorem witness_CommandsComplete :
    asks (fun s => isVDie 1 && (s.windowTeam 1 3).any (fun t => t.uid == 0 && t.atStop && t.fragsUp[1]?.isSome
        && (t.thread? 0 0).any (fun h => h.live)
        && [0, 119, 128, 134].all (fun r => decide (r < t.hdr.regs 0 ∨ 128 ≤ r ∧ r < 135)) && (tagOfCode 1).isSome && t.m.isSome && t.mayGoOn
        && (t.frag? 0).isSome && t.threads.any (fun h => h.fid == 0 && h.st == .run)
        && (t.frag? 1).isSome && t.threads.all (fun h => h.fid != 1 || h.st != .run))
      && s.teams.any (fun v => v.launch == 0 && v.team == 1 && !v.retired && v.uid == 1 && v.halt.phase == .running && !v.hdr.det)) sCmd = true := by
  decide +kernel

/-- STEP of a fragment that stands blocked, and of one that stands held on a fault. -/
theorem witness_Step :
    ([({ lane 0 [] with st := .joinWait }, none), (lane 0 [], some (WaitFor.fault 9))].all (fun (e : Thread × Option WaitFor) =>
        asks (fun s => (s.windowTeam 1 3).any (fun t => t.mayGoOn && t.halt.window.isSome
            && (t.flushAll.blocked 0 || (t.flushAll.threads.any (fun h => h.fid == 0 && h.st == .run)
              && (t.flushAll.frag? 0).any (fun g => g.wait == some (.fault 9))))))
          (sWin { stopTeam 6 with threads := [e.1], frags := [{ fid := 0, cur := here, stop := true, wait := e.2 }],
                                  halt := { phase := .stopped, cause := 6, window := some (1, 3) } } 100))
     && asks (fun s => (s.windowTeam 1 3).any (fun t => !t.atStop))
          (sWin { stopTeam 6 with halt := { phase := .stopped, cause := 6, stepping := some (0, 0) } } 100)) = true := by decide +kernel

def windowOf (t : State) : Window := t.window 1 3

/-- R438 to R440: CSTAT 2 and what the commands show and change; STEP leaves CSTAT 1; a command in a running team has CSTAT 3 or higher. -/
theorem test_commands :
    ([runs (.readt 1 3 0 0) sCmd (fun t => (windowOf t).cstat == 2 && !(windowOf t).stage.isEmpty),
      runs (.writet 1 3 (2 * 65536) 9 1) sCmd (fun t => vAt t 0 2 == some (9, .s32) && (windowOf t).cstat == 2),
      runs (.step 1 3 0) sCmd (fun t => (windowOf t).cstat == 1 && (t.team? 0).any (fun u => u.halt.stepping == some (0, 0))),
      runs (.resume 1 3) sCmd (fun t => (t.team? 0).any (fun u => u.halt.phase == .running) && (windowOf t).uid.isNone),
      runs (.kill 1 3 5) sCmd (fun t => (t.team? 0).all (fun u => u.retired)),
      runs (.halt 1 3 0 1) sCmd (fun t => (t.team? 1).any (fun u => u.halt.cause == 0x10))]).all id = true := by decide +kernel
/-- A launch of one team, to which bind record 0 of die 1 gives the cores of that die. -/
def bind0 : BindRec := { lid := 0, team0 := 0, nteam := 1, die := 1, core0 := 0, ncore := 100, bflags := 1, maxres := 0, err := 0, rsv := 0 }
def launch0 (l : Launch → Launch) : Launch :=
  l { lid := 0, pitch := 0, rcd := { code := 0x100000, teams := 1 }, hdr := { placeHdr with ustream := false, mstream := false, tmem := 4096 }, chit := { addr := 0 },
      st := .ready, width := 16 }
def sLaunch (l : Launch → Launch) (ts : List Team) : State :=
  { sE evTeam with launches := [launch0 l], teams := ts, dies := [(1, { rota := [(0, bind0)] })] }
def graphLaunch : Graph := { graph0 with forming := [(0, 0, [0])] }

/-- A team that is saved, its image at 0x200000. -/
def savedTeam : Team := { evTeam with hdr := { placeHdr with cregs := 8, tmem := 0, arrays := 0, mstream := false, ustream := false },
                                      threads := [], frags := [], u := { evTeam.u with alive := false }, m := none }
def sSaved : State :=
  let bs := savedTeam.image 500
  let s := stOf savedTeam (.frag 0 0)
  { s with teams := [], saved := [{ team := savedTeam, addr := 0x200000, size := bs.length }], frames := [(0, { owner := 0 })],
           mem := s.mem ++ (bs.zipIdx.filter (fun e => e.1 != 0)).map (fun e => ((e.2 + 0x200000 : Nat), e.1)) }

/-- A pool of pitch 0 at 0x200600, its ring at 0x200000, with `used` records, the first of them `r`. -/
def sPool (used : Nat) (r : List Byte) : State :=
  let s := (sL.writeBytes 0x200600 (leBytes 8 used ++ leBytes 8 0 ++ leBytes 8 16 ++ leBytes 8 0x200000 ++ leBytes 32 0)).writeBytes 0x200000 r
  { s with launches := [], pitches := [(0, { part := 0, enable := true, troot := BitVec.ofNat 64 placeRoot, pool := [(15, 0x200600)] })] }
/-- The record of `launchRec` with a chit at 0x200A00. -/
def chitRec : List Byte := leBytes 8 0x200400 ++ leBytes 16 0 ++ leBytes 8 0x200A00 ++ leBytes 8 0 ++ leBytes 4 1 ++ leBytes 84 0
/-- A record that the scheduler reads from the pool, sound or not. -/
def brings (sound : Bool) (s : State) : Bool :=
  match s.schedRead 0 (s.poolAt 0 15) 64 with
  | .ok hb =>
    let h := RingHdr.parse hb
    let at_ : DWord := BitVec.ofNat 64 (h.base + 128 * (h.head % h.cap))
    match s.schedRead 0 at_ 128, s.schedWrite 0 (s.poolAt 0 15 + 8) 8 with
    | .ok bs, .ok (ps, ks) =>
      let s1 := s.scatterFor 0 ps ks (leBytes 8 (h.head + 1))
      let r := LRec.parse bs
      !h.bad 128 && decide (h.used ≤ h.cap) && h.used != 0 && s.queueRoom 0 r.prio && s1.recBad 0 bs != sound
        && (!sound || (!r.isGraph && (match s1.schedRead 0 r.code 64 with
            | .ok ib => !hdrBad ib r
            | .error _ => false)))
    | _, _ => false
  | .error _ => false
/-- A queued launch with one DEP chit of STATUS `n`. -/
def sDep (n : Nat) : State := (sLaunch (fun l => { l with st := .queued, rcd := { l.rcd with dep0 := 0x200A00 } }) []).writeN 0x200A08 4 n

/-- Records brought, with and without a chit, the ring with one entry and full; launches with DEP chits of STATUS 1, 3 and 4. -/
theorem witness_recordAccept :
    (brings true (sPool 1 launchRec) && brings true (sPool 16 chitRec) && brings false (sPool 1 (leBytes 128 0))
     && [1, 3, 4].all (fun n => asks (fun s => (s.launch? 0).any (fun l => l.st == .queued && l.depHold.isNone && l.pendChit.isNone && l.final.isNone
          && (match s.schedRead 0 (l.rcd.dep0 + 8) 4 with
            | .ok bs => field bs 0 4 == n
            | .error _ => false))) (sDep n))) = true := by decide +kernel

/-- R389, R391, R395: HEAD advances and the launch stands; a refused record has none; STATUS 0 goes to the chit as SEQNO 1; a DEP chit of
STATUS 1 lets the launch go, one of 3 ends it. -/
theorem test_recordAccept :
    ([runs (.recordAccept 0 15) (sPool 1 launchRec) (fun t => t.launches.map (fun l => (l.lid, l.st)) == [(0, .ready)] && t.readN 0x200608 8 == 1),
      runs (.recordAccept 0 15) (sPool 1 (leBytes 128 0)) (fun t => t.launches == [] && t.readN 0x200608 8 == 1),
      runs (.recordAccept 0 15) (sPool 16 chitRec) (fun t => t.launches.length == 1 && t.readN 0x200A08 8 == 2 ^ 32),
      runs (.launchReady 0) (sDep 1) (fun t => t.launches.map (fun l => l.st) == [.ready]),
      runs (.launchReady 0) (sDep 3) (fun t => t.launches == [])]).all id = true := by decide +kernel

theorem witness_LaunchEventsComplete :
    (asks (fun s => s.poolAt 0 15 != 0 && !(s.pitch 0).poolBroken.contains 15 && (s.pitch 0).enable && s.accepts.isEmpty && (s.pitch 0).poolHold.isEmpty)
        { sE evTeam with pitches := [(0, { part := 0, enable := true, pool := [(15, 0x200000)] })] }
     && asks (fun s => (s.launch? 0).any (fun l => l.pendChit.isNone && l.st == .queued && l.depHold.isNone)) (sLaunch (fun l => { l with st := .queued }) [])
     && asks (fun s => bitOf bind0.bflags.toNat 0 && s.bindErr bind0 == 0 && s.bindErr { bind0 with team0 := 1 } == 2
          && s.bindErr { bind0 with lid := 9 } == 1) (sLaunch id [])
     && asks (fun s => (s.launch? 0).any (fun l =>
          let r := s.bind 1 0
          let part := (s.pitch l.pitch).part
          let group := l.nextGroup r part s.nextId
          let may (c : Nat) : Bool := decide (r.core0.toNat ≤ c) && decide (c < r.core0.toNat + r.ncore.toNat) && decide (c < 100)
            && partOf s.pkg.mode (sliceOf r.die.toNat c) == part
            && !l.noDispatch.any (fun n => n.1 == r.die.toNat && decide (n.2.1 ≤ c) && decide (c < n.2.1 + n.2.2))
          r.lid == 0 && bitOf r.bflags.toNat 0 && l.st == .ready && !l.cancelled && (s.pitch l.pitch).enable && part == 0
          && !s.stopped part 1 ((group.1.head?.map (·.hdr)).getD {}) && !s.graphHeld l && r.maxres == 0 && s.saved.isEmpty && (s.die 1).rvsWant.isNone
          && group.1.length == 1
          && (s.placeGroup may 1 (coresFrom (((s.die 1).lastCore + 1) % 100)) group.1).any (fun ts => ts.length == 1))) (sLaunch id [])
     && asks (fun s => (s.team? 0).any s.mayRetire) (sE { evTeam with
          threads := [{ lane 0 [] with st := .exited }], u := { evTeam.u with alive := false }, m := some { mStr with alive := false } })
     && [false, true].all (fun d => asks (fun s => (s.launch? 0).any (fun l => l.det == d)) (sLaunch (fun l => { l with hdr := { l.hdr with det := d } }) [evTeam]))
     && asks (fun s => s.saved.all (fun v => v.team.uid == 0 && (s.pitch 0).part == v.team.part && !s.stopped v.team.part 1 v.team.hdr
          && (match s.readImage 1 v with
            | .ok _ => true
            | _ => false)
          && (s.placeGroup (fun c => decide (c < 100) && partOf s.pkg.mode (sliceOf 1 c) == v.team.part) 1 [7] [v.team.needs]).isSome)
          && s.saved.length == 1) sSaved) = true := by decide +kernel

/-- R399, R400, R412, R80: a bind record that is refused keeps its ERR code; the placed team; a batch closed. -/
theorem test_launch_events :
    ([runs (.bindRecordWrite 1 3 { bind0 with team0 := 1 }) (sLaunch id []) (fun t => (t.bind 1 3).err == 2 && (t.bind 1 3).bflags == 0),
      runs (.bindRecordWrite 1 3 bind0) (sLaunch id []) (fun t => (t.bind 1 3).err == 0 && (t.launch? 0).any (fun l => l.bound == 1)),
      runs (.teamDispatch 1 0) (sLaunch id []) (fun t => t.teams.map (fun u => (u.die, u.core, u.team, u.width)) == [(1, 0, 0, 16)]
        && (t.launch? 0).any (fun l => l.next == 1)),
      runs (.teamRestore 0 1 7) sSaved (fun t => t.teams.map (fun u => (u.core, u.dleft)) == [(7, 500)] && t.saved == []),
      runs (.batchTimeout 0 0) { sLaunch (fun l => { l with graph := some { graphLaunch with
          nodes := graphLaunch.nodes.map (fun n => { n with tmo := 1 }) } }) [] with clk := 2000 }
        (fun t => (t.launch? 0).any (fun l => l.graph.any (fun g => g.queued.length == 1 && g.forming == [])))]).all id = true := by decide +kernel

/-- Requests of pitches 1 and 2 at an arbiter, and of a stream at a Weighbridge. -/
def grant7 : Grant := { id := 7, die := 0, pitch := 1, grains := 9, op := 0, uid := 0 }
def arb : Arbiter := { b := [(1, 5), (2, -3)], pool := 100, last := 1 }

theorem witness_PowerEventsComplete :
    ([0, 441].all (fun i => asks (fun s => decide (i < arbCount) && decide (s.otherRefills 0 i + s.capacity i ≤ s.capacity i)) {})
     && asks (fun s => decide (s.otherRefills 5 3 + 20 ≤ s.capacity 3)) { pitches := [(0, { refill := [(3, 100)] })] }
     && asks (fun s => decide (s.pkg.periods < s.now / 1024)) { clk := 1024 }
     && asks (fun s => decide (s.pkg.wWindows < s.now / 2000)) { clk := 2000 }
     && asks (fun s => (s.arbiter 3).pick 3 [(2, 4), (1, 9)] == some 1 && (s.arbiter 3).pick 3 [(2, 4), (3, 9)] == some 0
          && decide ((s.arbiter 3).bucket 3 2 ≤ 0)) { arbiters := [(3, arb)] }
     && asks (fun s => s.grants.any (fun h => h.id == 7) && (s.team? 0).any (fun t => t.m.isSome)
          && ((s.arbiter 440).pick 440 ((s.weighable 0).map (fun h => (h.pitch, h.grains)))).any (fun k => (s.weighable 0)[k]? == some grant7)
          && bedOf grant7.die == 0) { sE { evTeam with m := some mStr } with grants := [grant7], arbiters := [(440, { b := [(1, 50)] })] }) = true := by decide +kernel

/-- R403, R408, R409, R411. -/
theorem test_power_events :
    ([runs (.refill 5 3 20 40) { pitches := [(0, { refill := [(3, 100)] })] } (fun t => FMap.get (fun _ => 0) (t.pitch 5).depth 3 == 40),
      runs (.refill 5 3 41 40) {} (fun t => (t.pitch 5).depth == []),
      runs (.weighbridgeGrant 7) { sE { evTeam with m := some mStr } with grants := [grant7], arbiters := [(440, { b := [(1, 50)] })] } (fun t => (t.die 0).credit == 591
        && mHolds t (fun m => m.leave == 100000 + 144) && t.grants == []),
      runs .weighbridgeWindow { clk := 2000, dies := [(0, { credit := -30 }), (1, { credit := 55 })] } (fun t => (t.die 0).credit == 570 && (t.die 1).credit == 600),
      runs .overCurrentClamp {} (fun t => t.pkg.clamp)]).all id = true := by decide +kernel
/-- A fault record of a thread of team 0, not yet signalled; a team that has no party among its victims. -/
def rec9 : FaultRec := { fseq := 9, pitch := 0, victim := .thread 0 0 0, va := 0x200000 }
def sSig : State := { sFault parkedTeam with faults := [rec9, { rec9 with fseq := 10, victim := .pool 0 3 }] }

theorem witness_ServiceEventsComplete :
    (asks (fun s => s.faults.any (fun r => r.fseq == 9 && r.pitch == 0 && r.signal == 0
          && r.victim.party.any (fun p => (s.team? (partyUid p)).any (fun t => t.halt.phase == .running)))
        && s.faults.any (fun r => r.fseq == 10 && r.victim.party.isNone)) sSig
     && asks (fun s => (s.pitch 63).czstat != 1 && (s.czRange 63 (2 * 8191)).all (fun p => s.mayConvert 63 (p / 8192))
          && (s.czRange 63 (2 * 8192)).any (fun p => !s.mayConvert 63 (p / 8192)))
        { pitches := [(63, { part := 4 })], frames := [(0, { owner := 4 })] }
     && asks (fun s => (s.pitch 63).czstat == 1) { pitches := [(63, { czstat := 1 })] }
     && asks (fun s => [0, 8].all (fun v => decide (bits v 0 4 ≤ 8)) && (s.die 5).rvsWant.isNone && isVDie 5) {}
     && asks (fun s => (s.die 5).rvsWant == some 8) { dies := [(5, { rvsWant := some 8 })] }
     && asks (fun s => [0, 0x3F].all (fun v => bits v 0 6 == 0x3F || (partStarts s.pkg.mode).contains (bits v 0 6))) {}
     && asks (fun s => (s.frame 1151).scrub) { frames := [(1151, { scrub := true })] }
     && asks (fun s => s.svc.any (fun r => r.tag == (s.die 5).svctag.toNat)) { svc := [{ tag := 3, uid := 0 }], dies := [(5, { svctag := 3 })] }) = true := by
  decide +kernel

/-- R28, R428, R455, R466, R473. -/
theorem test_service_events :
    ([runs (.sigok 0 9) sSig (fun t => t.signalOf 9 == 1),
      runs (.sigfail 0 9) sSig (fun t => causeOf t == some 5),
      runs (.frameEntry 5 0x30000) {} (fun t => t.frame 5 == { owner := 0, scrub := true, ftag := 3 }),
      runs (.frameScrubDone 0) { sE evTeam with frames := [(0, { scrub := true })] } (fun t => t.readN 0x200000 8 == 0 && !(t.frame 0).scrub),
      runs (.rvsResize 5) { dies := [(5, { rvsN := 1, rvsWant := some 0 })], mem := [(rvsBase + 5 * 2 ^ 32 + 7, 9)] }
        (fun t => t.mem == [] && (t.die 5).rvsN == 0),
      runs (.svcreply 5 77) { sE { evTeam with syscs := [{ tag := 3, row := 255, d := 0, fid := 0 }] } with
          svc := [{ tag := 3, uid := 0 }], dies := [(5, { svctag := 3 })] }
        (fun t => t.svc == [] && (t.team? 0).any (fun u => u.syscs.map (·.reply) == [some 77])),
      runs (.spdmRequest (.measurements 5)) {} (fun t => t.outbox.length == 1)]).all id = true := by decide +kernel

def pkgOf (f : Pkg → Pkg) : State := { pkg := f {} }

theorem witness_TransitionsComplete :
    (asks (fun s => [0x100001, 1].all (fun v => decide (bits v 40 20 ≤ 1000000) && bits v 60 4 == 0 && modeValid (BitVec.ofNat 40 v))
          && s.pkg.modeReq.isNone && s.pkg.dieReq.isNone && s.pkg.ckpt.isNone && s.pkg.mode == 1) {}
     && asks (fun s => s.pkg.modeReq.any (fun r => r.phase == 1 && decide (r.at_ + 2000 * r.drain ≤ s.now)))
        { clk := 4000, pkg := { modeReq := some { start := 0x100001, drain := 2, parts := [0], at_ := 0, phase := 1 } } }
     && asks (fun s => s.pkg.modeReq.any (fun r => r.phase == 1 && s.residents r.parts == []))
        { pkg := { modeReq := some { start := 0x100001, drain := 2, parts := [0], at_ := 0, phase := 1 } } }
     && asks (fun s => s.pkg.purging.contains 0 && s.pkg.modeReq.isNone) (pkgOf (fun k => { k with purging := [0] }))
     && (partStarts ({} : Pkg).mode).contains 0
     && asks (fun s => s.pkg.dieReq.any (fun r => isVDie r.die) && s.teams.all (fun t => t.die != 5 || t.retired) && s.pkg.dieWait.isEmpty)
        { sE evTeam with pkg := { dieReq := some { die := 5, op := 0, list := 0, count := 0, started := true, at_ := 0 } } }
     && asks (fun s => s.pkg.ckpt.isNone && s.pkg.modeReq.isNone && s.pkg.dieReq.isNone) {}
     && asks (fun s => s.pkg.ckpt.any (fun c => decide (c.at_ + 400000000 ≤ s.now))) { clk := 400000000, pkg := { ckpt := some { target := 0, at_ := 0 } } }
     && asks (fun s => s.pkg.ckpt.isSome && s.teams.all (fun t => t.retired)) (pkgOf (fun k => { k with ckpt := some { target := 0, at_ := 0 } }))
     && ((({} : State).afterReset.verify []).2).isNone) = true := by decide +kernel

/-- R453, R454, R464, R470. -/
theorem test_transitions :
    ([runs (.dieOffline 5) {} (fun t => t.pkg.diestat == 2 + 16 * 5 && t.pkg.dieReq.any (fun r => r.started && r.die == 5)),
      runs (.dieOffline 7) {} (fun t => t.pkg.diestat == 4 + 16 * 7),
      runs (.dieOnline 13 []) { dies := [(5, { online := false })] } (fun t => t.pkg.diestat == 3 + 16 * 5 + 128 && (t.die 5).online),
      runs (.ckpt 5) (pkgOf (fun k => { k with modeReq := some { start := 1, drain := 1, parts := [0], at_ := 0, phase := 1 } }))
        (fun t => t.pkg.ckptWait == some 5 && t.pkg.ckpt.isNone),
      runs (.purgeDone 0) (pkgOf (fun k => { k with
          purging := [0], modestat := 2, modeReq := some { start := 0x100001, drain := 1, parts := [0], at_ := 0, phase := 2 } }))
        (fun t => t.pkg.mode == 0x100001 && t.pkg.modestat == 0 && (t.pitch 0).part == 0xFF),
      runs (.modereq 0x100001) {} (fun t => t.pkg.modestat == 1 && t.pkg.modeReq.any (fun r => r.drain == 10000 && r.parts == [0])),
      runs (.modereq 0x100002) {} (fun t => t.pkg.modestat == 3),
      runs (.purgeDone 0) (pkgOf (fun k => { k with purging := [0, 20] })) (fun t => t.pkg.purging == [20]),
      runs (.partreset 0) {} (fun t => t.pkg.purging == [0]),
      runs (.flr 9) { pitches := [(9, { ring := 64, svcmask := 5 })] } (fun t => (t.pitch 9).ring == 0 && t.pkg.purging == [73]),
      runs (.ckptStreamDone false) (pkgOf (fun k => { k with ckpt := some { target := 0, at_ := 0 } })) (fun t => t.pkg.ckptstat == 4 && t.pkg.ckpt.isNone),
      runs (.packageReset []) { pkgOf (fun k => { k with evring := 64 }) with mem := [(5, 1), (2 ^ 60 + 5, 2)] }
        (fun t => t.pkg.evring == 0 && t.mem == [((2 ^ 60 + 5 : Nat), 2)])]).all id = true := by decide +kernel

theorem witness_OutsideComplete :
    (asks (fun s => decide (((0x200000 : DWord)).toNat + 4 ≤ 2 ^ 40) && [ExtOp.read 4, .write [1, 2, 3, 4], .fetchAdd 4 5].all (fun op => op.size == 4
            && op.fits 0x200000 && (match s.reach 0 1 (if op.writes then .write else .read) false (pagesOf (4 / 65536 + 2) 0x200000 4) with
              | .ok _ _ => true
              | _ => false))
          && (s.pitch 0).enable && s.pkg.ckpt.isNone && s.held.isEmpty && s.poison == [] && s.onPort 0 0 && s.onPort 1 0) (sE evTeam)
     && asks (fun s => s.onPackage 1 0x200000 8 && s.onPackage 1 0x8FFFFFFFF8 8 && (ExtOp.swap 8 1).fits 0x200000 && (s.die 5).online) {}
     && asks (fun s => s.onPackage 5 0x3FFFFFFC 8 && s.fabricUp 17 && (ExtOp.read 8).fits 0x3FFFFFFC && (s.frame (0x3FFFFFFC / 2 ^ 29)).ftag == 7
          && (s.frame ((0x3FFFFFFC + 7) / 2 ^ 29)).ftag == 7 && !(s.frame 1).scrub && !(s.frame 2).scrub && s.poison == [])
        { frames := [(1, { ftag := 7 }), (2, { ftag := 7 })] }
     && [0xF4000000000, 0xF4000500010, 0xF4000580008, 0xF0051000440, 0xF0000000100, 0xFC000000018, 0xFFFFFFFFFF8].all (fun a =>
          [0, 1].all (fun p => ({} : State).bar0 p 0 a) && a % 8 == 0)
     && ({} : State).bar0 0 5 0xF4000580008 && !({} : State).bar0 0 5 0xF4000500010 && !({} : State).bar0 1 5 0xF4000580008 && !({} : State).bar0 2 0 0xFC000000018
     && !coreReaches 0xF4000000000 && coreReaches 0xFC000000018
     && decide (({} : State).readReg 0xFC000000018 = some 1 ∨ (({} : State).readReg 0xFC000000018).isNone) && (({} : State).readReg 0xF4000000000).isSome
     && asks (fun s => !s.pkg.unreachable.contains 2303) {}
     && decide ((2303 : BitVec 12).toNat ≤ 2303)) = true := by decide +kernel

/-- R247, R448, R449, R460: a register takes a write within its limits; reads and atomics answer the data. -/
theorem test_outside :
    ([runs (.registerWrite ⟨0, 0⟩ (pitchBlocks + 5 * 0x100000 + 0x10) (.write (leBytes 8 0x40000))) {} (fun t => (t.pitch 5).troot == 0x40000),
      runs (.registerWrite ⟨0, 0⟩ (pitchBlocks + 5 * 0x100000 + 0x10) (.write (leBytes 8 0x40008))) {} (fun t => (t.pitch 5).troot == 0),
      runs (.registerWrite ⟨1, 0⟩ 0xF4000000000 (.read 4)) {} (fun t => t.outbox == [.data [0, 0, 0, 0]]),
      runs (.registerWrite ⟨0, 5⟩ (pitchBlocks + 5 * 0x100000 + 0x10) (.read 4)) {} (fun t => t.outbox == []),
      runs (.hostBar2Access ⟨0, 0⟩ 0x200000 (.fetchAdd 4 1)) (sE evTeam) (fun t => t.readN 0x200000 4 == 0x44332282 && t.outbox == [.data [0x81, 0x22, 0x33, 0x44]]),
      runs (.hostBar2Access ⟨0, 0⟩ 0x20000000 (.read 4)) (sE evTeam) (fun t => t.outbox == [.abort]),
      runs (.fabricRequest ⟨3, 3⟩ 7 0x3FFFFFFC (.read 8)) { frames := [(1, { ftag := 7 }), (2, { ftag := 8 })] } (fun t => t.outbox == [.fabricFail]),
      runs (.fabricRequest ⟨9, 3⟩ 7 0x3FFFFFF8 (.read 8)) { frames := [(1, { ftag := 7 })] } (fun t => t.outbox == [.data (leBytes 8 0)]),
      runs (.fabricDomainFormation 5 ⟨[1, 2, 5], [(2, 1, 9)]⟩) (pkgOf (fun k => { k with unreachable := [1] })) (fun t => t.pkg.domain == [1, 2, 5]
        && t.pkg.unreachable == [] && t.admitsTag 2 (2 ^ 29) 9 && !t.admitsTag 2 0 0)]).all id = true := by decide +kernel
/-! ### Fetching, steps, rules, frames -/

/-- A step of the machine runs a placed instruction as its first; a word with VER 00, or with a code above 0x17, is row code. -/
def stepRuns (nbits w : Nat) (ok : State → Bool) : Bool :=
  match step (State.reset.withFetchWord nbits w) with
  | .next t => ok t
  | _ => false
def wordOf (i : Instr) : Nat := ((encode i).map (·.toNat)).foldr (fun x acc => x + 2 ^ 32 * acc) 0

theorem test_step :
    ([decide (decodeTableWord 32 0 = some (.nop { ff 0 0 0 0 7 .none 0 with interlock := false })),
      stepRuns 64 (wordOf (.vli (fi 13 .s32 7))) (fun t => vAt t 0 13 == some (7, .s32) && vAt t 15 13 == some (7, .s32)),
      stepRuns 64 (wordOf (.mli (fi 13 .b32 7))) (fun t => mAt t 13 == some 7),
      stepRuns 32 0x01600007 (fun t => causeOf t == some 7 && (t.team? 0).any (fun u => u.halt.imm == 7 && u.halt.cpc == 0x100040)),
      stepRuns 32 0x5FF00000 (fun t => causeOf t == some 1)]).all id = true := by decide +kernel

theorem witness_StepKeepsInvariant :
    ([0x40000000, 0x01600007].all (fun w => Memory.wf (State.reset.withFetchWord 32 w).mem && stepRuns 32 w (fun _ => true))) = true := by decide +kernel

theorem witness_EncodeDecode :
    (Instr.wf .row (.vadd (gf 119 0 64 0 7 .s32 8)) && (Instr.vadd (gf 119 0 64 0 7 .s32 8)).parts.isSome
     && Instr.wf .row (.vli (gi 0 .s32 0xFFFFFFFF)) && Instr.wf .ustream (.sadd (ff 63 64 0 0 7 .s64 0)) && Instr.wf .mstream (.madd (ff 15 0 14 0 7 .none 0))
     && Instr.wf .mstream (.mli (fi 13 .b32 0xFFFFFFFF))) = true := by decide +kernel

def clauseIs (st : Stream) (n : Nat) (ws : List Word) (k : Nat) : Bool :=
  match decodeClause st n ws with
  | .ok c => c.instrs.length == k && c.instrs.all (fun i => i.parts.isSome)
  | _ => false

/-- A clause of 15, one that a branch ends, one of a skip that reaches its last instruction, one of the M-stream. -/
theorem witness_TransfersLast :
    (clauseIs .row 8 (0xF :: List.replicate 15 0x40000000) 15 && clauseIs .row 8 (2 :: 0x40000000 :: encode (.exit (ff 0 0 0 0 7 .none 0))) 2
     && clauseIs .ustream 0 (1 :: encode (.ret (ff 0 0 0 0 7 .none 0))) 1
     && clauseIs .row 8 (3 :: (encode (.skip (fi 0 .none 2)) ++ [0x40000000, 0x40000000])) 3
     && !clauseIs .row 8 (2 :: (encode (.skip (fi 0 .none 2)) ++ [0x40000000])) 2
     && clauseIs .mstream 0 (1 :: encode (.mend (ff 0 0 0 0 7 .none 0))) 1
     && clauseIs .row 8 (0x11 :: encode (.vadd (ff 7 0 0 0 7 .s32 0))) 1 && !clauseIs .row 8 (0x11 :: encode (.vadd (ff 8 0 0 0 7 .s32 0))) 1) = true := by
  decide +kernel

theorem witness_ClauseIsLegal : clauseIs .row 8 (3 :: (encode (.skip (fi 0 .none 2)) ++ [0x40000000, 0x40000000])) 3 = true := by decide +kernel

/-- What the statement of a step asks of a state and a party, by the agenda or by the rotation. -/
def stepAsks (s : State) (p : Party) : Bool :=
  let s0 : State := match s.agenda with
    | _ :: rest => { s.turnClock with agenda := rest }
    | [] => { s.turnClock with turn := s.turn + 1 }
  let s1 := s0.actDue (partyUid p)
  (match s.agenda with
   | t :: _ => decide (t = .party p)
   | [] => decide (pickTurn s = some (.party p)))
  && !withheld s0 (.party p)
  && (match partyPlace s1 p with
    | some (t, st, d, n, cur) => mayIssue t p
      && (match cur.clause with
        | some c => c.instrs[cur.idx]?.isSome
        | none => cur.pc.toNat % 4 == 0
          && (match readCode s1 t.pitch d cur.pc 1 with
            | ([w], none) =>
              match decodeClause st n (w :: (readCode s1 t.pitch d (cur.pc + 4) (2 * (w.extractLsb' 0 4).toNat)).1) with
              | .ok c => c.instrs[cur.idx]?.isSome
              | _ => false
            | _ => false))
    | none => false)
def atTurn (s : State) (p : Party) : Bool := (List.range 40).any (fun k => stepAsks { s with agenda := [], turn := k } p)

theorem witness_StepRunsDecoded :
    (stepAsks (State.reset.withFetchWord 32 0) (.frag 0 0) && stepAsks (State.reset.withFetchWord 64 (wordOf (.mli (fi 13 .b32 7)))) (.mstream 0)
     && stepAsks { sA with agenda := [.party (.frag 0 0), .party (.ustream 0)] } (.frag 0 0)
     && stepAsks { sA with agenda := [.party (.ustream 0)] } (.ustream 0)
     && stepAsks { stOf (teamOf [{ lane 0 [] with st := .replay }] []) (.frag 0 0) with agenda := [.party (.lane 0 0 0)] } (.lane 0 0 0)
     && atTurn (State.reset.withFetchWord 32 0) (.frag 0 0) && atTurn sA (.ustream 0)
     && (sA.issue (.frag 0 0) (.nop (ff 0 0 0 0 7 .none 0))).isSome
     && ({ sA with arbiters := (List.range 400).map (fun i => (i, { b := [(0, 0)] })) } : State).issue (.frag 0 0) (.nop (ff 0 0 0 0 7 .none 0)) == none)
    = true := by decide +kernel

def freeFor (o : Opc) (fm : Form) (hs : List Thread) (c : Cursor) : Bool :=
  hs.all (fun h => !countersBusy h.wcnt c.waitMask && !heldUp o fm h && (!flushes o fm || h.pend == [])
    && (!h.on fm.guard || ((decide (5 < fm.wc) || decide (h.wcnt fm.wc < 63)) && decide (h.pend.length + pendNeed o fm ≤ 8))))
/-- Threads whose wait counter 5 stands at 62 and whose pending writes are seven. -/
def busyTeam : Team :=
  let h : Thread := { lane 0 [(1, 0x200000, .n64)] with w := [(5, 62)], pend := List.replicate 7 { reg := 3, val := 0, tag := .b32, left := 2, link := false } }
  { teamOf [h, { h with pos := 1, st := .replay }] [(1, 0x200000)] with u := { (teamOf [] []).u with w := [(5, 62)], pend := h.pend } }
def sBusy (p : Party) : State := stOf busyTeam p
def ldNow : FForm := { ff 30 1 0 0 5 .b32 0x180 with interlock := false, look := 1 }

theorem witness_StartConditions :
    ((sBusy (.frag 0 0)).teams.map (·.uid) == [0] && decide ((keysOf busyTeam.threads).Nodup)
     && (busyTeam.frag? 0).any (fun g => g.cur.clause.isSome && freeFor .ld (.f ldNow) (busyTeam.members 0) g.cur) && (busyTeam.members 0).length == 1
     && (busyTeam.thread? 0 1).any (fun h => h.cur.clause.isSome && freeFor .ld (.f ldNow) [h] h.cur)
     && goesRow .ld (.f ldNow) (sBusy (.frag 0 0)) (fun c => c.mem.length == 1) && goesRow .ld (.f ldNow) (sBusy (.lane 0 0 1)) (fun c => c.mem.length == 1)
     && busyTeam.u.cur.clause.isSome && !countersBusy busyTeam.u.wcnt busyTeam.u.cur.waitMask && busyTeam.u.skip == 0 && decide (busyTeam.u.wcnt 5 < 63)
     && !flushes .bcp (.f ldNow) && decide (busyTeam.u.pend.length + pendNeed .bcp (.f ldNow) ≤ 8)
     && goesRow .join (.f (ff 0 0 0 0 7 .none 0)) sA (fun _ => true)
     && busyTeam.m.any (fun m => m.cur.clause.isSome)) = true := by decide +kernel

theorem witness_TrapAndReturn :
    ((sA.team? 0).any (fun t => t.halt.phase == .running && (t.frag? 0).isSome && t.m.isSome && !t.halt.save)
     && ((sE (stopTeam 6)).team? 0).any (fun t => t.halt.phase != .running && t.halt.cause == 6 && (t.frag? 0).isSome)) = true := by decide +kernel

/-- R143: a load under `VER` 00 and LOOK 1 leaves its write for the second issue after it. -/
theorem test_delayed :
    runs (.ld ldNow) (withMem (stOf (teamOf [lane 0 [(30, 4, .s32)]] [(1, 0x200000)]) (.frag 0 0))) (fun t => vAt t 0 30 == some (4, .s32) &&
      ((t.team? 0).bind (fun u => (u.tickThread 0 0).thread? 0 0)).map (fun h => (h.reg 30).val) == some 0x44332281) = true := by decide +kernel

/-- Pending writes that none holds back, and some that a group operation does. -/
theorem witness_DelayedWrites :
    ((busyTeam.thread? 0 0).any (fun h => h.pend.length == 7 && h.pend.all (fun e => decide (1 < e.left) || e.due.isNone))
     && [none, some 1].all (fun d => let t := teamOf [{ lane 0 [] with pend := [{ reg := 3, val := 5, tag := .s32, left := 1, link := false, due := d },
          { reg := 133, val := 1, tag := .b32, left := 2, link := false }] }] []
        (t.thread? 0 0).any (fun h => h.pend.head?.any (fun e => decide (e.left ≤ 1) && e.due == d))
        && ((t.tickThread 0 0).thread? 0 0).any (fun h => h.pend.length == (if d.isNone then 1 else 2) && (h.reg 3).val == (if d.isNone then 5 else 0)))
     && (writeMode .ld (.f ldNow) 0).delay == some 1 && (writeMode .ld (.f { ldNow with interlock := true }) 0).delay.isNone
     && (sBusy (.frag 0 0)).teams.length == 1 && decide ((keysOf (busyTeam.members 0)).Nodup)) = true := by decide +kernel

/-- The places where the registers of StorageReads end; the invariant at reset. -/
theorem witness_StorageReads :
    Memory.wf State.reset.mem = true ∧ ¬ within 8 4 7 ∧ ¬ within 8 4 12 ∧ ((lane 0 []).put ⟨119, 5, .s32⟩).reg 119 = ⟨5, .s32⟩
    ∧ ((lane 0 []).put ⟨134, 1, .b32⟩).pred 6 = true ∧ (evTeam.setSreg 0 63 5).sreg 0 63 = 5 ∧ (evTeam.u.setSreg 63 5).sreg 63 = 5
    ∧ (mStr.setM 15 5).mreg 15 = 5 ∧ (mStr.setK 23 5).kreg 23 = 5 := by
  simp only [within]; decide +kernel

theorem witness_PredicateFields :
    ([(Opc.pand, ff 6 7 0 0 7 .none 0), (.pset, ff 6 2 0 0 7 .none 0), (.vsel, ff 30 2 3 7 7 .none 0), (.vcmp, ff 0 2 3 0 7 .s32 0)].all (fun e =>
      illegalF .row e.1 e.2 == none)
     && [(Opc.pand, ff 6 7 0 0 7 .none 0)].all (fun e => (shape false e.1 e.2).d == .p && (shape false e.1 e.2).a == .p && (shape false e.1 e.2).b == .p)
     && (shape false .vsel (ff 30 2 3 7 7 .none 0)).c == .p) = true := by decide +kernel

theorem witness_Shifts :
    ([Opc.vshl, .vshr, .vsar, .vrol].all (fun o => goesRow o (.f (ff 30 5 25 0 7 .none 0)) sA (fun _ => true))
     && [Ty.s64, .n64, .s32, .n32].all (fun t => [Opc.sshl, .sshr, .ssar].all (fun o => goesRow o (.f (ff 5 3 4 0 7 t 0)) sA (fun _ => true)
        && goesU o (.f (ff 5 3 4 0 7 t 0)) { sA with cur := some (.ustream 0) } (fun _ => true)))) = true := by decide +kernel

def dotFits (f : FForm) (c : Ctx) (h : Thread) : Bool := tagOk .s8x4 (f.mb 4) (c.vA f h) && tagOk .s8x4 (f.mb 4) (c.vB f h) && tagOk .s32 (f.mb 4) (c.vC f h)
theorem witness_DotProduct :
    (goesRow .vdot4 (.f (ff 30 16 17 2 7 .s8x4 8)) sA (fun c => c.act.all (dotFits (ff 30 16 17 2 7 .s8x4 8) c))
     && goesRow .vdot4 (.f (ff 30 16 17 6 7 .s8x4 8)) sA (fun c => c.act.any (fun h => !dotFits (ff 30 16 17 6 7 .s8x4 8) c h))
     && gives sA (.vdot4 (ff 30 17 17 2 7 .s8x4 8)) 30 0x7FFFFFFF .s32) = true := by decide +kernel

theorem witness_PointInit :
    (goesRow .rdvinit (.f (ff 0 0 2 0 7 .none 22)) sS (fun c => (c.t.point 22).a == 0 && c.act.head?.any (fun h => (h.src 0 2).w.toNat == 4095))
     && goesU .rdvinit (.f (ff 0 0 2 0 7 .none 0)) uS (fun c => (c.u.sreg 2).toNat == 1 && (c.t.point 0).a == 0) && evTeam.rdv == []) = true := by decide +kernel
/-- A thread with misaligned, out-of-range and non-canonical addresses in v5 to v8. -/
def badTeam : Team :=
  { teamOf [lane 0 [(2, 7, .n32), (3, 0x3F800000, .f32), (5, 2, .n32), (6, 0x1000, .n32), (7, 0x80000, .n32), (10, 0, .n64), (11, 0x01000000, .pairHigh)]]
      [(1, 0x200000), (2, 0), (3, 2 ^ 56)] with plot := [0] }
def sBad : State := withMem (stOf badTeam (.frag 0 0))

theorem witness_IssueTraps :
    ([(Opc.vadd, Ty.s32), (.vsub, .s32), (.vmul, .s32), (.vmulh, .s32), (.vcmp, .s32)].all (fun e =>
        goesRow e.1 (.f (ff 30 2 3 0 7 e.2 0)) sBad (fun c => c.act.any (fun h => !fits (ff 30 2 3 0 7 e.2 0) 2 e.2 c h)))
     && goesRow .vmad (.f (ff 30 2 2 3 7 .n32 0)) sBad (fun c => c.act.any (fun h => !fits (ff 30 2 2 3 7 .n32 0) 3 .n32 c h))
     && [Opc.vfadd, .vfmul, .vdiv, .vfcmp].all (fun o => goesRow o (.f (ff 30 3 2 0 7 .f32 0)) sBad (fun c => c.act.any (fun h => !fits (ff 30 3 2 0 7 .f32 0) 2 .f32 c h)))
     && goesRow .vffma (.f (ff 30 3 3 2 7 .f32 0)) sBad (fun c => c.act.any (fun h => !fits (ff 30 3 3 2 7 .f32 0) 3 .f32 c h))
     && goesRow .ld (.f (ff 30 1 5 0 7 .n32 0x100)) sBad (fun c => c.act.any (fun h => (c.globalVA (ff 30 1 5 0 7 .n32 0x100) 5 4 h).toNat % 4 != 0))
     && goesRow .st (.f (ff 0 1 2 5 7 .n32 0x100)) sBad (fun c => c.act.all (fun h => dataOk .n32 (c.regB (ff 0 1 2 5 7 .n32 0x100) h))
        && c.act.any (fun h => (c.globalVA (ff 0 1 2 5 7 .n32 0x100) 5 4 h).toNat % 4 != 0))
     && goesRow .ld (.f (ff 30 3 0 0 7 .n32 0x180)) sBad (fun c => c.act.all (fun h => (c.globalVA (ff 30 3 0 0 7 .n32 0x180) 0 4 h).toNat % 4 == 0
          && (match c.s.reach 0 1 .read true [(c.globalVA (ff 30 3 0 0 7 .n32 0x180) 0 4 h, 4)] with
            | .trap .prot => false
            | _ => true))
        && c.act.any (fun h => (c.globalVA (ff 30 3 0 0 7 .n32 0x180) 0 4 h).getLsbD 57 != (c.globalVA (ff 30 3 0 0 7 .n32 0x180) 0 4 h).getLsbD 56))
     && goesRow .ldt (.f (ff 30 2 5 0 7 .n32 0x100)) sBad (fun c => c.act.any (fun h => !h.made && (c.teamOff (ff 30 2 5 0 7 .n32 0x100) 5 4 h).toNat % 4 != 0))
     && goesRow .ldt (.f (ff 30 2 6 0 7 .n8 0x100)) sBad (fun c => c.act.all (fun h => (c.teamOff (ff 30 2 6 0 7 .n8 0x100) 6 1 h).toNat % 1 == 0)
        && c.act.any (fun h => !h.made && decide (c.t.hdr.tmem ≤ (c.teamOff (ff 30 2 6 0 7 .n8 0x100) 6 1 h).toNat)))
     && [7, 3].all (fun v => goesRow .ldp (.f (ff 30 (if v = 3 then 3 else 2) (if v = 3 then 120 else 7) 0 7 .n8 0x100)) sBad (fun c => c.act.any (fun h =>
          let o := (c.teamOff (ff 30 (if v = 3 then 3 else 2) (if v = 3 then 120 else 7) 0 7 .n8 0x100) (if v = 3 then 120 else 7) 1 h).toNat
          !h.made && (decide (2 ^ 22 ≤ o) || (c.s.member? c.t (bits o 19 3)).all (fun q => decide (q.hdr.tmem ≤ bits o 0 19))))))) = true := by
  decide +kernel

/-- Parties whose writes another device has not acknowledged come to a release of domain scope. -/
def sUnacked : State := { sM with pkg := { unacked := [.lane 0 0 0, .ustream 0] } }
theorem witness_Unacked :
    (goesRow .fence (.f (ff 0 0 0 0 7 .none 12)) sUnacked (fun c => c.act.any (fun h => c.s.pkg.unacked.contains (.lane c.t.uid h.row h.pos)))
     && goesU .fence (.f (ff 0 0 0 0 7 .none 12)) { sUnacked with cur := some (.ustream 0) } (fun c => c.s.pkg.unacked.contains (.ustream c.t.uid))
     && (ff 0 0 0 0 7 .none 12).m 3 2 == 1 && (ff 0 0 0 0 7 .none 12).m 0 3 == 4 && (ff 0 1 2 1 7 .n32 0x198).m 4 2 == 1 && (ff 0 1 2 1 7 .n32 0x198).m 1 3 == 4
     && goesRow .st (.f (ff 0 1 2 1 7 .n32 0x198)) sUnacked (fun c => c.act.all (fun h => dataOk .n32 (c.regB (ff 0 1 2 1 7 .n32 0x198) h)
          && canReach c.s c.t .write false (c.globalVA (ff 0 1 2 1 7 .n32 0x198) 1 4 h) 4 && (c.globalVA (ff 0 1 2 1 7 .n32 0x198) 1 4 h).toNat % 4 == 0)
        && c.act.any (fun h => c.s.pkg.unacked.contains (.lane c.t.uid h.row h.pos)))) = true := by decide +kernel

/-- R461: such a release takes XLAT, one of device scope does not. -/
theorem test_unacked :
    ([runs (.fence (ff 0 0 0 0 7 .none 12)) sUnacked (fun t => causeOf t == some 5),
      runs (.fence (ff 0 0 0 0 7 .none 11)) sUnacked (fun t => causeOf t == some 0),
      runs (.st (ff 0 1 2 1 7 .n32 0x198)) sUnacked (fun t => causeOf t == some 5 && t.readN 0x200000 4 == 0x44332281)]).all id = true := by decide +kernel

/-- R112, R204, R205: FMT, ALN, XLAT, PROT, and nothing is written. -/
theorem test_issue_traps :
    ([runs (.vadd (ff 30 2 3 0 7 .n32 0)) sBad (fun t => causeOf t == some 2 && vAt t 0 30 == some (0, .b32)),
      runs (.st (ff 0 1 2 5 7 .n32 0x100)) sBad (fun t => causeOf t == some 3 && t.readN 0x200000 8 == 0x8877665544332281),
      runs (.ld (ff 30 3 0 0 7 .n32 0x180)) sBad (fun t => causeOf t == some 5 && (t.team? 0).map (fun u => u.halt.va) == some 0x100000000000000),
      runs (.ldt (ff 30 2 6 0 7 .n8 0x100)) sBad (fun t => causeOf t == some 4)]).all id = true := by decide +kernel

/-- Two threads that store to one word, and one byte apart. -/
def sBoth (o : Nat) : State :=
  withMem (stOf (teamOf [lane 0 [(2, 0x11, .n32), (4, 0, .n32)], lane 1 [(2, 0x22, .n32), (4, o, .n32)]] [(1, 0x200000)]) (.frag 0 0))
theorem witness_StoreOrder :
    ([0, 1, 4].all (fun o => goesRow .st (.f (ff 0 1 2 4 7 .n8 0x100)) (sBoth o) (fun c =>
        c.act.map (fun h => h.pos) == [0, 1] && c.act.all (fun h => dataOk .n8 (c.regB (ff 0 1 2 4 7 .n8 0x100) h)
          && canReach c.s c.t .write false (c.globalVA (ff 0 1 2 4 7 .n8 0x100) 4 1 h) 1)))
     && runs (.st (ff 0 1 2 4 7 .n8 0x100)) (sBoth 0) (fun t => t.readN 0x200000 1 == 0x22)) = true := by decide +kernel

/-- What a frame asks: the instruction is one of the list, its party and team are there, and it answers a next state. -/
def framed (i : Instr) (os : List Opc) (s : State) : Bool :=
  i.parts.any (fun e => os.contains e.1) && s.cur.any (fun p => (s.team? (partyUid p)).isSome) && runs i s (fun _ => true)

theorem witness_RegisterFrame :
    ([framed (.vadd (ff 30 2 3 0 7 .s32 0)) vectorOps sA, framed (.vadd (ff 30 2 10 0 7 .s32 0)) vectorOps sA,
      framed (.vfadd (ff 30 10 11 0 7 .f32 0)) vectorOps sA, framed (.vballot (ff 5 0 0 1 7 .none 0)) vectorOps sA,
      framed (.pand (ff 1 2 3 0 7 .none 0)) vectorOps sA, framed (.sadd (ff 5 1 2 0 7 .s64 0)) uniformOps sA,
      framed (.sadd (ff 5 1 2 0 7 .s64 0)) uniformOps uA, framed (.pand (ff 1 2 3 0 7 .none 0)) [.pand, .por, .pxor, .pnot, .sr] uA]).all id = true := by
  decide +kernel

theorem witness_ControlFrame :
    ([framed (.bra (fi 0 .none 4)) controlOps sA, framed (.bra (fi 0 .none 4)) controlOps uA, framed (.call (fi 0 .none 4)) controlOps sA,
      framed (.brk (fi 0 .none 5)) controlOps sA, framed (.nop (ff 0 0 0 0 7 .none 0)) controlOps uA]).all id = true := by decide +kernel

theorem witness_LoadFrame :
    ([framed (.ld (ff 30 1 0 0 7 .b32 0x180)) [.ld] sM, framed (.ld (ff 30 4 0 0 7 .b32 0x180)) [.ld] sM, framed (.slk (fi 5 .s32 0)) [.slk] sM,
      framed (.vlk (fi 5 .b32 0)) [.vlk] sM, framed (.slk (fi 5 .s32 0)) [.slk] uM, framed (.sld (ff 5 1 64 0 7 .s64 0)) [.sld] uM]).all id = true := by
  decide +kernel

theorem witness_StoreFrame :
    ([framed (.st (ff 0 1 2 1 7 .n32 0x180)) [.st] sM, framed (.st (ff 0 1 3 5 7 .n32 0x100)) [.st] sBad, framed (.atom (ff 30 1 4 120 7 .n32 0x100)) [.atom] sM,
      framed (.cas (ff 30 1 2 4 7 .n32 0x100)) [.cas] sM, framed (.sst (ff 0 1 4 64 7 .s64 0)) [.sst] sM,
      framed (.sst (ff 0 1 4 64 7 .s64 0)) [.sst] uM]).all id = true := by decide +kernel

theorem witness_TeamMemoryFrame :
    ([framed (.ldt (ff 30 2 0 0 7 .n32 0x188)) [.ldt] (sLoc true), framed (.ldt (ff 30 2 0 0 7 .n32 0x188)) [.ldt] (sLoc false),
      framed (.ldp (ff 30 2 0 0 7 .n32 0x180)) [.ldp] (sLoc true), framed (.fe (ff 30 2 0 0 7 .none 0x190)) [.fe] (sLoc true),
      framed (.stt (ff 0 2 2 0 7 .n32 0x188)) [.stt] (sLoc false), framed (.stp (ff 0 2 2 0 7 .n32 0x188)) [.stp] (sLoc true),
      framed (.atomt (ff 30 2 2 120 7 .n32 0x100)) [.atomt] (sLoc true), framed (.atomp (ff 30 2 2 120 7 .n32 0x100)) [.atomp] (sLoc true),
      framed (.cast (ff 30 2 2 4 7 .n32 0x100)) [.cast] (sLoc true), framed (.sstt (ff 0 2 4 64 7 .s64 0)) [.sstt] sM,
      framed (.sldt (ff 5 2 64 0 7 .s64 0)) [.sldt] sM]).all id = true := by decide +kernel

theorem witness_MatrixFrame :
    ([framed (.mli (fi 13 .b32 7)) [.mli] (sT mStr), framed (.madd (ff 13 5 6 0 7 .none 1)) [.madd] (sT mStr),
      framed (.mloop (fi 5 .none 0xFFFFFFFC)) [.mloop] (sT mStr), framed (.mzero (ff 44 0 0 0 7 .none 1)) [.mzero] (sT mStr),
      framed (.mwb (ff 24 2 48 0 7 .e4m3 0)) [.mwb] (sT mStr), framed (.mmaskld (ff 17 1 48 0 7 .none 1)) [.mmaskld] (sT mStr),
      framed (.mdrain (ff 16 1 48 0 7 .none 0)) [.mdrain] (sT mStr), framed (.mend (ff 0 0 0 0 7 .none 0)) [.mend] (sT mStr)]).all id
     && Instr.wf .mstream (.mli (fi 13 .b32 7)) && Instr.wf .mstream (.madd (ff 13 5 6 0 7 .none 1)) && Instr.wf .mstream (.mzero (ff 44 0 0 0 7 .none 1)) = true := by
  decide +kernel

theorem witness_MemoryFrame :
    (framed (.vadd (ff 30 2 3 0 7 .s32 0)) [.vadd] sA && !memoryWriters.contains .vadd && framed (.stt (ff 0 2 2 0 7 .n32 0x188)) [.stt] (sLoc false)
     && !memoryWriters.contains .stt && framed (.mzero (ff 44 0 0 0 7 .none 1)) [.mzero] (sT mStr) && !memoryWriters.contains .mzero) = true := by decide +kernel

/-- A session of one thread that has arrived at a group operation. -/
def sArrived (a : Arrival) : State := sE { teamOf [{ lane 0 [] with arr := [a] }] [] with drills := [drill0] }
theorem witness_GroupFrame :
    ([GroupOp.ld 1 0 .s32, .fin, .rst, .save].all (fun o => asks (fun s => (s.team? 0).any (fun t => (t.thread? 0 0).any (fun h =>
        (h.arrival 0).any (fun a => a.op == o)))) (sArrived (bareArrival 0 o true)))
     && asks (fun s => (s.team? 0).any (fun t => canReach s t .write false 0x200000 16448 && (spanPages 0x200000 16448).length == 1 && t.threads.any (fun h => s.groupReady t 0 h)))
        (sArrived { bareArrival 0 .save true with addr := 0x200000 })
     && (spanPages 0x20FFF0 16448).length == 2) = true := by decide +kernel

/-! ### Service requests, and the group operations that act -/

/-- A die whose service ring, at 0x200000, holds three records; the pitch may send number 9. -/
def sSvc (p : Party) (mask : BitVec 256) (ring : DWord) : State :=
  let s := ((withMem (stOf (teamOf [lane 0 [], lane 1 []] [(1, 5)]) p)).writeBytes 0x200000 (ringHdr 3))
  { s with dies := [(1, { svcring := ring })], pitches := s.pitches.map (fun e => (e.1, { e.2 with svcmask := mask })) }
def hears (s : State) (t : Team) (n : Nat) : Bool :=
  let d := s.die t.die
  let h := RingHdr.parse (s.bytes d.svcring.toNat 64)
  decide (n ≤ 255) && (s.pitch t.pitch).svcmask.getLsbD n && d.svcring != 0 && (s.ringMeets t.die d.svcring.toNat 64 true).isNone
    && decide (h.tail - h.head < h.cap) && (s.ringMeets t.die (h.base + 32 * (h.tail % h.cap)) 32 false).isNone
theorem witness_SystemCompletes_sent :
    ([(9, 0x200, (0x200000 : DWord), true), (256, 0x200, 0x200000, false), (9, 0x400, 0x200000, false), (9, 0x200, 0, false)].all (fun e =>
      goesRow .sysc (.i (fi 1 .none e.1)) (sSvc (.frag 0 0) e.2.1 e.2.2.1) (fun c => !c.t.hdr.det && rowsOf c.act == [0] && (c.t.sysc? 0 c.fid).isNone
        && c.s.team? c.t.uid == some c.t && hears c.s c.t e.1 == e.2.2.2
        && (e.2.2.2 || decide (255 < e.1) || !(c.s.pitch c.t.pitch).svcmask.getLsbD e.1 || (c.s.die c.t.die).svcring == 0))
      && goesU .sysc (.i (fi 1 .none e.1)) (sSvc (.ustream 0) e.2.1 e.2.2.1) (fun c => !c.t.hdr.det && (c.t.sysc? 0xFF 0xFFFF).isNone
        && c.s.team? c.t.uid == some c.t && hears c.s c.t e.1 == e.2.2.2))) = true := by decide +kernel

theorem test_sysc :
    (runs (.sysc (fi 1 .none 9)) (sSvc (.frag 0 0) 0x200 0x200000) (fun t => t.readN 0x200000 8 == 4 && t.svc.length == 1
      && t.readN 0x200168 8 == 5 && (t.team? 0).map (fun u => u.syscs.map (·.reply)) == some [none])
     && runs (.sysc (fi 1 .none 9)) (sSvc (.frag 0 0) 0x200 0) (fun t => sAt t 1 == some 0xFFFFFFFFFFFFFFFF)) = true := by decide +kernel

/-- The threads of `drlTeam` have arrived; thread 1 with a false guard under `gfd`. -/
def sGroup (ds : List Drill) (gfd : Bool) (a : Arrival) : State :=
  let t := drlTeam ds
  withMem (stOf { t with threads := t.threads.map (fun h => { h with arr := [if gfd && h.pos == 1 then { a with guard := false } else a] }) } (.frag 0 0))
def arrivedB (s : State) (rows : List Nat) (op : GroupOp) (ok : Team → Thread → Bool) : Bool :=
  (s.team? 0).any (fun t => (t.thread? 0 0).any (fun h => ((t.groupLive rows).head?.any (fun x => x == h))
    && (t.groupLive rows).all (fun x => (x.arrival 0).any (fun b => b.op == op && b.fault == 0)) && ok t h))
/-- Two threads, of which thread 1 has a false guard under `gf`. -/
def sHalf (ds : List Drill) : State :=
  let t := drlTeam ds
  withMem (stOf { t with threads := t.threads.map (fun h => { h with p := if h.pos = 1 then 4 else 0 }) } (.frag 0 0))

theorem witness_IrregularCompletes_guards :
    ([Instr.drlld (gf 0 2 3 0 7 .s32 0), .drlend (gf 30 0 0 3 7 .none 0), .drlsave (gf 0 1 0 0 7 .none 0x100), .drlrst (gf 0 1 0 0 7 .none 0x100)].all (fun i =>
      let o : Opc := match i with
        | .drlld _ => .drlld
        | .drlend _ => .drlend
        | .drlsave _ => .drlsave
        | _ => .drlrst
      goesRow o (.f (gf 30 2 3 3 7 .none 0)) (sHalf (if o = .drlend ∨ o = .drlsave then [drill0] else [])) (fun c =>
        c.mem.length == 2 && c.act.length == 1 && c.mem.all (fun h => (h.arrival 0).isNone)))
     && goesRow .drlend (.f (gf 30 0 0 3 7 .none 0)) (sHalf [{ drill0 with rows := [1] }]) (fun c => c.mem.any (fun h => !c.isOn h && (c.t.session 0 h.row).isNone))
     && goesRow .drlld (.f (ff 0 2 3 0 7 .s32 0)) (sGroup [] true { bareArrival 0 .rst false with addr := 0x200000 })
          (fun c => c.mem.all (fun h => c.t.idleRestore 0 h))) = true := by decide +kernel

theorem witness_IrregularCompletes_acts :
    (arrivedB (sGroup [] true { bareArrival 0 (.ld 1 0 .s32) true with a := 100, b := 2 }) [0] (.ld 1 0 .s32) (fun t _ =>
        t.groupRows 0 1 == [0] && !t.noGroup 0 [0])
     && arrivedB (sGroup [drill0] true { bareArrival 0 .fin true with d := 30, c := 3 }) [0] .fin (fun t _ => t.session 0 0 == some drill0)
     && arrivedB (sGroup [drill0] false (bareArrival 0 .save false)) [0] .save (fun t _ => (imageThread 0 (t.groupLive [0])).isNone)
     && arrivedB (sGroup [drill0] true { bareArrival 0 .save true with addr := 0x200000 }) [0] .save (fun t _ =>
          (imageThread 0 (t.groupLive [0])).any (fun e => canReach (sGroup [] true (bareArrival 0 .fin true)) t .write false e.2.addr 16448))
     && arrivedB (sGroup [{ drill0 with rop := 6, ty := .none }] true (bareArrival 0 .fin true)) [0] .fin (fun t _ => (t.groupLive [0]).all (fun x =>
          (x.arrival 0).all (fun b => b.d == 120)))
     && arrivedB (sGroup [] false (bareArrival 0 .rst false)) [0] .rst (fun t h => (h.arrival 0).any (fun a => a.op == .rst && !a.guard)
          && (t.groupLive [h.row] ++ t.groupLive (t.groupRows h.row 12)).all (fun y => (y.arrival 0).any (fun b => b.op == .rst && !b.guard)))) = true := by
  decide +kernel

/-- The save in team memory: an image fits an allocation of 20 KiB. -/
def sSaveT : State :=
  let s := sGroup [drill0] true { bareArrival 0 .save true with addr := 0x40, space := 1 }
  { s with teams := s.teams.map (fun t => { t with hdr := { t.hdr with tmem := 20480 } }) }
theorem witness_IrregularCompletes_team :
    (arrivedB sSaveT [0] .save (fun t _ => (imageThread 0 (t.groupLive [0])).any (fun e =>
      match sSaveT.spacePlace t e.2.space e.2.addr with
      | .ok (u, o) => (sSaveT.team? u).any (fun q => decide (o + 16448 ≤ q.hdr.tmem))
      | .error _ => false))) = true := by decide +kernel

/-- R327 to R332: acting `drlld` opens a session of the two items of thread 0, thread 1's guard being false; acting `drlend` closes it and tells
thread 0 that its items are not all dealt; an idle `drlrst` leaves nothing behind. -/
theorem test_group_acts :
    ((((sGroup [] true { bareArrival 0 (.ld 1 0 .s32) true with a := 100, b := 2 }).groupAct 0 0 0 0).team? 0).map (fun t =>
        (t.drills.map (fun d => (d.total, d.e, d.slots)), t.threads.map (fun h => h.arr.length))) == some ([(2, 2, [(0, 0), (0, 1)])], [0, 0])
     && (((sGroup [drill0] true { bareArrival 0 .fin true with d := 30, c := 3 }).groupAct 0 0 0 0).team? 0).map (fun t =>
        (t.drills, t.threads.map (fun h => (h.pred 3, h.arr.length)))) == some ([], [(false, 0), (false, 0)])
     && (((sGroup [] false (bareArrival 0 .rst false)).groupAct 0 0 0 0).team? 0).map (fun t => t.threads.map (fun h => h.arr.length)) == some [0, 0]) = true := by
  decide +kernel


theorem bytes_drop (s : State) (k n o : Nat) : (s.bytes k n).drop o = s.bytes (k + o) (n - o) := by
  induction o generalizing k n with
  | zero => simp
  | succ o ih =>
    cases n with
    | zero => simp [State.bytes]
    | succ n => rw [State.bytes, List.drop_succ_cons, ih]; congr 1 <;> omega

theorem bytes_take (s : State) (k n m : Nat) : (s.bytes k n).take m = s.bytes k (min m n) := by
  induction m generalizing k n with
  | zero => simp [State.bytes]
  | succ m ih =>
    cases n with
    | zero => simp [State.bytes]
    | succ n => rw [State.bytes, List.take_succ_cons, ih, Nat.succ_min_succ, State.bytes]

theorem field_bytes (s : State) (k n o m : Nat) : field (s.bytes k n) o m = leNat (s.bytes (k + o) (min m (n - o))) := by
  rw [field, bytes_drop, bytes_take]

theorem byte_past (s : State) (b k : Nat) (h : s.mem.all (fun e => decide (e.1 < b)) = true) (hk : b ≤ k) : s.byte k = 0 := by
  have : ∀ m : FMap Byte, m.all (fun e => decide (e.1 < b)) = true → FMap.get memDefault m k = 0 := by
    intro m
    induction m with
    | nil => intro _; rfl
    | cons e r ih =>
      intro h
      simp only [List.all_cons, Bool.and_eq_true, decide_eq_true_eq] at h
      simp [FMap.get, ih h.2, show ¬ e.1 = k by omega]
  exact this _ h

theorem field_zero (s : State) (k n o m : Nat) (h : ∀ j, k + o ≤ j → s.byte j = 0) : field (s.bytes k n) o m = 0 := by
  rw [field_bytes]
  generalize min m (n - o) = l
  suffices ∀ j, k + o ≤ j → leNat (s.bytes j l) = 0 from this _ (Nat.le_refl _)
  induction l with
  | zero => intro j _; rfl
  | succ l ih => intro j hj; rw [State.bytes, leNat, h j hj, ih (j + 1) (by omega)]; rfl

/-- The image of a session of two slots and no items, at 0x200000; both threads have arrived at its `drlrst`. -/
def sImage : State :=
  let s := sGroup [] true { bareArrival 0 .rst true with addr := 0x200000 }
  { stOf { drlTeam [] with threads := (s.team? 0).elim [] (·.threads) } (.frag 0 0) with
    frames := s.frames
    mem := (stOf (drlTeam []) (.frag 0 0)).mem ++ [(0x200000, 1), (0x200004, 16), (0x200005, 1), (0x200006, 6), (0x200007, 15), (0x20000C, 2)] }

theorem witness_IrregularCompletes_image :
    (Drill.parse 0 [0] 1 16 [(0, 0), (0, 1)] (sImage.bytes 0x200000 16448)).isSome = true := by
  have z : ∀ o m, 64 ≤ o → field (sImage.bytes 0x200000 16448) o m = 0 := fun o m h =>
    field_zero _ _ _ _ _ (fun j hj => byte_past _ 0x200010 j (by decide +kernel) (by omega))
  generalize hb : sImage.bytes 0x200000 16448 = bs at z
  have f : ∀ o m, field bs o m = leNat (sImage.bytes (0x200000 + o) (min m (16448 - o))) := fun o m => by rw [← hb, field_bytes]
  have h0 : field bs 0 4 = 1 := by rw [f]; decide +kernel
  have h4 : field bs 4 1 = 16 := by rw [f]; decide +kernel
  have h5 : field bs 5 1 = 1 := by rw [f]; decide +kernel
  have h6 : field bs 6 1 = 6 := by rw [f]; decide +kernel
  have h7 : field bs 7 1 = 15 := by rw [f]; decide +kernel
  have h8 : field bs 8 4 = 0 := by rw [f]; decide +kernel
  have h12 : field bs 12 2 = 2 := by rw [f]; decide +kernel
  have h14 : field bs 14 50 = 0 := by rw [f]; decide +kernel
  have ht : tyOf 15 = some .none := by decide
  have hp : drillPair 6 .none = true := by decide
  unfold Drill.parse
  simp only [h6, h7, h12, ht]
  simp (disch := omega) only [h0, h4, h5, h8, h14, hp, z, wordAt]
  refine Eq.trans (congrArg Option.isSome (if_neg ?_)) ?_
  · decide +kernel
  · rfl

theorem witness_IrregularCompletes_read (t : Team) (ht : sImage.team? 0 = some t) : sImage.spanRead t 0 0x200000 16448 = .ok (sImage.bytes 0x200000 16448) := by
  have hp : spanPages 0x200000 16448 = [(0x200000, 16448)] := by decide +kernel
  have hr : (sImage.team? 0).map (fun t => sImage.reach t.pitch t.die .read true [(0x200000, 16448)]) = some (.ok [0x200000] true) := by decide +kernel
  rw [ht] at hr
  simp only [Option.map_some, Option.some.injEq] at hr
  simp only [State.spanRead, if_pos, hp, hr, State.gather, List.zip_cons_cons, List.zip_nil_left, List.flatMap_cons, List.flatMap_nil, List.append_nil]

theorem witness_IrregularCompletes_restore :
    (sImage.team? 0).any (fun t => (t.thread? 0 0).any (fun h => (h.arrival 0).any (fun a => a.op == .rst && a.fault == 0 && a.guard && a.addr == 0x200000)
      && (t.groupRows h.row 1 == [0]) && (imageThread 0 (t.groupLive [0])).any (fun e => e.1 == h)
      && (t.groupLive [h.row]).all (fun y => (y.arrival 0).any (fun b => b.op == .rst)))) = true := by decide +kernel

/-! ### Records that waited, commands, requests, and accesses from outside -/
def nextOf (i : Instr) (s : State) : State :=
  match exec i s with
  | .next t => t
  | _ => s
/-- A record that waited at a full pool, and a launch that waited at a full queue; there is room now. -/
def sLateE : State :=
  let s := nextOf (.emit (ff 30 2 0 0 0 .none 0x100)) (fullPool sG)
  { s with launches := s.launches.map (fun l => { l with graph := l.graph.map (fun g => { g with used := [] }) }) }
def sLateL : State :=
  let s := nextOf (.launch (ff 5 1 0 0 0 .none 0x180)) (fullQueue uL)
  { s with launches := s.launches.take 1 }

theorem witness_CodeEventsComplete_late :
    ([(sLateE, true), (sLateL, false)].all (fun e => asks (fun s => s.inflight.any (fun i => i.grp.isNone && (s.inflight.find? (fun j => j.id == i.id) == some i)
      && (s.team? i.uid).any (fun t => i.late.any (fun l => !s.lateBehind i l && l.fault == 0 &&
        match l.op with
        | .emit n o => e.2 && (t.thread? l.row l.pos).any (fun h => h.pend == [] && h.late.any (fun q => q.1 == i.id)) && decide (l.row < 64) &&
            let left := s.setGraph t.launch (fun g => { g with waiting := g.waiting.erase (n, lateParty t.uid l.row l.pos) })
            ((s.launch? t.launch).bind (·.graph)).any (fun g => g.nodes[n]?.any (fun nd => (g.freeSlot n).any (fun x =>
              match left.slotReach t nd x with
              | .ok _ _ => o == 0x40
              | _ => false)))
        | .launch a bs => !e.2 && s.accepts.isEmpty && s.queueRoom t.pitch (LRec.parse bs).prio &&
            match s.tryAccept t.pitch (bringer t.uid l.row l.pos) a bs with
            | (.settled _, _) => true
            | _ => false)))) e.1)) = true := by decide +kernel

/-- R142, R348, R350: the event places what waited, writes the destination and lowers the counter. -/
theorem test_late_done :
    ([runs (.longLatencyComplete ((sLateE.inflight.map (·.id)).headD 0)) sLateE (fun t => vAt t 0 30 == some (0, .n32) && t.readN 0x200800 1 == 0x5A
        && t.inflight == [] && ((t.team? 0).bind (·.thread? 0 0)).map (·.wcnt 0) == some 0),
      runs (.longLatencyComplete ((sLateL.inflight.map (·.id)).headD 0)) sLateL (fun t => t.launches.length == 2 && t.inflight == []
        && (t.team? 0).any (fun u => u.u.wcnt 0 == 0))]).all id = true := by decide +kernel

/-- A WRITET that names no live thread, one that names no register; READS of a team without an M-stream. -/
theorem witness_CommandsComplete_none :
    asks (fun s => (s.windowTeam 1 3).any (fun t => t.atStop && (t.thread? 0 9).isNone && decide (¬ (200 < t.hdr.regs 0 ∨ 128 ≤ 200 ∧ 200 < 135)) && t.m.isNone))
      { sCmd with teams := sCmd.teams.map (fun t => { t with m := none }) } = true := by decide +kernel

theorem test_commands_none :
    ([runs (.writet 1 3 (200 * 65536) 9 1) sCmd (fun t => (windowOf t).cstat == 2 && vAt t 0 2 == some (5, .s32)),
      runs (.reads 1 3 1) { sCmd with teams := sCmd.teams.map (fun t => { t with m := none }) } (fun t => (windowOf t).cstat == 2 && (windowOf t).stage.all (· == 0))]).all id
      = true := by decide +kernel

/-- The record of a graph of one node, whose table stands at 0x200500 and names the code image of `launchRec`. -/
def graphRec : List Byte := leBytes 8 0x200500 ++ leBytes 40 0 ++ leBytes 4 0x10 ++ leBytes 36 0 ++ leBytes 8 0x200800 ++ leBytes 8 0x100 ++ leBytes 24 0
def sPoolG : State :=
  ((sPool 1 graphRec).writeBytes 0x200500 (leBytes 4 1)).writeBytes 0x200540 (leBytes 8 0x200400 ++ leBytes 16 0 ++ leBytes 4 16 ++ leBytes 4 4
    ++ leBytes 2 1 ++ leBytes 1 0 ++ leBytes 1 1 ++ leBytes 4 0 ++ leBytes 8 0xFFFFFFFFFFFFFFFF ++ leBytes 16 0)

theorem witness_recordAccept_graph :
    ((!sPoolG.recBad 0 graphRec && (LRec.parse graphRec).isGraph && (match sPoolG.readGraph 0 (LRec.parse graphRec) with
        | .ok a => a.graph.isSome
        | .error _ => false))
     && runs (.recordAccept 0 15) sPoolG (fun t => t.launches.map (fun l => (l.lid, (l.graph.map (fun g => g.nodes.length)))) == [(0, some 1)])
     && (match (sPool 16 chitRec).translate 0 ((sPool 16 chitRec).schedDie 0) 0x200A00 .write with
        | .ok _ _ => true
        | _ => false)) = true := by decide +kernel

/-- The costs of R462: words of their own, a crate of zeros, a crate with a datum on a page without the attribute. -/
theorem test_costs :
    ((sE evTeam).costOf (.tokens 7) == 7 && (sE evTeam).costOf (.crate 0x300000) == 1 && (sE evTeam).costOf (.crate 0x200010) == 4) = true := by decide +kernel

/-- The die list of one entry at 0x200000, from frame 960 of die 5 to frame 192 of die 1. -/
def sList : State := ({ frames := [(0, { owner := 0 }), (192, { owner := 0 }), (960, { owner := 0 })] } : State).writeBytes 0x200000
  (leBytes 8 (960 * 2 ^ 29) ++ leBytes 8 (192 * 2 ^ 29))
def listReq : DWord := BitVec.ofNat 64 (5 + 0x200000 + 2 ^ 48)

theorem witness_TransitionsComplete_die :
    (asks (fun s => bits listReq.toNat 4 44 * 16 == 0x200000 && bits listReq.toNat 48 16 == 1 && !listReq.getLsbD 3 && (s.die 5).online
        && !s.poisoned 0x200000 16 && s.readN 0x200000 8 == 960 * 2 ^ 29 && homeDie (960 * 2 ^ 29) == 5 && homeDie (192 * 2 ^ 29) == 1) sList
     && runs (.dieOffline listReq) sList (fun t => t.pkg.diestat == 2 + 16 * 5 && t.pkg.dieReq.any (fun r => r.count == 1))
     && runs (.dieOffline listReq) { sList with frames := [] } (fun t => t.pkg.diestat == 4 + 16 * 5)
     && [{ sList with pkg := { modeReq := some { start := 1, drain := 1, parts := [0], at_ := 0, phase := 1 } } },
         { sList with pkg := { ckpt := some { target := 0, at_ := 0 } } }].all (fun s =>
           runs (.dieOffline listReq) s (fun t => t.pkg.dieWait.length == 1 && t.pkg.diestat == 1 + 16 * 5 && t.pkg.dieReq.isNone))) = true := by decide +kernel

/-- Teams resident at the end of a drain: one whose deadline it is, one whose deadline is later. -/
def sDrain (dl : Nat) : State :=
  { sE { evTeam with dleft := dl } with clk := 4000, pkg := { modeReq := some { start := 0x100001, drain := 2, parts := [0], at_ := 0, phase := 1 } } }
theorem witness_TransitionsComplete_drain :
    (asks (fun s => s.pkg.modeReq.any (fun r => s.residents r.parts != [] && decide (r.at_ + 2000 * r.drain ≤ s.now)
        && s.teams.any (fun t => t.born + t.dleft == 4000 && !t.retired) && (s.resetTeams 4000 (s.residents r.parts)).residents r.parts != [])) (sDrain 4000)
     && asks (fun s => s.pkg.modeReq.any (fun r => (s.resetTeams 4000 (s.residents r.parts)).residents r.parts == [])) (sDrain 5000)) = true := by decide +kernel

theorem witness_OutsideComplete_poison :
    (asks (fun s => match s.reach 0 1 .read false (pagesOf 2 0x200000 4) with
        | .ok ks _ => ks == [0x200000] && s.poisoned 0x200000 4
        | _ => false) { sE evTeam with poison := [(0x20000, true)] }
     && [false, true].all (fun f => runs (if f then .fabricRequest ⟨3, 3⟩ 7 0x3FFFFFF8 (.read 8) else .managementCoreAccess ⟨1, 0x3FFFFFF8⟩ (.read 8))
          { frames := [(1, { ftag := 7 })], poison := [(0x3FFFFFF, true)] } (fun t => t.outbox == [.abort]))
     && runs (.hostBar2Access ⟨0, 0⟩ 0x200000 (.read 4)) { sE evTeam with poison := [(0x20000, true)] } (fun t => t.outbox == [.abort])) = true := by decide +kernel

/-- A restore with no RVS launch and no change of ways in its way. -/
theorem witness_LaunchEventsComplete_restore :
    asks (fun s => s.saved.all (fun v => v.team.rcd.rvslen == 0) && (s.die 1).rvsWant.isNone && s.saved.length == 1) sSaved = true := by decide +kernel

theorem witness_CodeKeepsRule :
    (framed (.st (ff 0 1 2 1 7 .n32 0x180)) [.st] sM && framed (.brk (fi 0 .none 5)) [.brk] sA && framed (.mend (ff 0 0 0 0 7 .none 0)) [.mend] (sT mStr)) = true := by
  decide +kernel

/-! ### One event after another (R260) -/

/-- Message passing: thread 0 writes X, then releases at Y; thread 1 acquires at Y, then reads X. -/
def mpX : Loc := { team := none, key := 0 }
def mpY : Loc := { team := none, key := 4 }
def mp : MemExec where
  parties := [{ kind := .thread }, { kind := .thread, row := 1 }]
  events := [{ by_ := [], writes := [mpX, mpY] }, { by_ := [0], writes := [mpX] }, { by_ := [0], writes := [mpY], rel := some 3 },
    { by_ := [1], reads := [mpY], acq := some 3 }, { by_ := [1], reads := [mpX] }]
  rf := fun r _ => if r = 3 then 2 else 1
  co := fun l => if l = mpX then [0, 1] else if l = mpY then [0, 2] else []
  sc := []
  fo := fun _ => []
  sees := fun _ _ => 0
  visible := []

/-- The events beyond the last one are empty. -/
theorem mp_ev (e : Nat) (h : 5 ≤ e) : mp.ev e = { by_ := [] } := by
  obtain ⟨n, rfl⟩ := Nat.exists_eq_add_of_le' h
  rfl

theorem mp_coe (l : Loc) : mp.co l = [0, 1] ∨ mp.co l = [0, 2] ∨ mp.co l = [] := by
  simp only [mp]
  split
  · exact .inl rfl
  · split
    · exact .inr (.inl rfl)
    · exact .inr (.inr rfl)

/-- What holds of each of the five events, and of the empty one, holds of all. -/
theorem mp_all {P : Nat → MEvent → Prop} (h : ∀ e : Fin 5, P e (mp.ev e)) (k : ∀ e, 5 ≤ e → P e { by_ := [] }) (e : Nat) :
    P e (mp.ev e) := by
  by_cases he : e < 5
  · exact h ⟨e, he⟩
  · rw [mp_ev e (by omega)]; exact k e (by omega)

theorem mp_po {e f : Nat} (h : mp.po e f) : e < f := by
  obtain ⟨p, h1, -, h3⟩ := h
  have hp : (mp.party p).kind = .thread := by
    have : p = 0 ∨ p = 1 := mp_all (P := fun _ v => p ∈ v.by_ → p = 0 ∨ p = 1)
      (by simp [Fin.forall_fin_succ, MemExec.ev, mp]; omega) (by simp) e h1
    rcases this with rfl | rfl <;> rfl
  rw [hp] at h3
  exact h3.1

theorem mp_kind (p : Nat) : (mp.party p).kind ≠ .engine ∧ (mp.party p).kind ≠ .host := by
  by_cases h : p < 2
  · rcases (by omega : p = 0 ∨ p = 1) with rfl | rfl <;> exact ⟨by decide, by decide⟩
  · obtain ⟨n, rfl⟩ := Nat.exists_eq_add_of_le' (Nat.not_lt.1 h); exact ⟨nofun, nofun⟩

theorem mp_fork (p : Nat) : (mp.party p).fork = none := by
  by_cases h : p < 2
  · rcases (by omega : p = 0 ∨ p = 1) with rfl | rfl <;> rfl
  · obtain ⟨n, rfl⟩ := Nat.exists_eq_add_of_le' (Nat.not_lt.1 h); rfl

theorem mp_sched (p : Nat) : (mp.party p).isSched = false := by
  by_cases h : p < 2
  · rcases (by omega : p = 0 ∨ p = 1) with rfl | rfl <;> rfl
  · obtain ⟨n, rfl⟩ := Nat.exists_eq_add_of_le' (Nat.not_lt.1 h); rfl

theorem mp_plain (e : Nat) : (mp.ev e).final = none ∧ (mp.ev e).chit = none ∧ (mp.ev e).sc = none ∧ (mp.ev e).full = []
    ∧ (mp.ev e).void = [] ∧ (mp.ev e).fills = [] ∧ (mp.ev e).empties = [] ∧ ∀ l ∈ (mp.ev e).writes, l.team = none :=
  mp_all (P := fun _ v => v.final = none ∧ v.chit = none ∧ v.sc = none ∧ v.full = [] ∧ v.void = [] ∧ v.fills = [] ∧ v.empties = []
    ∧ ∀ l ∈ v.writes, l.team = none) (by simp [Fin.forall_fin_succ, MemExec.ev, mp, mpX, mpY]) (by simp) e

theorem mp_bare (e : Nat) : (mp.ev e).idle = [] ∧ (mp.ev e).sync = [] ∧ (mp.ev e).fence = false ∧ (mp.ev e).sets = false
    ∧ (mp.ev e).done = [] ∧ (mp.ev e).dispatch = none ∧ (mp.ev e).issue = none :=
  mp_all (P := fun _ v => v.idle = [] ∧ v.sync = [] ∧ v.fence = false ∧ v.sets = false ∧ v.done = [] ∧ v.dispatch = none ∧ v.issue = none)
    (by simp [Fin.forall_fin_succ, MemExec.ev, mp]) (by simp) e

theorem mp_co (l : Loc) (w : Nat) : w ∈ mp.co l ↔ w < 5 ∧ l ∈ (mp.ev w).writes :=
  mp_all (P := fun w v => w ∈ mp.co l ↔ w < 5 ∧ l ∈ v.writes)
    (by
      by_cases hx : l = mpX
      · subst hx; decide
      · by_cases hy : l = mpY
        · subst hy; decide
        · simp [Fin.forall_fin_succ, MemExec.ev, mp, hx, hy])
    (fun w hw => by rcases mp_coe l with h | h | h <;> rw [h] <;> simp <;> omega) w

theorem mp_reads (r : Nat) (l : Loc) (h : l ∈ (mp.ev r).reads) : (r = 3 ∧ l = mpY) ∨ (r = 4 ∧ l = mpX) :=
  mp_all (P := fun r v => l ∈ v.reads → (r = 3 ∧ l = mpY) ∨ (r = 4 ∧ l = mpX))
    (by simp [Fin.forall_fin_succ, MemExec.ev, mp]) (by simp) r h

/-- InterleavingAllowed: the five events, one after another. -/
theorem test_InterleavingAllowed : mp.sequential := by
  refine ⟨⟨fun l => ⟨?_, mp_co l, ?_⟩, ?_, List.nodup_nil, ?_, List.nodup_nil, ?_, ?_, ?_, ?_, ?_, ?_⟩, ⟨?_, ?_⟩, ?_, .nil, .nil,
    fun _ => .nil, ?_, ?_, ?_⟩
  · rcases mp_coe l with h | h | h <;> rw [h] <;> decide
  · intro w hw
    have : w = 0 := by rcases mp_coe l with h | h | h <;> rw [h] at hw <;> simp at hw <;> omega
    subst this; rfl
  · intro r l h
    rcases mp_reads r l h with ⟨rfl, rfl⟩ | ⟨rfl, rfl⟩ <;> decide
  · intro f
    simp [mp_plain f, show mp.sc = [] from rfl]
  · intro w
    constructor
    · intro h; cases h
    · rintro ⟨-, l, hl, ht⟩
      rw [(mp_plain w).2.2.2.2.2.2.2 l hl] at ht; cases ht
  · intro g
    refine ⟨List.nodup_nil, fun e => ?_⟩
    simp [mp_plain e, show mp.fo g = [] from rfl]
  · intro f g h; simp [MEvent.looks, mp_plain f, mp_bare f] at h
  · refine ⟨?_, ?_, ?_, ?_, ?_, ?_, ?_, ?_, ?_, ?_⟩
    · intro e p h; simp [mp_plain e] at h
    · intro e h; simp [mp_plain e] at h
    · intro e h; simp [mp_bare e] at h
    · intro e p g h; simp [mp_plain e] at h
    · intro e h; simp [mp_plain e] at h
    · intro e h; simp [mp_plain e] at h
    · intro e p l _ h; exact absurd h (mp_kind p).2
    · intro e p l w a _ h; exact absurd h (mp_kind p).2
    · intro e p l w a q _ h; rw [mp_sched] at h; cases h
    · intro f p g h; simp [mp_bare f] at h
  · refine ⟨?_, ?_⟩
    · intro f h hf; simp [mp_bare f] at hf
    · intro e f h he; simp [mp_bare e] at he
  · intro q r l h; simp [mp_bare q] at h
  · rintro e f (h | ⟨p, -, h⟩ | ⟨k, p, h, -⟩ | ⟨a, h, -⟩ | ⟨p, h, -⟩ | ⟨t, h, -⟩)
    · exact mp_po h
    · rw [mp_fork] at h; cases h
    · rw [(mp_plain f).1] at h; cases h
    · simp [mp_bare e] at h
    · simp [mp_bare f] at h
    · simp [mp_bare e] at h
  · intro e j p d h; rw [(mp_plain j).2.1] at h; cases h
  · intro l; rcases mp_coe l with h | h | h <;> rw [h] <;> decide
  · intro r l h
    rcases mp_reads r l h with ⟨rfl, rfl⟩ | ⟨rfl, rfl⟩ <;> decide
  · intro f g h; simp [MEvent.looks, mp_plain f, mp_bare f] at h
  · intro f g; simp [mp_plain f, mp_bare f]

/-- In it the read of X is not behind the write of X, whatever is allowed. -/
theorem test_message_passing (h : mp.allowed) : ¬ before (mp.co mpX) (mp.rf 4 mpX) 1 := by
  refine MemExec.message_passing h (w := 1) (e := 2) (f := 3) (r := 4) ⟨0, by decide, by decide, ?_⟩
    ⟨3, 3, 2, 3, mpY, by decide, by decide, ⟨by decide, by decide⟩, .inl rfl, .inl rfl, by decide, by decide, .head⟩
    ⟨1, by decide, by decide, ?_⟩ (by decide) (by decide) ?_
  · show 1 < 2 ∧ 2 < 5 ∧ _ = false; decide
  · show 3 < 4 ∧ 4 < 5 ∧ _ = false; decide
  rintro ⟨h, -⟩
  simp [MemExec.ev, mp] at h

/-- A `fence.sc` of scope `.device` releases and acquires there, and stands in S (R259). -/
theorem test_orders_fence : ordersOf .fence (ff 0 0 0 0 0 .b32 27) 0 0 = { rel := some 3, acq := some 3, sc := some 3 } := by decide

/-- An `st.sc` is the store and then a `fence.sc` (R259). -/
theorem test_orders_events : (({ rel := some 3, sc := some 3 } : Orders).events { by_ := [0], writes := [mpX] }).map (·.writes)
    = [[mpX], []] := by decide

end Sys2Proof.Tests
end

