-- ==== Sys2Proof/Proofs/Canonical.lean ====
section
/-! SUPPORT. Memory in its canonical form: what each operation of the machine leaves of it. -/

namespace Sys2Proof.Machine

open Sys2Proof

/-! ### Operations that leave memory as it is -/

@[simp] theorem State.mem_ite (p : Prop) [Decidable p] (a b : State) : (if p then a else b).mem = if p then a.mem else b.mem :=
  apply_ite State.mem p a b

/-- A fold of steps that leave memory leaves memory. -/
theorem State.foldl_mem {α : Type} {f : State → α → State} (hf : ∀ s x, (f s x).mem = s.mem) (l : List α) (s : State) :
    (l.foldl f s).mem = s.mem := by
  induction l generalizing s with
  | nil => rfl
  | cons a l ih => rw [List.foldl_cons, ih, hf]

namespace State

variable (s : State)

@[simp] theorem fill_mem (c : Cache) (n : Nat) : (s.fill c n).mem = s.mem := rfl

@[simp] theorem fillL2_mem (d x n : Nat) (wr : Bool) : (s.fillL2 d x n wr).mem = s.mem := by
  obtain ⟨cs, e⟩ := s.fillL2_eq d x n wr
  rw [e]

@[simp] theorem fillDie_mem (x d : Nat) (va : DWord) (k : Nat) (c wr : Bool) : (s.fillDie x d va k c wr).mem = s.mem := by
  simp [fillDie]

@[simp] theorem fillFor_mem (x d core : Nat) (via : Via) (va : DWord) (k : Nat) (c wr : Bool) :
    (s.fillFor x d core via va k c wr).mem = s.mem := by
  cases via <;> simp [fillFor]

@[simp] theorem fillPieces_mem (x d core : Nat) (via : Via) (ps : List (DWord × Nat)) (ks : List Nat) (c wr : Bool) :
    (s.fillPieces x d core via ps ks c wr).mem = s.mem := foldl_mem (fun _ _ => by simp) _ _

@[simp] theorem acquire_mem (n : Nat) (tw : Bool) (d core : Nat) : (s.acquire n tw d core).mem = s.mem := rfl

@[simp] theorem dropRec_mem (ring : Nat) : (s.dropRec ring).mem = s.mem := by simp [dropRec]

@[simp] theorem post_mem (ring die : Nat) (fl : Bool) (r : Rec) : (s.post ring die fl r).mem = s.mem := by simp [post]

@[simp] theorem raise_mem (x d : Nat) (v : Victim) (pg : Bool) (r : Rec) : (s.raise x d v pg r).2.mem = s.mem := by simp [raise]

@[simp] theorem report_mem (ring die : Nat) (r : Rec) : (s.report ring die r).mem = s.mem := by simp [report]

@[simp] theorem stepDone_mem (uid : Nat) : (s.stepDone uid).mem = s.mem := by
  unfold stepDone
  split
  · rfl
  · split <;> simp

@[simp] theorem trap_mem (p : Party) (c : Cause) (idx : Option Nat) : (s.trap p c idx).mem = s.mem := by simp [trap]

@[simp] theorem count_mem (uid : Nat) (hs : List (Nat × Nat)) (wc dep : Nat) : (s.count uid hs wc dep).mem = s.mem := by simp [count]

@[simp] theorem countU_mem (uid wc dep : Nat) : (s.countU uid wc dep).mem = s.mem := by simp [countU]

@[simp] theorem settle_mem (uid : Nat) : (s.settle uid).mem = s.mem := by simp [settle]

@[simp] theorem hold_mem (t : Team) (p : Party) (fl : Nat) (va : DWord) (pg : Bool) : (s.hold t p fl va pg).2.mem = s.mem := by
  cases p <;> simp [hold]

@[simp] theorem park_mem (uid : Nat) (cur : Cursor) (h : Thread) (fl : Nat) (va : DWord) (pg : Bool) :
    (s.park uid cur h fl va pg).mem = s.mem := by
  unfold park
  split <;> simp

@[simp] theorem feChange_mem (w : FeWait) (uid g me : Nat) : (s.feChange w uid g me).mem = s.mem := by
  cases w <;> rfl

end State

@[simp] theorem finishFrag_mem (o : Opc) (fm : Form) (c : Ctx) (s : State) (adv : Bool) : (finishFrag o fm c s adv).mem = s.mem := by
  simp [finishFrag]

@[simp] theorem stayFrag_mem (c : Ctx) (s : State) (w : WaitFor) : (stayFrag c s w).mem = s.mem := by
  unfold stayFrag
  split <;> simp

@[simp] theorem finishU_mem (o : Opc) (fm : Form) (uid : Nat) (s : State) (k adv : Bool) : (finishU o fm uid s k adv).mem = s.mem := by
  simp [finishU]

@[simp] theorem stayU_mem (uid : Nat) (s : State) (w : WaitFor) : (stayU uid s w).mem = s.mem := by simp [stayU]

@[simp] theorem finishM_mem (uid : Nat) (s : State) (adv : Bool) : (finishM uid s adv).mem = s.mem := by simp [finishM]

@[simp] theorem stayM_mem (uid : Nat) (s : State) (w : WaitFor) : (stayM uid s w).mem = s.mem := by simp [stayM]

/-! ### Answers whose memory is in its canonical form -/

/-- A state with the same memory keeps the canonical form. -/
theorem State.Inv.of_mem {s t : State} (h : s.Inv) (e : t.mem = s.mem) : t.Inv := by
  unfold State.Inv; rw [e]; exact h

theorem State.Inv.ite {a b : State} {p : Prop} [Decidable p] (ha : a.Inv) (hb : b.Inv) : (if p then a else b).Inv := by
  split
  · exact ha
  · exact hb

theorem State.Inv.foldl {α : Type} {f : State → α → State} (hf : ∀ s x, s.Inv → (f s x).Inv) (l : List α) {s : State} (h : s.Inv) :
    (l.foldl f s).Inv :=
  List.foldlRecOn l f h (fun s hs x _ => hf s x hs)

/-- A fold that carries a value beside the state. -/
theorem State.Inv.foldl_fst {α β : Type} {f : State × β → α → State × β} {l : List α} (hf : ∀ acc, ∀ x ∈ l, acc.1.Inv → (f acc x).1.Inv)
    {acc : State × β} (h : acc.1.Inv) : (l.foldl f acc).1.Inv :=
  List.foldlRecOn (motive := fun acc => acc.1.Inv) l f h (fun acc hs x hx => hf acc x hx hs)

theorem State.Inv.writeBytes {s : State} (h : s.Inv) (k : Nat) (bs : List Byte) : (s.writeBytes k bs).Inv := s.writeBytes_inv k bs h

theorem State.Inv.writeN {s : State} (h : s.Inv) (k n x : Nat) : (s.writeN k n x).Inv := s.writeN_inv k n x h

theorem State.Inv.clearRange {s : State} (h : s.Inv) (lo hi : Nat) : (s.clearRange lo hi).Inv := s.clearRange_inv lo hi h

theorem State.Inv.put {s : State} (h : s.Inv) (x k : Nat) (bs : List Byte) : (s.put x k bs).Inv :=
  (h.writeBytes k bs).of_mem (s.put_mem x k bs)

theorem State.Inv.scatter {s : State} (h : s.Inv) (ps : List (DWord × Nat)) (ks : List Nat) (bs : List Byte) : (s.scatter ps ks bs).Inv := by
  induction ps generalizing s ks bs with
  | nil => exact h
  | cons p ps ih =>
    cases ks with
    | nil => exact h
    | cons k ks => exact ih (h.writeBytes _ _) _ _

theorem State.Inv.scatterFor {s : State} (h : s.Inv) (x : Nat) (ps : List (DWord × Nat)) (ks : List Nat) (bs : List Byte) :
    (s.scatterFor x ps ks bs).Inv := by
  induction ps generalizing s ks bs with
  | nil => exact h
  | cons p ps ih =>
    cases ks with
    | nil => exact h
    | cons k ks => exact ih (h.put _ _ _) _ _

/-- The state that a meaning answers with. -/
def Out.state : Out → State
  | .done s | .moved s | .wait s _ | .trap s _ => s

@[simp] theorem Out.state_done (s : State) : (Out.done s).state = s := rfl
@[simp] theorem Out.state_moved (s : State) : (Out.moved s).state = s := rfl
@[simp] theorem Out.state_wait (s : State) (w : WaitFor) : (Out.wait s w).state = s := rfl
@[simp] theorem Out.state_trap (s : State) (c : Cause) : (Out.trap s c).state = s := rfl
@[simp] theorem trapNow_state (s : State) (t : Trap) : (trapNow s t).state = s := rfl

/-- The state of a meaning's answer keeps memory in its canonical form. -/
def Out.Inv (r : Out) : Prop := r.state.Inv

/-- A next state, if there is one, keeps memory in its canonical form. -/
def NextInv : Host.Outcome State Fault Refusal → Prop
  | .next t => t.Inv
  | .fault _ | .refused _ => True

theorem NextInv.ite {a b : Host.Outcome State Fault Refusal} {p : Prop} [Decidable p] (ha : NextInv a) (hb : NextInv b) :
    NextInv (if p then a else b) := by
  split
  · exact ha
  · exact hb

theorem State.Inv.out {s : State} (h : s.Inv) {r : Out} (e : r.state.mem = s.mem) : r.Inv := h.of_mem e

theorem Out.Inv.ite {a b : Out} {p : Prop} [Decidable p] (ha : a.Inv) (hb : b.Inv) : (if p then a else b).Inv := by
  split
  · exact ha
  · exact hb

/-- What a party comes to: a context, or the state that holds it, with the canonical form. -/
def Start.Inv {γ : Type} (st : γ → State) : Start γ → Prop
  | .go c => (st c).Inv
  | .hold s => s.Inv
  | .stop _ => True

theorem Start.Inv.ite {γ : Type} {st : γ → State} {a b : Start γ} {p : Prop} [Decidable p] (ha : a.Inv st) (hb : b.Inv st) :
    (if p then a else b).Inv st := by
  split
  · exact ha
  · exact hb

theorem rowIssue_inv {s : State} (h : s.Inv) (o : Opc) (fm : Form) (p : Party) (uid fid : Nat) (cur : Cursor) (ks : List (Nat × Nat)) :
    (rowIssue o fm s p uid fid cur ks).Inv Ctx.s := by
  unfold rowIssue
  dsimp only
  split
  · trivial
  · split
    · exact h.of_mem (by simp)
    · exact h

theorem rowStart_inv {s : State} (h : s.Inv) (o : Opc) (fm : Form) : (rowStart o fm s).Inv Ctx.s := by
  unfold rowStart
  split
  · split
    · trivial
    · split
      · trivial
      · split
        · trivial
        · split
          · exact h.of_mem (by simp)
          · exact rowIssue_inv (h.of_mem (by simp)) _ _ _ _ _ _ _
  · split
    · trivial
    · split
      · trivial
      · split
        · trivial
        · exact rowIssue_inv h _ _ _ _ _ _ _
  · trivial

theorem uStart_inv {s : State} (h : s.Inv) (o : Opc) (fm : Form) : (uStart o fm s).Inv UCtx.s := by
  unfold uStart
  split
  · split
    · trivial
    · split
      · trivial
      · split
        · exact h.of_mem (by simp)
        · dsimp only
          split
          · trivial
          · exact .ite (h.of_mem (by simp)) (.ite (h.of_mem (by simp)) (.ite (h.of_mem (by simp)) (.ite (h.of_mem (by simp))
              (h.of_mem (by simp)))))
  · trivial

theorem mStart_inv {s : State} (h : s.Inv) : (mStart s).Inv MCtx.s := by
  unfold mStart
  split
  · split
    · trivial
    · split
      · trivial
      · split
        · trivial
        · exact h
  · trivial

theorem runRow_inv {s : State} (h : s.Inv) {o : Opc} {fm : Form} {body : Ctx → Out} (hb : ∀ c : Ctx, c.s.Inv → (body c).Inv) :
    NextInv (runRow o fm body s) := by
  have hs := rowStart_inv h o fm
  unfold runRow
  cases e : rowStart o fm s with
  | go c =>
    rw [e] at hs
    have hc := hb c hs
    dsimp only [blame, concludeFrag]
    cases e2 : body c <;> rw [e2] at hc <;> exact State.Inv.of_mem hc (by simp)
  | hold s' => rw [e] at hs; exact hs
  | stop f => trivial

theorem runU_inv {s : State} (h : s.Inv) {o : Opc} {fm : Form} {body : UCtx → Out} (hb : ∀ c : UCtx, c.s.Inv → (body c).Inv) :
    NextInv (runU o fm body s) := by
  have hs := uStart_inv h o fm
  unfold runU
  cases e : uStart o fm s with
  | go c =>
    rw [e] at hs
    have hc := hb c hs
    dsimp only [concludeU]
    cases e2 : body c <;> rw [e2] at hc <;> exact State.Inv.of_mem hc (by simp)
  | hold s' => rw [e] at hs; exact hs
  | stop f => trivial

theorem runM_inv {s : State} (h : s.Inv) {body : MCtx → Out} (hb : ∀ c : MCtx, c.s.Inv → (body c).Inv) : NextInv (runM body s) := by
  have hs := mStart_inv h
  unfold runM
  cases e : mStart s with
  | go c =>
    rw [e] at hs
    have hc := hb c hs
    dsimp only [concludeM]
    cases e2 : body c <;> rw [e2] at hc <;> exact State.Inv.of_mem hc (by simp)
  | hold s' => rw [e] at hs; exact hs
  | stop f => trivial

theorem runRU_inv {s : State} (h : s.Inv) {o : Opc} {fm : Form} {row : Ctx → Out} {u : UCtx → Out}
    (hr : ∀ c : Ctx, c.s.Inv → (row c).Inv) (hu : ∀ c : UCtx, c.s.Inv → (u c).Inv) : NextInv (runRU o fm row u s) := by
  unfold runRU
  split
  · exact runU_inv h hu
  · exact runRow_inv h hr

/-! ### The common bodies -/

theorem lanes_inv (f : Ctx → Thread → LaneOut) (c : Ctx) (h : c.s.Inv) : (lanes f c).Inv := by
  unfold lanes
  dsimp only
  split <;> exact h

theorem perRow_inv (sdst : Bool) (f : Ctx → Nat → Thread → Except Trap (List RegW × List RegW)) (c : Ctx) (h : c.s.Inv) :
    (perRow sdst f c).Inv := by
  unfold perRow
  split
  · exact h
  · dsimp only
    split <;> exact h

theorem uWrites_inv (f : UCtx → Except Trap (List RegW)) (c : UCtx) (h : c.s.Inv) : (uWrites f c).Inv := by
  unfold uWrites
  split <;> exact h

theorem mSelf_inv (f : MCtx → Except Trap MStream) (c : MCtx) (h : c.s.Inv) : (mSelf f c).Inv := by
  unfold mSelf
  split <;> exact h

/-! ### Accesses of memory -/

theorem Ctx.perform_inv {c : Ctx} {via : Via} {wr : Bool} {go : Ctx → Thread → List (DWord × Nat) → List Nat → State → State × List RegW}
    (hg : ∀ h ps ks s, s.Inv → (go c h ps ks s).1.Inv) (h : Thread) (ps : List (DWord × Nat)) (ks : List Nat) (cached : Bool) {s : State}
    (hs : s.Inv) : (c.perform via wr go h ps ks cached s).Inv :=
  (hg h ps ks s hs).of_mem (by simp [Ctx.perform])

theorem globalOp_inv {via : Via} {acc : Access} {reads det : Bool} {fl : Nat} {plan : Ctx → Thread → Plan}
    {go : Ctx → Thread → List (DWord × Nat) → List Nat → State → State × List RegW} {c : Ctx} (hc : c.s.Inv)
    (hg : ∀ h ps ks s, s.Inv → (go c h ps ks s).1.Inv) : (globalOp via acc reads det fl plan go c).Inv := by
  unfold globalOp
  dsimp only
  split
  · exact hc
  · split
    · exact hc
    · refine State.Inv.foldl (fun s r hs => ?_) _ hc
      split
      · exact c.perform_inv hg _ _ _ _ hs
      · exact hs.of_mem (by simp)
      · exact hs

theorem heldRead_inv {s : State} (h : s.Inv) (t : Team) (p : Party) (fl : Nat) (va : DWord) (n : Nat) {k : List Byte → Out}
    (hk : ∀ bs, (k bs).Inv) : (heldRead s t p fl va n k).Inv := by
  unfold heldRead
  split
  · exact hk _
  · exact h
  · exact h.out (by simp)
  · exact h

theorem heldReads_inv {s : State} (h : s.Inv) (t : Team) (p : Party) (fl : Nat) (rs : List (Nat × DWord × Nat))
    {k : State → List (Nat × List Byte) → Out} (hk : ∀ s vs, s.Inv → (k s vs).Inv) : (heldReads s t p fl rs k).Inv := by
  unfold heldReads
  dsimp only
  split
  · exact h
  · split
    · exact h.out (by simp)
    · split
      · exact h
      · refine hk _ _ (h.of_mem (State.foldl_mem (fun s x => ?_) _ _))
        split <;> simp

theorem dataReads_inv {s : State} (h : s.Inv) (t : Team) (p : Party) (offs : List (Nat × Except Trap DWord × Nat))
    {k : State → List (Nat × List Byte) → Out} (hk : ∀ s vs, s.Inv → (k s vs).Inv) : (dataReads s t p offs k).Inv := by
  unfold dataReads
  split
  · exact h
  · exact heldReads_inv h _ _ _ _ hk

theorem feRun_inv {c : Ctx} (hc : c.s.Inv) (w : FeWait) {as : List FeAct} (ha : ∀ a ∈ as, ∀ s : State, s.Inv → (a.go s).1.Inv) :
    (feRun w c as).Inv := by
  unfold feRun
  dsimp only
  generalize e : List.foldl _ _ as = r
  have hr : r.1.Inv := by
    rw [← e]
    refine State.Inv.foldl_fst (fun acc a hm hs => ?_) hc
    split
    · exact hs
    · split
      · exact hs
      · split
        · exact hs
        · exact ha a hm _ hs
  split <;> exact hr

theorem localOp_inv {w : FeWait} {det : Bool} {at_ : Ctx → Thread → Except Trap (Nat × Nat)}
    {go : Ctx → Thread → Nat → Nat → State → State × List RegW} {c : Ctx} (hc : c.s.Inv)
    (hg : ∀ h uid o s, s.Inv → (go c h uid o s).1.Inv) : (localOp w det at_ go c).Inv := by
  unfold localOp
  dsimp only
  split
  · exact hc
  · refine feRun_inv hc w (fun a ha s hs => ?_)
    obtain ⟨r, -, e⟩ := List.mem_filterMap.1 ha
    split at e
    · cases e
    · cases e
      exact State.Inv.of_mem (hg r.1 _ _ s hs) (State.feChange_mem _ _ _ _ _)

end Sys2Proof.Machine
end

