-- ==== Sys2Proof/Proofs/CanonicalMemory.lean ====
section
/-! SUPPORT. Memory in its canonical form: the instructions of uniform access, of memory and of synchronisation. -/

namespace Sys2Proof.Machine

open Sys2Proof

/-! ### What the meanings of memory and queue instructions leave of memory -/

@[simp] theorem Ctx.acquires_mem (c : Ctx) (x : Thread) (n : Nat) (s : State) : (c.acquires x n s).mem = s.mem := rfl

@[simp] theorem Ctx.scFence_mem (c : Ctx) (f : FForm) (x : Thread) (n : Nat) (s : State) : (c.scFence f x n s).mem = s.mem := by
  simp [Ctx.scFence]

@[simp] theorem atomAcquire_mem (c : Ctx) (f : FForm) (x : Thread) (s : State) : (atomAcquire c f x s).mem = s.mem := by
  simp [atomAcquire]

@[simp] theorem State.cinv_mem (s : State) (x d : Nat) (cs : List Cache) (va : DWord) (n : Nat) : (s.cinv x d cs va n).mem = s.mem := by
  unfold cinv
  split
  · rfl
  · refine foldl_mem (fun s p => ?_) _ _
    split <;> rfl

@[simp] theorem State.prefetch_mem (s : State) (x d core n : Nat) (va : DWord) : (s.prefetch x d core n va).mem = s.mem := by
  unfold prefetch
  split
  · split <;> simp
  · rfl

@[simp] theorem Ctx.foldl_acquires_mem (c : Ctx) (n : Nat) (l : List Thread) (s : State) :
    (l.foldl (fun s h => c.acquires h n s) s).mem = s.mem := State.foldl_mem (fun _ _ => c.acquires_mem _ _ _) _ _

@[simp] theorem popRow_mem (c : Ctx) (f : FForm) (q : Nat) (more : List RegW) : (popRow c f q more).mem = c.s.mem := by
  simp [popRow]

@[simp] theorem popU_mem (c : UCtx) (f : FForm) (q : Nat) (more : List RegW) : (popU c f q more).mem = c.s.mem := rfl

/-! ### The instructions of row code and the U-stream that compute registers -/

theorem rowWrites_inv (c : Ctx) {s : State} (h : s.Inv) (d : Nat) (vs : List (Nat × DWord)) : (rowWrites c s d vs).Inv := h

theorem uWrite_inv (c : UCtx) {s : State} (h : s.Inv) (d : Nat) (v : DWord) : (uWrite c s d v).Inv := h

theorem localLoad_inv (f : FForm) (plot : Bool) (c : Ctx) (hc : c.s.Inv) : (localLoad f plot c).Inv := by
  unfold localLoad
  refine localOp_inv hc (fun _ _ _ s hs => hs.of_mem ?_)
  dsimp only
  split <;> simp

theorem localStore_inv (f : FForm) (plot : Bool) (c : Ctx) (hc : c.s.Inv) : (localStore f plot c).Inv := by
  unfold localStore
  exact localOp_inv hc (fun _ _ _ s hs => hs.of_mem (by simp))

theorem globalAtomic_inv (f : FForm) (solo : Bool) (checks : Ctx → Thread → Bool) (g : Ctx → Thread → Nat → Nat) (c : Ctx)
    (hc : c.s.Inv) : (globalAtomic f solo checks g c).Inv := by
  unfold globalAtomic
  exact globalOp_inv hc (fun _ _ _ s hs => State.Inv.writeN (hs.of_mem (atomAcquire_mem _ _ _ _)) _ _ _)

theorem localAtomic_inv (f : FForm) (plot solo : Bool) (checks : Ctx → Thread → Bool) (g : Ctx → Thread → Nat → Nat) (c : Ctx)
    (hc : c.s.Inv) : (localAtomic f plot solo checks g c).Inv := by
  unfold localAtomic
  exact localOp_inv hc (fun _ _ _ s hs => hs.of_mem (by simp))

section
variable {s : State} (h : s.Inv)
include h

theorem execSlk_inv (i : IForm) : NextInv (execSlk i s) :=
  runRU_inv h
    (fun c hc => by
      split
      · exact hc
      · exact dataReads_inv hc _ _ _ (fun _ _ hs => rowWrites_inv c hs _ _))
    (fun c hc => dataReads_inv hc _ _ _ (fun _ _ hs => uWrite_inv c hs _ _))

theorem execSldc_inv (f : FForm) : NextInv (execSldc f s) :=
  runRU_inv h
    (fun c hc => by
      split
      · exact hc
      · exact dataReads_inv hc _ _ _ (fun _ _ hs => rowWrites_inv c hs _ _))
    (fun c hc => dataReads_inv hc _ _ _ (fun _ _ hs => uWrite_inv c hs _ _))

theorem execSld_inv (f : FForm) : NextInv (execSld f s) :=
  runRU_inv h
    (fun c hc => by
      dsimp only
      split
      · exact hc
      · split
        · exact hc
        · exact heldReads_inv hc _ _ _ _ (fun _ _ hs => rowWrites_inv c hs _ _))
    (fun c hc => by
      dsimp only
      split
      · exact hc
      · exact heldReads_inv hc _ _ _ _ (fun _ _ hs => uWrite_inv c hs _ _))

theorem uniStores_inv (t : Team) (p : Party) (n : Nat) (as : List (Nat × DWord × DWord)) : (uniStores s t p n as).Inv := by
  unfold uniStores
  dsimp only
  split
  · exact h
  · split
    · exact h
    · split
      · exact h.out (by simp)
      · split
        · exact h
        · refine State.Inv.foldl (fun s x hs => ?_) _ h
          split
          · exact State.Inv.of_mem (hs.writeN _ _ _) (State.fillFor_mem _ _ _ _ _ _ _ _ _)
          · exact hs

theorem execSst_inv (f : FForm) : NextInv (execSst f s) :=
  runRU_inv h (fun _ hc => uniStores_inv hc _ _ _ _) (fun _ hc => uniStores_inv hc _ _ _ _)

theorem uniTeamStores_inv (t : Team) (n : Nat) (as : List (DWord × DWord)) : (uniTeamStores s t n as).Inv := by
  unfold uniTeamStores
  split <;> exact h

theorem execSstt_inv (f : FForm) : NextInv (execSstt f s) :=
  runRU_inv h (fun _ hc => uniTeamStores_inv hc _ _ _) (fun _ hc => uniTeamStores_inv hc _ _ _)

theorem execVlk_inv (i : IForm) : NextInv (execVlk i s) :=
  runRow_inv h (fun c hc => by
    dsimp only
    split
    · exact hc
    · exact dataReads_inv hc _ _ _ (fun _ _ hs => hs))

/-! ### Loads, stores, atomics -/

theorem execLd_inv (f : FForm) : NextInv (execLd f s) :=
  runRow_inv h (fun c hc => globalOp_inv hc (fun _ _ _ s hs => hs.of_mem (by simp)))

theorem execSt_inv (f : FForm) : NextInv (execSt f s) :=
  runRow_inv h (fun _ hc => globalOp_inv hc (fun _ _ _ _ hs => State.Inv.of_mem (hs.scatter _ _ _) (Ctx.scFence_mem _ _ _ _ _)))

theorem execFe_inv (f : FForm) : NextInv (execFe f s) :=
  runRow_inv h (fun c hc => localOp_inv hc (fun _ _ _ s hs => by
    split
    · exact hs
    · exact hs
    · split <;> exact hs
    · exact hs
    · exact hs))

/-! ### Fences, invalidation, prefetch, the fetch unit -/

theorem execFence_inv (f : FForm) : NextInv (execFence f s) :=
  runRU_inv h
    (fun c hc => by
      split
      · exact hc
      · exact hc.out (by simp))
    (fun c hc => by
      split
      · exact hc
      · exact hc.out (by simp))

theorem execCinv_inv (f : FForm) : NextInv (execCinv f s) :=
  runRU_inv h
    (fun c hc => by
      dsimp only
      split
      · exact hc
      · exact hc.out (by simp [State.foldl_mem]))
    (fun c hc => by
      dsimp only
      split
      · exact hc
      · exact hc.out (by simp))

theorem execPref_inv (f : FForm) : NextInv (execPref f s) :=
  runRU_inv h (fun c hc => hc.out (by simp [State.foldl_mem])) (fun c hc => hc.out (by simp))

theorem execFetch_inv (f : FForm) : NextInv (execFetch f s) :=
  runRU_inv h (fun c hc => globalOp_inv hc (fun _ _ _ _ hs => hs))
    (fun c hc => by
      dsimp only
      split
      · exact hc
      · split
        · exact hc
        · exact hc.out (by simp)
        · exact hc
        · exact hc.out (by simp))

/-! ### Rendezvous points and queues -/

theorem rdvInit_inv (t : Team) (p n : Nat) : (rdvInit s t p n).Inv := by
  unfold rdvInit
  dsimp only
  split <;> exact h

theorem execRdvinit_inv (f : FForm) : NextInv (execRdvinit f s) :=
  runRU_inv h
    (fun c hc => by
      split
      · exact hc
      · exact rdvInit_inv hc _ _ _)
    (fun c hc => rdvInit_inv hc _ _ _)

theorem execRdvarr_inv (f : FForm) : NextInv (execRdvarr f s) :=
  runRU_inv h (fun _ hc => .ite hc (.ite hc (.ite hc hc))) (fun _ hc => .ite hc (.ite hc hc))

theorem execRdvwait_inv (f : FForm) : NextInv (execRdvwait f s) :=
  runRU_inv h (fun _ hc => .ite hc (.ite hc (.ite hc (hc.out (by simp)))))
    (fun _ hc => .ite hc (.ite hc hc))

theorem execRdvtest_inv (f : FForm) : NextInv (execRdvtest f s) :=
  runRU_inv h (fun _ hc => .ite hc (.ite hc (.ite hc (hc.out (by simp [State.foldl_mem])))))
    (fun _ hc => .ite hc (.ite hc (hc.out (by simp))))

theorem execQpush_inv (f : FForm) : NextInv (execQpush f s) :=
  runRU_inv h
    (fun c hc => by
      split
      · exact hc
      · split
        · exact hc
        · split <;> exact hc)
    (fun c hc => by
      dsimp only
      split
      · exact hc
      · split <;> exact hc)

theorem execQpop_inv (f : FForm) : NextInv (execQpop f s) :=
  runRU_inv h
    (fun c hc => by
      split
      · exact hc
      · split
        · exact hc
        · exact .ite (hc.out (by simp)) (.ite hc hc))
    (fun c hc => by
      split
      · exact hc
      · exact .ite (hc.out (by simp)) (.ite hc hc))

theorem execQtry_inv (f : FForm) : NextInv (execQtry f s) :=
  runRU_inv h (fun _ hc => .ite hc (.ite hc (.ite hc (.ite (hc.out (by simp)) hc))))
    (fun _ hc => .ite hc (.ite hc (.ite (hc.out (by simp)) hc)))

end
end Sys2Proof.Machine
end

