-- ==== Sys2Proof/Proofs/CanonicalEngines.lean ====
section
/-! SUPPORT. Memory in its canonical form: barrows, emitters, the Gleaner and launches. -/

namespace Sys2Proof.Machine

open Sys2Proof

/-! ### Engines (R233 to R242, R476) -/

namespace State

variable (s : State)

@[simp] theorem chitLost_mem (x d : Nat) (a : DWord) : (s.chitLost x d a).mem = s.mem := by simp [chitLost]

@[simp] theorem askLeave_mem (d x n op uid : Nat) : (s.askLeave d x n op uid).2.mem = s.mem := rfl

@[simp] theorem putBarrow_mem (id : Nat) (b : Option Barrow) : (s.putBarrow id b).mem = s.mem := rfl

@[simp] theorem dropDone_mem (lid : Nat) : (s.dropDone lid).mem = s.mem := rfl

@[simp] theorem takeLid_mem : s.takeLid.2.mem = s.mem := rfl

@[simp] theorem setGraph_mem (lid : Nat) (f : Graph → Graph) : (s.setGraph lid f).mem = s.mem := rfl

@[simp] theorem countFor_mem (uid : Nat) (ks : List (Nat × Nat)) (wc : Nat) : (s.countFor uid ks wc).mem = s.mem := by
  simp [countFor]

@[simp] theorem addLate_mem (uid row pos : Nat) (md : WriteMode) (d wc group : Nat) (op : LateOp) :
    (s.addLate uid row pos md d wc group op).mem = s.mem := by
  unfold addLate
  dsimp only
  split <;> rfl

@[simp] theorem lateDone_mem (i : Inflight) (l : Late) (x : Nat) : (s.lateDone i l x).mem = s.mem := rfl

@[simp] theorem setLate_mem (id : Nat) (f : Late → Late) : (s.setLate id f).mem = s.mem := rfl

@[simp] theorem lateFault_mem (t : Team) (i : Inflight) (l : Late) (va : DWord) (pg : Bool) : (s.lateFault t i l va pg).mem = s.mem := by
  simp [lateFault]

end State

@[simp] theorem barrowNow_mem (b : Barrow) (r : State × Option Engine) : (barrowNow b r).mem = r.1.mem := rfl

namespace State.Inv

variable {s : State} (h : s.Inv)
include h

theorem chitWrites (x d : Nat) (v : Victim) (r : Rec) (c : ChitSt) (ws : List (Nat × Nat × Nat)) : (s.chitWrites x d v r c ws).1.Inv := by
  induction ws generalizing s c with
  | nil => exact h
  | cons w ws ih =>
    unfold State.chitWrites
    split
    · exact h
    · split
      · exact ih (h.put _ _ _) _
      · exact h.of_mem (by simp)
      · exact h
      · exact h.of_mem (by simp)

theorem engineChit (e : Engine) (ws : List (Nat × Nat × Nat)) (q : Nat) : (s.engineChit e ws q).1.Inv := by
  have hw := h.chitWrites e.pitch e.die (.chit e.id) e.faultRec e.chit ws
  unfold State.engineChit
  split <;> rename_i e1 <;> rw [e1] at hw
  · split <;> exact hw
  · exact hw
  · exact hw

theorem enginePause (e : Engine) (n side fl : Nat) (va : DWord) (pg : Bool) : (s.enginePause e n side fl va pg).1.Inv :=
  State.Inv.engineChit (h.of_mem (by simp)) _ _ _

theorem engineServe (e : Engine) (n : Nat) {r : State × Option Engine} (hr : s.engineServe e n = some r) : r.1.Inv := by
  unfold State.engineServe at hr
  split at hr
  · split at hr <;> cases hr
    · exact h
    · exact State.Inv.engineChit (h.of_mem (by simp)) _ _ _
    · exact State.Inv.engineChit (h.of_mem (by simp)) _ _ _
  · split at hr
    · cases hr
      exact h.engineChit _ _ _
    · split at hr <;> cases hr
      · exact h
      · exact State.Inv.engineChit (h.of_mem (by simp)) _ _ _
      · exact h.of_mem (by simp)
  · cases hr

theorem engineCancel (e : Engine) (n : Nat) : (s.engineCancel e n).1.Inv := by
  unfold State.engineCancel
  split
  · exact h
  · exact h.engineChit _ _ _

theorem engineWrite (t : Team) (sp : Nat) (we kf hd lst : Bool) (a : DWord) (bs : List Byte) {s' : State}
    (e : s.engineWrite t sp we kf hd lst a bs = .ok s') : s'.Inv := by
  unfold State.engineWrite at e
  split at e
  · split at e <;> cases e
    exact h.put _ _ _
  · split at e
    · cases e
    · split at e <;> cases e
      exact h

/-! ### The Barrow -/

theorem barrowBegin (b : Barrow) : (s.barrowBegin b).Inv := by
  have hc := h.engineChit b.eng (if b.bad then [(0, 4, 0)] else if b.len = 0 ∧ b.op ≠ .btile then [(0, 1, 0)] else [(0, 0, 0)]) 0
  unfold State.barrowBegin
  dsimp only
  split <;> rename_i e <;> rw [e] at hc
  · exact hc.of_mem (by simp)
  · exact hc

theorem barrowStart (op : BarrowOp) (wc : Nat) (t : Team) (ks : List (Nat × Nat)) (core : Nat) (bs : List Byte) :
    (s.barrowStart op wc t ks core bs).Inv :=
  State.Inv.barrowBegin (h.of_mem (by simp)) _

theorem barrowStop (b : Barrow) (side : Nat) (e : Stop) : (s.barrowStop b side e).Inv := by
  cases e with
  | err => exact h.engineChit _ _ _
  | fault va p => exact h.enginePause _ _ _ _ _ _
  | busy => exact h

theorem barrowMove (t : Team) (b : Barrow) : (s.barrowMove t b).Inv := by
  unfold State.barrowMove
  split
  · exact h.barrowStop _ _ _
  · dsimp only
    split
    · exact h.barrowStop _ _ _
    · split
      · exact h.barrowStop _ _ _
      · exact h
      · rename_i e
        have h1 := h.engineWrite _ _ _ _ _ _ _ _ e
        exact h1

theorem barrowElem (t : Team) (b : Barrow) : (s.barrowElem t b).Inv := by
  unfold State.barrowElem
  dsimp only
  split
  · exact h.barrowStop _ _ _
  · split
    · exact h.barrowStop _ _ _
    · exact h.barrowStop _ _ _
    · exact h
    · split
      · exact h.barrowStop _ _ _
      · exact h.put _ _ _

theorem barrowAfter (id : Nat) : (s.barrowAfter id).Inv := by
  unfold State.barrowAfter
  split
  · exact h
  · split
    · exact h
    · split
      · exact h.engineChit _ _ _
      · split
        · exact h.engineChit _ _ _
        · exact h

theorem barrowElems (t : Team) (id fuel : Nat) : (s.barrowElems t id fuel).Inv := by
  induction fuel generalizing s with
  | zero => exact h
  | succ n ih =>
    unfold State.barrowElems
    split
    · exact h
    · dsimp only
      split
      · exact h
      · split
        · exact h.barrowElem _ _
        · exact ih (h.barrowElem _ _)

/-! ### Launches and their chits -/

theorem launchChit (lid : Nat) (ws : List (Nat × Nat × Nat)) : (s.launchChit lid ws).Inv := by
  unfold State.launchChit
  split
  · exact h
  · rename_i l _
    split
    · exact h
    · have hw := h.chitWrites l.pitch (s.schedDie l.pitch) (.launchChit lid) l.faultRec l.chit ws
      split <;> rename_i e <;> rw [e] at hw <;> exact hw

theorem launchChitServe (lid : Nat) : (s.launchChitServe lid).Inv := by
  unfold State.launchChitServe
  split
  · exact h
  · split
    · exact h
    · dsimp only
      split
      · exact State.Inv.launchChit (h.of_mem (by simp)) _ _
      · split
        · exact h
        · exact State.Inv.launchChit (h.of_mem (by simp)) _ _
        · exact h.of_mem (by simp)

theorem endLaunch (lid n : Nat) : (s.endLaunch lid n).Inv := by
  unfold State.endLaunch
  split
  · exact h
  · split
    · exact h
    · exact State.Inv.launchChit (h.of_mem (by simp)) _ _

theorem checkLaunch (lid : Nat) : (s.checkLaunch lid).Inv := by
  unfold State.checkLaunch
  dsimp only
  split
  · exact h
  · exact ite h (ite (endLaunch (s := s.setLaunch lid _) h _ _) h)

theorem reject (x : Nat) (bs : List Byte) : (s.reject x bs).2.Inv :=
  State.Inv.endLaunch (s := { s.takeLid.2 with launches := _ }) h _ _

theorem admitRecord (x : Nat) (va : DWord) (bs : List Byte) (a : Accepted) : (s.admitRecord x va bs a).2.Inv := by
  have h1 := h.scatterFor x a.put.1 a.put.2.1 a.put.2.2
  unfold State.admitRecord
  dsimp only
  split
  · exact State.Inv.checkLaunch (State.Inv.launchChit (h1.of_mem (by simp)) _ _) _
  · exact State.Inv.launchChit (h1.of_mem (by simp)) _ _

theorem tryAccept (x : Nat) (who : Bringer) (va : DWord) (bs : List Byte) : (s.tryAccept x who va bs).2.Inv := by
  unfold State.tryAccept
  dsimp only
  split
  · exact h.admitRecord _ _ _ _
  · exact h.reject _ _
  · exact h.reject _ _
  · exact h.of_mem (by simp)
  · exact h

theorem retryAccept (a : Accepting) : (s.retryAccept a).2.Inv := by
  unfold State.retryAccept
  dsimp only
  split
  · exact State.Inv.tryAccept (h.of_mem (by simp)) _ _ _ _
  · split
    · exact h
    · exact State.Inv.tryAccept (h.of_mem (by simp)) _ _ _ _
    · exact State.Inv.reject (h.of_mem (by simp)) _ _

/-! ### Gleaner passes, records of work graphs, launches by threads -/

theorem gleanBegin (t : Team) (g : Glean) : (s.gleanBegin t g).Inv := by
  have hc := h.engineChit g.eng [(0, if gleanBad s t g then 4 else 0, 0)] 0
  unfold State.gleanBegin
  split <;> rename_i e <;> rw [e] at hc
  · exact hc.of_mem (by simp)
  · exact hc

theorem gleanStart (wc : Nat) (t : Team) (ks : List (Nat × Nat)) (core : Nat) (key : DWord) (bs : List Byte) :
    (s.gleanStart wc t ks core key bs).Inv :=
  State.Inv.gleanBegin (h.of_mem (by simp)) _ _

theorem fillSlot (t : Team) (n : Nat) (nd : GNode) (o : DWord) (k : Nat) (ks : List Nat) : (s.fillSlot t n nd o k ks).Inv :=
  h.scatterFor _ _ _ _

theorem emitOne (t : Team) (n : Nat) (nd : GNode) (o : DWord) {s' : State} {k : Nat} (e : s.emitOne t n nd o = .ok s' k) : s'.Inv := by
  unfold State.emitOne at e
  split at e
  · cases e
  · split at e <;> cases e
    exact h.fillSlot _ _ _ _ _ _

theorem launchOne (x : Nat) (who : Bringer) (va : DWord) (bs : List Byte) : (s.launchOne x who va bs).1.Inv := by
  have after {r : Accept × State} (hr : r.2.Inv) : (match r with
      | (.settled lid, s1) => (s1, Launched.done lid)
      | (_, s1) => (s1, Launched.wait)).1.Inv := by split <;> exact hr
  unfold State.launchOne
  dsimp only
  split
  · exact after (h.retryAccept _)
  · split
    · exact after (h.tryAccept _ _ _ _)
    · exact h

theorem launchRun (md : WriteMode) (t : Team) (d wc group : Nat) (ws : List (Nat × Nat × DWord × List Byte)) :
    (launchRun md t d wc group ws s).Inv := by
  induction ws generalizing s with
  | nil => exact h
  | cons w ws ih =>
    have stay {s : State} (hs : s.Inv) : (List.foldl (fun s (w : Nat × Nat × DWord × List Byte) =>
        s.addLate t.uid w.1 w.2.1 md d wc group (.launch w.2.2.1 w.2.2.2)) s (w :: ws)).Inv :=
      State.Inv.foldl (fun s _ hs => hs.of_mem (by simp)) _ hs
    have h1 := h.launchOne t.pitch (bringer t.uid w.1 w.2.1) w.2.2.1 w.2.2.2
    unfold Machine.launchRun
    dsimp only
    split
    · exact stay h
    · split <;> rename_i e <;> rw [e] at h1
      · exact stay h1
      · exact ih (h1.of_mem (by simp))

theorem placeLate (t : Team) (i : Inflight) (l : Late) : (s.placeLate t i l).Inv := by
  unfold State.placeLate
  dsimp only
  split
  · rename_i a bs _
    have h1 := h.launchOne t.pitch (bringer t.uid l.row l.pos) a bs
    split <;> rename_i e <;> rw [e] at h1 <;> exact h1
  · split
    · exact h
    · split
      · rename_i e
        have h1 := State.Inv.emitOne (h.of_mem (State.setGraph_mem _ _ _)) _ _ _ _ e
        exact h1
      · exact h
      · exact h
      · exact h.of_mem (by simp)
      · exact h.of_mem (by simp)

theorem serveLate (i : Inflight) (l : Late) : (s.serveLate i l).Inv := by
  unfold State.serveLate
  split
  · exact h
  · split
    · exact h
    · split
      · exact h.placeLate _ _ _
      · split
        · exact h
        · exact State.Inv.placeLate (h.of_mem (by simp)) _ _ _
        · exact h.of_mem (by simp)

end State.Inv

section
variable {s : State} (h : s.Inv)
include h

theorem barrowIssue_inv (op : BarrowOp) (wc : Nat) (t : Team) (who : List (List (Nat × Nat) × Nat × DWord)) :
    (barrowIssue op wc s t who).Inv := by
  unfold barrowIssue
  dsimp only
  split
  · exact h
  · split
    · exact h
    · refine State.Inv.foldl (fun s r hs => ?_) _ h
      split
      · exact hs
      · exact hs.barrowStart _ _ _ _ _ _

theorem barrowCmd_inv (o : Opc) (op : BarrowOp) (f : FForm) : NextInv (barrowCmd o op f s) :=
  runRU_inv h (fun _ hc => barrowIssue_inv hc _ _ _ _) (fun _ hc => barrowIssue_inv hc _ _ _ _)

theorem execBarrowBlock_inv (op : Nat) : NextInv (execBarrowBlock op s) := by
  unfold execBarrowBlock
  split
  · exact h
  · split
    · rename_i e
      exact h.engineServe _ _ e
    · split
      · exact h
      · split
        · exact h
        · split
          · exact h.barrowAfter _
          · split
            · split
              · exact h
              · exact (h.barrowElem _ _).barrowAfter _
            · exact (h.barrowMove _ _).barrowAfter _

theorem execSequencedReducingCopy_inv (op : Nat) : NextInv (execSequencedReducingCopy op s) := by
  unfold execSequencedReducingCopy
  split
  · exact h
  · split
    · exact h
    · split
      · exact h
      · extract_lets pages s1
        have h1 : s1.Inv := State.Inv.barrowElems (s := s.putBarrow op (some _)) h _ _ _
        split
        · exact h.barrowStop _ _ _
        · split
          · extract_lets w
            clear_value w s1
            refine .ite (h.barrowStop _ _ _) (.ite (h.barrowStop _ _ _) (.ite (State.Inv.of_mem h (by simp)) ?_))
            split
            · exact h1
            · exact .ite (State.Inv.engineChit (h1.put _ _ _) _ _ _) h1
          · exact h

theorem gleanIssue_inv (wc : Nat) (t : Team) (who : List (List (Nat × Nat) × Nat × DWord × DWord)) : (gleanIssue wc s t who).Inv := by
  unfold gleanIssue
  dsimp only
  split
  · exact h
  · split
    · exact h
    · refine State.Inv.foldl (fun s r hs => ?_) _ h
      split
      · exact hs
      · exact hs.gleanStart _ _ _ _ _ _

theorem execGlean_inv (f : FForm) : NextInv (execGlean f s) :=
  runRU_inv h (fun _ hc => gleanIssue_inv hc _ _ _) (fun _ hc => gleanIssue_inv hc _ _ _)

theorem emitRun_inv (t : Team) (p : Party) (n : Nat) (nd : GNode) (md : WriteMode) (d wc : Nat) (who : List (Nat × Nat × DWord)) :
    (emitRun s t p n nd md d wc who).Inv := by
  unfold emitRun
  dsimp only
  split
  · exact h
  · split
    · exact h.out (by simp)
    · exact h
    · refine State.Inv.foldl (fun s _ hs => hs.of_mem (by simp)) _ (State.Inv.of_mem ?_ (State.countFor_mem _ _ _ _))
      refine State.Inv.foldl (fun s r hs => ?_) _ h
      split
      · exact State.Inv.of_mem (hs.fillSlot _ _ _ _ _ _) (State.setTeam_mem _ _ _)
      · exact hs

theorem execEmit_inv (f : FForm) : NextInv (execEmit f s) :=
  runRU_inv h
    (fun c hc => by
      dsimp only
      split
      · split <;> exact hc
      · exact hc
      · exact emitRun_inv hc _ _ _ _ _ _ _ _)
    (fun c hc => by
      dsimp only
      split
      · exact hc
      · exact hc
      · exact emitRun_inv hc _ _ _ _ _ _ _ _)

end

theorem chitRow_inv (wait : Bool) (f : FForm) (c : Ctx) (hc : c.s.Inv) : (chitRow wait f c).Inv := by
  unfold chitRow
  have hr := globalOp_inv (via := .l1) (acc := .read) (reads := true) (det := !wait && c.t.hdr.det) (fl := 0)
    (plan := fun c h => chitAt c.t.rcd.window f (c.env h))
    (go := fun c h _ ks s =>
      (if finalStatus (s.readN (ks.headD 0) 4) then c.acquires h 3 s else s,
        [wV f.d.toNat (BitVec.ofNat 32 (s.readN (ks.headD 0) 4)) .n32])) hc (fun _ _ _ s hs => hs.of_mem (by simp))
  dsimp only
  split
  · exact hr
  · split
    · refine State.Inv.foldl (fun s x hs => ?_) _ hc
      split
      · exact hs
      · split
        · exact hs.of_mem (by simp)
        · exact hs
    · exact hr

theorem chitU_inv (wait : Bool) (f : FForm) (c : UCtx) (hc : c.s.Inv) : (chitU wait f c).Inv := by
  unfold chitU
  split
  · exact hc
  · dsimp only
    split
    · exact hc
    · refine heldRead_inv hc _ _ _ _ _ (fun bs => ?_)
      split
      · exact hc
      · exact hc.out (by simp)

theorem launchRow_inv (f : FForm) (c : Ctx) (hc : c.s.Inv) : (launchRow f c).Inv := by
  unfold launchRow
  dsimp only
  split
  · exact hc
  · split
    · exact hc
    · refine State.Inv.launchRun (State.Inv.foldl (fun s r hs => ?_) _ hc) _ _ _ _ _ _
      split
      · exact hs.of_mem (by simp)
      · exact hs

theorem launchU_inv (f : FForm) (c : UCtx) (hc : c.s.Inv) : (launchU f c).Inv := by
  unfold launchU
  split
  · exact hc
  · refine .ite hc (.ite hc (heldRead_inv hc _ _ _ _ _ (fun _ => ?_)))
    exact hc.launchRun _ _ _ _ _ _

end Sys2Proof.Machine
end

