-- ==== Sys2Proof/Proofs/CanonicalRows.lean ====
section
/-! SUPPORT. Memory in its canonical form: control, ray queries, reservoirs and group operations. -/

namespace Sys2Proof.Machine

open Sys2Proof

/-! ### Control transfers, status registers, service requests -/

@[simp] theorem State.takeReplies_mem (s : State) (uid : Nat) (rows : List Nat) (fid d : Nat) : (s.takeReplies uid rows fid d).mem = s.mem := by
  unfold takeReplies
  split
  · rfl
  · exact foldl_mem (fun _ _ => by simp) _ _

theorem State.Inv.sysc {s : State} (h : s.Inv) (t : Team) (row fid d n : Nat) (x : DWord) {s' : State} {q : Sysc}
    (e : s.sysc t row fid d n x = .made s' q) : s'.Inv := by
  unfold State.sysc at e
  dsimp only at e
  split at e
  · cases e
    exact h
  · split at e
    · cases e
    · cases e
    · split at e
      · cases e
      · split at e <;> cases e
        exact State.Inv.put (State.Inv.put (s := s.setPkg _) h _ _ _) _ _ _

theorem syscRow_inv (n d uid fid : Nat) (acc : State × Option (Except Trap WaitFor)) (x : Nat × DWord) (h : acc.1.Inv) :
    (syscRow n d uid fid acc x).1.Inv := by
  unfold syscRow
  split
  · exact h
  · exact h
  · split
    · split <;> exact h
    · split
      · rename_i e
        have h1 := h.sysc _ _ _ _ _ _ e
        split <;> exact h1
      · exact h
      · exact h

section
variable {s : State} (h : s.Inv)
include h

theorem syscRows_inv (rows : List (Nat × DWord)) (n d uid fid : Nat) : (syscRows rows n d uid fid s).Inv := by
  have h1 := State.Inv.foldl_fst (fun acc x _ => syscRow_inv n d uid fid acc x) (l := rows) (acc := (s, none)) h
  unfold syscRows
  dsimp only
  split
  · exact h1
  · exact h1
  · exact h1.out (by simp)

theorem execBrx_inv (f : FForm) : NextInv (execBrx f s) :=
  runRU_inv h (fun c hc => by dsimp only; split <;> exact hc) (fun c hc => by split <;> exact hc)

theorem execCall_inv (i : IForm) : NextInv (execCall i s) :=
  runRU_inv h (fun c hc => by dsimp only; split <;> exact hc) (fun c hc => by dsimp only; split <;> exact hc)

theorem execRet_inv (f : FForm) : NextInv (execRet f s) :=
  runRU_inv h (fun c hc => by dsimp only; split <;> exact hc) (fun c hc => by dsimp only; split <;> exact hc)

theorem execWait_inv (i : IForm) : NextInv (execWait i s) :=
  runRU_inv h (fun c hc => by split <;> exact hc) (fun c hc => by split <;> exact hc)

theorem trapImm_inv (t : Trap) (i : IForm) (p : Party) (hs : List Thread) : (trapImm t i s p hs).Inv := h.out (by simp [trapImm])

theorem execBrk_inv (i : IForm) : NextInv (execBrk i s) :=
  runRU_inv h
    (fun c hc => by
      split
      · exact hc
      · exact trapImm_inv hc _ _ _ _)
    (fun c hc => trapImm_inv hc _ _ _ _)

theorem execTrap_inv (i : IForm) : NextInv (execTrap i s) :=
  runRU_inv h
    (fun c hc => by
      split
      · exact hc
      · exact trapImm_inv hc _ _ _ _)
    (fun c hc => trapImm_inv hc _ _ _ _)

theorem execSrw_inv (i : IForm) : NextInv (execSrw i s) :=
  runRU_inv h (fun _ hc => .ite hc (.ite hc (.ite hc hc))) (fun _ hc => .ite hc (.ite hc hc))

theorem execFresume_inv (f : FForm) : NextInv (execFresume f s) :=
  runRow_inv h (fun c hc => by
    dsimp only
    split
    · exact hc
    · split <;> exact hc)

theorem execSysc_inv (i : IForm) : NextInv (execSysc i s) :=
  runRU_inv h
    (fun c hc => by
      split
      · exact hc
      · split
        · exact hc
        · exact syscRows_inv hc _ _ _ _ _)
    (fun c hc => by
      split
      · exact hc
      · exact syscRows_inv hc _ _ _ _ _)

end

/-! ### Threads that act one after another -/

/-- A thread's part of an instruction keeps memory in its canonical form. -/
def Solo.Keeps : Solo → Prop
  | .ok g _ => ∀ s : State, s.Inv → (g s).Inv
  | .trap _ _ | .fault _ _ _ | .busy _ => True

theorem soloOp_inv {f : Ctx → Thread → Solo} {c : Ctx} (hc : c.s.Inv) (hf : ∀ h, (f c h).Keeps) : (soloOp f c).Inv := by
  unfold soloOp
  dsimp only
  split
  · exact hc
  · split
    · exact hc
    · refine List.foldlRecOn (motive := State.Inv) _ _ hc (fun s hs r hr => ?_)
      obtain ⟨x, -, rfl⟩ := List.mem_map.1 hr
      have hx := hf x
      dsimp only
      split <;> rename_i e
      · rw [e] at hx
        exact hx _ hs
      · exact hs.of_mem (by simp)
      · exact hs

theorem soloSeq_inv {f : Ctx → State → Thread → Solo} {c : Ctx} (hc : c.s.Inv) (hf : ∀ s h, (f c s h).Keeps) : (soloSeq f c).Inv := by
  have h1 := soloOp_inv (f := fun c h => f c c.s h) hc (fun h => hf c.s h)
  unfold soloSeq
  split
  · refine State.Inv.foldl (fun s x hs => ?_) _ hc
    have hx := hf s x
    split <;> rename_i e
    · rw [e] at hx
      exact hx _ hs
    · exact hs.of_mem (by simp)
    · exact hs
  · exact h1

/-! ### Rays, reservoirs, light trees -/

theorem RayStop.solo_keeps (e : RayStop) : e.solo.Keeps := by cases e <;> trivial

@[simp] theorem Ctx.rayFill_mem (c : Ctx) (h : Thread) (q : Query) (s : State) : (c.rayFill h q s).mem = s.mem := by
  unfold Ctx.rayFill
  refine List.foldrRecOn (motive := fun t : State => t.mem = s.mem) _ _ rfl (fun t ht r _ => ?_)
  rw [State.foldl_mem (fun t p => ?_), ht]
  split <;> simp

@[simp] theorem setQuery_mem (c : Ctx) (h : Thread) (q : Query) (s : State) : (setQuery c h q s).mem = s.mem := by simp [setQuery]

theorem setQuery_keeps (c : Ctx) (h : Thread) (q : Query) (ws : List RegW) : (Solo.ok (setQuery c h q) ws).Keeps :=
  fun _ hs => hs.of_mem (by simp)

theorem walkSolo_keeps (c : Ctx) (h : Thread) (d : Nat) (w : Walk) : (walkSolo c h d w).Keeps := by
  cases w with
  | stop e => exact e.solo_keeps
  | go q | halt q => exact setQuery_keeps _ _ _ _

section
variable {s : State} (h : s.Inv)
include h

theorem execRqbegin_inv (f : FForm) : NextInv (execRqbegin f s) :=
  runRow_inv h (fun c hc => soloOp_inv hc (fun x => by
    split
    · trivial
    · exact setQuery_keeps _ _ _ _))

theorem execRqstep_inv (f : FForm) : NextInv (execRqstep f s) :=
  runRow_inv h (fun c hc => soloOp_inv hc (fun x => by
    split
    · exact walkSolo_keeps _ _ _ _
    · exact fun _ hs => hs
    · exact fun _ hs => hs
    · trivial))

theorem execRqcommit_inv (f : FForm) : NextInv (execRqcommit f s) :=
  runRow_inv h (fun c hc => soloOp_inv hc (fun x => by
    dsimp only
    split
    · trivial
    · exact walkSolo_keeps _ _ _ _))

theorem execRqskip_inv (f : FForm) : NextInv (execRqskip f s) :=
  runRow_inv h (fun c hc => soloOp_inv hc (fun x => by
    dsimp only
    split
    · trivial
    · exact walkSolo_keeps _ _ _ _))

theorem execRqresume_inv (f : FForm) : NextInv (execRqresume f s) :=
  runRow_inv h (fun c hc => soloOp_inv hc (fun x => by
    dsimp only
    split
    · trivial
    · split
      · trivial
      · exact walkSolo_keeps _ _ _ _))

theorem execRtvis_inv (f : FForm) : NextInv (execRtvis f s) :=
  runRow_inv h (fun c hc => soloOp_inv hc (fun x => by
    dsimp only
    split
    · trivial
    · split
      · exact RayStop.solo_keeps _
      · exact fun _ hs => hs.of_mem (by simp)
      · exact fun _ hs => hs.of_mem (by simp)))

theorem execRqsave_inv (f : FForm) : NextInv (execRqsave f s) :=
  runRow_inv h (fun c hc => soloOp_inv hc (fun x => by
    dsimp only
    split
    · trivial
    · split
      · trivial
      · split
        · exact fun _ hs => hs
        · split
          · exact fun _ hs => State.Inv.of_mem (hs.scatter _ _ _) (State.fillPieces_mem _ _ _ _ _ _ _ _ _)
          · trivial
          · trivial
          · trivial))

theorem execRqload_inv (f : FForm) : NextInv (execRqload f s) :=
  runRow_inv h (fun c hc => soloOp_inv hc (fun x => by
    have make (bs : List Byte) (rs : List (DWord × Nat)) : (match loadQuery c.s c.rayEnv bs with
        | .ok q => Solo.ok (setQuery c x { q with reads := q.reads ++ rs }) []
        | .error e => e.solo).Keeps := by
      split
      · exact setQuery_keeps _ _ _ _
      · exact RayStop.solo_keeps _
    dsimp only
    split
    · trivial
    · exact make _ _
    · split
      · exact RayStop.solo_keeps _
      · exact make _ _))

theorem execRsvld_inv (f : FForm) : NextInv (execRsvld f s) :=
  runRow_inv h (fun c hc => soloOp_inv hc (fun x => by
    dsimp only
    split
    · trivial
    · exact fun _ hs => hs
    · split
      · trivial
      · exact fun _ hs => hs
    · split
      · exact fun _ hs => hs.of_mem (by simp)
      · trivial
      · trivial
      · trivial))

theorem execRsvst_inv (f : FForm) : NextInv (execRsvst f s) :=
  runRow_inv h (fun c hc => soloOp_inv hc (fun x => by
    dsimp only
    split
    · trivial
    · split
      · trivial
      · exact fun _ hs => hs
      · exact fun _ hs => hs.writeBytes _ _
      · split
        · exact fun _ hs => State.Inv.of_mem (hs.writeBytes _ _) (State.fillFor_mem _ _ _ _ _ _ _ _ _)
        · trivial
        · trivial
        · trivial))

theorem execLtw_inv (f : FForm) : NextInv (execLtw f s) :=
  runRow_inv h (fun c hc => soloOp_inv hc (fun x => by
    dsimp only
    split
    · trivial
    · split
      · trivial
      · split
        · exact RayStop.solo_keeps _
        · exact fun _ hs => hs))

end

/-! ### Drill groups -/

namespace State

variable (s : State)

@[simp] theorem arrive_mem (uid wc : Nat) (dl : Option Nat) (h : Thread) (a : Arrival) : (s.arrive uid wc dl h a).mem = s.mem := rfl

@[simp] theorem groupEnd_mem (uid ds : Nat) (ks : List (Nat × Nat)) : (s.groupEnd uid ds ks).mem = s.mem := rfl

@[simp] theorem groupTrap_mem (uid ds : Nat) (ks : List (Nat × Nat)) (e : Trap) (va : DWord) : (s.groupTrap uid ds ks e va).mem = s.mem := by
  unfold groupTrap
  exact foldl_mem (fun _ _ => by simp) _ _

@[simp] theorem actLoad_mem (t : Team) (ds g rop : Nat) (ty : Ty) (rows : List Nat) (live : List Thread) :
    (s.actLoad t ds g rop ty rows live).mem = s.mem := by
  simp [actLoad]

@[simp] theorem actEnd_mem (t : Team) (d : Drill) (live : List Thread) : (s.actEnd t d live).mem = s.mem := by
  simp [actEnd]

@[simp] theorem groupFault_mem (t : Team) (h : Thread) (ds fl : Nat) (va : DWord) (pg : Bool) : (s.groupFault t h ds fl va pg).mem = s.mem := by
  simp [groupFault]

@[simp] theorem endRestore_mem (t : Team) (ds row : Nat) : (s.endRestore t ds row).mem = s.mem := by simp [endRestore]

@[simp] theorem actRestore_mem (t : Team) (ds : Nat) (h : Thread) (a : Arrival) : (s.actRestore t ds h a).mem = s.mem := by
  unfold actRestore
  split
  · simp
  · split
    · simp
    · simp
    · rfl
    · extract_lets
      split
      · rfl
      · split
        · rfl
        · split
          · simp
          · simp
          · rfl
          · split <;> simp

end State

@[simp] theorem Ctx.leaveRestore_mem (c : Ctx) (ds : Nat) (ks : List (Nat × Nat)) : (c.leaveRestore ds ks).s.mem = c.s.mem := by
  unfold Ctx.leaveRestore
  split <;> rfl

theorem arriveAll_inv (opens : Bool) (ds wc : Nat) (dl : Option Nat) (mk : Ctx → Thread → Except Trap (Option (List Nat × Arrival)))
    (c : Ctx) (hc : c.s.Inv) : (arriveAll opens ds wc dl mk c).Inv := by
  unfold arriveAll
  split
  · exact hc
  · dsimp only
    generalize e1 : c.leaveRestore ds _ = c1
    have h1 : c1.s.Inv := hc.of_mem (by rw [← e1, Ctx.leaveRestore_mem])
    generalize List.filterMap _ c1.mem = rs
    split
    · exact h1
    · have room (n : Arrival → Nat) : (rs.foldl (fun s (r : Thread × Except Trap Arrival) =>
          match r.2 with
          | .ok a => if 0 < n a ∧ 8 < r.1.pend.length + n a then s.setTeam c1.t.uid (fun t => t.roomThread (n a) r.1.row r.1.pos) else s
          | .error _ => s) c1.s).Inv := by
        refine State.Inv.foldl (fun s r hs => ?_) _ h1
        split
        · exact hs.of_mem (by simp)
        · exact hs
      split
      · exact room _
      · refine State.Inv.foldl (fun s r hs => ?_) _ (room _)
        split
        · exact hs
        · exact hs

namespace State.Inv

variable {s : State} (h : s.Inv)
include h

theorem spanWrite (t : Team) (sp : Nat) (a : DWord) (bs : List Byte) : (s.spanWrite t sp a bs).Inv := by
  unfold State.spanWrite
  split
  · split
    · exact h.scatterFor _ _ _ _
    · exact h
  · split <;> exact h

theorem actSave (t : Team) (d : Drill) (x : Thread) (a : Arrival) (ks : List (Nat × Nat)) : (s.actSave t d x a ks).Inv := by
  unfold State.actSave
  split
  · exact h.of_mem (by simp)
  · exact h.of_mem (by simp)
  · exact h
  · exact (h.spanWrite t a.space a.addr (d.image t.width)).of_mem (by simp)

theorem groupAct (uid ds row pos : Nat) : (s.groupAct uid ds row pos).Inv := by
  unfold State.groupAct
  split
  · exact h
  · split
    · exact h
    · split
      · exact h
      · split
        · exact h
        · rename_i a _ _
          dsimp only
          generalize e : (if a.fault = 0 then s else _) = s1
          have h1 : s1.Inv := h.of_mem (by simp [← e])
          split
          · exact h1.of_mem (by simp)
          · exact h1.of_mem (by simp)
          · split
            · exact h1
            · exact h1.of_mem (by simp)
          · split
            · exact h1
            · split
              · exact h1
              · exact ite (h1.actSave _ _ _ _ _) h1

theorem actDue (uid : Nat) : (s.actDue uid).Inv := by
  unfold State.actDue
  split
  · exact h
  · exact State.Inv.foldl (fun _ _ hs => hs.groupAct _ _ _ _) _ h

end State.Inv

theorem afterGroup_inv (ds : Nat) {k : Ctx → Out} {c : Ctx} (hc : c.s.Inv) (hk : (k c).Inv) : (afterGroup ds k c).Inv := by
  unfold afterGroup
  split
  · exact hc
  · exact hk

theorem Solo.Keeps.ite {p : Prop} [Decidable p] {a b : Solo} (ha : a.Keeps) (hb : b.Keeps) : (if p then a else b).Keeps := by
  split
  · exact ha
  · exact hb

theorem mrgThread_keeps (f : FForm) (c : Ctx) (s : State) (h : Thread) : (mrgThread f c s h).Keeps := by
  have stays (ws : List RegW) : (Solo.ok id ws).Keeps := fun _ hs => hs
  unfold mrgThread
  extract_lets o count
  refine Solo.Keeps.ite trivial (Solo.Keeps.ite trivial ?_)
  extract_lets
  refine Solo.Keeps.ite (stays _) (Solo.Keeps.ite trivial ?_)
  extract_lets
  refine Solo.Keeps.ite trivial (Solo.Keeps.ite (stays _) ?_)
  extract_lets
  split
  · extract_lets
    refine Solo.Keeps.ite (stays _) ?_
    extract_lets
    split
    · exact fun _ hs => (hs.spanWrite _ _ _ _).spanWrite _ _ _ _
    · exact Solo.Keeps.ite trivial trivial
    all_goals trivial
  · split
    · trivial
    · generalize e : List.findSome? _ _ = r
      cases r with
      | none => exact stays _
      | some x =>
        obtain ⟨y, -, hy⟩ := List.exists_of_findSome?_eq_some e
        split at hy <;> cases hy <;> trivial

section
variable {s : State} (h : s.Inv)
include h

theorem execDrlnext_inv (f : FForm) : NextInv (execDrlnext f s) :=
  runRow_inv h (fun c hc => afterGroup_inv _ hc (by dsimp only; split <;> exact hc))

theorem execDrlred_inv (f : FForm) : NextInv (execDrlred f s) :=
  runRow_inv h (fun c hc => afterGroup_inv _ hc (by dsimp only; split <;> exact hc))

theorem execGraft_inv (f : FForm) : NextInv (execGraft f s) :=
  runRow_inv h (fun _ hc => .ite hc (.ite hc hc))

theorem execGftflush_inv (f : FForm) : NextInv (execGftflush f s) :=
  runRow_inv h (fun _ hc => .ite hc (.ite hc hc))

theorem execMrg_inv (f : FForm) : NextInv (execMrg f s) :=
  runRow_inv h (fun c hc => soloSeq_inv hc (fun s h => mrgThread_keeps f c s h))

end
end Sys2Proof.Machine
end

