-- ==== Sys2Proof/Proofs/CanonicalMatrix.lean ====
section
/-! SUPPORT. Memory in its canonical form: the M-stream, and the events that complete what instructions began. -/

namespace Sys2Proof.Machine

open Sys2Proof

/-! ### The M-stream -/

@[simp] theorem MCtx.set_mem (c : MCtx) (f : MStream → MStream) : (c.set f).s.mem = c.s.mem := rfl

theorem MCtx.set_inv {c : MCtx} (hc : c.s.Inv) (f : MStream → MStream) : (c.set f).s.Inv := hc

@[simp] theorem State.returnLeave_mem (s : State) (t : Team) : (s.returnLeave t).mem = s.mem := by
  unfold returnLeave
  split <;> rfl

theorem MCtx.checked_inv {c : MCtx} (hc : c.s.Inv) (ts : List (Option Trap)) {k : Out} (hk : k.Inv) : (c.checked ts k).Inv := by
  unfold MCtx.checked
  split
  · exact hc
  · exact hk

theorem MCtx.acted_inv {c : MCtx} (hc : c.s.Inv) (is : List Nat) (f : Nat → MArray → MArray) : (c.acted is f).Inv := hc

theorem MCtx.free_inv {c : MCtx} (hc : c.s.Inv) (is : List Nat) {k : Out} (hk : k.Inv) : (c.free is k).Inv := by
  unfold MCtx.free
  split
  · exact hc
  · exact hk

theorem MCtx.pay_inv {c : MCtx} (hc : c.s.Inv) (n : Nat) {k : MCtx → Out} (hk : ∀ c : MCtx, c.s.Inv → (k c).Inv) : (c.pay n k).Inv := by
  unfold MCtx.pay
  split
  · exact hk _ hc
  · split
    · exact hk _ (MCtx.set_inv hc _)
    · split <;> exact hc

theorem MCtx.granules_inv {consume : Bool} {o n fuel : Nat} {c c1 : MCtx} {g : Option Nat} (hc : c.s.Inv)
    (e : c.granules consume o n fuel = .ok (c1, g)) : c1.s.Inv := by
  induction fuel generalizing c with
  | zero => cases e; exact hc
  | succ k ih =>
    unfold MCtx.granules at e
    extract_lets j x s1 at e
    split at e
    · cases e
      exact hc
    · split at e
      · cases e
      · split at e
        · cases e
          exact hc
        · split at e
          · cases e
            exact hc
          · refine ih ?_ e
            exact hc.of_mem (by simp [s1])

theorem MCtx.tread_inv {c : MCtx} (hc : c.s.Inv) (consume : Bool) (o n : Nat) {k : MCtx → List Byte → Out}
    (hk : ∀ (c : MCtx) bs, c.s.Inv → (k c bs).Inv) : (c.tread consume o n k).Inv := by
  unfold MCtx.tread
  split
  · exact hc
  · rename_i e
    have h1 := MCtx.granules_inv hc e
    exact h1
  · rename_i e
    exact hk _ _ (MCtx.granules_inv hc e)

theorem mwbLoad_inv (f : FForm) (is : List Nat) (bs : List Byte) {c : MCtx} (hc : c.s.Inv) : (mwbLoad f is bs c).Inv := by
  unfold mwbLoad
  extract_lets
  split
  · exact hc
  · exact MCtx.acted_inv hc _ _

theorem mwbTeam_inv (f : FForm) (is : List Nat) (cap o fuel : Nat) {c : MCtx} (hc : c.s.Inv) : (mwbTeam f is cap o fuel c).Inv := by
  induction fuel generalizing c with
  | zero => exact hc
  | succ k ih =>
    unfold mwbTeam
    dsimp only
    split
    · exact hc
    · split
      · exact hc
      · split
        · exact mwbLoad_inv _ _ _ hc
        · exact MCtx.tread_inv hc _ _ _ (fun _ _ h => ih h)

theorem mwbGlobal_inv (f : FForm) (is : List Nat) (cap : Nat) (va : DWord) (fuel : Nat) (bs : List Byte) {c : MCtx} (hc : c.s.Inv) :
    (mwbGlobal f is cap va c fuel bs).Inv := by
  induction fuel generalizing c bs with
  | zero => exact hc
  | succ k ih =>
    unfold mwbGlobal
    dsimp only
    split
    · exact hc
    · split
      · exact mwbLoad_inv _ _ _ hc
      · split
        · exact ih _ (hc.of_mem (by simp))
        · exact hc
        · exact hc.out (by simp)
        · exact hc

section
variable {s : State} (h : s.Inv)
include h

theorem execMbra_inv (i : IForm) : NextInv (execMbra i s) :=
  runM_inv h (fun c hc => by split <;> exact hc)

theorem execMloop_inv (i : IForm) : NextInv (execMloop i s) :=
  runM_inv h (fun c hc => by dsimp only; split <;> exact hc)

theorem execMend_inv (f : FForm) : NextInv (execMend f s) :=
  runM_inv h (fun c hc => by
    split
    · exact hc
    · exact hc.out (by simp))

theorem execMfence_inv (f : FForm) : NextInv (execMfence f s) :=
  runM_inv h (fun c hc => by
    split
    · exact hc
    · split
      · exact hc
      · exact hc.out (by simp))

theorem execMqpop_inv (f : FForm) : NextInv (execMqpop f s) :=
  runM_inv h (fun c hc => by
    dsimp only
    split
    · split <;> exact hc
    · exact hc)

theorem execMarr_inv (f : FForm) : NextInv (execMarr f s) :=
  runM_inv h (fun _ hc => MCtx.checked_inv hc _ hc)

theorem execMwait_inv (f : FForm) : NextInv (execMwait f s) :=
  runM_inv h (fun _ hc => .ite hc (.ite hc hc))

theorem execMleave_inv (f : FForm) : NextInv (execMleave f s) :=
  runM_inv h (fun c hc => by
    dsimp only
    split
    · exact hc
    · split <;> exact hc)

theorem execMast_inv (f : FForm) : NextInv (execMast f s) :=
  runM_inv h (fun c hc => by
    dsimp only
    split
    · exact hc
    · exact MCtx.checked_inv hc _ (MCtx.free_inv hc _ (MCtx.pay_inv hc _ (fun _ hc =>
        MCtx.tread_inv hc _ _ _ (fun _ _ hc => MCtx.acted_inv hc _ _)))))

theorem execMwb_inv (f : FForm) : NextInv (execMwb f s) :=
  runM_inv h (fun c hc => by
    dsimp only
    split
    · exact hc
    · split
      · exact MCtx.checked_inv hc _ (MCtx.free_inv hc _ (MCtx.pay_inv hc _ (fun _ hc => mwbTeam_inv _ _ _ _ _ hc)))
      · exact MCtx.checked_inv hc _ (MCtx.free_inv hc _ (MCtx.pay_inv hc _ (fun _ hc => mwbGlobal_inv _ _ _ _ _ _ hc))))

theorem execMscl_inv (f : FForm) : NextInv (execMscl f s) :=
  runM_inv h (fun c hc => by
    dsimp only
    split
    · exact hc
    · refine MCtx.checked_inv hc _ (MCtx.free_inv hc _ ?_)
      split
      · exact MCtx.acted_inv hc _ _
      · exact MCtx.tread_inv hc _ _ _ (fun _ _ hc => MCtx.acted_inv hc _ _))

theorem execMmaskld_inv (f : FForm) : NextInv (execMmaskld f s) :=
  runM_inv h (fun _ hc => MCtx.checked_inv hc _ (MCtx.tread_inv hc _ _ _ (fun c _ hc => by
    split
    · exact hc
    · refine MCtx.checked_inv hc _ (MCtx.tread_inv hc _ _ _ (fun c bs hc => ?_))
      split <;> exact hc)))

theorem mulOp_inv (f : FForm) (half scout : Bool) (acts : MCtx → Nat → Bool) (cost : MArray → Nat)
    (go : MArray → Nat → Nat → Nat → MArray) : NextInv (mulOp f half scout acts cost go s) :=
  runM_inv h (fun c hc => by
    dsimp only
    split
    · exact hc
    · exact MCtx.checked_inv hc _ (MCtx.free_inv hc _ (MCtx.pay_inv hc _ (fun _ hc => MCtx.acted_inv hc _ _))))

theorem execMmasp_inv (f : FForm) : NextInv (execMmasp f s) :=
  runM_inv h (fun c hc => by
    dsimp only
    split
    · exact hc
    · refine MCtx.checked_inv hc _ (MCtx.free_inv hc _ (MCtx.pay_inv hc _ (fun _ hc =>
        MCtx.tread_inv hc _ _ _ (fun _ _ hc => ?_))))
      split
      · exact hc
      · exact MCtx.acted_inv hc _ _)

theorem execMsieve_inv (f : FForm) : NextInv (execMsieve f s) :=
  runM_inv h (fun c hc => by
    dsimp only
    split
    · exact hc
    · exact MCtx.checked_inv hc _ (MCtx.free_inv hc _ (MCtx.pay_inv hc _ (fun _ hc => MCtx.acted_inv (MCtx.set_inv hc _) _ _))))

theorem execMzero_inv (f : FForm) : NextInv (execMzero f s) :=
  runM_inv h (fun c hc => by
    split
    · exact hc
    · exact MCtx.free_inv hc _ (MCtx.acted_inv hc _ _))

theorem execMcvt_inv (f : FForm) : NextInv (execMcvt f s) :=
  runM_inv h (fun c hc => by
    dsimp only
    split
    · exact hc
    · exact MCtx.checked_inv hc _ (MCtx.free_inv hc _ (MCtx.acted_inv hc _ _)))

theorem execMdrain_inv (f : FForm) : NextInv (execMdrain f s) :=
  runM_inv h (fun c hc => by
    dsimp only
    split
    · exact MCtx.checked_inv hc _ (MCtx.pay_inv hc _ (fun _ hc => hc))
    · split
      · exact hc
      · exact MCtx.checked_inv hc _ (MCtx.free_inv hc _ (MCtx.pay_inv hc _ (fun _ hc => hc))))

theorem execMdrainGranuleWrite_inv (op : Nat) : NextInv (execMdrainGranuleWrite op s) := by
  unfold execMdrainGranuleWrite
  split
  · exact h
  · split
    · exact h
    · dsimp only
      split <;> exact h

/-! ### Completions, waits, report records -/

theorem execLongLatencyComplete_inv (op : Nat) : NextInv (execLongLatencyComplete op s) := by
  unfold execLongLatencyComplete
  split
  · exact h
  · split
    · exact h.serveLate _ _
    · exact State.Inv.foldl (fun _ _ hs => hs.groupAct _ _ _ _) _ h
    · split <;> exact h

end

@[simp] theorem State.waitOver_mem (s : State) (t : Team) (p : Party) (w : WaitFor) (go : Team → Team) : (s.waitOver t p w go).mem = s.mem := by
  unfold waitOver
  split <;> simp

@[simp] theorem State.laneResume_mem (s : State) (t : Team) (row pos : Nat) : (s.laneResume t row pos).mem = s.mem := by
  unfold laneResume
  split
  · rfl
  · split
    · simp
    · split <;> simp
    · split <;> simp
    · split
      · split
        · exact foldl_mem served_mem _ _
        · rfl
      · rfl
    · rfl

@[simp] theorem State.dropPend_mem (s : State) (n : Nat) : (s.dropPend n).mem = s.mem := rfl

@[simp] theorem State.breakRing_mem (s : State) (r : PendRec) : (s.breakRing r).mem = s.mem := by simp [breakRing]

@[simp] theorem State.holdRec_mem (s : State) (r : PendRec) : (s.holdRec r).mem = s.mem := by simp [holdRec]

@[simp] theorem State.ringFull_mem (s : State) (r : PendRec) : (s.ringFull r).mem = s.mem := State.foldl_mem holdRec_mem _ _

theorem State.Inv.putRecord {s : State} (h : s.Inv) (r : PendRec) (x : RingHdr) (ks : List Nat) : (s.putRecord r x ks).Inv := by
  unfold State.putRecord
  dsimp only
  split
  · exact (h.scatterFor _ _ _ _).scatterFor _ _ _ _
  · exact h
  · exact h.of_mem (by simp)

section
variable {s : State} (h : s.Inv)
include h

theorem execWaitEnd_inv (p : Party) : NextInv (execWaitEnd p s) := by
  unfold execWaitEnd
  split
  · exact h
  · split
    · exact h
    · cases p <;> dsimp only
      · split
        · exact h
        · split
          · exact h
          · split
            · exact h.of_mem (by simp)
            · exact h
      · exact h.of_mem (by simp)
      all_goals
        split
        · exact h
        · split
          · exact h.of_mem (by simp)
          · exact h

theorem execReportRecordWrite_inv (n : Nat) : NextInv (execReportRecordWrite n s) := by
  unfold execReportRecordWrite
  split
  · exact h
  · split
    · exact h
    · split
      · exact h.of_mem (by simp)
      · dsimp only
        split
        · exact h
        · split
          · exact h.of_mem (by simp)
          · split
            · exact h.of_mem (by simp)
            · exact h.putRecord _ _ _
        · exact h.of_mem (by simp)

end
end Sys2Proof.Machine
end

