-- ==== Sys2Proof/Proofs/CanonicalTeams.lean ====
section
/-! SUPPORT. Memory in its canonical form: the end of a residence, handlers, dispatch, outside accesses, preemption and power. -/

namespace Sys2Proof.Machine

open Sys2Proof

/-! ### Gleaner passes and the end of a residence -/

namespace State

variable (s : State)

@[simp] theorem expireAll_mem : s.expireAll.mem = s.mem := rfl

@[simp] theorem abandonMwb_mem (t : Team) : (s.abandonMwb t).mem = s.mem := by
  unfold abandonMwb
  split
  · rfl
  · split <;> rfl

@[simp] theorem atRecord_mem (t : Team) : (s.atRecord t).mem = s.mem := by simp [atRecord]

@[simp] theorem cmdDone_mem (d w : Nat) : (s.cmdDone d w).mem = s.mem := rfl

@[simp] theorem stage_mem (d w : Nat) (bs : List Byte) : (s.stage d w bs).mem = s.mem := rfl

@[simp] theorem breakPool_mem (x k : Nat) : (s.breakPool x k).mem = s.mem := by simp [breakPool]

@[simp] theorem holdPool_mem (x k : Nat) (b : Bool) (pc va : DWord) (pg w : Bool) : (s.holdPool x k b pc va pg w).mem = s.mem := by
  simp [holdPool]

@[simp] theorem poolStop_mem (x k : Nat) (b : Bool) (pc : DWord) (e : SchedStop) : (s.poolStop x k b pc e).mem = s.mem := by
  cases e <;> simp [poolStop]

@[simp] theorem setBind_mem (d k : Nat) (r : BindRec) : (s.setBind d k r).mem = s.mem := rfl

@[simp] theorem markDone_mem (d k : Nat) : (s.markDone d k).mem = s.mem := by
  unfold markDone
  dsimp only
  split
  · rfl
  · split <;> simp

@[simp] theorem extAbort_mem (op : ExtOp) (a : Answer) : (s.extAbort op a).mem = s.mem := by cases op <;> rfl

@[simp] theorem bar2Fail_mem (x d : Nat) (off : DWord) (op : ExtOp) : (s.bar2Fail x d off op).mem = s.mem := by simp [bar2Fail]

@[simp] theorem readyImage_mem (t : Team) : (s.readyImage t).mem = s.mem := by simp [readyImage]

@[simp] theorem boundary_mem (lid d c n : Nat) : (s.boundary lid d c n).mem = s.mem := rfl

@[simp] theorem acquireAll_mem (t : Team) : (s.acquireAll t).mem = s.mem := by
  simp [acquireAll, foldl_mem (f := fun s c => s.acquire 3 t.hdr.twin t.die c) (fun _ _ => rfl)]

@[simp] theorem setArbiter_mem (i : Nat) (f : Arbiter → Arbiter) : (s.setArbiter i f).mem = s.mem := rfl

@[simp] theorem fillBucket_mem (x i : Nat) : (s.fillBucket x i).mem = s.mem := rfl

end State

@[simp] theorem gleanNow_mem (g : Glean) (r : State × Option Engine) : (gleanNow g r).mem = r.1.mem := rfl

namespace State.Inv

variable {s : State} (h : s.Inv)
include h

theorem cancelEngines (uid : Nat) : (s.cancelEngines uid).Inv := by
  unfold State.cancelEngines
  refine State.Inv.foldl (fun s g hs => ?_) _ (State.Inv.foldl (fun s b hs => ?_) _ h)
  · exact ite (hs.engineCancel _ _) hs
  · exact ite (hs.engineCancel _ _) hs

theorem dropTeam (uid : Nat) : (s.dropTeam uid).Inv := h.cancelEngines uid

theorem freeTeam (t : Team) : (s.freeTeam t).Inv := by
  have h1 := h.dropTeam t.uid
  unfold State.freeTeam
  dsimp only
  split <;> exact ite h1 h1

theorem account (t : Team) (e : Ending) : (s.account t e).Inv := State.Inv.checkLaunch (s := s.setLaunch _ _) h _

theorem closeTeam (t : Team) (e : Ending) : (s.closeTeam t e).Inv := (h.freeTeam t).account t e

theorem kill (t : Team) (kind code : Nat) : (s.kill t kind code).Inv := State.Inv.closeTeam (h.of_mem (by simp)) _ _

theorem resetOne (t : Team) : (s.resetOne t).Inv := State.Inv.closeTeam (h.of_mem (by simp)) _ _

theorem forceReset (t : Team) : (s.forceReset t).Inv := State.Inv.foldl (fun _ t hs => hs.resetOne t) _ h

theorem eccKill (t : Team) : (s.eccKill t).Inv :=
  ite (State.Inv.closeTeam (h.of_mem (by simp)) _ _) (State.Inv.closeTeam (h.of_mem (by simp)) _ _)

/-! ### Commands of handler windows -/

theorem command (d w n : Nat) (args : Window → Window) {f : State → Team → Option State}
    (hf : ∀ s t s', s.Inv → f s t = some s' → s'.Inv) : (s.command d w n args f).Inv := by
  unfold State.command
  split
  · exact h
  · dsimp only
    split
    · exact h
    · rename_i e
      obtain ⟨t, -, e2⟩ := Option.bind_eq_some_iff.1 e
      refine hf _ _ _ ?_ e2
      split
      · exact h.of_mem (by simp)
      · exact h

/-! ### Record pools, readiness -/

theorem skipSlot (x : Nat) (hd : DWord) (n : Nat) : (s.skipSlot x hd n).Inv := by
  unfold State.skipSlot
  dsimp only
  split
  · exact State.Inv.scatterFor (s := s.takeLid.2) h _ _ _ _
  · exact h

theorem readPool (x k : Nat) : (s.readPool x k).Inv := by
  unfold State.readPool
  dsimp only
  split
  · exact h.of_mem (by simp)
  · split
    · exact h.of_mem (by simp)
    · split
      · exact h
      · split
        · exact (h.skipSlot x (s.poolAt x k) _).of_mem (State.breakPool_mem _ _ _)
        · exact h.of_mem (by simp)
        · split
          · exact h
          · split
            · exact h.of_mem (by simp)
            · exact (h.scatterFor _ _ _ _).tryAccept _ _ _ _

theorem failPool (x k : Nat) (b : Bool) : (s.failPool x k b).Inv := by
  refine State.Inv.of_mem ?_ (State.breakPool_mem _ _ _)
  split
  · split
    · exact h.skipSlot _ _ _
    · exact h
  · exact h

theorem testReady (l : Launch) : (s.testReady l).Inv := by
  unfold State.testReady
  split
  · exact State.Inv.checkLaunch (s := s.setLaunch _ _) h _
  · exact h
  · exact h.endLaunch _ _
  · exact h.of_mem (by simp)

/-! ### Accesses from outside the package -/

theorem extPerform (x : Nat) (ps : List (DWord × Nat)) (ks : List Nat) (op : ExtOp) : (s.extPerform x ps ks op).Inv := by
  cases op with
  | read n => exact h
  | write bs => exact h.scatterFor _ _ _ _
  | _ => exact h.scatterFor _ _ _ _

theorem bar2 (port x : Nat) (off : DWord) (op : ExtOp) : (s.bar2 port x off op).Inv := by
  unfold State.bar2
  extract_lets d behind hold
  refine ite (h.of_mem (by simp)) (ite h (ite (h.of_mem (by simp)) ?_))
  extract_lets
  split
  · exact ite (h.of_mem (by simp)) (h.extPerform _ _ _ _)
  · exact h
  · exact h.of_mem (by simp)

theorem fabricIn (port src : Nat) (tag : BitVec 16) (pa : Nat) (op : ExtOp) : (s.fabricIn port src tag pa op).Inv := by
  unfold State.fabricIn
  exact ite h (ite h (ite (h.of_mem (by simp)) (h.extPerform _ _ _ _)))

theorem releaseHeld : s.releaseHeld.Inv := by
  unfold State.releaseHeld
  refine State.Inv.foldl (fun s x hs => ?_) _ h
  split
  · exact ite (hs.bar2 _ _ _ _) hs
  · exact hs.fabricIn _ _ _ _ _

/-! ### Saving and restoring teams -/

theorem copyOut (ckpt : Bool) (uid : Nat) {s' : State} (e : s.copyOut ckpt uid = some s') : s'.Inv := by
  unfold State.copyOut at e
  split at e
  · cases e
  · dsimp only at e
    split at e
    · cases e
    · split at e
      · cases e
      · split at e <;> cases e
        exact State.Inv.scatterFor (s := s.readyImage _) (h.of_mem (by simp)) _ _ _ _

theorem copyPlot (ckpt : Bool) (t : Team) : (s.copyPlot ckpt t).Inv := by
  unfold State.copyPlot
  dsimp only
  split
  · exact h
  · generalize e : List.foldl _ _ _ = r
    have hr : ∀ s', r = some s' → s'.Inv := by
      rw [← e]
      refine List.foldlRecOn (motive := fun r : Option State => ∀ s', r = some s' → s'.Inv) _ _ (fun s' e => by cases e; exact h)
        (fun acc ih u _ s' e => ?_)
      obtain ⟨s1, e1, e2⟩ := Option.bind_eq_some_iff.1 e
      exact (ih s1 e1).copyOut _ _ e2
    cases r with
    | none => exact h
    | some s' => exact hr s' rfl

theorem copyLaunch (lid : Nat) : (s.copyLaunch lid).Inv := by
  unfold State.copyLaunch
  refine State.Inv.foldl (fun s u hs => ?_) _ h
  split
  · exact hs.copyPlot _ _
  · exact hs

theorem copyIn (v : Saved) (p : Team) (r : Restored) : (s.copyIn v p r).Inv := by
  unfold State.copyIn
  dsimp only
  split
  · exact h.of_mem (by simp)
  · exact ite h (State.Inv.closeTeam (h.of_mem (by simp)) _ _)

end State.Inv

section
variable {s : State} (h : s.Inv)
include h

theorem execGleanerPass_inv (op : Nat) : NextInv (execGleanerPass op s) := by
  unfold execGleanerPass
  split
  · exact h
  · split
    · rename_i e
      exact h.engineServe _ _ e
    · split
      · exact h
      · split
        · exact h
        · split
          · exact h.engineChit _ _ _
          · split
            · exact h.engineChit _ _ _
            · exact h
            · exact h.enginePause _ _ _ _ _ _
            · rename_i t _ _ _ _ w _
              extract_lets s1 g1
              have h1 : s1.Inv := by
                cases w with
                | none => exact h
                | some e => exact h.put _ _ _
              split
              · exact h1.engineChit _ _ _
              · split
                · exact h1.engineChit _ _ _
                · exact h1

theorem execTeamRetire_inv (uid : Nat) : NextInv (execTeamRetire uid s) := by
  unfold execTeamRetire
  split
  · exact h
  · split
    · exact State.Inv.closeTeam (h.of_mem (by simp)) _ _
    · exact h

theorem execUncorrectableError_inv (x : EccSite) : NextInv (execUncorrectableError x s) := by
  unfold execUncorrectableError
  split
  iterate 2
    · split
      · exact h
      · split
        · exact h
        · exact h.eccKill _
  · exact h
  · exact h

theorem execContinuationEntry_inv (uid fid : Nat) : NextInv (execContinuationEntry uid fid s) := by
  unfold execContinuationEntry
  split
  · exact h
  · split
    · exact h
    · split <;> exact h

theorem execHandlerWindowAssign_inv (uid : Nat) : NextInv (execHandlerWindowAssign uid s) := by
  unfold execHandlerWindowAssign
  split
  · exact h
  · split
    · exact h
    · split
      · exact h.kill _ _ _
      · split
        · exact h
        · exact h.of_mem (by simp)

theorem execHandlerWindowTimeout_inv (d w : Nat) : NextInv (execHandlerWindowTimeout d w s) := by
  unfold execHandlerWindowTimeout
  split
  · exact h
  · split
    · exact h
    · exact h.kill _ _ _

theorem execHandlerFailure_inv (d w : Nat) : NextInv (execHandlerFailure d w s) := by
  unfold execHandlerFailure
  split
  · exact h
  · exact h.kill _ _ _

theorem execReadf_inv (d w : Nat) (x : Word) : NextInv (execReadf d w x s) :=
  h.command _ _ _ _ (fun s t s' hs e => by
    split at e
    · cases e
    · obtain ⟨g, -, rfl⟩ := Option.map_eq_some_iff.1 e
      exact hs)

theorem execReadt_inv (d w : Nat) (x : Word) (y : DWord) : NextInv (execReadt d w x y s) :=
  h.command _ _ _ _ (fun s t s' hs e => by
    split at e
    · cases e
    · obtain ⟨g, -, rfl⟩ := Option.map_eq_some_iff.1 e
      exact hs)

theorem execWritet_inv (d w : Nat) (x : Word) (y z : DWord) : NextInv (execWritet d w x y z s) :=
  h.command _ _ _ _ (fun s t s' hs e => by
    split at e
    · cases e
    · split at e <;> cases e
      exact hs.of_mem (by simp))

theorem execReads_inv (d w : Nat) (x : Word) : NextInv (execReads d w x s) :=
  h.command _ _ _ _ (fun s t s' hs e => by
    split at e
    · cases e
    · split at e <;> cases e <;> exact hs)

theorem execStep_inv (d w : Nat) (x : Word) : NextInv (execStep d w x s) :=
  h.command _ _ _ _ (fun s t s' hs e => by
    split at e
    · cases e
    · obtain ⟨g, -, rfl⟩ := Option.map_eq_some_iff.1 e
      exact hs.of_mem (by simp))

theorem execResume_inv (d w : Nat) : NextInv (execResume d w s) :=
  h.command _ _ _ _ (fun s t s' hs e => by
    split at e <;> cases e
    exact hs)

theorem execKill_inv (d w : Nat) (x : Word) : NextInv (execKill d w x s) :=
  h.command _ _ _ _ (fun s t s' hs e => by
    cases e
    exact hs.kill _ _ _)

theorem execHalt_inv (d w : Nat) (x : Word) (y : DWord) : NextInv (execHalt d w x y s) := by
  unfold execHalt
  split
  · exact h
  · dsimp only
    split
    · exact h
    · split <;> exact h

theorem execStepWaitTimeout_inv (d w : Nat) : NextInv (execStepWaitTimeout d w s) := by
  unfold execStepWaitTimeout
  split
  · exact h
  · split
    · exact h
    · split <;> exact h

theorem execRecordAccept_inv (x k : Nat) : NextInv (execRecordAccept x k s) := by
  unfold execRecordAccept
  dsimp only
  split
  · exact h
  · split
    · exact h.retryAccept _
    · split
      · exact h.readPool _ _
      · split
        · exact h
        · exact State.Inv.readPool (h.of_mem (by simp)) _ _
        · exact State.Inv.failPool (h.of_mem (by simp)) _ _ _

theorem execLaunchReady_inv (lid : Nat) : NextInv (execLaunchReady lid s) := by
  unfold execLaunchReady
  split
  · exact h
  · split
    · exact h.launchChitServe _
    · split
      · exact h
      · split
        · exact h.testReady _
        · split
          · exact h
          · exact State.Inv.testReady (h.of_mem (by simp)) _
          · exact State.Inv.endLaunch (h.of_mem (by simp)) _ _

theorem execBindRecordWrite_inv (d k : Nat) (r : BindRec) : NextInv (execBindRecordWrite d k r s) := by
  unfold execBindRecordWrite
  split
  · exact h
  · dsimp only
    split
    · exact h
    · split <;> exact h

theorem execTeamDispatch_inv (d k : Nat) : NextInv (execTeamDispatch d k s) := by
  unfold execTeamDispatch
  extract_lets r vd
  split
  · exact h
  · extract_lets part group kd resident may
    split
    · exact h
    · split
      · exact h.of_mem (by simp)
      · split
        · exact h
        · extract_lets ts1 last s1 s2
          refine h.of_mem ?_
          rw [State.markDone_mem]
          exact State.foldl_mem (fun s t => s.acquire_mem 4 _ _ _) _ _

theorem execPreemptBoundary_inv (lid d c n : Nat) : NextInv (execPreemptBoundary lid d c n s) := State.Inv.ite h h

theorem execPreemptSave_inv (lid d c n : Nat) : NextInv (execPreemptSave lid d c n s) := by
  unfold execPreemptSave
  split
  · exact h
  · split
    · exact State.Inv.ite h h
    · extract_lets here s1
      exact State.Inv.copyLaunch (s := s1) h _

theorem execTeamRestore_inv (uid d c : Nat) : NextInv (execTeamRestore uid d c s) := by
  unfold execTeamRestore
  split
  · exact h
  · extract_lets vs part may rs
    split
    · exact h
    · split
      · exact h
      · exact State.Inv.foldl (fun _ _ hs => hs.copyIn _ _ _) _ h

theorem execPreemptDeadlineExpiry_inv (uid : Nat) : NextInv (execPreemptDeadlineExpiry uid s) := by
  unfold execPreemptDeadlineExpiry
  split
  · exact h
  · split
    · exact h
    · split
      · exact h
      · split
        · exact h
        · exact h.forceReset _

theorem execRefill_inv (x i : Nat) (r d : DWord) : NextInv (execRefill x i r d s) := by
  unfold execRefill
  split <;> exact h

theorem execBucketPeriod_inv : NextInv (execBucketPeriod s) := by
  unfold execBucketPeriod
  split <;> exact h

theorem execArbiterGrant_inv (i : Nat) (rs : List (Nat × ArbWork)) : NextInv (execArbiterGrant i rs s) := by
  unfold execArbiterGrant
  dsimp only
  split <;> exact h

theorem execWeighbridgeWindow_inv : NextInv (execWeighbridgeWindow s) := by
  unfold execWeighbridgeWindow
  split
  · exact h
  · exact h.of_mem (State.foldl_mem (fun s d => s.setDie_mem d _) _ _)

theorem execWeighbridgeGrant_inv (n : Nat) : NextInv (execWeighbridgeGrant n s) := by
  unfold execWeighbridgeGrant
  split
  · exact h
  · extract_lets i ws
    split
    · exact h
    · split
      · exact h
      · exact State.Inv.ite h h

end
end Sys2Proof.Machine
end

