-- ==== Sys2Proof/Proofs/CanonicalPackage.lean ====
section
/-! SUPPORT. Memory in its canonical form: the package, its registers, and what stands outside of it. -/

namespace Sys2Proof.Machine

open Sys2Proof

/-! ### Package operations that leave memory as it is -/

namespace State

variable (s : State)

@[simp] theorem signal_mem (x q : Nat) (b : Bool) : (s.signal x q b).mem = s.mem := by
  unfold signal
  split
  · rfl
  · split
    · rfl
    · extract_lets s1
      split
      · rfl
      · split <;> simp [s1]

@[simp] theorem dropPages_mem (x page : Nat) : (s.dropPages x page).mem = s.mem := rfl

@[simp] theorem invalidate_mem (x page : Nat) : (s.invalidate x page).mem = s.mem := rfl

@[simp] theorem convert_mem (x : Nat) (v : DWord) : (s.convert x v).mem = s.mem := by simp [convert]

@[simp] theorem askWays_mem (d : Nat) (v : DWord) : (s.askWays d v).mem = s.mem := by simp [askWays]

@[simp] theorem writeFrame_mem (f : Nat) (v : DWord) : (s.writeFrame f v).mem = s.mem := by simp [writeFrame]

@[simp] theorem reply_mem (d : Nat) (v : DWord) : (s.reply d v).mem = s.mem := by
  unfold reply
  dsimp only
  split <;> rfl

@[simp] theorem askMode_mem (v : DWord) : (s.askMode v).mem = s.mem := by simp [askMode]

@[simp] theorem verify_mem (imgs : List FwImage) : (s.verify imgs).1.mem = s.mem := foldl_mem (f := measure) (fun _ _ => rfl) _ _

@[simp] theorem startCkpt_mem (v : DWord) : (s.startCkpt v).mem = s.mem := rfl

@[simp] theorem askCkpt_mem (v : DWord) : (s.askCkpt v).mem = s.mem := by simp [askCkpt]

@[simp] theorem bootDie_mem (imgs : List FwImage) (d : Nat) : (s.bootDie imgs d).mem = s.mem := by
  have e := s.verify_mem (imgs.filter (fun i => i.die == d))
  unfold bootDie
  split <;> rename_i e1 <;> rw [e1] at e
  · exact e
  · simpa using e

@[simp] theorem fillAll_mem (x : Nat) : (s.fillAll x).mem = s.mem := foldl_mem (f := fun s i => s.fillBucket x i) (fun _ _ => rfl) _ _

@[simp] theorem writeControl_mem (x o v : Nat) : (s.writeControl x o v).mem = s.mem := by
  unfold writeControl
  extract_lets set s1
  have hset (f : Pitch → Pitch) : (set f).mem = s.mem := rfl
  have h1 : s1.mem = s.mem := rfl
  split
  case h_9 =>
    rw [mem_ite, mem_ite, hset]
    simp only [ite_self]
  all_goals simp [hset, h1]

@[simp] theorem writeService_mem (x o v : Nat) : (s.writeService x o v).mem = s.mem := by
  unfold writeService
  extract_lets set w
  have hset (f : Pitch → Pitch) : (set f).mem = s.mem := rfl
  rw [mem_ite, mem_ite]
  split
  · simp [hset]
  · split
    · rfl
    · split <;> simp [hset]

@[simp] theorem writeBudget_mem (d v : Nat) : (s.writeBudget d v).mem = s.mem := by simp [writeBudget]

@[simp] theorem grantPage_mem (r : FaultRec) : (s.grantPage r).mem = s.mem := by
  unfold grantPage
  dsimp only
  split <;> rfl

end State

/-! ### Package operations that change memory -/

namespace State.Inv

variable {s : State} (h : s.Inv)
include h

theorem clearFrame (f : Nat) : (s.clearFrame f).Inv := h.clearRange _ _

theorem resetTeams (due : Nat) (ts : List Team) : (s.resetTeams due ts).Inv := by
  unfold State.resetTeams
  refine State.Inv.foldl (fun s t hs => ?_) _ h
  split
  · exact ite hs (ite (hs.of_mem (by simp)) (hs.forceReset _))
  · exact hs

theorem raiseDie (d : Nat) : (s.raiseDie d).Inv := by
  unfold State.raiseDie
  extract_lets s1 s2
  have h1 : s1.Inv := (h.clearRange _ _).clearRange _ _
  have h2 : s2.Inv := h1.of_mem (State.foldl_mem (fun s j => s.setFrame_mem _ _) _ _)
  exact h2.of_mem (State.setDie_mem _ _ _)

theorem startDie (r : DieReq) : (s.startDie r).Inv := by
  unfold State.startDie
  have hv := h.of_mem (s.verify_mem (r.imgs.filter (fun i => i.die == r.die)))
  refine ite h ?_
  split <;> rename_i e <;> rw [e] at hv
  · exact (hv.raiseDie r.die).of_mem (by simp)
  · exact hv.of_mem (by simp)

theorem wakeDie (r : DieReq) : (s.wakeDie r).Inv := ite h (ite h (h.startDie r))

theorem afterChange : s.afterChange.Inv := by
  unfold State.afterChange
  refine ite h ?_
  extract_lets s1
  have h1 : s1.Inv := State.Inv.foldl (fun _ r hs => hs.wakeDie r) _ h
  split <;> exact h1

theorem askDie (v : DWord) (imgs : List FwImage) : (s.askDie v imgs).Inv := ite h (ite h (h.startDie _))

theorem copyRange (src dst n : Nat) : (s.copyRange src dst n).Inv := Memory.wf_setMany _ _ (h.clearRange _ _)

theorem copyFrame (e : Nat × Nat) : (s.copyFrame e).Inv := h.copyRange _ _ _

theorem endMode (r : ModeReq) : (s.endMode r).Inv := by
  unfold State.endMode
  extract_lets s1 s2
  have h1 : s1.Inv := h.of_mem (State.foldl_mem (fun s x => by simp) _ _)
  exact State.Inv.afterChange (State.Inv.of_mem (s := s2) h1 (by simp))

theorem cancel (pitch : Nat → Bool) (team : Team → Bool) : (s.cancel pitch team).Inv := by
  unfold State.cancel
  extract_lets ts mine lids s1 s2
  have h1 : s1.Inv := h
  have h2 : s2.Inv := by
    refine State.Inv.foldl (fun s t hs => ?_) _ h1
    split
    · exact ite hs (hs.kill _ _ _)
    · exact hs
  exact State.Inv.foldl (fun _ l hs => hs.checkLaunch l) _ h2

theorem partReset (p : Nat) : (s.partReset p).Inv := ite (h.cancel _ _) h

theorem stream (v : DWord) : (s.stream v).Inv := State.Inv.foldl (fun _ _ hs => hs.copyRange _ _ _) _ h

/-- A package reset keeps the cells of memory outside the package, in their order. -/
theorem afterReset : s.afterReset.Inv := FMap.wfFrom_filter _ _ _ h

end State.Inv

section
variable {s : State} (h : s.Inv)
include h

theorem execSigok_inv (x : Nat) (q : DWord) : NextInv (execSigok x q s) := h.of_mem (by simp)

theorem execSigfail_inv (x : Nat) (q : DWord) : NextInv (execSigfail x q s) := h.of_mem (by simp)

theorem execInvalPage_inv (x : Nat) (va : DWord) : NextInv (execInvalPage x va s) := State.Inv.ite h h

theorem execInvalPitch_inv (x : Nat) : NextInv (execInvalPitch x s) := State.Inv.ite h h

theorem execInvalidationDone_inv (x : Nat) : NextInv (execInvalidationDone x s) := by
  refine State.Inv.of_mem h ?_
  split
  · simp
  · rfl

theorem execCzctl_inv (x : Nat) (v : DWord) : NextInv (execCzctl x v s) := h.of_mem (by simp)

theorem execCrateConversionDone_inv (x : Nat) : NextInv (execCrateConversionDone x s) := by
  unfold execCrateConversionDone
  split <;> exact h

theorem execRvsways_inv (d : Nat) (v : DWord) : NextInv (execRvsways d v s) := h.of_mem (by simp)

theorem execRvsResize_inv (d : Nat) : NextInv (execRvsResize d s) := by
  unfold execRvsResize
  split
  · exact h
  · split
    · exact h
    · extract_lets base old s1
      exact h.clearRange _ _

theorem execFrameEntry_inv (f : Nat) (v : DWord) : NextInv (execFrameEntry f v s) := h.of_mem (by simp)

theorem execFrameScrubDone_inv (f : Nat) : NextInv (execFrameScrubDone f s) := by
  unfold execFrameScrubDone
  split
  · exact State.Inv.releaseHeld (State.Inv.of_mem (h.clearFrame f) (by simp))
  · exact h

theorem execSvcreply_inv (d : Nat) (v : DWord) : NextInv (execSvcreply d v s) := h.of_mem (by simp)

theorem execModereq_inv (v : DWord) : NextInv (execModereq v s) := h.of_mem (by simp)

theorem execModeDrainDeadline_inv : NextInv (execModeDrainDeadline s) := by
  unfold execModeDrainDeadline
  split
  · exact h
  · extract_lets left s1
    have h1 : s1.Inv := h.resetTeams _ _
    split
    · exact h
    · exact State.Inv.ite h1 h1

theorem execDieOffline_inv (v : DWord) : NextInv (execDieOffline v s) := State.Inv.ite h (h.askDie _ _)

theorem execDieOnline_inv (v : DWord) (imgs : List FwImage) : NextInv (execDieOnline v imgs s) := State.Inv.ite (h.askDie _ _) h

theorem execDieEvacuationDone_inv : NextInv (execDieEvacuationDone s) := by
  unfold execDieEvacuationDone
  split
  · exact h
  · extract_lets busy s1 s2
    split
    · exact h
    · have h1 : s1.Inv := State.Inv.foldl (fun _ e hs => hs.copyFrame e) _ h
      exact State.Inv.afterChange (h1.of_mem (by simp [s2]))

theorem execPurgeDone_inv (p : Nat) : NextInv (execPurgeDone p s) := by
  unfold execPurgeDone
  split
  · exact h
  · extract_lets s1
    have h1 : s1.Inv := h.of_mem (by simp [s1])
    split
    · exact h1
    · split
      · exact h1.endMode _
      · exact h1

theorem execPartreset_inv (p : Nat) : NextInv (execPartreset p s) := h.partReset p

theorem execFlr_inv (x : Nat) : NextInv (execFlr x s) := by
  unfold execFlr
  split
  · exact h
  · exact State.Inv.of_mem (h.cancel (fun y => y == x) (fun t => t.pitch == x)) (by simp)

theorem execCkpt_inv (v : DWord) : NextInv (execCkpt v s) := h.of_mem (by simp)

theorem execCkptQuiesceDeadline_inv : NextInv (execCkptQuiesceDeadline s) := by
  unfold execCkptQuiesceDeadline
  split
  · exact h
  · split
    · exact h
    · exact h.resetTeams _ _

theorem execCkptStreamDone_inv (ok : Bool) : NextInv (execCkptStreamDone ok s) := by
  unfold execCkptStreamDone
  split
  · exact h
  · extract_lets dev good s1 st
    split
    · exact h
    · have h1 : s1.Inv := State.Inv.ite (h.stream _) h
      exact State.Inv.afterChange (State.Inv.releaseHeld (h1.of_mem (by simp)))

theorem execPackageReset_inv (imgs : List FwImage) : NextInv (execPackageReset imgs s) := by
  have hv : (((s.afterReset.setPkg (fun k => { k with flash := imgs })).verify (imgs.filter (fun i => i.die == 0))).1).Inv :=
    h.afterReset.of_mem (by simp)
  unfold execPackageReset
  split <;> rename_i e <;> rw [e] at hv
  · exact hv
  · exact hv.of_mem (State.foldl_mem (fun s d => s.bootDie_mem imgs d) _ _)

/-! ### Writes of registers -/

theorem runCommand_inv (d w : Nat) : NextInv (runCommand d w s) := by
  unfold runCommand
  dsimp only
  split
  · exact execReadf_inv h _ _ _
  · exact execReadt_inv h _ _ _ _
  · exact execWritet_inv h _ _ _ _ _
  · exact execReads_inv h _ _ _
  · exact execStep_inv h _ _ _
  · exact execResume_inv h _ _
  · exact execKill_inv h _ _ _
  · exact execHalt_inv h _ _ _ _
  · exact h

theorem writeWindow_inv (d w o : Nat) (hv : Halves) (v : Nat) : NextInv (writeWindow d w o hv v s) := by
  unfold writeWindow
  extract_lets x s1
  split
  · have h1 : s1.Inv := State.Inv.ite h h
    split
    · exact runCommand_inv (s := s1.setWindow _ _ _) h1 _ _
    · exact h1
  · exact h
  · exact h
  · exact h

theorem writeDie_inv (d o : Nat) (hv : Halves) (v : Nat) : NextInv (writeDie d o hv v s) := by
  unfold writeDie
  extract_lets new
  split
  · split
    · exact execRvsways_inv h _ _
    · exact State.Inv.ite h h
    · exact State.Inv.ite h h
    · split
      · exact execSvcreply_inv h _ _
      · exact h
    · exact h
  · split
    · exact h.of_mem (by simp)
    · exact h

theorem writeControlPage_inv (x o : Nat) (hv : Halves) (v : Nat) : NextInv (writeControlPage x o hv v s) := by
  unfold writeControlPage
  extract_lets new i
  split
  · split
    · exact execRefill_inv h _ _ _ _
    · exact execRefill_inv h _ _ _ _
  · exact h.of_mem (by simp)

theorem writeServicePage_inv (x o : Nat) (hv : Halves) (v : Nat) : NextInv (writeServicePage x o hv v s) := by
  unfold writeServicePage
  extract_lets w
  split
  · split
    · exact execSigok_inv h _ _
    · exact h
  · split
    · exact execSigfail_inv h _ _
    · exact h
  · split
    · exact h
    · split
      · exact execInvalPitch_inv h _
      · exact execInvalPage_inv h _ _
  · split
    · exact execCzctl_inv h _ _
    · exact h
  · exact h.of_mem (by simp)

theorem writePkg_inv (o : Nat) (hv : Halves) (v : Nat) : NextInv (writePkg o hv v s) := by
  unfold writePkg
  extract_lets w
  split
  · split
    · exact execModereq_inv h _
    · exact h
  · split
    · exact execPartreset_inv h _
    · exact h
  · split
    · exact h
    · split
      · exact execDieOnline_inv h _ _
      · exact execDieOffline_inv h _
  · split
    · exact execCkpt_inv h _
    · exact h
  · exact State.Inv.ite h h
  · split
    · exact execFrameEntry_inv h _ _
    · exact h

theorem writeSpace_inv (a n v : Nat) : NextInv (writeSpace a n v s) := by
  unfold writeSpace
  split
  · exact h
  · extract_lets hv w
    split
    · exact writeDie_inv h _ _ _ _
    · exact writeWindow_inv h _ _ _ _ _
    · exact writeControlPage_inv h _ _ _ _
    · exact writeServicePage_inv h _ _ _ _
    · exact writePkg_inv h _ _ _
    · exact h

/-! ### What comes from outside the package -/

theorem execRegisterWrite_inv (b : HostFn) (a : Nat) (op : ExtOp) : NextInv (execRegisterWrite b a op s) := by
  unfold execRegisterWrite
  split
  · exact h
  · cases op with
    | write bs => exact writeSpace_inv h _ _ _
    | _ => exact h

theorem execHostBar2Access_inv (b : HostFn) (off : DWord) (op : ExtOp) : NextInv (execHostBar2Access b off op s) :=
  State.Inv.ite (h.bar2 _ _ _ _) h

theorem execPageRequestResponse_inv (x : Nat) (q : DWord) (ok : Bool) : NextInv (execPageRequestResponse x q ok s) := by
  unfold execPageRequestResponse
  split
  · exact h
  · exact h.of_mem (by simp)

theorem execSpdmRequest_inv (q : SpdmReq) : NextInv (execSpdmRequest q s) := by
  cases q <;> exact h

theorem execFabricRequest_inv (src : FabSrc) (tag : BitVec 16) (pa : Nat) (op : ExtOp) : NextInv (execFabricRequest src tag pa op s) :=
  h.fabricIn _ _ _ _ _

theorem execFabricUnreachableTimeout_inv (l : LostDev) : NextInv (execFabricUnreachableTimeout l s) := State.Inv.ite h h

theorem execFabricDomainFormation_inv (dev : BitVec 12) (dom : Domain) : NextInv (execFabricDomainFormation dev dom s) :=
  State.Inv.ite h h

theorem execManagementCoreAccess_inv (a : CoreAddr) (op : ExtOp) : NextInv (execManagementCoreAccess a op s) := by
  unfold execManagementCoreAccess
  extract_lets d pa n rvs
  split
  · exact h
  · split
    · exact State.Inv.ite (h.of_mem (by simp)) (h.extPerform _ _ _ _)
    · split
      · cases op with
        | write bs => exact writeSpace_inv h _ _ _
        | _ => exact h
      · exact State.Inv.of_mem h (by simp)

end
end Sys2Proof.Machine
end

