-- ==== Sys2Proof/Proofs/CanonicalStep.lean ====
section
/-! SUPPORT. Every instruction and event, and every step, keeps memory in its canonical form. -/

namespace Sys2Proof.Machine

open Sys2Proof

section
variable {s : State} (h : s.Inv)
include h

theorem crossLane_inv (o : Opc) (f : FForm) (g : Lanes → Ctx → Thread → LaneOut) : NextInv (crossLane o f g s) := by
  refine runRow_inv h (fun c hc => ?_)
  have hl := lanes_inv (g (c.lanesOf f)) c hc
  dsimp only
  cases e : lanes (g (c.lanesOf f)) c <;> rw [e] at hl <;> exact hl

end

/-- Whatever an instruction or event comes to, memory stays in its canonical form: most write no memory at all, and the rest write it
through the operations above. -/
theorem exec_inv {s : State} (h : s.Inv) (i : Instr) : NextInv (exec i s) := by
  cases i with
  | nop f | yield f => exact runRU_inv h (fun _ hc => hc) (fun _ hc => hc)
  | skip k | bra k | exit f =>
    refine runRU_inv h (fun c hc => ?_) (fun c hc => ?_)
    · exact hc
    · exact hc
  | join f =>
    refine runRow_inv h (fun c hc => ?_)
    exact hc
  | sr k | qcnt f | recget f | pand f | por f | pxor f | pnot f => exact runRU_inv h (lanes_inv _) (uWrites_inv _)
  | smov f | sli k | sadd f | ssub f | smul f | smulh f | sand f | sor f | sxor f | snot f | sshl f | sshr f | ssar f | smin f | smax f
  | scmp f | ssel f | sbfe f | sbfi f | sclz f | spopc f =>
    exact runRU_inv h (perRow_inv _ _) (uWrites_inv _)
  | sldt f => exact runRU_inv h (perRow_inv _ _) (uWrites_inv _)
  | vmov f | vli k | vbcs f | vadd f | vsub f | vmul f | vmulh f | vmad f | vabs f | vneg f | vmin f | vmax f | vand f | vor f | vxor f
  | vnot f | vandn f | vshl f | vshr f | vsar f | vrol f | vclz f | vctz f | vpopc f | vbrev f | vbfe f | vbfi f | vcmp f | vsel f
  | vdot4 f | vtag f | pset f | pget f | vfadd f | vfsub f | vfmul f | vffma f | vfmin f | vfmax f
  | vfabs f | vfneg f | vfcmp f | vfclass f | vfrnd f | vrcp f | vrsq f | vsqrt f | vdiv f | vexp2 f | vlog2 f | vsinpi f | vcospi f
  | vcvt f | vpack f | vunpk f | vscl f | vfdot2 f | vpfma f | vpfadd f | vpfmul f | rqget f | rsvupd f | rsvmrg f | rsvnorm f | rng f =>
    exact runRow_inv h (lanes_inv _)
  | vshfl f | vbcast f | vred f | vscan f | vmatch f | vcompact f | vballot f | vvote f | vrank f | vfirst f =>
    dsimp only [exec, execVshfl, execVbcast, execVred, execVscan, execVmatch, execVcompact, execVballot, execVvote, execVrank, execVfirst]
    exact crossLane_inv h _ _ _
  | ldt f | ldp f => exact runRow_inv h (localLoad_inv _ _)
  | stt f | stp f => exact runRow_inv h (localStore_inv _ _)
  | atom f | cas f => exact runRow_inv h (globalAtomic_inv _ _ _ _)
  | atomt f | atomp f | cast f => exact runRow_inv h (localAtomic_inv _ _ _ _ _)
  | bcp f | btile f | bgat f | bsct f | bred f | bfill f => exact barrowCmd_inv h _ _ _
  | bwait f | bpoll f => exact runRU_inv h (chitRow_inv _ _) (chitU_inv _ _)
  | drlld f | drlend f | drlsave f | drlrst f => exact runRow_inv h (fun c hc => arriveAll_inv _ _ _ _ _ c hc)
  | launch f => exact runRU_inv h (launchRow_inv _) (launchU_inv _)
  | mnop f => exact runM_inv h (fun _ hc => hc)
  | mli k | madd f | msr f => exact runM_inv h (mSelf_inv _)
  | mma f | mmak f | mscout f =>
    dsimp only [exec, execMma, execMmak, execMscout]
    exact mulOp_inv h _ _ _ _ _ _
  | arrayOpComplete team array | launchDeadlineExpiry team | batchTimeout lid node | overCurrentClamp | overCurrentClampRelease =>
    exact h
  | brx f => exact execBrx_inv h _
  | call k => exact execCall_inv h _
  | ret f => exact execRet_inv h _
  | wait k => exact execWait_inv h _
  | brk k => exact execBrk_inv h _
  | trap k => exact execTrap_inv h _
  | srw k => exact execSrw_inv h _
  | fresume f => exact execFresume_inv h _
  | sysc k => exact execSysc_inv h _
  | slk k => exact execSlk_inv h _
  | sldc f => exact execSldc_inv h _
  | sld f => exact execSld_inv h _
  | sst f => exact execSst_inv h _
  | sstt f => exact execSstt_inv h _
  | vlk k => exact execVlk_inv h _
  | ld f => exact execLd_inv h _
  | st f => exact execSt_inv h _
  | fe f => exact execFe_inv h _
  | fence f => exact execFence_inv h _
  | pref f => exact execPref_inv h _
  | cinv f => exact execCinv_inv h _
  | fetch f => exact execFetch_inv h _
  | rdvinit f => exact execRdvinit_inv h _
  | rdvarr f => exact execRdvarr_inv h _
  | rdvwait f => exact execRdvwait_inv h _
  | rdvtest f => exact execRdvtest_inv h _
  | qpush f => exact execQpush_inv h _
  | qpop f => exact execQpop_inv h _
  | qtry f => exact execQtry_inv h _
  | rqbegin f => exact execRqbegin_inv h _
  | rqstep f => exact execRqstep_inv h _
  | rqcommit f => exact execRqcommit_inv h _
  | rqskip f => exact execRqskip_inv h _
  | rqresume f => exact execRqresume_inv h _
  | rqsave f => exact execRqsave_inv h _
  | rqload f => exact execRqload_inv h _
  | rtvis f => exact execRtvis_inv h _
  | rsvld f => exact execRsvld_inv h _
  | rsvst f => exact execRsvst_inv h _
  | ltw f => exact execLtw_inv h _
  | drlnext f => exact execDrlnext_inv h _
  | drlred f => exact execDrlred_inv h _
  | graft f => exact execGraft_inv h _
  | gftflush f => exact execGftflush_inv h _
  | mrg f => exact execMrg_inv h _
  | glean f => exact execGlean_inv h _
  | emit f => exact execEmit_inv h _
  | mbra k => exact execMbra_inv h _
  | mloop k => exact execMloop_inv h _
  | mend f => exact execMend_inv h f
  | mqpop f => exact execMqpop_inv h _
  | marr f => exact execMarr_inv h _
  | mwait f => exact execMwait_inv h _
  | mleave f => exact execMleave_inv h _
  | mwb f => exact execMwb_inv h _
  | mast f => exact execMast_inv h _
  | mzero f => exact execMzero_inv h _
  | mscl f => exact execMscl_inv h _
  | mmasp f => exact execMmasp_inv h _
  | msieve f => exact execMsieve_inv h _
  | mmaskld f => exact execMmaskld_inv h _
  | mdrain f => exact execMdrain_inv h _
  | mcvt f => exact execMcvt_inv h _
  | mfence f => exact execMfence_inv h _
  | longLatencyComplete op => exact execLongLatencyComplete_inv h _
  | waitEnd p => exact execWaitEnd_inv h _
  | mdrainGranuleWrite op => exact execMdrainGranuleWrite_inv h _
  | barrowBlock op => exact execBarrowBlock_inv h _
  | sequencedReducingCopy op => exact execSequencedReducingCopy_inv h _
  | gleanerPass op => exact execGleanerPass_inv h _
  | reportRecordWrite n => exact execReportRecordWrite_inv h _
  | continuationEntry team fid => exact execContinuationEntry_inv h _ _
  | handlerWindowAssign team => exact execHandlerWindowAssign_inv h _
  | handlerWindowTimeout die w => exact execHandlerWindowTimeout_inv h _ _
  | recordAccept pitch pool => exact execRecordAccept_inv h _ _
  | launchReady lid => exact execLaunchReady_inv h _
  | teamDispatch die slot => exact execTeamDispatch_inv h _ _
  | teamRetire team => exact execTeamRetire_inv h _
  | preemptSave lid die core0 ncore => exact execPreemptSave_inv h _ _ _ _
  | teamRestore team die core => exact execTeamRestore_inv h _ _ _
  | preemptDeadlineExpiry team => exact execPreemptDeadlineExpiry_inv h _
  | weighbridgeGrant req => exact execWeighbridgeGrant_inv h _
  | invalidationDone pitch => exact execInvalidationDone_inv h _
  | crateConversionDone pitch => exact execCrateConversionDone_inv h _
  | rvsResize die => exact execRvsResize_inv h _
  | frameScrubDone frame => exact execFrameScrubDone_inv h _
  | purgeDone part => exact execPurgeDone_inv h _
  | ckptStreamDone ok => exact execCkptStreamDone_inv h _
  | stepWaitTimeout die w => exact execStepWaitTimeout_inv h _ _
  | handlerFailure die w => exact execHandlerFailure_inv h _ _
  | bindRecordWrite die slot rec => exact execBindRecordWrite_inv h _ _ _
  | preemptBoundary lid die core0 ncore => exact execPreemptBoundary_inv h _ _ _ _
  | registerWrite by_ addr op => exact execRegisterWrite_inv h _ _ _
  | hostBar2Access by_ off op => exact execHostBar2Access_inv h _ _ _
  | pageRequestResponse pitch fseq ok => exact execPageRequestResponse_inv h _ _ _
  | managementCoreAccess at_ op => exact execManagementCoreAccess_inv h _ _
  | readf die w a0 => exact execReadf_inv h _ _ _
  | readt die w a0 a1 => exact execReadt_inv h _ _ _ _
  | writet die w a0 a1 a2 => exact execWritet_inv h _ _ _ _ _
  | reads die w a0 => exact execReads_inv h _ _ _
  | step die w a0 => exact execStep_inv h _ _ _
  | resume die w => exact execResume_inv h _ _
  | kill die w a0 => exact execKill_inv h _ _ _
  | halt die w launch team => exact execHalt_inv h _ _ _ _
  | uncorrectableError at_ => exact execUncorrectableError_inv h _
  | arbiterGrant inst reqs => exact execArbiterGrant_inv h _ _
  | sigok pitch fseq => exact execSigok_inv h _ _
  | sigfail pitch fseq => exact execSigfail_inv h _ _
  | invalPage pitch va => exact execInvalPage_inv h _ _
  | invalPitch pitch => exact execInvalPitch_inv h _
  | czctl pitch val => exact execCzctl_inv h _ _
  | rvsways die val => exact execRvsways_inv h _ _
  | frameEntry frame val => exact execFrameEntry_inv h _ _
  | refill pitch inst refill depth => exact execRefill_inv h _ _ _ _
  | svcreply die reply => exact execSvcreply_inv h _ _
  | modereq val => exact execModereq_inv h _
  | partreset part => exact execPartreset_inv h _
  | flr pitch => exact execFlr_inv h _
  | dieOffline val => exact execDieOffline_inv h _
  | dieOnline val imgs => exact execDieOnline_inv h _ _
  | ckpt val => exact execCkpt_inv h _
  | packageReset imgs => exact execPackageReset_inv h _
  | spdmRequest req => exact execSpdmRequest_inv h _
  | fabricRequest src ftag pa op => exact execFabricRequest_inv h _ _ _ _
  | fabricUnreachableTimeout lost => exact execFabricUnreachableTimeout_inv h _
  | fabricDomainFormation dev domain => exact execFabricDomainFormation_inv h _ _
  | bucketPeriod => exact execBucketPeriod_inv h
  | weighbridgeWindow => exact execWeighbridgeWindow_inv h
  | modeDrainDeadline => exact execModeDrainDeadline_inv h
  | dieEvacuationDone => exact execDieEvacuationDone_inv h
  | ckptQuiesceDeadline => exact execCkptQuiesceDeadline_inv h

/-! ### A turn -/

/-- The state with which a party goes on, or which stays. -/
def Prepared.state : Prepared → State
  | .run _ s | .stay s => s

/-- To bring a party to its next instruction reads memory and does not write it. -/
theorem prepare_mem (s : State) (p : Party) : (prepare s p).state.mem = s.mem := by
  unfold prepare
  split
  · rfl
  · split
    · rfl
    · extract_lets atInstr
      have instr_mem (s : State) (c : Cursor) : (atInstr s c).state.mem = s.mem := by
        dsimp only [atInstr]
        split
        · rfl
        · split
          · split
            · exact State.setTeam_mem _ _ _
            · rfl
          · rfl
      split
      · exact instr_mem _ _
      · split
        · exact (instr_mem _ _).trans (State.setTeam_mem _ _ _)
        · simp [Prepared.state]
        · simp [Prepared.state]
        · rfl

theorem State.issue_mem {s t : State} {p : Party} {i : Instr} (e : s.issue p i = some t) : t.mem = s.mem := by
  unfold State.issue at e
  split at e
  · dsimp only at e
    split at e
    · cases e
      rfl
    · split at e <;> cases e
      exact State.foldl_mem (fun s x => s.setArbiter_mem _ _) _ _
  · cases e
    rfl

theorem clockOn_inv {r : Host.Outcome State Fault Refusal} (h : NextInv r) : NextInv (clockOn r) := by
  cases r with
  | next s => exact State.Inv.of_mem h s.turnClock_mem
  | _ => trivial

theorem runTurn_inv {s : State} (h : s.Inv) (t : Turn) : NextInv (runTurn t s) := by
  unfold runTurn
  split
  · exact h
  · cases t with
    | event i =>
      dsimp only
      split
      · exact h
      · exact exec_inv (s := { s with cur := none }) h i
    | party p =>
      have hp := (h.actDue (partyUid p)).of_mem (prepare_mem _ p)
      dsimp only
      split <;> rename_i e <;> rw [e] at hp
      · split
        · rename_i s2 e2
          have h2 := State.Inv.of_mem hp (State.issue_mem e2)
          exact exec_inv (s := { s2 with cur := some p }) h2 _
        · exact hp
      · exact hp

theorem step_inv {s : State} (h : s.Inv) : NextInv (step s) := by
  unfold step
  split
  · exact clockOn_inv (runTurn_inv (s := { s.expireAll with agenda := _ }) h _)
  · split
    · exact clockOn_inv (runTurn_inv (s := { s.expireAll with turn := s.turn + 1 }) h _)
    · exact h

/-- Settles O35: memory is written by `State.writeBytes`, by the clearing and copying of ranges, and by the package reset, each of which
keeps the canonical form; `exec_inv` brings every instruction and event to those. -/
theorem stepKeepsInvariant : Obligations.StepKeepsInvariant := by
  unfold Obligations.StepKeepsInvariant
  intro s t h e
  have hn := step_inv h
  rw [e] at hn
  exact hn

end Sys2Proof.Machine
end

