-- ==== Sys2Proof/Proofs/Storage.lean ====
section
/-! SUPPORT. What the stores of the state read back: bytes, vector registers, predicates, s registers, m and k registers. -/

namespace Sys2Proof.Machine

open Sys2Proof

/-! ### Bytes -/

theorem State.bytes_eq_map (s : State) (k n : Nat) : s.bytes k n = (List.range n).map (fun j => s.byte (k + j)) := by
  induction n generalizing k with
  | zero => rfl
  | succ n ih => simp [State.bytes, ih, List.range_succ_eq_map, Nat.add_right_comm, Nat.add_assoc]

theorem Team.bytes_eq_map (t : Team) (k n : Nat) : t.bytes k n = (List.range n).map (fun j => t.byte (k + j)) := by
  induction n generalizing k with
  | zero => rfl
  | succ n ih => simp [Team.bytes, ih, List.range_succ_eq_map, Nat.add_right_comm, Nat.add_assoc]

/-- A list is the list of what a function reads at its places. -/
theorem map_range_eq_of_getElem {α : Type} {f : Nat → α} (l : List α) (h : ∀ j (hj : j < l.length), f j = l[j]) :
    (List.range l.length).map f = l :=
  List.ext_getElem (by simp) (fun j _ hj => by simp [h j hj])

theorem State.bytes_writeBytes (s : State) (k : Nat) (bs : List Byte) : (s.writeBytes k bs).bytes k bs.length = bs := by
  rw [State.bytes_eq_map]
  exact map_range_eq_of_getElem bs (s.byte_writeBytes k bs)

theorem Team.bytes_writeBytes (t : Team) (k : Nat) (bs : List Byte) : (t.writeBytes k bs).bytes k bs.length = bs := by
  rw [Team.bytes_eq_map]
  exact map_range_eq_of_getElem bs (t.byte_writeBytes k bs)

/-! ### Predicates -/

/-- A write of a predicate sets its bit and no other. -/
theorem getLsbD_setPred (p : BitVec 7) {n m : Nat} (b : Bool) (hn : n < 7) (hm : m < 7) :
    (setPred p n b).getLsbD m = if m = n then b else p.getLsbD m := by
  have hbit : (BitVec.ofNat 7 (2 ^ n)).getLsbD m = decide (m = n) := by
    rw [BitVec.getLsbD_ofNat, Nat.testBit_two_pow, decide_eq_true hm, Bool.true_and]
    exact decide_eq_decide.2 eq_comm
  unfold setPred
  cases b
  · simp only [hn, if_true, Bool.false_eq_true, if_false, BitVec.getLsbD_and, BitVec.getLsbD_not, hbit, hm]
    by_cases e : m = n <;> simp [e]
  · simp only [hn, if_true, BitVec.getLsbD_or, hbit]
    by_cases e : m = n <;> simp [e]

/-- p7 reads true whatever is written (R161). -/
theorem predOf_setPred (p : BitVec 7) {n m : Nat} (b : Bool) (hn : n < 7) (hm : m < 8) :
    predOf (setPred p n b) m = if m = n then b else predOf p m := by
  unfold predOf
  by_cases e : m = 7
  · simp [e, show 7 ≠ n by omega]
  · rw [if_neg e, if_neg e, getLsbD_setPred p b hn (by omega)]

/-! ### Registers -/

namespace Thread

variable (h : Thread)

theorem reg_setReg (n m : Nat) (x : VReg) : (h.setReg n x).reg m = if m = n then x else h.reg m := FMap.get_set _ _ _ _ _

theorem put_vreg {n : Nat} (v : DWord) (g : Tag) (hn : n < 120) : h.put ⟨n, v, g⟩ = h.setReg n ⟨v.truncate 32, g⟩ := if_pos hn

theorem put_pred {n : Nat} (v : DWord) (g : Tag) (hn : n < 7) : h.put ⟨128 + n, v, g⟩ = { h with p := setPred h.p n (v.getLsbD 0) } := by
  unfold put
  rw [if_neg (by dsimp only; omega), if_pos ⟨Nat.le_add_right 128 n, by dsimp only; omega⟩, Nat.add_sub_cancel_left]

theorem put_vz (v : DWord) (g : Tag) : h.put ⟨120, v, g⟩ = h := by simp [put]

theorem put_p7 (v : DWord) (g : Tag) : h.put ⟨135, v, g⟩ = h := by simp [put, setPred]

end Thread

/-- The s registers of all home rows stand at keys of their own. -/
theorem Team.sreg_setSreg (t : Team) {row n r m : Nat} (v : DWord) (hn : n < 64) (hm : m < 64) :
    (t.setSreg row n v).sreg r m = if r = row ∧ m = n then v else t.sreg r m := by
  have key : 64 * r + m = 64 * row + n ↔ r = row ∧ m = n := by omega
  unfold Team.setSreg Team.sreg
  rw [if_pos hn, if_neg (Nat.ne_of_lt hm), if_neg (Nat.ne_of_lt hm), FMap.get_set]
  simp only [key]

theorem UStream.sreg_setSreg (u : UStream) {n m : Nat} (v : DWord) (hn : n < 64) (hm : m < 64) :
    (u.setSreg n v).sreg m = if m = n then v else u.sreg m := by
  unfold UStream.setSreg UStream.sreg
  rw [if_pos hn, if_neg (Nat.ne_of_lt hm), if_neg (Nat.ne_of_lt hm), FMap.get_set]

theorem MStream.mreg_setM (x : MStream) {n m : Nat} (v : Word) (hn : n < 16) (hm : m < 16) :
    (x.setM n v).mreg m = if m = n then v else x.mreg m := by
  unfold MStream.setM MStream.mreg
  rw [if_pos hn, if_pos hm, if_pos hm, FMap.get_set]

theorem MStream.kreg_setK (x : MStream) {n m : Nat} (k : BitVec 256) (hn : 16 ≤ n) (hm : 16 ≤ m) :
    (x.setK n k).kreg m = if m = n then k else x.kreg m := by
  have key : m - 16 = n - 16 ↔ m = n := by omega
  unfold MStream.setK MStream.kreg
  rw [FMap.get_set]
  simp only [key]

/-- Settles O45: each store of the state is a finite map that reads back what is set, and the keys of two different places differ. -/
theorem storageReads : Obligations.StorageReads := by
  refine ⟨fun s k bs => ?_, fun t k bs => ?_, fun h n v g => ?_, fun t row n v => ?_, fun u n v => ?_, fun x n v k => ?_⟩
  · exact ⟨s.bytes_writeBytes k bs, s.byte_writeBytes_other k bs, fun h => h.writeBytes k bs⟩
  · exact ⟨t.bytes_writeBytes k bs, t.byte_writeBytes_other k bs⟩
  · refine ⟨fun hn m => ?_, fun hn m hm => ?_, h.put_vz v g, h.put_p7 v g⟩
    · rw [h.put_vreg v g hn, h.reg_setReg]
    · rw [h.put_pred v g hn]
      exact predOf_setPred h.p _ hn hm
  · exact ⟨fun hn r m hm => t.sreg_setSreg v hn hm, rfl, rfl⟩
  · exact ⟨fun hn m hm => u.sreg_setSreg v hn hm, rfl, rfl⟩
  · exact ⟨fun hn m hm => x.mreg_setM v hn hm, rfl, rfl, fun hn _ m hm _ => x.kreg_setK k hn hm⟩

end Sys2Proof.Machine
end
